-- ==== Sys2Proof/Word.lean ====
section
/-! DEFINITION. The word types of the CORE block: bytes, 64-bit registers, window positions and Huffman node ids. -/

namespace Sys2Proof

/-- One byte (20_memory.md R92: every access moves one byte). -/
abbrev Byte := BitVec 8

/-- A host-visible register (10_state.md R60: all 64 bits wide). -/
abbrev Word := BitVec 64

/-- A window position, M = 12 bits (00_scope.md R10). Adding to it wraps modulo W. -/
abbrev Pos := BitVec 12

/-- A Huffman node id, 9 bits (10_state.md R41): 0..255 leaves, 256..510 internal nodes, 511 = NIL (00_scope.md R23). -/
abbrev HId := BitVec 9

/-- A dictionary link: a position, or `none` for NIL (00_scope.md R23, log 19). -/
abbrev Link := Option Pos

/-- A position is below W = 4096. -/
theorem Pos.lt (p : Pos) : p.toNat < 4096 := p.isLt

/-- A byte is below 256. -/
theorem Byte.lt (b : Byte) : b.toNat < 256 := b.isLt

end Sys2Proof
end

