-- ==== Sys2Proof/Machine/Units.lean ====
section
/-! DEFINITION. The unit state of 10_state.md sections 1, 2, 4, 5 and 6: what a fault during execution leaves unspecified (60_exceptions.md R371). -/

namespace Sys2Proof.Machine

/-- A byte memory: the cells written so far, addresses strictly rising. An address that is not listed holds no
written byte (`Memory.get` answers `none`). -/
abbrev Memory := List Host.Cell

/-- Where the tree parser of 42_huffman.md R240 stands: the internal node whose left or right child comes next.
93_implementation_defined.md U11 leaves the recursion stack to the model (log 15). -/
inductive ParseFrame where
  /-- LEFT_H[t] is still to be parsed. -/
  | left (t : HId)
  /-- LEFT_H[t] is parsed, RIGHT_H[t] is still to be parsed. -/
  | right (t : HId)
  deriving DecidableEq, Repr, Inhabited

/-- Every register and table of the ten units, under the spec's names. -/
structure Units where
  /-- WPB, pendingWriteByte (10_state.md R31). -/
  wpb : Byte
  /-- WFREE, freeWriteBitCount, 1..8 between commands (10_state.md R31). -/
  wfree : BitVec 4
  /-- RPB, pendingReadByte (10_state.md R33). -/
  rpb : Byte
  /-- RCNT, pendingReadBitCount, 0..7 between commands (10_state.md R33). -/
  rcnt : BitVec 4
  /-- DCUR, the LZSS decoder's cursor (10_state.md R37). -/
  dcur : Pos
  /-- LDEND, the end token has been decoded (10_state.md R37). -/
  ldend : Bool
  /-- WEIGHT[0..255] (10_state.md R40). -/
  weight : Vector Word 256
  /-- LEFT_H[256..510], entry t at index t - 256 (10_state.md R41). -/
  leftH : Vector HId 255
  /-- RIGHT_H[256..510] (10_state.md R41). -/
  rightH : Vector HId 255
  /-- NWEIGHT[256..510] (10_state.md R41). -/
  nweight : Vector Word 255
  /-- NEXT_H, the id the next internal node gets (10_state.md R41). -/
  nextH : BitVec 10
  /-- ROOT_H, a node id or NIL = 511 (10_state.md R41). -/
  rootH : HId
  /-- PQ, the priority structure; empty between commands (10_state.md R42, log 21). -/
  pq : List HId
  /-- CODE[0..255] (10_state.md R43). -/
  code : Vector (BitVec 255) 256
  /-- CLEN[0..255] (10_state.md R43). -/
  clen : Vector (BitVec 8) 256
  /-- CVALID[0..255] (10_state.md R43). -/
  cvalid : Vector Bool 256
  /-- WINDOW with its WRITTEN marks: slot k is listed exactly when WRITTEN[k] = 1 (10_state.md R45, log 4). -/
  window : Memory
  /-- ROOTS[0..255] (10_state.md R46). -/
  roots : Vector Link 256
  /-- PARENT[0..W-1] (10_state.md R46). -/
  parent : Vector Link 4096
  /-- LEFT_D[0..W-1] (10_state.md R46). -/
  leftD : Vector Link 4096
  /-- RIGHT_D[0..W-1] (10_state.md R46). -/
  rightD : Vector Link 4096
  /-- MEMBER[0..W-1] (10_state.md R46). -/
  member : Vector Bool 4096
  /-- LCUR, the LZSS encoder's cursor (10_state.md R48). -/
  lcur : Pos
  /-- LLOOK, the lookahead length, 0..MAX (10_state.md R48). -/
  llook : Nat
  /-- LSKIP, positions still to skip, 0..MAX-1 (10_state.md R48). -/
  lskip : Nat
  /-- LEOF, the source has reported end-of-data (10_state.md R48). -/
  leof : Bool
  /-- The model's own: the open internal nodes of the tree being parsed, innermost first (log 15). -/
  parseStack : List ParseFrame
  /-- The model's own: the count parsed so far, n of 42_huffman.md R241 (log 15). -/
  cntAcc : Word
  /-- The model's own: the index g of the next count group, 42_huffman.md R241 (log 15). -/
  cntIdx : Nat
  /-- The model's own: the stop bit of the last count group was 1, 42_huffman.md R241 (log 15). -/
  cntDone : Bool
  deriving DecidableEq, Repr, Inhabited

/-- NIL of the Huffman pointers: 511 (00_scope.md R23). -/
def nilH : HId := 511

/-- The unit state after power-on (10_state.md R70). LEFT_H, RIGHT_H, NWEIGHT, CODE and CLEN have no value in the
spec: DESIGN CHOICE 0 (log 3). -/
def Units.powerOn : Units where
  wpb := 0
  wfree := 8
  rpb := 0
  rcnt := 0
  dcur := 0
  ldend := false
  weight := Vector.replicate 256 0
  leftH := Vector.replicate 255 0
  rightH := Vector.replicate 255 0
  nweight := Vector.replicate 255 0
  nextH := 256
  rootH := nilH
  pq := []
  code := Vector.replicate 256 0
  clen := Vector.replicate 256 0
  cvalid := Vector.replicate 256 false
  window := []
  roots := Vector.replicate 256 none
  parent := Vector.replicate 4096 none
  leftD := Vector.replicate 4096 none
  rightD := Vector.replicate 4096 none
  member := Vector.replicate 4096 false
  lcur := 0
  llook := 0
  lskip := 0
  leof := false
  parseStack := []
  cntAcc := 0
  cntIdx := 0
  cntDone := false

end Sys2Proof.Machine
end

