-- ==== Sys2Proof/Config.lean ====
section
/-! DEFINITION. What is fixed for one build of the block: the parameters of 00_scope.md section 4, and the free values the spec leaves open. -/

namespace Sys2Proof.Config

/-- M, bits of a window position (00_scope.md R10). -/
def M : Nat := 12

/-- W = 2^M, the window size in bytes (00_scope.md R10). -/
def W : Nat := 4096

/-- VW, the bit port's width (00_scope.md R13). -/
def VW : Nat := 32

/-- The longest Huffman code in bits (00_scope.md R16). -/
def maxCode : Nat := 255

/-- The parameters the spec leaves open (00_scope.md R11, R15; 93_implementation_defined.md I2, I3): the model takes
them as arguments, carried in State and changed by no step (log 7). -/
structure Params where
  /-- LZ_N, the width of the length field. -/
  lzN : Nat
  /-- SRC_SIZE, bytes of the source memory. -/
  srcSize : Nat
  /-- OUT_SIZE, bytes of the sink memory. -/
  outSize : Nat
  deriving DecidableEq, Repr

/-- MIN_WORD_LENGTH = ceil((1 + M + LZ_N) / 9) (00_scope.md R11). -/
def Params.minLen (P : Params) : Nat := (1 + M + P.lzN + 8) / 9

/-- MAX_WORD_LENGTH = MIN + (2^LZ_N - 1) (00_scope.md R12). -/
def Params.maxLen (P : Params) : Nat := P.minLen + (2 ^ P.lzN - 1)

/-- The number of window slots, W + MAX (10_state.md R45). -/
def Params.slots (P : Params) : Nat := W + P.maxLen

/-- The parameter values the spec admits: LZ_N in 1..11 (R12), memory sizes in 1..2^64 - 1 (R15). -/
abbrev Params.wf (P : Params) : Prop :=
  (1 ≤ P.lzN ∧ P.lzN ≤ 11) ∧ (1 ≤ P.srcSize ∧ P.srcSize < 2 ^ 64) ∧ (1 ≤ P.outSize ∧ P.outSize < 2 ^ 64)

/-- The parameters of State.reset: LZ_N = 4 is the spec's default (R11); the memory sizes are OPEN in the spec:
DESIGN CHOICE the largest it admits (log 7). -/
def Params.default : Params := { lzN := 4, srcSize := 2 ^ 64 - 1, outSize := 2 ^ 64 - 1 }

/-- The unit state after the n-th unspecified event: a fault during execution, or BLK.RESET for the items it leaves
unspecified (60_exceptions.md R371, 10_state.md R70; 93_implementation_defined.md U1, U5). A free value (log 1, log 2). -/
opaque freeUnits : Nat → Machine.Units

/-- RES0 and RES1 after the n-th unspecified event (10_state.md R63; 93_implementation_defined.md U4). A free value (log 1). -/
opaque freeResult : Nat → Word × Word

/-- SRC[k] when nothing has written it: a free value (log 5). -/
opaque srcPowerOn : Nat → Byte

/-- OUT[k] when nothing has written it: a free value (93_implementation_defined.md U3, log 5). -/
opaque outPowerOn : Nat → Byte

end Sys2Proof.Config
end

