-- ==== Sys2Proof/Syntax.lean ====
section
/-! DEFINITION. The instructions: one constructor per row of spec/opcode_table.json. -/

namespace Sys2Proof

/-- The 30 host commands with the operands they read (30_encoding.md R121), the pseudo-instruction BSW.FLUSH (R151)
and the seven stream tokens (R131, R132, R133, R136). Operands of a command are whole 64-bit register values (R122). -/
inductive Instr where
  | blkNop
  | blkReset
  | blkStreamInit
  | bswWriteBits (value count flush : Word)
  | bsrReadBits (count refresh : Word)
  | htbClearWeights
  | htbCountByte (byte : Word)
  | htbBuildTree
  | htbDeriveCodes
  | hencEncode
  | hencEmitTree
  | hencEmitCount (n : Word)
  | hencEmitCode (byte : Word)
  | hdecDecode
  | hdecParseTree
  | hdecParseCount
  | hdecDecodeSymbol
  | winClear
  | winWrite (slot byte : Word)
  | winRead (slot : Word)
  | dictClear
  | dictRemove (position : Word)
  | mfMatchAdd (position length : Word)
  | lencEncode
  | lencEmitLiteral (byte : Word)
  | lencEmitReference (position length : Word)
  | lencEmitSentinel (position : Word)
  | ldecDecode
  | ldecDecodeToken
  | ldecInit
  /-- BSW.WRITE_BITS 0, 0, 1 (R151). -/
  | bswFlush
  /-- A leaf of byte value v (R131). -/
  | hufTreeLeaf (v : Byte)
  /-- An internal node; its left and right subtrees follow (R131). -/
  | hufTreeInternal
  /-- Eight data bits of the count and the stop bit, 1 = last group (R132). -/
  | hufCountGroup (d : Byte) (last : Bool)
  /-- One code: branch bits, the one nearest the root first; `true` goes right (R133). -/
  | hufCode (bits : List Bool)
  /-- A literal byte (R136). -/
  | lzLiteral (b : Byte)
  /-- A reference: window position p and length field e = length - MIN (R136). -/
  | lzReference (p : Pos) (e : Nat)
  /-- The end token: p equals the decoder's cursor (R137). -/
  | lzEnd (p : Pos)
  deriving DecidableEq, Repr

/-- Whether an instruction is a stream token, consumed by a decoder, rather than a host command. -/
def Instr.isToken : Instr → Bool
  | .hufTreeLeaf _ | .hufTreeInternal | .hufCountGroup _ _ | .hufCode _ => true
  | .lzLiteral _ | .lzReference _ _ | .lzEnd _ => true
  | _ => false

end Sys2Proof
end

