-- ==== Sys2Proof/WellFormed.lean ====
section
/-! DEFINITION. Which terms of Instr stand for an encodable instruction. -/

namespace Sys2Proof

/-- A command with any 64-bit operands is encodable: an operand out of range is a command that faults
ILLEGAL_OPERAND (30_encoding.md R121), not an ill-formed one. The checks: WRITE_BITS 0, 0, 1 is written BSW.FLUSH
(R151, log 11); a code has at most 255 bits (00_scope.md R16); a length field has LZ_N bits (R136, R138). -/
def wellFormed (P : Config.Params) : Instr → Bool
  | .bswWriteBits v c f => !(v == 0 && c == 0 && f == 1)
  | .hufCode bits => decide (bits.length ≤ Config.maxCode)
  | .lzReference _ e => decide (e < 2 ^ P.lzN)
  | _ => true

end Sys2Proof
end

