-- ==== Sys2Proof/Decode.lean ====
section
/-! DEFINITION. The decoders (command words; stream bits in a decoder's context), then the encoders written from the same tables of 30_encoding.md. -/

namespace Sys2Proof

/-- Why a word or a bit string is no instruction. -/
inductive Reject where
  /-- CMD[63:8] is not 0 (30_encoding.md R120). -/
  | reservedBits
  /-- CMD[7:0] is not in the opcode map (30_encoding.md R123). -/
  | illegalOpcode
  /-- The bits end before the token does (30_encoding.md R139). -/
  | truncated
  /-- A code of more than 255 bits was asked for (00_scope.md R16). -/
  | codeTooLong
  deriving DecidableEq, Repr

/-! ## Commands -/

/-- A command as the host lays it out: CMD and the operand registers as they stand at that write (R120). -/
structure CmdWords where
  cmd : Word
  arg0 : Word
  arg1 : Word
  arg2 : Word
  deriving DecidableEq, Repr

/-- Opcode 0x10: operands 0, 0, 1 are BSW.FLUSH (R151, log 11). -/
def writeBitsOf (v c f : Word) : Instr :=
  if v = 0 ∧ c = 0 ∧ f = 1 then .bswFlush else .bswWriteBits v c f

/-- One row of the opcode map: the opcode UNIT·16 + OP, and the instruction made of ARG0, ARG1, ARG2. -/
structure OpRow where
  opcode : Word
  make : Word → Word → Word → Instr

/-- The opcode map (30_encoding.md R121). -/
def opcodeMap : List OpRow :=
  [⟨0x00, fun _ _ _ => .blkNop⟩, ⟨0x01, fun _ _ _ => .blkReset⟩, ⟨0x02, fun _ _ _ => .blkStreamInit⟩,
   ⟨0x10, writeBitsOf⟩, ⟨0x20, fun c r _ => .bsrReadBits c r⟩] ++
  [⟨0x30, fun _ _ _ => .htbClearWeights⟩, ⟨0x31, fun b _ _ => .htbCountByte b⟩,
   ⟨0x32, fun _ _ _ => .htbBuildTree⟩, ⟨0x33, fun _ _ _ => .htbDeriveCodes⟩] ++
  [⟨0x40, fun _ _ _ => .hencEncode⟩, ⟨0x41, fun _ _ _ => .hencEmitTree⟩,
   ⟨0x42, fun n _ _ => .hencEmitCount n⟩, ⟨0x43, fun b _ _ => .hencEmitCode b⟩] ++
  [⟨0x50, fun _ _ _ => .hdecDecode⟩, ⟨0x51, fun _ _ _ => .hdecParseTree⟩,
   ⟨0x52, fun _ _ _ => .hdecParseCount⟩, ⟨0x53, fun _ _ _ => .hdecDecodeSymbol⟩] ++
  [⟨0x60, fun _ _ _ => .winClear⟩, ⟨0x61, fun k b _ => .winWrite k b⟩, ⟨0x62, fun k _ _ => .winRead k⟩,
   ⟨0x70, fun _ _ _ => .dictClear⟩, ⟨0x71, fun p _ _ => .dictRemove p⟩, ⟨0x80, fun p l _ => .mfMatchAdd p l⟩] ++
  [⟨0x90, fun _ _ _ => .lencEncode⟩, ⟨0x91, fun b _ _ => .lencEmitLiteral b⟩,
   ⟨0x92, fun p l _ => .lencEmitReference p l⟩, ⟨0x93, fun p _ _ => .lencEmitSentinel p⟩] ++
  [⟨0xA0, fun _ _ _ => .ldecDecode⟩, ⟨0xA1, fun _ _ _ => .ldecDecodeToken⟩, ⟨0xA2, fun _ _ _ => .ldecInit⟩]

/-- Decoding a command (30_encoding.md R120, R121, R123): total, and every other word is rejected by name. -/
def decodeCommand (w : CmdWords) : Except Reject Instr :=
  if w.cmd >>> 8 ≠ 0 then .error .reservedBits
  else match opcodeMap.find? (fun r => r.opcode == w.cmd) with
    | some r => .ok (r.make w.arg0 w.arg1 w.arg2)
    | none => .error .illegalOpcode

/-! ## Stream tokens -/

/-- What the decoder is reading (30_encoding.md R139: every bit pattern decodes, in its context). -/
inductive Ctx where
  /-- A tree node (R131). -/
  | hufTree
  /-- A count group (R132). -/
  | hufCount
  /-- A code whose length, found by walking the tree, is n (R133). -/
  | hufCode (n : Nat)
  /-- An LZSS token with length-field width N and the decoder's cursor (R136, R137). -/
  | lz (n : Nat) (cursor : Pos)
  deriving DecidableEq, Repr

/-- The field of width n at the head of a bit string, first bit lowest (00_scope.md R21), and the rest. -/
def takeField : Nat → List Bool → Option (Nat × List Bool)
  | 0, bs => some (0, bs)
  | _ + 1, [] => none
  | n + 1, b :: bs =>
    match takeField n bs with
    | some (v, rest) => some (b.toNat + 2 * v, rest)
    | none => none

/-- Decoding one token from stream bits, with what is left of them. -/
def decodeToken : Ctx → List Bool → Except Reject (Instr × List Bool)
  | .hufTree, [] => .error .truncated
  | .hufTree, false :: r => .ok (.hufTreeInternal, r)
  | .hufTree, true :: r =>
    match takeField 8 r with
    | some (v, r') => .ok (.hufTreeLeaf (BitVec.ofNat 8 v), r')
    | none => .error .truncated
  | .hufCount, bs =>
    match takeField 8 bs with
    | some (d, s :: r) => .ok (.hufCountGroup (BitVec.ofNat 8 d) s, r)
    | _ => .error .truncated
  | .hufCode n, bs =>
    if Config.maxCode < n then .error .codeTooLong
    else if bs.length < n then .error .truncated
    else .ok (.hufCode (bs.take n), bs.drop n)
  | .lz _ _, [] => .error .truncated
  | .lz _ _, true :: r =>
    match takeField 8 r with
    | some (b, r') => .ok (.lzLiteral (BitVec.ofNat 8 b), r')
    | none => .error .truncated
  | .lz n cursor, false :: r =>
    match takeField Config.M r with
    | none => .error .truncated
    | some (p, r') =>
      if BitVec.ofNat 12 p = cursor then .ok (.lzEnd cursor, r')
      else match takeField n r' with
        | some (e, r'') => .ok (.lzReference (BitVec.ofNat 12 p) e, r'')
        | none => .error .truncated

/-- The k low bits of w in stream order, bit 0 first. -/
def wordBits : Nat → Nat → List Bool
  | 0, _ => []
  | k + 1, w => (w % 2 == 1) :: wordBits k (w / 2)

/-! ## One word of the opcode table -/

/-- The context a token row's word is read in. The table gives none, so the width chooses: up to 8 bits a Huffman
tree node, up to 16 an LZSS literal or end token (its position is the cursor), up to 24 an LZSS literal or reference
(its position lies one behind the cursor). DESIGN CHOICE (log 13). -/
def tableCtx (nbits w : Nat) : Ctx :=
  if nbits ≤ 8 then .hufTree
  else if nbits ≤ 16 then .lz 4 (BitVec.ofNat 12 (w / 2))
  else .lz 4 (BitVec.ofNat 12 (w / 2) + 1)

/-- The instruction of one opcode-table word: bits 63..0 are CMD, then ARG0, ARG1, ARG2 (log 10); a row of at most
24 bits is a stream token (log 13). -/
def decodeTableWord (nbits w : Nat) : Option Instr :=
  let v := w % 2 ^ nbits
  if nbits ≤ 24 then
    match decodeToken (tableCtx nbits v) (wordBits 24 v) with
    | .ok (i, _) => some i
    | .error _ => none
  else
    match decodeCommand ⟨BitVec.ofNat 64 v, BitVec.ofNat 64 (v / 2 ^ 64), BitVec.ofNat 64 (v / 2 ^ 128),
        BitVec.ofNat 64 (v / 2 ^ 192)⟩ with
    | .ok i => some i
    | .error _ => none

/-! ## The encoders -/

/-- An encoded instruction: a command's words, or a token's bits in stream order. -/
inductive Encoded where
  | command (w : CmdWords)
  | token (bits : List Bool)
  deriving DecidableEq, Repr

/-- The words of a well-formed instruction (30_encoding.md R121, R131 to R136, R151); an operand the command does not
read is 0. -/
def encode (P : Config.Params) : Instr → Encoded
  | .blkNop => .command ⟨0x00, 0, 0, 0⟩
  | .blkReset => .command ⟨0x01, 0, 0, 0⟩
  | .blkStreamInit => .command ⟨0x02, 0, 0, 0⟩
  | .bswWriteBits v c f => .command ⟨0x10, v, c, f⟩
  | .bsrReadBits c r => .command ⟨0x20, c, r, 0⟩
  | .htbClearWeights => .command ⟨0x30, 0, 0, 0⟩
  | .htbCountByte b => .command ⟨0x31, b, 0, 0⟩
  | .htbBuildTree => .command ⟨0x32, 0, 0, 0⟩
  | .htbDeriveCodes => .command ⟨0x33, 0, 0, 0⟩
  | .hencEncode => .command ⟨0x40, 0, 0, 0⟩
  | .hencEmitTree => .command ⟨0x41, 0, 0, 0⟩
  | .hencEmitCount n => .command ⟨0x42, n, 0, 0⟩
  | .hencEmitCode b => .command ⟨0x43, b, 0, 0⟩
  | .hdecDecode => .command ⟨0x50, 0, 0, 0⟩
  | .hdecParseTree => .command ⟨0x51, 0, 0, 0⟩
  | .hdecParseCount => .command ⟨0x52, 0, 0, 0⟩
  | .hdecDecodeSymbol => .command ⟨0x53, 0, 0, 0⟩
  | .winClear => .command ⟨0x60, 0, 0, 0⟩
  | .winWrite k b => .command ⟨0x61, k, b, 0⟩
  | .winRead k => .command ⟨0x62, k, 0, 0⟩
  | .dictClear => .command ⟨0x70, 0, 0, 0⟩
  | .dictRemove p => .command ⟨0x71, p, 0, 0⟩
  | .mfMatchAdd p l => .command ⟨0x80, p, l, 0⟩
  | .lencEncode => .command ⟨0x90, 0, 0, 0⟩
  | .lencEmitLiteral b => .command ⟨0x91, b, 0, 0⟩
  | .lencEmitReference p l => .command ⟨0x92, p, l, 0⟩
  | .lencEmitSentinel p => .command ⟨0x93, p, 0, 0⟩
  | .ldecDecode => .command ⟨0xA0, 0, 0, 0⟩
  | .ldecDecodeToken => .command ⟨0xA1, 0, 0, 0⟩
  | .ldecInit => .command ⟨0xA2, 0, 0, 0⟩
  | .bswFlush => .command ⟨0x10, 0, 0, 1⟩
  | .hufTreeLeaf v => .token (true :: wordBits 8 v.toNat)
  | .hufTreeInternal => .token [false]
  | .hufCountGroup d s => .token (wordBits 8 d.toNat ++ [s])
  | .hufCode bits => .token bits
  | .lzLiteral b => .token (true :: wordBits 8 b.toNat)
  | .lzReference p e => .token (false :: (wordBits Config.M p.toNat ++ wordBits P.lzN e))
  | .lzEnd p => .token (false :: wordBits Config.M p.toNat)

/-- The contexts in which a token stands for itself: a reference's position is not the cursor, the end token's is
(30_encoding.md R136, R137). -/
def Ctx.admits (P : Config.Params) : Ctx → Instr → Bool
  | .hufTree, .hufTreeLeaf _ | .hufTree, .hufTreeInternal => true
  | .hufCount, .hufCountGroup _ _ => true
  | .hufCode n, .hufCode bits => n == bits.length
  | .lz n _, .lzLiteral _ => n == P.lzN
  | .lz n cursor, .lzReference p _ => n == P.lzN && p != cursor
  | .lz n cursor, .lzEnd p => n == P.lzN && p == cursor
  | _, _ => false

end Sys2Proof
end

