-- ==== Sys2Proof/Machine/State.lean ====
section
/-! DEFINITION. The state of the machine, its faults and refusals, and the state after power-on. -/

namespace Sys2Proof.Machine

/-- The fault codes of STATUS.FCODE (60_exceptions.md R372). Code 0 is "no fault"; 10..15 are never raised. -/
inductive FaultCode where
  | truncated
  | ioError
  | treeOverflow
  | countOverflow
  | refreshLost
  | uninitRead
  | illegalCommand
  | illegalOperand
  | stateError
  deriving DecidableEq, Repr

/-- STATUS as its four fields (10_state.md R64); its other bits read 0 and nothing writes them (log 20). -/
structure Status where
  /-- Bit 0. -/
  done : Bool
  /-- Bit 1. -/
  fault : Bool
  /-- Bits 7:4. -/
  fcode : BitVec 4
  /-- Bits 15:8. -/
  fcmd : BitVec 8
  deriving DecidableEq, Repr

/-- The host's moves between commands that change state (60_exceptions.md R400). -/
inductive HostMove where
  /-- Write register n (10_state.md R60); register 0 is CMD, whose write starts a command. -/
  | writeReg (n : BitVec 4) (v : Word)
  /-- Write SRC[k]. -/
  | writeSrc (k : Nat) (b : Byte)
  deriving DecidableEq, Repr

/-- The whole machine. -/
structure State where
  /-- LZ_N, SRC_SIZE, OUT_SIZE: the spec's open parameters; no step changes them (log 7). -/
  params : Config.Params
  /-- CMD (10_state.md R61). -/
  cmd : Word
  /-- ARG0 (10_state.md R62). -/
  arg0 : Word
  /-- ARG1 (10_state.md R62). -/
  arg1 : Word
  /-- ARG2 (10_state.md R62). -/
  arg2 : Word
  /-- RES0 (10_state.md R63). -/
  res0 : Word
  /-- RES1 (10_state.md R63). -/
  res1 : Word
  /-- STATUS (10_state.md R64). -/
  status : Status
  /-- SLEN (10_state.md R65). -/
  slen : Word
  /-- IPOS (10_state.md R66). -/
  ipos : Word
  /-- OPOS (10_state.md R67). -/
  opos : Word
  /-- OLEN (10_state.md R68). -/
  olen : Word
  /-- SRC, the byte source (20_memory.md R80). -/
  src : Memory
  /-- OUT, the byte sink (20_memory.md R80). -/
  out : Memory
  /-- The registers and tables of the ten units (10_state.md R31 to R48). -/
  u : Units
  /-- The model's own: the host's pending moves, the next one first (log 8). -/
  moves : List HostMove
  /-- The model's own: the host's pending io_ok answers, the next one first; none pending means true (log 6). -/
  io : List Bool
  /-- The model's own: how many unspecified events there have been (log 1). -/
  freeIdx : Nat
  deriving DecidableEq, Repr

/-- Stops of the model. None is a fault of the spec, whose faults are next states with STATUS.FAULT = 1. Each is
raised only where the spec's own procedure would not end or would read a table entry that does not exist, in states no
run of steps reaches (log 16). Safe: the model stops where the hardware would go on for ever. -/
inductive Fault where
  /-- HTB.BUILD_TREE, HTB.DERIVE_CODES, HENC.EMIT_TREE, HENC.ENCODE, HDEC.DECODE_SYMBOL, HDEC.DECODE or HUF.CODE met
  an HTREE that is no tree of depth at most 255 over ids 0..510. Safe. -/
  | huffmanTreeMalformed
  /-- DICT.REMOVE, MF.MATCH_ADD or LENC.ENCODE followed more than W dictionary links, or met NIL where R291 follows a
  link. Safe. -/
  | dictionaryMalformed
  /-- A loop of HENC.ENCODE, HDEC.PARSE_TREE, HDEC.PARSE_COUNT, HDEC.DECODE, LENC.ENCODE or LDEC.DECODE outlived the
  bound its source bytes set. Safe. -/
  | loopUnbounded
  deriving DecidableEq, Repr

/-- Answers without a meaning. -/
inductive Refusal where
  /-- exec: the instruction has no meaning in the model yet. Safe. -/
  | notModelled (mnemonic : String)
  /-- step: a host move that is not in the host table (93_implementation_defined.md U10, log 9): a write to RES0,
  RES1, IPOS, OPOS or OLEN, or to SRC at or beyond SRC_SIZE. Safe. -/
  | hostMoveNotInTable
  deriving DecidableEq, Repr

/-- STATUS after power-on: 0 (10_state.md R64). -/
def Status.clear : Status := { done := false, fault := false, fcode := 0, fcmd := 0 }

/-- The machine right after power-on (10_state.md R70, 70_reset_and_hazards.md R410). -/
def State.reset : State where
  params := Config.Params.default
  cmd := 0
  arg0 := 0
  arg1 := 0
  arg2 := 0
  res0 := 0
  res1 := 0
  status := Status.clear
  slen := 0
  ipos := 0
  opos := 0
  olen := 0
  src := []
  out := []
  u := Units.powerOn
  moves := []
  io := []
  freeIdx := 0

end Sys2Proof.Machine
end

