-- ==== Sys2Proof/Machine/Flags.lean ====
section
/-! DEFINITION. The status outputs: STATUS as a word, its updates, and the fault codes (10_state.md R38, R64; 60_exceptions.md R372). -/

namespace Sys2Proof.Machine

/-- The code of a fault in STATUS.FCODE (60_exceptions.md R372). -/
def FaultCode.code : FaultCode → BitVec 4
  | .truncated => 1
  | .ioError => 2
  | .treeOverflow => 3
  | .countOverflow => 4
  | .refreshLost => 5
  | .uninitRead => 6
  | .illegalCommand => 7
  | .illegalOperand => 8
  | .stateError => 9

/-- STATUS as the host reads it (10_state.md R64): DONE bit 0, FAULT bit 1, FCODE bits 7:4, FCMD bits 15:8, the rest 0. -/
def Status.word (t : Status) : Word :=
  BitVec.ofNat 64 (t.done.toNat + 2 * t.fault.toNat + 16 * t.fcode.toNat + 256 * t.fcmd.toNat)

/-- STATUS.DONE <- 0 at the start of a command (40_block_control.md R160). -/
def Status.begin (t : Status) : Status := { t with done := false }

/-- STATUS.DONE <- 1 at a command's successful end (40_block_control.md R160). -/
def Status.complete (t : Status) : Status := { t with done := true }

/-- FaultEntry's four writes (60_exceptions.md R371). -/
def Status.enterFault (c : FaultCode) (op : BitVec 8) (t : Status) : Status :=
  { t with fault := true, fcode := c.code, fcmd := op, done := false }

end Sys2Proof.Machine
end

