-- ==== Sys2Proof/Machine/Operands.lean ====
section
/-! DEFINITION. Operand ranges, checked on the whole 64-bit register (30_encoding.md R121, R122; 60_exceptions.md R379). -/

namespace Sys2Proof.Machine

/-- A bit count: 0..32 (00_scope.md R13). -/
def isCount (w : Word) : Bool := decide (w.toNat ≤ Config.VW)

/-- A flag: exactly 0 or 1 (30_encoding.md R122). -/
def isFlag (w : Word) : Bool := decide (w.toNat ≤ 1)

/-- A byte: 0..255. -/
def isByte (w : Word) : Bool := decide (w.toNat < 256)

/-- A window position: 0..W-1. -/
def isPosition (w : Word) : Bool := decide (w.toNat < Config.W)

/-- A window slot that WIN.READ may name: 0..W+MAX-1. -/
def isSlot (P : Config.Params) (w : Word) : Bool := decide (w.toNat < P.slots)

/-- A MATCH_ADD length: 1..MAX. -/
def isMatchLength (P : Config.Params) (w : Word) : Bool := decide (1 ≤ w.toNat) && decide (w.toNat ≤ P.maxLen)

/-- A reference length: MIN..MAX. -/
def isRefLength (P : Config.Params) (w : Word) : Bool := decide (P.minLen ≤ w.toNat) && decide (w.toNat ≤ P.maxLen)

/-- The low byte of a register. -/
def lowByte (w : Word) : Byte := w.setWidth 8

/-- The low M bits of a register. -/
def lowPos (w : Word) : Pos := w.setWidth 12

/-- The check fault of a command: ILLEGAL_OPERAND unless every operand is in its range, then STATE_ERROR if the
precondition fails (60_exceptions.md R381, R380). -/
def checkFault (operandsOk preOk : Bool) : Option FaultCode :=
  if !operandsOk then some .illegalOperand
  else if !preOk then some .stateError
  else none

end Sys2Proof.Machine
end

