-- ==== Sys2Proof/Machine/Ops.lean ====
section
/-! DEFINITION. The named operations: byte memories, the pseudocode's primitives (00_scope.md R24), raising a fault and fault entry, and the frame every command runs in (40_block_control.md R160). -/

namespace Sys2Proof.Machine

/-! ## Byte memories -/

/-- The canonical form: addresses strictly rising. -/
abbrev Memory.wf (m : Memory) : Prop := (m.map Prod.fst).Pairwise (· < ·)

/-- The byte written at an address; `none` where nothing is listed. -/
def Memory.get : Memory → Nat → Option Byte
  | [], _ => none
  | (k, v) :: rest, a => if k = a then some v else Memory.get rest a

/-- Writing one byte keeps the addresses strictly rising. -/
def Memory.write : Memory → Nat → Byte → Memory
  | [], a, b => [(a, b)]
  | (k, v) :: rest, a, b =>
    if a < k then (a, b) :: (k, v) :: rest
    else if a = k then (a, b) :: rest
    else (k, v) :: Memory.write rest a b

/-- The canonical memory made of any cells with addresses below a bound. -/
def Memory.ofCells (bound : Nat) : List Host.Cell → Memory
  | [] => []
  | (k, v) :: rest => if k < bound then Memory.write (Memory.ofCells bound rest) k v else Memory.ofCells bound rest

/-! ## Pseudocode steps -/

/-- How the pseudocode of a command ends early. -/
inductive Stop where
  /-- `raise Fault(code)` (60_exceptions.md R370). -/
  | raised (c : FaultCode)
  /-- The model stops (log 16). -/
  | stuck (f : Fault)
  deriving DecidableEq, Repr

/-- One piece of pseudocode: it reads and writes the state line by line; an early end keeps what the lines before it
did (60_exceptions.md R370, R382). -/
abbrev Op (α : Type) := EStateM Stop State α

/-- `raise Fault(code)` (60_exceptions.md R370). -/
def raise {α : Type} (c : FaultCode) : Op α := throw (.raised c)

/-- The model stops (log 16). -/
def stuck {α : Type} (f : Fault) : Op α := throw (.stuck f)

/-- Reading the unit state. -/
def units : Op Units := fun s => .ok s.u s

/-- Writing the unit state. -/
def setUnits (f : Units → Units) : Op Unit := fun s => .ok () { s with u := f s.u }

/-- The open parameters. -/
def params : Op Config.Params := fun s => .ok s.params s

/-- `repeat n times`. -/
def repeatOp : Nat → Op Unit → Op Unit
  | 0, _ => pure ()
  | n + 1, op => do
    op
    repeatOp n op

/-! ## The byte source and the byte sink -/

/-- The draw io_ok() consulted by one access: a false draw raises IO_ERROR (20_memory.md R86, log 6). -/
def ioCheck : Op Unit := fun s =>
  match s.io with
  | [] => .ok () s
  | true :: rest => .ok () { s with io := rest }
  | false :: rest => .error (.raised .ioError) { s with io := rest }

/-- SRC[k]; a byte nothing wrote is a free value (log 5). -/
def State.srcByte (s : State) (k : Nat) : Byte := (Memory.get s.src k).getD (Config.srcPowerOn k)

/-- OUT[k]; a byte nothing wrote is a free value (log 5). -/
def State.outByte (s : State) (k : Nat) : Byte := (Memory.get s.out k).getD (Config.outPowerOn k)

/-- The source access behind the io_ok draw of SrcRead. -/
def srcReadCore : Op (Option Byte) := fun s =>
  if s.ipos.toNat < s.slen.toNat then .ok (some (s.srcByte s.ipos.toNat)) { s with ipos := s.ipos + 1 }
  else .ok none s

/-- SrcRead() (20_memory.md R81); `none` is EOF. -/
def srcRead : Op (Option Byte) := do
  ioCheck
  srcReadCore

/-- The move behind the io_ok draw of SrcSeek. -/
def srcSeekCore (d : Int) : Op Unit := fun s =>
  if (s.ipos.toNat : Int) + d < 0 then .error (.raised .ioError) s
  else .ok () { s with ipos := BitVec.ofInt 64 (s.ipos.toNat + d) }

/-- SrcSeek(d) (20_memory.md R83). -/
def srcSeek (d : Int) : Op Unit := do
  ioCheck
  srcSeekCore d

/-- The sink access behind the io_ok draw of SinkWrite. -/
def sinkWriteCore (b : Byte) : Op Unit := fun s =>
  if s.params.outSize ≤ s.opos.toNat then .error (.raised .ioError) s
  else .ok () { s with
    out := Memory.write s.out s.opos.toNat b
    opos := s.opos + 1
    olen := if s.olen.toNat < (s.opos + 1).toNat then s.opos + 1 else s.olen }

/-- SinkWrite(b) (20_memory.md R84). -/
def sinkWrite (b : Byte) : Op Unit := do
  ioCheck
  sinkWriteCore b

/-- The move behind the io_ok draw of SinkSeek. -/
def sinkSeekCore (d : Int) : Op Unit := fun s =>
  if (s.opos.toNat : Int) + d < 0 then .error (.raised .ioError) s
  else .ok () { s with opos := BitVec.ofInt 64 (s.opos.toNat + d) }

/-- SinkSeek(d) (20_memory.md R85). -/
def sinkSeek (d : Int) : Op Unit := do
  ioCheck
  sinkSeekCore d

/-! ## The window -/

/-- WRITTEN[k] (10_state.md R45, log 4). -/
def Units.written (u : Units) (k : Nat) : Bool := (Memory.get u.window k).isSome

/-- WinRd(k) (20_memory.md R82): UNINIT_READ unless the slot is WRITTEN. -/
def winRd (k : Nat) : Op Byte := fun s =>
  match Memory.get s.u.window k with
  | some b => .ok b s
  | none => .error (.raised .uninitRead) s

/-- WinWr's writes: slot k, and its mirror W + k when k < MAX (20_memory.md R82). -/
def Units.winWr (P : Config.Params) (k : Pos) (b : Byte) (u : Units) : Units :=
  let w := Memory.write u.window k.toNat b
  { u with window := if k.toNat < P.maxLen then Memory.write w (Config.W + k.toNat) b else w }

/-- WinWr(k, b) (20_memory.md R82). -/
def winWr (k : Pos) (b : Byte) : Op Unit := do
  let P ← params
  setUnits (Units.winWr P k b)

/-! ## Taking a fault, and the return from it -/

/-- The opcode STATUS.FCMD records: CMD[7:0] (60_exceptions.md R371). -/
def State.opcode (s : State) : BitVec 8 := s.cmd.setWidth 8

/-- The unspecified unit state of the n-th event: a free value, its window in canonical form within the window's slots
(log 1). -/
def freeUnits (P : Config.Params) (n : Nat) : Units :=
  { Config.freeUnits n with window := Memory.ofCells P.slots (Config.freeUnits n).window }

/-- When a fault is raised: by a check before execution, or by a line of the pseudocode (60_exceptions.md R381). -/
inductive Stage where
  | check
  | execution
  deriving DecidableEq, Repr

/-- FaultEntry(c) (60_exceptions.md R371). A check fault changes nothing but STATUS; an execution fault also leaves
RES0, RES1 and every unit state unspecified, while OUT, OPOS, OLEN, IPOS stay as the accesses left them (log 1, log 18). -/
def State.faultEntry (stage : Stage) (c : FaultCode) (s : State) : State :=
  let status := s.status.enterFault c s.opcode
  match stage with
  | .check => { s with status := status }
  | .execution =>
    { s with
      status := status
      res0 := (Config.freeResult s.freeIdx).1
      res1 := (Config.freeResult s.freeIdx).2
      u := freeUnits s.params s.freeIdx
      freeIdx := s.freeIdx + 1 }

/-- The unit state after BLK.RESET: 10_state.md R70; LEFT_H, RIGHT_H, NWEIGHT, CODE and CLEN, which R70 leaves
unspecified, are free values (log 2). -/
def resetUnits (n : Nat) : Units :=
  { Units.powerOn with
    leftH := (Config.freeUnits n).leftH
    rightH := (Config.freeUnits n).rightH
    nweight := (Config.freeUnits n).nweight
    code := (Config.freeUnits n).code
    clen := (Config.freeUnits n).clen }

/-- The one return from a fault (60_exceptions.md R383): every item of 10_state.md R70 at its reset value, except that
CMD keeps 0x01 and the command's completion sets DONE (40_block_control.md R161). SRC and OUT content stay. -/
def State.blockReset (s : State) : State :=
  { s with
    cmd := 1
    arg0 := 0
    arg1 := 0
    arg2 := 0
    res0 := 0
    res1 := 0
    status := Status.clear.complete
    slen := 0
    ipos := 0
    opos := 0
    olen := 0
    u := resetUnits s.freeIdx
    freeIdx := s.freeIdx + 1 }

/-! ## The frame of a command -/

/-- How a command's pseudocode ends: DONE <- 1, or fault entry, or the model's stop (40_block_control.md R160). -/
def finish : EStateM.Result Stop State Unit → Host.Outcome State Fault Refusal
  | .ok _ t => .next { t with status := t.status.complete }
  | .error (.raised c) t => .next (t.faultEntry .execution c)
  | .error (.stuck f) _ => .fault f

/-- The start of a command: CMD <- v, STATUS.DONE <- 0 (40_block_control.md R160). -/
def State.begin (v : Word) (s : State) : State := { s with cmd := v, status := s.status.begin }

/-- OnCmdWrite for a legal command word v (40_block_control.md R160): ignored while STATUS.FAULT = 1 but for CMD; else
DONE <- 0, the check fault `check`, if any, and then the pseudocode `body`. -/
def runCommand (v : Word) (check : Option FaultCode) (body : Op Unit) (s : State) : Host.Outcome State Fault Refusal :=
  if s.status.fault then .next { s with cmd := v }
  else
    match check with
    | some c => .next ((s.begin v).faultEntry .check c)
    | none => finish (body (s.begin v))

/-- OnCmdWrite for a word that is no command (40_block_control.md R160, 60_exceptions.md R379). -/
def illegalCommand (v : Word) (s : State) : Host.Outcome State Fault Refusal :=
  if s.status.fault then .next { s with cmd := v }
  else .next ((s.begin v).faultEntry .check .illegalCommand)

/-- How a token's execution ends: a fault it raises is the running command's (log 12). -/
def finishToken : EStateM.Result Stop State Unit → Host.Outcome State Fault Refusal
  | .ok _ t => .next t
  | .error (.raised c) t => .next (t.faultEntry .execution c)
  | .error (.stuck f) _ => .fault f

/-- A decoder carries out a token it has read (log 12). No token runs while STATUS.FAULT = 1 (60_exceptions.md R384). -/
def runToken (body : Op Unit) (s : State) : Host.Outcome State Fault Refusal :=
  if s.status.fault then .next s else finishToken (body s)

/-- RES0 <- a. -/
def setRes0 (a : Nat) : Op Unit := fun s => .ok () { s with res0 := BitVec.ofNat 64 a }

/-- RES0 <- a; RES1 <- b. -/
def setRes (a b : Nat) : Op Unit := fun s => .ok () { s with res0 := BitVec.ofNat 64 a, res1 := BitVec.ofNat 64 b }

/-! ## STREAM_INIT -/

/-- The STREAM_INIT actions (40_block_control.md R162). -/
def State.streamInit (s : State) : State :=
  { s with
    ipos := 0
    opos := 0
    olen := 0
    u := { s.u with wpb := 0, wfree := 8, rpb := 0, rcnt := 0 } }

/-- The STREAM_INIT actions, as a line of pseudocode. -/
def streamInit : Op Unit := fun s => .ok () s.streamInit

/-- The stream bits not yet read: RCNT parked bits and the bytes SRC[IPOS..SLEN-1] (41_bit_stream.md R192). Bounds
the loops that consume the stream. -/
def State.bitsLeft (s : State) : Nat := s.u.rcnt.toNat + 8 * (s.slen.toNat - s.ipos.toNat)

end Sys2Proof.Machine
end

