-- ==== Sys2Proof/Machine/BitStream.lean ====
section
/-! DEFINITION. bit_stream_writer and bit_stream_reader (41_bit_stream.md), and the BLK commands (40_block_control.md). -/

namespace Sys2Proof.Machine

/-! ## Block control -/

/-- BLK.NOP (40_block_control.md R163). -/
def execBlkNop (s : State) : Host.Outcome State Fault Refusal := runCommand 0x00 none (pure ()) s

/-- BLK.RESET (40_block_control.md R161): the only command accepted while STATUS.FAULT = 1. -/
def execBlkReset (s : State) : Host.Outcome State Fault Refusal := .next s.blockReset

/-- BLK.STREAM_INIT (40_block_control.md R162). -/
def execBlkStreamInit (s : State) : Host.Outcome State Fault Refusal := runCommand 0x02 none streamInit s

/-! ## bit_stream_writer -/

/-- Buffer the k low bits of v: WPB <- WPB | (v[k-1:0] << (8 - WFREE)); WFREE <- WFREE - k (41_bit_stream.md R180). -/
def Units.bufferBits (v k : Nat) (u : Units) : Units :=
  { u with
    wpb := u.wpb ||| BitVec.ofNat 8 ((v % 2 ^ k) <<< (8 - u.wfree.toNat))
    wfree := BitVec.ofNat 4 (u.wfree.toNat - k) }

/-- A full byte is written at once (41_bit_stream.md R180, R181). -/
def emitFullByte : Op Unit := do
  let u ← units
  if u.wfree = 0 then do
    sinkWrite u.wpb
    setUnits (fun u => { u with wpb := 0, wfree := 8 })
  else pure ()

/-- The loop of WriteBits: c bits of v are still to be written. Every round after the first buffers at least one bit,
so c + 1 rounds are enough in every state (41_bit_stream.md R180). -/
def writeLoop : Nat → Nat → Nat → Op Unit
  | 0, _, _ => pure ()
  | fuel + 1, v, c =>
    if c = 0 then pure ()
    else do
      let u ← units
      let k := min c u.wfree.toNat
      setUnits (Units.bufferBits v k)
      emitFullByte
      writeLoop fuel (v >>> k) (c - k)

/-- The flush of WriteBits: a partial byte is written and the sink stepped back (41_bit_stream.md R180, R182). -/
def flushPartial : Op Unit := do
  let u ← units
  if u.wfree.toNat < 8 then do
    sinkWrite u.wpb
    sinkSeek (-1)
  else pure ()

/-- WriteBits(v, c, f) (41_bit_stream.md R180). -/
def writeBits (v c : Nat) (f : Bool) : Op Unit := do
  writeLoop (c + 1) (v % 2 ^ c) c
  if f then flushPartial else pure ()

/-- WriteWide(v, c): chunks of at most 32 bits, lowest first (41_bit_stream.md R184). -/
def writeWideLoop : Nat → Nat → Nat → Op Unit
  | 0, _, _ => pure ()
  | fuel + 1, v, c =>
    if c = 0 then pure ()
    else do
      let k := min c Config.VW
      writeBits (v % 2 ^ k) k false
      writeWideLoop fuel (v >>> k) (c - k)

/-- WriteWide(v, c) (41_bit_stream.md R184). -/
def writeWide (v c : Nat) : Op Unit := writeWideLoop c v c

/-- BSW.WRITE_BITS (41_bit_stream.md R180). -/
def execBswWriteBits (value count flush : Word) (s : State) : Host.Outcome State Fault Refusal :=
  runCommand 0x10 (checkFault (isCount count && isFlag flush) true)
    (writeBits value.toNat count.toNat (flush == 1)) s

/-- BSW.FLUSH = BSW.WRITE_BITS 0, 0, 1 (30_encoding.md R151, 41_bit_stream.md R183). -/
def execBswFlush (s : State) : Host.Outcome State Fault Refusal := execBswWriteBits 0 0 1 s

/-! ## bit_stream_reader -/

/-- The refresh of ReadBits (41_bit_stream.md R190, R191). -/
def refresh : Op Unit := do
  let u ← units
  if u.rcnt.toNat = 0 then pure ()
  else do
    srcSeek (-1)
    let r ← srcRead
    match r with
    | none => raise .refreshLost
    | some b => setUnits (fun u => { u with rpb := b })

/-- Make sure a bit is parked: with RCNT = 0 a byte is pulled; `false` at end-of-data (41_bit_stream.md R190). -/
def pullByte : Op Bool := do
  let u ← units
  if u.rcnt.toNat = 0 then do
    let r ← srcRead
    match r with
    | none => pure false
    | some b => do
      setUnits (fun u => { u with rpb := b, rcnt := 8 })
      pure true
  else pure true

/-- The k next parked bits: (RPB >> (8 - RCNT)) & mask(k) (41_bit_stream.md R190). -/
def Units.parkedBits (u : Units) (k : Nat) : Nat := (u.rpb.toNat >>> (8 - u.rcnt.toNat)) % 2 ^ k

/-- The loop of ReadBits: `got` of c bits are in v. Every round takes at least one bit, so c rounds are enough
(41_bit_stream.md R190). -/
def readLoop (c : Nat) : Nat → Nat → Nat → Op (Nat × Nat)
  | 0, v, got => pure (v, got)
  | fuel + 1, v, got =>
    if got < c then do
      let more ← pullByte
      if more then do
        let u ← units
        let k := min (c - got) u.rcnt.toNat
        setUnits (fun u => { u with rcnt := BitVec.ofNat 4 (u.rcnt.toNat - k) })
        readLoop c fuel (v ||| (u.parkedBits k <<< got)) (got + k)
      else pure (v, got)
    else pure (v, got)

/-- ReadBits(c, r): the value and the number of bits obtained (41_bit_stream.md R190). -/
def readBits (c : Nat) (r : Bool) : Op (Nat × Nat) := do
  if r then refresh else pure ()
  readLoop c c 0 0

/-- Need(c): a short read raises TRUNCATED (00_scope.md R25, 41_bit_stream.md R193). -/
def need (c : Nat) : Op Nat := do
  let va ← readBits c false
  if va.2 < c then raise .truncated else pure va.1

/-- BSR.READ_BITS (41_bit_stream.md R190). -/
def execBsrReadBits (count refresh : Word) (s : State) : Host.Outcome State Fault Refusal :=
  runCommand 0x20 (checkFault (isCount count && isFlag refresh) true)
    (do
      let va ← readBits count.toNat (refresh == 1)
      setRes va.1 va.2) s

end Sys2Proof.Machine
end

