-- ==== Sys2Proof/Machine/Huffman.lean ====
section
/-! DEFINITION. huffman_tree_builder, huffman_encoder and huffman_decoder (42_huffman.md), and the Huffman stream tokens. -/

namespace Sys2Proof.Machine

/-! ## The node table -/

/-- LEFT_H[t], for t in 256..510. -/
def Units.leftOf (u : Units) (t : HId) : Option HId := if 256 ≤ t.toNat then u.leftH[t.toNat - 256]? else none

/-- RIGHT_H[t], for t in 256..510. -/
def Units.rightOf (u : Units) (t : HId) : Option HId := if 256 ≤ t.toNat then u.rightH[t.toNat - 256]? else none

/-- LEFT_H[t] <- x. -/
def Units.setLeftH (t x : HId) (u : Units) : Units := { u with leftH := u.leftH.setIfInBounds (t.toNat - 256) x }

/-- RIGHT_H[t] <- x. -/
def Units.setRightH (t x : HId) (u : Units) : Units := { u with rightH := u.rightH.setIfInBounds (t.toNat - 256) x }

/-- The two children of an internal node; the model stops on an id without an entry (log 16). -/
def children (t : HId) : Op (HId × HId) := do
  let u ← units
  match u.leftOf t, u.rightOf t with
  | some l, some r => pure (l, r)
  | _, _ => stuck .huffmanTreeMalformed

/-- W(x): WEIGHT[x] for a leaf, NWEIGHT[x] for an internal node (42_huffman.md, introduction). -/
def Units.weightOf (u : Units) (x : HId) : Nat :=
  if 256 ≤ x.toNat then (u.nweight[x.toNat - 256]?.getD 0).toNat else (u.weight[x.toNat]?.getD 0).toNat

/-! ## huffman_tree_builder -/

/-- HTB.CLEAR_WEIGHTS (42_huffman.md R220). -/
def execHtbClearWeights (s : State) : Host.Outcome State Fault Refusal :=
  runCommand 0x30 none (setUnits fun u => { u with weight := Vector.replicate 256 0 }) s

/-- WEIGHT[b]. -/
def Units.weightAt (u : Units) (b : Byte) : Word := u.weight[b.toNat]'(Byte.lt b)

/-- WEIGHT[b] <- WEIGHT[b] + 1. -/
def Units.addWeight (b : Byte) (u : Units) : Units :=
  { u with weight := u.weight.set b.toNat (u.weightAt b + 1) (Byte.lt b) }

/-- HTB.COUNT_BYTE's pseudocode (42_huffman.md R221). -/
def countByte (b : Byte) : Op Unit := do
  let u ← units
  if u.weightAt b = BitVec.allOnes 64 then raise .countOverflow
  else setUnits (Units.addWeight b)

/-- HTB.COUNT_BYTE (42_huffman.md R221). -/
def execHtbCountByte (byte : Word) (s : State) : Host.Outcome State Fault Refusal :=
  runCommand 0x31 (checkFault (isByte byte) true) (countByte (lowByte byte)) s

/-- The key order of PQ: weight first, then id (42_huffman.md R223). -/
def Units.keyLt (u : Units) (x y : HId) : Bool :=
  decide (u.weightOf x < u.weightOf y) || (decide (u.weightOf x = u.weightOf y) && decide (x.toNat < y.toNat))

/-- The entry with the least key among x and the listed ones. -/
def Units.leastOf (u : Units) : HId → List HId → HId
  | x, [] => x
  | x, y :: rest => if u.keyLt y x then u.leastOf y rest else u.leastOf x rest

/-- PopMin(): takes the least entry out of PQ (42_huffman.md R223); `none` when PQ is empty. -/
def popMin : Op (Option HId) := do
  let u ← units
  match u.pq with
  | [] => pure none
  | y :: rest => do
    let x := u.leastOf y rest
    setUnits (fun u => { u with pq := u.pq.erase x })
    pure (some x)

/-- { b : WEIGHT[b] >= 1 }, in id order (42_huffman.md R222). -/
def presentFrom : Nat → List Word → List HId
  | _, [] => []
  | b, w :: rest => if w = 0 then presentFrom (b + 1) rest else BitVec.ofNat 9 b :: presentFrom (b + 1) rest

/-- { b : WEIGHT[b] >= 1 } (42_huffman.md R222). -/
def Units.presentBytes (u : Units) : List HId := presentFrom 0 u.weight.toList

/-- A new internal node t = NEXT_H over x and y with weight w, put into PQ (42_huffman.md R222). -/
def Units.joinNodes (x y : HId) (w : Nat) (u : Units) : Units :=
  let t : HId := u.nextH.setWidth 9
  let u := Units.setRightH t y (Units.setLeftH t x u)
  { u with
    nextH := u.nextH + 1
    nweight := u.nweight.setIfInBounds (t.toNat - 256) (BitVec.ofNat 64 w)
    pq := u.pq ++ [t] }

/-- One round of BuildTree: pop two, join them; `false` when fewer than two entries are left (42_huffman.md R222). -/
def buildRound : Op Bool := do
  let u ← units
  if u.pq.length < 2 then pure false
  else do
    let x ← popMin
    let y ← popMin
    let w := u.weightOf (x.getD nilH) + u.weightOf (y.getD nilH)
    if 2 ^ 64 ≤ w then raise .countOverflow
    else do
      setUnits (Units.joinNodes (x.getD nilH) (y.getD nilH) w)
      pure true

/-- The loop of BuildTree: each round takes one entry out of PQ. -/
def buildLoop : Nat → Op Unit
  | 0 => pure ()
  | fuel + 1 => do
    let more ← buildRound
    if more then buildLoop fuel else pure ()

/-- BuildTree() (42_huffman.md R222). -/
def buildTree : Op Unit := do
  setUnits (fun u => { u with
    cvalid := Vector.replicate 256 false, nextH := 256, rootH := nilH, pq := u.presentBytes })
  let u ← units
  if u.pq.isEmpty then setUnits (fun u => { u with rootH := 0 })
  else do
    buildLoop u.pq.length
    let x ← popMin
    setUnits (fun u => { u with rootH := x.getD nilH })

/-- HTB.BUILD_TREE (42_huffman.md R222). -/
def execHtbBuildTree (s : State) : Host.Outcome State Fault Refusal :=
  runCommand 0x32 none
    (do
      buildTree
      let u ← units
      setRes0 u.rootH.toNat) s

/-- The leaf case of Walk: CODE[id], CLEN[id], CVALID[id] (42_huffman.md R224). -/
def Units.setCode (b : HId) (code depth : Nat) (u : Units) : Units :=
  { u with
    code := u.code.setIfInBounds b.toNat (BitVec.ofNat 255 code)
    clen := u.clen.setIfInBounds b.toNat (BitVec.ofNat 8 depth)
    cvalid := u.cvalid.setIfInBounds b.toNat true }

/-- Walk(id, code, depth) with the levels left below (42_huffman.md R224). -/
def walkCodes : Nat → HId → Nat → Nat → Op Unit
  | levels, id, code, depth =>
    if id.toNat < 256 then setUnits (Units.setCode id code depth)
    else match levels with
      | 0 => stuck .huffmanTreeMalformed
      | n + 1 => do
        let lr ← children id
        walkCodes n lr.1 code (depth + 1)
        walkCodes n lr.2 (code ||| (1 <<< depth)) (depth + 1)

/-- DeriveCodes(): the recursion depth is at most 255 (42_huffman.md R224, 00_scope.md R16). -/
def deriveCodes : Op Unit := do
  setUnits (fun u => { u with cvalid := Vector.replicate 256 false })
  let u ← units
  walkCodes Config.maxCode u.rootH 0 0

/-- ROOT_H /= NIL, the precondition of three commands (60_exceptions.md R380). -/
def State.hasTree (s : State) : Bool := s.u.rootH != nilH

/-- HTB.DERIVE_CODES (42_huffman.md R224). -/
def execHtbDeriveCodes (s : State) : Host.Outcome State Fault Refusal :=
  runCommand 0x33 (checkFault true s.hasTree) deriveCodes s

/-! ## huffman_encoder -/

/-- EmitTree(id) with the levels left below (42_huffman.md R230). -/
def emitNode : Nat → HId → Op Unit
  | levels, id =>
    if id.toNat < 256 then do
      writeBits 1 1 false
      writeBits id.toNat 8 false
    else match levels with
      | 0 => stuck .huffmanTreeMalformed
      | n + 1 => do
        writeBits 0 1 false
        let lr ← children id
        emitNode n lr.1
        emitNode n lr.2

/-- EmitTree(ROOT_H) (42_huffman.md R230). -/
def emitTree : Op Unit := do
  let u ← units
  emitNode Config.maxCode u.rootH

/-- HENC.EMIT_TREE (42_huffman.md R230). -/
def execHencEmitTree (s : State) : Host.Outcome State Fault Refusal :=
  runCommand 0x41 (checkFault true s.hasTree) emitTree s

/-- The loop of EmitCount; a 64-bit count needs at most 8 groups (42_huffman.md R231). -/
def emitGroups : Nat → Nat → Op Unit
  | 0, _ => pure ()
  | fuel + 1, n => do
    writeBits (n % 256) 8 false
    writeBits (if n >>> 8 = 0 then 1 else 0) 1 false
    if n >>> 8 = 0 then pure () else emitGroups fuel (n >>> 8)

/-- EmitCount(n) for a 64-bit n (42_huffman.md R231). -/
def emitCount (n : Nat) : Op Unit := emitGroups 8 n

/-- HENC.EMIT_COUNT (42_huffman.md R231). -/
def execHencEmitCount (n : Word) (s : State) : Host.Outcome State Fault Refusal :=
  runCommand 0x42 none (emitCount n.toNat) s

/-- CVALID[b]. -/
def Units.codeValid (u : Units) (b : Byte) : Bool := u.cvalid[b.toNat]'(Byte.lt b)

/-- CODE[b]. -/
def Units.codeOf (u : Units) (b : Byte) : BitVec 255 := u.code[b.toNat]'(Byte.lt b)

/-- CLEN[b]. -/
def Units.codeLen (u : Units) (b : Byte) : BitVec 8 := u.clen[b.toNat]'(Byte.lt b)

/-- WriteWide(CODE[b], CLEN[b]) (42_huffman.md R232). -/
def emitCode (b : Byte) : Op Unit := do
  let u ← units
  writeWide (u.codeOf b).toNat (u.codeLen b).toNat

/-- HENC.EMIT_CODE (42_huffman.md R232). -/
def execHencEmitCode (byte : Word) (s : State) : Host.Outcome State Fault Refusal :=
  runCommand 0x43 (checkFault (isByte byte) (s.u.codeValid (lowByte byte))) (emitCode (lowByte byte)) s

/-- Step 1 of HENC.ENCODE: count every byte up to end-of-data; the result is n (42_huffman.md R234). -/
def countLoop : Nat → Nat → Op Nat
  | 0, _ => stuck .loopUnbounded
  | fuel + 1, n => do
    let r ← srcRead
    match r with
    | none => pure n
    | some b => do
      setUnits (Units.addWeight b)
      countLoop fuel (n + 1)

/-- One round of step 5 of HENC.ENCODE (42_huffman.md R234). -/
def encodeByte : Op Unit := do
  let r ← srcRead
  match r with
  | none => raise .ioError
  | some b => emitCode b

/-- HENC.ENCODE's pseudocode (42_huffman.md R234). -/
def huffmanEncode : Op Unit := do
  streamInit
  setUnits (fun u => { u with weight := Vector.replicate 256 0 })
  let bound ← (fun s => .ok (s.bitsLeft + 1) s : Op Nat)
  let n ← countLoop bound 0
  buildTree
  deriveCodes
  emitTree
  emitCount n
  srcSeek (-(n : Int))
  repeatOp n encodeByte
  writeBits 0 0 true
  setRes0 n

/-- HENC.ENCODE (42_huffman.md R234). -/
def execHencEncode (s : State) : Host.Outcome State Fault Refusal := runCommand 0x40 none huffmanEncode s

/-! ## huffman_decoder -/

/-- A node just parsed goes where the innermost open node wants it; a node whose right child it is is complete and
goes up in turn (42_huffman.md R240, log 15). -/
def attachNode (x : HId) : List ParseFrame → Units → Units
  | [], u => { u with rootH := x, parseStack := [] }
  | .left t :: rest, u => { Units.setLeftH t x u with parseStack := .right t :: rest }
  | .right t :: rest, u => attachNode t rest (Units.setRightH t x u)

/-- The parser on a leaf of value v: its byte value is its id (42_huffman.md R240). -/
def doTreeLeaf (v : Byte) : Op Unit := setUnits fun u => attachNode (v.setWidth 9) u.parseStack u

/-- The parser on an internal node: TREE_OVERFLOW on a 256th one, else t = NEXT_H opens (42_huffman.md R240). -/
def doTreeInternal : Op Unit := do
  let u ← units
  if u.nextH = 511 then raise .treeOverflow
  else setUnits fun u => { u with
    nextH := u.nextH + 1
    parseStack := .left (u.nextH.setWidth 9) :: u.parseStack }

/-- HUF.TREE_LEAF, as the parser carries it out (30_encoding.md R131, log 12). -/
def execHufTreeLeaf (v : Byte) (s : State) : Host.Outcome State Fault Refusal := runToken (doTreeLeaf v) s

/-- HUF.TREE_INTERNAL, as the parser carries it out (30_encoding.md R131, log 12). -/
def execHufTreeInternal (s : State) : Host.Outcome State Fault Refusal := runToken doTreeInternal s

/-- Read one node token and carry it out (42_huffman.md R240). -/
def parseNodeToken : Op Unit := do
  let f ← need 1
  if f = 1 then do
    let v ← need 8
    doTreeLeaf (BitVec.ofNat 8 v)
  else doTreeInternal

/-- ParseNode() for the root: node tokens until none is open. Each token takes at least one bit, so the bits left
bound the loop (42_huffman.md R240). -/
def parseNodes : Nat → Op Unit
  | 0 => stuck .loopUnbounded
  | fuel + 1 => do
    parseNodeToken
    let u ← units
    if u.parseStack.isEmpty then pure () else parseNodes fuel

/-- The number of stream bits left, plus one. -/
def streamBound : Op Nat := fun s => .ok (s.bitsLeft + 1) s

/-- ParseTree() (42_huffman.md R240). -/
def parseTree : Op Unit := do
  setUnits (fun u => { u with
    cvalid := Vector.replicate 256 false, nextH := 256, rootH := nilH, parseStack := [] })
  let bound ← streamBound
  parseNodes bound

/-- HDEC.PARSE_TREE (42_huffman.md R240). -/
def execHdecParseTree (s : State) : Host.Outcome State Fault Refusal :=
  runCommand 0x51 none
    (do
      parseTree
      let u ← units
      setRes0 u.rootH.toNat) s

/-- The parser on a count group (42_huffman.md R241): COUNT_OVERFLOW on non-zero data at index 8 or more. -/
def doCountGroup (d : Byte) (last : Bool) : Op Unit := do
  let u ← units
  if 8 ≤ u.cntIdx ∧ d ≠ 0 then raise .countOverflow
  else setUnits fun u => { u with
    cntAcc := if u.cntIdx < 8 then u.cntAcc ||| BitVec.ofNat 64 (d.toNat <<< (8 * u.cntIdx)) else u.cntAcc
    cntIdx := u.cntIdx + 1
    cntDone := last }

/-- HUF.COUNT_GROUP, as the parser carries it out (30_encoding.md R132, log 12). -/
def execHufCountGroup (d : Byte) (last : Bool) (s : State) : Host.Outcome State Fault Refusal :=
  runToken (doCountGroup d last) s

/-- Read one count group and carry it out (42_huffman.md R241). -/
def parseCountToken : Op Unit := do
  let d ← need 8
  let l ← need 1
  doCountGroup (BitVec.ofNat 8 d) (l == 1)

/-- The loop of ParseCount; each group takes nine bits, so the bits left bound it (42_huffman.md R241). -/
def parseGroups : Nat → Op Unit
  | 0 => stuck .loopUnbounded
  | fuel + 1 => do
    parseCountToken
    let u ← units
    if u.cntDone then pure () else parseGroups fuel

/-- ParseCount(): the result n (42_huffman.md R241). -/
def parseCount : Op Nat := do
  setUnits (fun u => { u with cntAcc := 0, cntIdx := 0, cntDone := false })
  let bound ← streamBound
  parseGroups bound
  let u ← units
  pure u.cntAcc.toNat

/-- HDEC.PARSE_COUNT (42_huffman.md R241). -/
def execHdecParseCount (s : State) : Host.Outcome State Fault Refusal :=
  runCommand 0x52 none
    (do
      let n ← parseCount
      setRes0 n) s

/-- One walk from a node to a leaf, one bit a step; the bits left bound it (42_huffman.md R242). -/
def walkSymbol : Nat → HId → Op HId
  | 0, _ => stuck .loopUnbounded
  | fuel + 1, id =>
    if id.toNat < 256 then pure id
    else do
      let lr ← children id
      let f ← need 1
      walkSymbol fuel (if f = 0 then lr.1 else lr.2)

/-- DecodeSymbol(): the leaf reached is written to the sink (42_huffman.md R242). -/
def decodeSymbol : Op Nat := do
  let u ← units
  let bound ← streamBound
  let id ← walkSymbol (bound + 1) u.rootH
  sinkWrite (id.setWidth 8)
  pure id.toNat

/-- HDEC.DECODE_SYMBOL (42_huffman.md R242). -/
def execHdecDecodeSymbol (s : State) : Host.Outcome State Fault Refusal :=
  runCommand 0x53 (checkFault true s.hasTree)
    (do
      let b ← decodeSymbol
      setRes0 b) s

/-- The walk of R242 along given branch bits, `true` going right; bits that end before a leaf are a truncated code, and
bits after the leaf are not read (30_encoding.md R133, log 14). -/
def walkBits : List Bool → HId → Op HId
  | bits, id =>
    if id.toNat < 256 then pure id
    else match bits with
      | [] => raise .truncated
      | b :: rest => do
        let lr ← children id
        walkBits rest (if b then lr.2 else lr.1)

/-- A code carried out on the tree there is. DESIGN CHOICE (log 14): with ROOT_H = NIL, where the spec gives STATE_ERROR
to the command HDEC.DECODE_SYMBOL and says nothing of a token alone (60_exceptions.md R380), the token raises it. -/
def doCode (bits : List Bool) : Op Unit := do
  let u ← units
  if u.rootH = nilH then raise .stateError
  else do
    let id ← walkBits bits u.rootH
    sinkWrite (id.setWidth 8)

/-- HUF.CODE, as the decoder carries it out (30_encoding.md R133, log 12, log 14). -/
def execHufCode (bits : List Bool) (s : State) : Host.Outcome State Fault Refusal := runToken (doCode bits) s

/-- HDEC.DECODE's pseudocode (42_huffman.md R244). -/
def huffmanDecode : Op Unit := do
  streamInit
  parseTree
  let n ← parseCount
  repeatOp n (do
    let _ ← decodeSymbol
    pure ())
  setRes0 n

/-- HDEC.DECODE (42_huffman.md R244). -/
def execHdecDecode (s : State) : Host.Outcome State Fault Refusal := runCommand 0x50 none huffmanDecode s

end Sys2Proof.Machine
end

