-- ==== Sys2Proof/Machine/Dictionary.lean ====
section
/-! DEFINITION. lzss_sliding_window, binary_search_tree_dictionary and lzss_match_finder (43_lzss_dictionary.md). -/

namespace Sys2Proof.Machine

/-! ## Table entries -/

/-- ROOTS[c]. -/
def Units.rootOf (u : Units) (c : Byte) : Link := u.roots[c.toNat]'(Byte.lt c)

/-- PARENT[p]. -/
def Units.parentOf (u : Units) (p : Pos) : Link := u.parent[p.toNat]'(Pos.lt p)

/-- LEFT_D[p]. -/
def Units.leftOfD (u : Units) (p : Pos) : Link := u.leftD[p.toNat]'(Pos.lt p)

/-- RIGHT_D[p]. -/
def Units.rightOfD (u : Units) (p : Pos) : Link := u.rightD[p.toNat]'(Pos.lt p)

/-- MEMBER[p]. -/
def Units.isMember (u : Units) (p : Pos) : Bool := u.member[p.toNat]'(Pos.lt p)

/-- ROOTS[c] <- x. -/
def Units.setRoot (c : Byte) (x : Link) (u : Units) : Units := { u with roots := u.roots.set c.toNat x (Byte.lt c) }

/-- PARENT[p] <- x. -/
def Units.setParent (p : Pos) (x : Link) (u : Units) : Units := { u with parent := u.parent.set p.toNat x (Pos.lt p) }

/-- LEFT_D[p] <- x. -/
def Units.setLeftD (p : Pos) (x : Link) (u : Units) : Units := { u with leftD := u.leftD.set p.toNat x (Pos.lt p) }

/-- RIGHT_D[p] <- x. -/
def Units.setRightD (p : Pos) (x : Link) (u : Units) : Units := { u with rightD := u.rightD.set p.toNat x (Pos.lt p) }

/-- MEMBER[p] <- m. -/
def Units.setMember (p : Pos) (m : Bool) (u : Units) : Units := { u with member := u.member.set p.toNat m (Pos.lt p) }

/-- The M + 1 bit code of a link: a position, or NIL = 2^M (00_scope.md R23). -/
def linkCode : Link → Nat
  | none => 2 ^ Config.M
  | some p => p.toNat

/-! ## lzss_sliding_window -/

/-- DictClear() (43_lzss_dictionary.md R290). -/
def Units.dictClear (u : Units) : Units :=
  { u with
    roots := Vector.replicate 256 none
    parent := Vector.replicate 4096 none
    leftD := Vector.replicate 4096 none
    rightD := Vector.replicate 4096 none
    member := Vector.replicate 4096 false }

/-- WinClear(): every WRITTEN mark cleared, and the dictionary (43_lzss_dictionary.md R280). -/
def Units.winClear (u : Units) : Units := Units.dictClear { u with window := [] }

/-- WIN.CLEAR (43_lzss_dictionary.md R280). -/
def execWinClear (s : State) : Host.Outcome State Fault Refusal := runCommand 0x60 none (setUnits Units.winClear) s

/-- WinPut(k, b): STATE_ERROR on a dictionary member (43_lzss_dictionary.md R281). -/
def winPut (k : Pos) (b : Byte) : Op Unit := do
  let u ← units
  if u.isMember k then raise .stateError else winWr k b

/-- WIN.WRITE (43_lzss_dictionary.md R281); the member check is its precondition (60_exceptions.md R380). -/
def execWinWrite (slot byte : Word) (s : State) : Host.Outcome State Fault Refusal :=
  runCommand 0x61 (checkFault (isPosition slot && isByte byte) (!s.u.isMember (lowPos slot)))
    (winPut (lowPos slot) (lowByte byte)) s

/-- WIN.READ (43_lzss_dictionary.md R282). -/
def execWinRead (slot : Word) (s : State) : Host.Outcome State Fault Refusal :=
  runCommand 0x62 (checkFault (isSlot s.params slot) true)
    (do
      let b ← winRd slot.toNat
      setRes0 b.toNat) s

/-- The loop of Common(p, q, len): k bytes agree, `more` are still to be compared (43_lzss_dictionary.md R283). -/
def commonFrom (p q : Pos) : Nat → Nat → Op Nat
  | 0, k => pure k
  | more + 1, k => do
    let a ← winRd (p.toNat + k)
    let b ← winRd (q.toNat + k)
    if a = b then commonFrom p q more (k + 1) else pure k

/-- Common(p, q, len) (43_lzss_dictionary.md R283). -/
def common (p q : Pos) (len : Nat) : Op Nat := commonFrom p q len 0

/-! ## binary_search_tree_dictionary -/

/-- DICT.CLEAR (43_lzss_dictionary.md R290). -/
def execDictClear (s : State) : Host.Outcome State Fault Refusal := runCommand 0x70 none (setUnits Units.dictClear) s

/-- The first half of Link(par, new, old): the link that held `old` gets `new` (43_lzss_dictionary.md R292). -/
def linkDown (par new : Link) (old : Pos) : Op Unit :=
  match par with
  | none => do
    let c ← winRd old.toNat
    setUnits (Units.setRoot c new)
  | some q =>
    setUnits fun u => if u.leftOfD q = some old then Units.setLeftD q new u else Units.setRightD q new u

/-- Link(par, new, old) (43_lzss_dictionary.md R292). -/
def linkNode (par new : Link) (old : Pos) : Op Unit := do
  linkDown par new old
  match new with
  | none => pure ()
  | some n => setUnits (Units.setParent n par)

/-- Detach(q) (43_lzss_dictionary.md R293). -/
def Units.detach (q : Pos) (u : Units) : Units :=
  { u with
    parent := u.parent.set q.toNat none (Pos.lt q)
    leftD := u.leftD.set q.toNat none (Pos.lt q)
    rightD := u.rightD.set q.toNat none (Pos.lt q)
    member := u.member.set q.toNat false (Pos.lt q) }

/-- The in-order predecessor's walk: follow RIGHT_D from x; it follows at most W links (43_lzss_dictionary.md R291,
70_reset_and_hazards.md R432). -/
def rightmost : Nat → Pos → Op Pos
  | 0, _ => stuck .dictionaryMalformed
  | fuel + 1, x => do
    let u ← units
    match u.rightOfD x with
    | none => pure x
    | some y => rightmost fuel y

/-- The lift of the predecessor x out of its own place, when it is not p's left child l (43_lzss_dictionary.md R291). -/
def liftPredecessor (l x : Pos) : Op Unit := do
  let u ← units
  if x = l then pure ()
  else do
    linkNode (u.parentOf x) (u.leftOfD x) x
    setUnits fun u => Units.setParent l (some x) (Units.setLeftD x (some l) u)

/-- The removal of a member p from its tree (43_lzss_dictionary.md R291). -/
def unlinkMember (p : Pos) : Op Unit := do
  let u ← units
  match u.leftOfD p, u.rightOfD p with
  | some l, some r => do
    let x ← rightmost Config.W l
    liftPredecessor l x
    setUnits fun u => Units.setParent r (some x) (Units.setRightD x (some r) u)
    linkNode (u.parentOf p) (some x) p
  | some l, none => linkNode (u.parentOf p) (some l) p
  | none, r => linkNode (u.parentOf p) r p

/-- Remove(p) (43_lzss_dictionary.md R291). -/
def removeNode (p : Pos) : Op Unit := do
  let u ← units
  if u.isMember p then do
    unlinkMember p
    setUnits (Units.detach p)
  else pure ()

/-- DICT.REMOVE (43_lzss_dictionary.md R291). -/
def execDictRemove (position : Word) (s : State) : Host.Outcome State Fault Refusal :=
  runCommand 0x71 (checkFault (isPosition position) true) (removeNode (lowPos position)) s

/-! ## lzss_match_finder -/

/-- A child's PARENT entry, when there is a child (43_lzss_dictionary.md R301). -/
def Units.adopt (child : Link) (p : Pos) (u : Units) : Units :=
  match child with
  | none => u
  | some c => Units.setParent c (some p) u

/-- Replace's copies: p takes q's three links and becomes a member (43_lzss_dictionary.md R301). -/
def Units.takePlace (q p : Pos) (u : Units) : Units :=
  { u with
    parent := u.parent.set p.toNat (u.parentOf q) (Pos.lt p)
    leftD := u.leftD.set p.toNat (u.leftOfD q) (Pos.lt p)
    rightD := u.rightD.set p.toNat (u.rightOfD q) (Pos.lt p)
    member := u.member.set p.toNat true (Pos.lt p) }

/-- Replace(q, p) (43_lzss_dictionary.md R301). -/
def replaceNode (q p : Pos) : Op Unit := do
  setUnits (Units.takePlace q p)
  let u ← units
  linkNode (u.parentOf q) (some p) q
  setUnits fun u => Units.adopt (u.leftOfD q) p u
  setUnits fun u => Units.adopt (u.rightOfD q) p u
  setUnits (Units.detach q)

/-- A new leaf p below q on the left (43_lzss_dictionary.md R300, R302). -/
def Units.insertLeft (p q : Pos) (u : Units) : Units :=
  { u with
    leftD := u.leftD.set q.toNat (some p) (Pos.lt q)
    parent := u.parent.set p.toNat (some q) (Pos.lt p)
    member := u.member.set p.toNat true (Pos.lt p) }

/-- A new leaf p below q on the right (43_lzss_dictionary.md R300, R302). -/
def Units.insertRight (p q : Pos) (u : Units) : Units :=
  { u with
    rightD := u.rightD.set q.toNat (some p) (Pos.lt q)
    parent := u.parent.set p.toNat (some q) (Pos.lt p)
    member := u.member.set p.toNat true (Pos.lt p) }

/-- The best match so far: only a strictly longer prefix replaces it (43_lzss_dictionary.md R300). -/
def betterMatch (q : Pos) (k : Nat) (best : Link × Nat) : Link × Nat := if best.2 < k then (some q, k) else best

/-- The walk of MatchAdd from node q, with the best match so far; it visits at most W nodes (43_lzss_dictionary.md
R300, 70_reset_and_hazards.md R432). -/
def matchWalk (p : Pos) (len : Nat) : Nat → Pos → Link × Nat → Op (Link × Nat)
  | 0, _, _ => stuck .dictionaryMalformed
  | fuel + 1, q, best => do
    let k ← common p q len
    if k = len then do
      replaceNode q p
      pure (betterMatch q k best)
    else do
      let a ← winRd (p.toNat + k)
      let b ← winRd (q.toNat + k)
      let u ← units
      if a.toNat < b.toNat then
        match u.leftOfD q with
        | none => do
          setUnits (Units.insertLeft p q)
          pure (betterMatch q k best)
        | some l => matchWalk p len fuel l (betterMatch q k best)
      else
        match u.rightOfD q with
        | none => do
          setUnits (Units.insertRight p q)
          pure (betterMatch q k best)
        | some r => matchWalk p len fuel r (betterMatch q k best)

/-- MatchAdd(p, len): the match position or NIL, and the match length (43_lzss_dictionary.md R300). -/
def matchAdd (p : Pos) (len : Nat) : Op (Link × Nat) := do
  let c ← winRd p.toNat
  let u ← units
  match u.rootOf c with
  | none => do
    setUnits fun u => Units.setMember p true (Units.setRoot c (some p) u)
    pure (none, 0)
  | some q => matchWalk p len Config.W q (none, 0)

/-- RES0 of MATCH_ADD: the position, or 2^64 - 1 for no match (00_scope.md R23). -/
def matchResult : Link → Nat
  | none => 2 ^ 64 - 1
  | some p => p.toNat

/-- MF.MATCH_ADD (43_lzss_dictionary.md R300). -/
def execMfMatchAdd (position length : Word) (s : State) : Host.Outcome State Fault Refusal :=
  runCommand 0x80
    (checkFault (isPosition position && isMatchLength s.params length) (!s.u.isMember (lowPos position)))
    (do
      let m ← matchAdd (lowPos position) length.toNat
      setRes (matchResult m.1) m.2) s

end Sys2Proof.Machine
end

