-- ==== Sys2Proof/Machine/Lzss.lean ====
section
/-! DEFINITION. lzss_encoder and lzss_decoder (44_lzss_coder.md), and the LZSS stream tokens. -/

namespace Sys2Proof.Machine

/-! ## Token emission -/

/-- EmitLiteral(b) (44_lzss_coder.md R330). -/
def emitLiteral (b : Byte) : Op Unit := do
  writeBits 1 1 false
  writeBits b.toNat 8 false

/-- EmitReference(p, len) (44_lzss_coder.md R331). -/
def emitReference (p len : Nat) : Op Unit := do
  let P ← params
  writeBits 0 1 false
  writeBits p Config.M false
  writeBits (len - P.minLen) P.lzN false

/-- EmitSentinel(p) (44_lzss_coder.md R332). -/
def emitSentinel (p : Nat) : Op Unit := do
  writeBits 0 1 false
  writeBits p Config.M false

/-- LENC.EMIT_LITERAL (44_lzss_coder.md R330). -/
def execLencEmitLiteral (byte : Word) (s : State) : Host.Outcome State Fault Refusal :=
  runCommand 0x91 (checkFault (isByte byte) true) (emitLiteral (lowByte byte)) s

/-- LENC.EMIT_REFERENCE (44_lzss_coder.md R331). -/
def execLencEmitReference (position length : Word) (s : State) : Host.Outcome State Fault Refusal :=
  runCommand 0x92 (checkFault (isPosition position && isRefLength s.params length) true)
    (emitReference position.toNat length.toNat) s

/-- LENC.EMIT_SENTINEL (44_lzss_coder.md R332). -/
def execLencEmitSentinel (position : Word) (s : State) : Host.Outcome State Fault Refusal :=
  runCommand 0x93 (checkFault (isPosition position) true) (emitSentinel position.toNat) s

/-! ## lzss_encoder -/

/-- The initial fill of the lookahead, up to MAX bytes; n counts the input bytes (44_lzss_coder.md R340). -/
def fillLoop : Nat → Nat → Op Nat
  | 0, n => pure n
  | room + 1, n => do
    let r ← srcRead
    match r with
    | none => do
      setUnits (fun u => { u with leof := true })
      pure n
    | some b => do
      let u ← units
      winWr (BitVec.ofNat 12 u.llook) b
      setUnits (fun u => { u with llook := u.llook + 1 })
      fillLoop room (n + 1)

/-- What the encode loop does with the match (mp, ml) of the cursor (44_lzss_coder.md R340). -/
def useMatch (m : Link × Nat) : Op Unit := do
  let P ← params
  let u ← units
  if 0 < u.lskip then setUnits (fun u => { u with lskip := u.lskip - 1 })
  else if m.2 < P.minLen then do
    let b ← winRd u.lcur.toNat
    emitLiteral b
  else do
    emitReference (linkCode m.1) m.2
    setUnits (fun u => { u with lskip := m.2 - 1 })

/-- The next input byte, read only before end-of-data, which LEOF latches (44_lzss_coder.md R340). -/
def nextInput : Op (Option Byte) := do
  let u ← units
  if u.leof then pure none
  else do
    let r ← srcRead
    match r with
    | none => do
      setUnits (fun u => { u with leof := true })
      pure none
    | some b => pure (some b)

/-- The slide of the window by one position; the result is the new n (44_lzss_coder.md R340). -/
def slideWindow (n : Nat) : Op Nat := do
  let u ← units
  let slot : Pos := u.lcur + BitVec.ofNat 12 u.llook
  let r ← nextInput
  match r with
  | some b => do
    removeNode slot
    winWr slot b
    setUnits (fun u => { u with lcur := u.lcur + 1 })
    pure (n + 1)
  | none => do
    setUnits (fun u => { u with llook := u.llook - 1, lcur := u.lcur + 1 })
    pure n

/-- The encode loop: it runs once per input byte, so the source bytes and the lookahead bound it (44_lzss_coder.md R340). -/
def encodeLoop : Nat → Nat → Op Nat
  | 0, _ => stuck .loopUnbounded
  | fuel + 1, n => do
    let u ← units
    if 0 < u.llook then do
      let m ← matchAdd u.lcur u.llook
      useMatch m
      let n' ← slideWindow n
      encodeLoop fuel n'
    else pure n

/-- LENC.ENCODE's pseudocode (44_lzss_coder.md R340). -/
def lzssEncode : Op Unit := do
  streamInit
  setUnits (fun u => { Units.winClear u with lcur := 0, llook := 0, lskip := 0, leof := false })
  let P ← params
  let n0 ← fillLoop P.maxLen 0
  let bound ← (fun s => .ok (s.slen.toNat - s.ipos.toNat + s.u.llook + 1) s : Op Nat)
  let n ← encodeLoop bound n0
  let u ← units
  emitSentinel u.lcur.toNat
  writeBits 0 0 true
  setRes0 n

/-- LENC.ENCODE (44_lzss_coder.md R340). -/
def execLencEncode (s : State) : Host.Outcome State Fault Refusal := runCommand 0x90 none lzssEncode s

/-! ## lzss_decoder -/

/-- LdecInit() (44_lzss_coder.md R350). -/
def Units.ldecInit (u : Units) : Units := Units.winClear { u with dcur := 0, ldend := false }

/-- LDEC.INIT (44_lzss_coder.md R350). -/
def execLdecInit (s : State) : Host.Outcome State Fault Refusal := runCommand 0xA2 none (setUnits Units.ldecInit) s

/-- One decoded byte: to the sink, into the window at DCUR, and DCUR advances (44_lzss_coder.md R351). -/
def outputByte (b : Byte) : Op Unit := do
  sinkWrite b
  let u ← units
  winPut u.dcur b
  setUnits (fun u => { u with dcur := u.dcur + 1 })

/-- The copy of a reference, forward one byte at a time; the slot wraps modulo W (44_lzss_coder.md R351, R353). -/
def copyLoop : Nat → Pos → Op Unit
  | 0, _ => pure ()
  | more + 1, pos => do
    let b ← winRd pos.toNat
    outputByte b
    copyLoop more (pos + 1)

/-- An LZSS token (30_encoding.md R136). -/
inductive LzToken where
  | literal (b : Byte)
  | reference (p : Pos) (e : Nat)
  | endToken (p : Pos)
  deriving DecidableEq, Repr

/-- The token as an instruction. -/
def LzToken.instr : LzToken → Instr
  | .literal b => .lzLiteral b
  | .reference p e => .lzReference p e
  | .endToken p => .lzEnd p

/-- Read one token: its flag, then its fields, every one through Need (44_lzss_coder.md R351, 30_encoding.md R137). -/
def fetchToken : Op LzToken := do
  let f ← need 1
  if f = 1 then do
    let b ← need 8
    pure (.literal (BitVec.ofNat 8 b))
  else do
    let p ← need Config.M
    let u ← units
    if BitVec.ofNat 12 p = u.dcur then pure (.endToken (BitVec.ofNat 12 p))
    else do
      let P ← params
      let e ← need P.lzN
      pure (.reference (BitVec.ofNat 12 p) e)

/-- The end token: LDEND <- 1 (44_lzss_coder.md R351). -/
def doEnd : Op Unit := setUnits fun u => { u with ldend := true }

/-- Carry out one token; the result is (kind, bytes output) (44_lzss_coder.md R351). A reference whose position is the
cursor is the end token, and an end token whose position is not the cursor lacks its length field (30_encoding.md R137,
log 14). -/
def doToken (t : LzToken) : Op (Nat × Nat) := do
  let u ← units
  let P ← params
  match t with
  | .literal b => do
    outputByte b
    pure (0, 1)
  | .reference p e =>
    if p = u.dcur then do
      doEnd
      pure (2, 0)
    else do
      copyLoop (e + P.minLen) p
      pure (1, e + P.minLen)
  | .endToken p =>
    if p = u.dcur then do
      doEnd
      pure (2, 0)
    else raise .truncated

/-- The execution of a token outside its command's result registers (log 12). -/
def doTokenOnly (t : LzToken) : Op Unit := do
  let _ ← doToken t
  pure ()

/-- LZ.LITERAL, as the decoder carries it out (44_lzss_coder.md R351, log 12). -/
def execLzLiteral (b : Byte) (s : State) : Host.Outcome State Fault Refusal := runToken (doTokenOnly (.literal b)) s

/-- LZ.REFERENCE, as the decoder carries it out (44_lzss_coder.md R351, log 12). -/
def execLzReference (p : Pos) (e : Nat) (s : State) : Host.Outcome State Fault Refusal :=
  runToken (doTokenOnly (.reference p e)) s

/-- LZ.END, as the decoder carries it out (44_lzss_coder.md R351, log 12). -/
def execLzEnd (p : Pos) (s : State) : Host.Outcome State Fault Refusal := runToken (doTokenOnly (.endToken p)) s

/-- DecodeToken(): (kind, bytes output) (44_lzss_coder.md R351). -/
def decodeLzToken : Op (Nat × Nat) := do
  let t ← fetchToken
  doToken t

/-- LDEC.DECODE_TOKEN (44_lzss_coder.md R351); LDEND = 1 is its precondition fault (60_exceptions.md R380). -/
def execLdecDecodeToken (s : State) : Host.Outcome State Fault Refusal :=
  runCommand 0xA1 (checkFault true (!s.u.ldend))
    (do
      let kc ← decodeLzToken
      setRes kc.1 kc.2) s

/-- The loop of LDEC.DECODE; each token takes at least nine bits, so the bits left bound it (44_lzss_coder.md R352). -/
def decodeTokens : Nat → Nat → Op Nat
  | 0, _ => stuck .loopUnbounded
  | fuel + 1, n => do
    let kc ← decodeLzToken
    if kc.1 = 2 then pure n else decodeTokens fuel (n + kc.2)

/-- LDEC.DECODE's pseudocode (44_lzss_coder.md R352). -/
def lzssDecode : Op Unit := do
  streamInit
  setUnits Units.ldecInit
  let bound ← (fun s => .ok (s.bitsLeft + 1) s : Op Nat)
  let n ← decodeTokens bound 0
  setRes0 n

/-- LDEC.DECODE (44_lzss_coder.md R352). -/
def execLdecDecode (s : State) : Host.Outcome State Fault Refusal := runCommand 0xA0 none lzssDecode s

end Sys2Proof.Machine
end

