-- ==== Sys2Proof/Machine/Dispatch.lean ====
section
/-! DEFINITION. The one dispatch: one arm per constructor of Instr. -/

namespace Sys2Proof.Machine

def exec (i : Instr) (s : State) : Host.Outcome State Fault Refusal :=
  match i with
  | .blkNop => Sys2Proof.Machine.execBlkNop s
  | .blkReset => Sys2Proof.Machine.execBlkReset s
  | .blkStreamInit => Sys2Proof.Machine.execBlkStreamInit s
  | .bswWriteBits value count flush => Sys2Proof.Machine.execBswWriteBits value count flush s
  | .bsrReadBits count refresh => Sys2Proof.Machine.execBsrReadBits count refresh s
  | .htbClearWeights => Sys2Proof.Machine.execHtbClearWeights s
  | .htbCountByte byte => Sys2Proof.Machine.execHtbCountByte byte s
  | .htbBuildTree => Sys2Proof.Machine.execHtbBuildTree s
  | .htbDeriveCodes => Sys2Proof.Machine.execHtbDeriveCodes s
  | .hencEncode => Sys2Proof.Machine.execHencEncode s
  | .hencEmitTree => Sys2Proof.Machine.execHencEmitTree s
  | .hencEmitCount n => Sys2Proof.Machine.execHencEmitCount n s
  | .hencEmitCode byte => Sys2Proof.Machine.execHencEmitCode byte s
  | .hdecDecode => Sys2Proof.Machine.execHdecDecode s
  | .hdecParseTree => Sys2Proof.Machine.execHdecParseTree s
  | .hdecParseCount => Sys2Proof.Machine.execHdecParseCount s
  | .hdecDecodeSymbol => Sys2Proof.Machine.execHdecDecodeSymbol s
  | .winClear => Sys2Proof.Machine.execWinClear s
  | .winWrite slot byte => Sys2Proof.Machine.execWinWrite slot byte s
  | .winRead slot => Sys2Proof.Machine.execWinRead slot s
  | .dictClear => Sys2Proof.Machine.execDictClear s
  | .dictRemove position => Sys2Proof.Machine.execDictRemove position s
  | .mfMatchAdd position length => Sys2Proof.Machine.execMfMatchAdd position length s
  | .lencEncode => Sys2Proof.Machine.execLencEncode s
  | .lencEmitLiteral byte => Sys2Proof.Machine.execLencEmitLiteral byte s
  | .lencEmitReference position length => Sys2Proof.Machine.execLencEmitReference position length s
  | .lencEmitSentinel position => Sys2Proof.Machine.execLencEmitSentinel position s
  | .ldecDecode => Sys2Proof.Machine.execLdecDecode s
  | .ldecDecodeToken => Sys2Proof.Machine.execLdecDecodeToken s
  | .ldecInit => Sys2Proof.Machine.execLdecInit s
  | .bswFlush => Sys2Proof.Machine.execBswFlush s
  | .hufTreeLeaf v => Sys2Proof.Machine.execHufTreeLeaf v s
  | .hufTreeInternal => Sys2Proof.Machine.execHufTreeInternal s
  | .hufCountGroup d last => Sys2Proof.Machine.execHufCountGroup d last s
  | .hufCode bits => Sys2Proof.Machine.execHufCode bits s
  | .lzLiteral b => Sys2Proof.Machine.execLzLiteral b s
  | .lzReference p e => Sys2Proof.Machine.execLzReference p e s
  | .lzEnd p => Sys2Proof.Machine.execLzEnd p s

end Sys2Proof.Machine
end

