-- ==== Sys2Proof/Machine/HostPort.lean ====
section
/-! DEFINITION. The host's moves (60_exceptions.md R400) and what it reads (10_state.md R60). -/

namespace Sys2Proof.Machine

/-- A host read of register n (10_state.md R60 to R69): it changes nothing. -/
def State.readReg (s : State) (n : BitVec 4) : Word :=
  match n.toNat with
  | 0 => s.cmd
  | 1 => s.arg0
  | 2 => s.arg1
  | 3 => s.arg2
  | 4 => s.res0
  | 5 => s.res1
  | 6 => s.status.word
  | 7 => s.slen
  | 8 => s.ipos
  | 9 => s.opos
  | 10 => s.olen
  | _ => 0

/-- A host read of OUT[k], k < OUT_SIZE (60_exceptions.md R400); `none` beyond it. -/
def State.readOut (s : State) (k : Nat) : Option Byte := if k < s.params.outSize then some (s.outByte k) else none

/-- A host write of v to CMD (40_block_control.md R160): the decoded command runs with ARG0..ARG2 as they stand. -/
def onCmdWrite (v : Word) (s : State) : Host.Outcome State Fault Refusal :=
  match decodeCommand ⟨v, s.arg0, s.arg1, s.arg2⟩ with
  | .ok i => exec i s
  | .error _ => illegalCommand v s

/-- A host write of v to SLEN: a value above SRC_SIZE stores SRC_SIZE (10_state.md R65). -/
def State.writeSlen (v : Word) (s : State) : State := { s with slen := BitVec.ofNat 64 (min v.toNat s.params.srcSize) }

/-- One host move (60_exceptions.md R400). STATUS ignores writes (10_state.md R64), registers 11 to 15 ignore them
(R69); a write the host table does not list is refused (93_implementation_defined.md U10, log 9). -/
def hostMove (m : HostMove) (s : State) : Host.Outcome State Fault Refusal :=
  match m with
  | .writeReg n v =>
    match n.toNat with
    | 0 => onCmdWrite v s
    | 1 => .next { s with arg0 := v }
    | 2 => .next { s with arg1 := v }
    | 3 => .next { s with arg2 := v }
    | 6 => .next s
    | 7 => .next (s.writeSlen v)
    | k => if 11 ≤ k then .next s else .refused .hostMoveNotInTable
  | .writeSrc k b =>
    if k < s.params.srcSize then .next { s with src := Memory.write s.src k b } else .refused .hostMoveNotInTable

/-- The command a token-row's word is run by, and the decoder's cursor it needs (log 13). -/
def tokenCommand : Ctx → Word
  | .hufTree => 0x51
  | .hufCount => 0x52
  | .hufCode _ => 0x53
  | .lz _ _ => 0xA1

/-- The cursor a token-row's word is read at (log 13). -/
def tokenCursor (ctx : Ctx) (d : Pos) : Pos :=
  match ctx with
  | .lz _ cursor => cursor
  | _ => d

/-- The source holding the three bytes of a token-row's word, the reader at its first bit, and the command that reads
it next (log 13). -/
def State.withTokenWord (s : State) (nbits v : Nat) : State :=
  let ctx := tableCtx nbits v
  { s with
    src := Memory.write (Memory.write (Memory.write s.src 0 (BitVec.ofNat 8 v)) 1 (BitVec.ofNat 8 (v / 2 ^ 8))) 2
      (BitVec.ofNat 8 (v / 2 ^ 16))
    slen := 3
    ipos := 0
    u := { s.u with rpb := 0, rcnt := 0, ldend := false, dcur := tokenCursor ctx s.u.dcur }
    moves := .writeReg 0 (tokenCommand ctx) :: s.moves }

/-- The host about to write a command word to CMD, with its operands in ARG0..ARG2 (log 10). -/
def State.withCommandWord (s : State) (v : Nat) : State :=
  { s with
    arg0 := BitVec.ofNat 64 (v / 2 ^ 64)
    arg1 := BitVec.ofNat 64 (v / 2 ^ 128)
    arg2 := BitVec.ofNat 64 (v / 2 ^ 192)
    moves := .writeReg 0 (BitVec.ofNat 64 v) :: s.moves }

end Sys2Proof.Machine
end

