-- ==== Sys2Proof/Machine/Step.lean ====
section
/-! DEFINITION. One step of the machine: the host's next pending move (log 8). -/

namespace Sys2Proof.Machine

/-- The next pending host move is carried out; with none pending the block keeps its state (60_exceptions.md R392,
70_reset_and_hazards.md R413). -/
def step (s : State) : Host.Outcome State Fault Refusal :=
  match s.moves with
  | [] => .next s
  | m :: rest => hostMove m { s with moves := rest }

/-- The instruction of one opcode-table word, placed so that the next step runs it (log 8, log 10, log 13). -/
def State.withFetchWord (s : State) (nbits w : Nat) : State :=
  if nbits ≤ 24 then s.withTokenWord nbits (w % 2 ^ nbits) else s.withCommandWord (w % 2 ^ nbits)

end Sys2Proof.Machine
end

