-- ==== Sys2Proof/Safety.lean ====
section
/-! DEFINITION. The vocabulary of the claims: bit strings, streams, tree shapes, token expansion, and the invariants of a safe run. -/

namespace Sys2Proof.Machine

/-! ## Bit strings -/

/-- A bit string as a number, first bit lowest (00_scope.md R21). -/
def bitsValue : List Bool → Nat
  | [] => 0
  | b :: bs => b.toNat + 2 * bitsValue bs

/-- The bits of a byte string in stream order (00_scope.md R21). -/
def bytesBits (bs : List Byte) : List Bool := bs.flatMap fun b => wordBits 8 b.toNat

/-- The first n bytes of a bit string; bits past its end are 0 (00_scope.md R21). -/
def packBytes : Nat → List Bool → List Byte
  | 0, _ => []
  | n + 1, bits => BitVec.ofNat 8 (bitsValue (bits.take 8)) :: packBytes n (bits.drop 8)

/-- A bit string as bytes, the last one padded with zeros (41_bit_stream.md R185). -/
def packPadded (bits : List Bool) : List Byte := packBytes ((bits.length + 7) / 8) bits

/-! ## Premises on the streams -/

/-- No fault is pending. -/
abbrev State.healthy (s : State) : Prop := s.status.fault = false

/-- io_ok() at every access (20_memory.md R86). -/
abbrev State.ioFine (s : State) : Prop := ∀ d ∈ s.io, d = true

/-- n more bytes fit in the sink (20_memory.md R84). -/
abbrev State.room (s : State) (n : Nat) : Prop :=
  s.params.outSize < 2 ^ 64 ∧ s.opos.toNat + n ≤ s.params.outSize

/-- The writer invariant (10_state.md R32). -/
abbrev Units.writerOk (u : Units) : Prop :=
  1 ≤ u.wfree.toNat ∧ u.wfree.toNat ≤ 8 ∧ u.wpb.toNat < 2 ^ (8 - u.wfree.toNat)

/-- The reader invariant (10_state.md R34). -/
abbrev Units.readerOk (u : Units) : Prop := u.rcnt.toNat ≤ 7

/-- SRC[0..SLEN-1]. -/
def State.srcBytes (s : State) : List Byte := (List.range s.slen.toNat).map s.srcByte

/-- OUT[0..OLEN-1], the block's output (10_state.md R68). -/
def State.outBytes (s : State) : List Byte := (List.range s.olen.toNat).map s.outByte

/-! ## What a write of bits does -/

/-- The buffered bits, WPB[7 - WFREE : 0] (10_state.md R31). -/
def Units.pendingBits (u : Units) : List Bool := wordBits (8 - u.wfree.toNat) u.wpb.toNat

/-- The writer holding fewer than eight buffered bits. -/
def Units.setPending (bits : List Bool) (u : Units) : Units :=
  { u with wpb := BitVec.ofNat 8 (bitsValue bits), wfree := BitVec.ofNat 4 (8 - bits.length) }

/-- One byte written at OPOS, which moves on (20_memory.md R84). -/
def State.putByte (b : Byte) (s : State) : State :=
  { s with
    out := Memory.write s.out s.opos.toNat b
    opos := s.opos + 1
    olen := if s.olen.toNat < (s.opos + 1).toNat then s.opos + 1 else s.olen
    io := s.io.drop 1 }

/-- Bytes written one after another. -/
def State.putBytes (bs : List Byte) (s : State) : State := bs.foldl (fun t b => t.putByte b) s

/-- The output law (41_bit_stream.md R185) for bits appended to the buffered ones: the whole bytes go out, the rest
stays buffered. -/
def State.emit (bits : List Bool) (s : State) : State :=
  { s.putBytes (packBytes ((s.u.pendingBits ++ bits).length / 8) (s.u.pendingBits ++ bits)) with
    u := s.u.setPending ((s.u.pendingBits ++ bits).drop (8 * ((s.u.pendingBits ++ bits).length / 8))) }

/-- A flush (41_bit_stream.md R182): a partial byte is written, and OPOS stays on it. -/
def State.flushed (s : State) : State :=
  if s.u.wfree.toNat < 8 then { s.putByte s.u.wpb with opos := s.opos, io := s.io.drop 2 } else s

/-- The bytes that emitting n bits completes (41_bit_stream.md R180). -/
def Units.bytesFor (u : Units) (n : Nat) : Nat := (8 - u.wfree.toNat + n) / 8

/-- The output so far as a bit string: OUT[0..OPOS-1] and the buffered bits (41_bit_stream.md R185). -/
def State.outBits (s : State) : List Bool :=
  bytesBits ((List.range s.opos.toNat).map s.outByte) ++ s.u.pendingBits

/-- A command's successful end (40_block_control.md R160). -/
def State.completed (s : State) : State := { s with status := s.status.complete }

/-- What a check fault leaves: CMD, and STATUS as 60_exceptions.md R371 says. -/
def State.checkFaulted (v : Word) (c : FaultCode) (s : State) : State :=
  { s with cmd := v, status := { done := false, fault := true, fcode := c.code, fcmd := v.setWidth 8 } }

/-! ## Commands and their operands -/

/-- The opcode ranges that are not in the map (30_encoding.md R123). -/
def illegalRanges : List (Nat × Nat) :=
  [(0x03, 0x0F), (0x11, 0x1F), (0x21, 0x2F), (0x34, 0x3F), (0x44, 0x4F), (0x54, 0x5F), (0x63, 0x6F), (0x72, 0x7F),
   (0x81, 0x8F), (0x94, 0x9F), (0xA3, 0xFF)]

/-- CMD words that are no command (30_encoding.md R123): an opcode of those ranges, or a bit above bit 7. -/
def illegalWord (v : Word) : Bool :=
  decide (256 ≤ v.toNat) || illegalRanges.any fun r => decide (r.1 ≤ v.toNat) && decide (v.toNat ≤ r.2)

/-- The CMD word of a command; `none` for a stream token. -/
def commandWord (P : Config.Params) (i : Instr) : Option Word :=
  match encode P i with
  | .command w => some w.cmd
  | .token _ => none

/-- The operand ranges (30_encoding.md R121). -/
def operandsInRange (P : Config.Params) : Instr → Bool
  | .bswWriteBits _ c f => decide (c.toNat ≤ 32) && decide (f.toNat ≤ 1)
  | .bsrReadBits c r => decide (c.toNat ≤ 32) && decide (r.toNat ≤ 1)
  | .htbCountByte b | .hencEmitCode b | .lencEmitLiteral b => decide (b.toNat ≤ 255)
  | .winWrite k b => decide (k.toNat ≤ 4095) && decide (b.toNat ≤ 255)
  | .winRead k => decide (k.toNat ≤ 4095 + P.maxLen)
  | .dictRemove p | .lencEmitSentinel p => decide (p.toNat ≤ 4095)
  | .mfMatchAdd p n => decide (p.toNat ≤ 4095) && decide (1 ≤ n.toNat) && decide (n.toNat ≤ P.maxLen)
  | .lencEmitReference p n => decide (p.toNat ≤ 4095) && decide (P.minLen ≤ n.toNat) && decide (n.toNat ≤ P.maxLen)
  | _ => true

/-- Every command's precondition on the state (60_exceptions.md R380): `false` where STATE_ERROR is raised before
execution. -/
def preconditionMet (s : State) : Instr → Bool
  | .htbDeriveCodes | .hencEmitTree | .hdecDecodeSymbol => s.u.rootH != nilH
  | .hencEmitCode b => s.u.codeValid (lowByte b)
  | .winWrite k _ => !s.u.isMember (lowPos k)
  | .mfMatchAdd p _ => !s.u.isMember (lowPos p)
  | .ldecDecodeToken => !s.u.ldend
  | _ => true

/-! ## What a read of bits does -/

/-- The parked bits, RPB[7 : 8 - RCNT] (10_state.md R33). -/
def Units.parked (u : Units) : List Bool := (wordBits 8 u.rpb.toNat).drop (8 - u.rcnt.toNat)

/-- The bits not yet read: the parked ones, then SRC[IPOS..SLEN-1] (41_bit_stream.md R194). -/
def State.inBits (s : State) : List Bool :=
  s.u.parked ++ bytesBits (((List.range s.slen.toNat).drop s.ipos.toNat).map s.srcByte)

/-- How many bytes are pulled to read k bits (41_bit_stream.md R190). -/
def Units.pulls (u : Units) (k : Nat) : Nat := (k - u.rcnt.toNat + 7) / 8

/-- The reader after k bits: bytes are pulled as needed and the last one pulled is parked (41_bit_stream.md R194). -/
def State.consume (k : Nat) (s : State) : State :=
  { s with
    ipos := s.ipos + BitVec.ofNat 64 (s.u.pulls k)
    io := s.io.drop (s.u.pulls k)
    u := { s.u with
      rpb := if s.u.pulls k = 0 then s.u.rpb else s.srcByte (s.ipos.toNat + s.u.pulls k - 1)
      rcnt := BitVec.ofNat 4 (s.u.rcnt.toNat + 8 * s.u.pulls k - k) } }

/-- n draws of io_ok() used by accesses that move nothing. -/
def State.draw (n : Nat) (s : State) : State := { s with io := s.io.drop n }

/-- The reader after a read of c bits: it gets the bits there are, and a short read meets the end of the source once
(41_bit_stream.md R192). -/
def State.read (c : Nat) (s : State) : State :=
  if c ≤ s.inBits.length then s.consume c else (s.consume s.inBits.length).draw 1

/-- RES0 and RES1 set. -/
def State.withResults (a b : Nat) (s : State) : State :=
  { s with res0 := BitVec.ofNat 64 a, res1 := BitVec.ofNat 64 b }

/-- RES0 set, RES1 kept. -/
def State.withResult (a : Nat) (s : State) : State := { s with res0 := BitVec.ofNat 64 a }

/-! ## Huffman trees -/

/-- The shape of a Huffman tree with its leaf values (30_encoding.md R131). -/
inductive Shape where
  | leaf (v : Byte)
  | node (l r : Shape)
  deriving DecidableEq, Repr

/-- The serialized tree (30_encoding.md R131). -/
def Shape.bits : Shape → List Bool
  | .leaf v => true :: wordBits 8 v.toNat
  | .node l r => false :: (l.bits ++ r.bits)

/-- The node tokens of a tree in stream order (30_encoding.md R131). -/
def Shape.tokens : Shape → List Instr
  | .leaf v => [.hufTreeLeaf v]
  | .node l r => .hufTreeInternal :: (l.tokens ++ r.tokens)

/-- The number of internal nodes. -/
def Shape.nodes : Shape → Nat
  | .leaf _ => 0
  | .node l r => l.nodes + r.nodes + 1

/-- The length of the longest path. -/
def Shape.depth : Shape → Nat
  | .leaf _ => 0
  | .node l r => max l.depth r.depth + 1

/-- The leaf values, left to right. -/
def Shape.leaves : Shape → List Byte
  | .leaf v => [v]
  | .node l r => l.leaves ++ r.leaves

/-- Each leaf with the path that leads to it, in pre-order; `true` goes right (42_huffman.md R225). -/
def Shape.paths : Shape → List (Byte × List Bool)
  | .leaf v => [(v, [])]
  | .node l r => l.paths.map (fun vp => (vp.1, false :: vp.2)) ++ r.paths.map (fun vp => (vp.1, true :: vp.2))

/-- The leaf at the end of a path; `none` if the path ends early or goes on past a leaf (42_huffman.md R242). -/
def Shape.follow : Shape → List Bool → Option Byte
  | .leaf v, [] => some v
  | .node l _, false :: bits => l.follow bits
  | .node _ r, true :: bits => r.follow bits
  | _, _ => none

/-- HTREE holds the tree at this id (10_state.md R41). -/
def Units.holds (u : Units) : HId → Shape → Bool
  | id, .leaf v => id == v.setWidth 9
  | id, .node l r =>
    match u.leftOf id, u.rightOf id with
    | some a, some b => u.holds a l && u.holds b r
    | _, _ => false

/-- The id of a tree whose internal nodes are numbered in pre-order from 256 + k (42_huffman.md R240). -/
def Shape.idFrom (k : Nat) : Shape → HId
  | .leaf v => v.setWidth 9
  | .node _ _ => BitVec.ofNat 9 (256 + k)

/-- HTREE holds the tree with pre-order ids from 256 + k (42_huffman.md R240). -/
def Units.holdsFrom (u : Units) : Nat → Shape → Bool
  | _, .leaf _ => true
  | k, .node l r =>
    u.leftOf (BitVec.ofNat 9 (256 + k)) == some (l.idFrom (k + 1)) &&
    u.rightOf (BitVec.ofNat 9 (256 + k)) == some (r.idFrom (k + 1 + l.nodes)) &&
    u.holdsFrom (k + 1) l && u.holdsFrom (k + 1 + l.nodes) r

/-- The code table a tree gives: every leaf in pre-order sets its entry (42_huffman.md R224). -/
def Units.withCodes (paths : List (Byte × List Bool)) (u : Units) : Units :=
  paths.foldl (fun w vp => w.setCode (vp.1.setWidth 9) (bitsValue vp.2) vp.2.length)
    { u with cvalid := Vector.replicate 256 false }

/-- The bytes with WEIGHT >= 1 (42_huffman.md R222). -/
def Units.present (u : Units) : List Byte :=
  ((List.range 256).map (BitVec.ofNat 8)).filter fun b => u.weightAt b != 0

/-- The sum of the weights of some bytes. -/
def Units.weightSum (u : Units) (bs : List Byte) : Nat := (bs.map fun b => (u.weightAt b).toNat).sum

/-- Every internal node's NWEIGHT is the sum of the weights of the leaves below it (42_huffman.md R222). -/
def Units.weighed (u : Units) : HId → Shape → Bool
  | _, .leaf _ => true
  | id, .node l r =>
    match u.leftOf id, u.rightOf id with
    | some a, some b =>
      (u.weightOf id == u.weightSum (Shape.node l r).leaves) && u.weighed a l && u.weighed b r
    | _, _ => false

/-- x comes before y in the key order of PQ: weight first, then id (42_huffman.md R223). -/
def Units.ahead (u : Units) (x y : HId) : Prop :=
  u.weightOf x < u.weightOf y ∨ (u.weightOf x = u.weightOf y ∧ x.toNat < y.toNat)

/-- The entries PQ holds when internal node 256 + k is made: the present bytes and the nodes made before it, without the
children of the nodes made before it (42_huffman.md R222). -/
def Units.waiting (u : Units) (k : Nat) (x : HId) : Prop :=
  ((x.toNat < 256 ∧ u.weightOf x ≠ 0) ∨ (256 ≤ x.toNat ∧ x.toNat < 256 + k)) ∧
  ∀ j < k, u.leftOf (BitVec.ofNat 9 (256 + j)) ≠ some x ∧ u.rightOf (BitVec.ofNat 9 (256 + j)) ≠ some x

/-- Internal node 256 + k joins the two least of the entries waiting, the least one on the left (42_huffman.md R222,
R223; 92_eei_decisions.md D11). -/
def Units.joinsTheLeast (u : Units) (k : Nat) : Prop :=
  ∃ a b, u.leftOf (BitVec.ofNat 9 (256 + k)) = some a ∧ u.rightOf (BitVec.ofNat 9 (256 + k)) = some b ∧
    u.waiting k a ∧ u.waiting k b ∧ u.ahead a b ∧ ∀ x, u.waiting k x → x ≠ a → x ≠ b → u.ahead b x

/-! ## Counts -/

/-- The bit length of a number. -/
def bitLength (n : Nat) : Nat := if n = 0 then 0 else Nat.log2 n + 1

/-- The data bytes of a count's groups: the minimal number of them, at least one, low byte first (30_encoding.md R132). -/
def countBytes (n : Nat) : List Byte :=
  (List.range (max 1 ((bitLength n + 7) / 8))).map fun g => BitVec.ofNat 8 (n / 256 ^ g)

/-- The bits of count groups; the last one carries the stop bit 1 (30_encoding.md R132). -/
def groupsBits : List Byte → List Bool
  | [] => []
  | [d] => wordBits 8 d.toNat ++ [true]
  | d :: rest => wordBits 8 d.toNat ++ false :: groupsBits rest

/-- The count of the groups: group g carries bits 8g+7..8g (30_encoding.md R132). -/
def groupsValue : List Byte → Nat
  | [] => 0
  | d :: rest => d.toNat + 256 * groupsValue rest

/-! ## LZSS tokens -/

/-- The bits of a token (30_encoding.md R136). -/
def tokenBits (P : Config.Params) (i : Instr) : List Bool :=
  match encode P i with
  | .token bits => bits
  | .command _ => []

/-- The bits of a token sequence. -/
def tokensBits (P : Config.Params) (ts : List LzToken) : List Bool := ts.flatMap fun t => tokenBits P t.instr

/-- len bytes copied from d bytes back, one at a time (44_lzss_coder.md R353). -/
def lzCopy (d : Nat) : Nat → List Byte → Option (List Byte)
  | 0, out => some out
  | len + 1, out =>
    match out[out.length - d]? with
    | some b => lzCopy d len (out ++ [b])
    | none => none

/-- How far back of the cursor a position lies: (cursor - p) mod W (44_lzss_coder.md R353). -/
def lzDistance (n : Nat) (p : Pos) : Nat := (BitVec.ofNat 12 n - p).toNat

/-- What a token sequence, without its end token, stands for after the bytes `out` (44_lzss_coder.md R351); `none`
where a token names the cursor, a position never written, or a length field too wide. -/
def lzExpand (P : Config.Params) : List LzToken → List Byte → Option (List Byte)
  | [], out => some out
  | .literal b :: rest, out => lzExpand P rest (out ++ [b])
  | .reference p e :: rest, out =>
    if 1 ≤ lzDistance out.length p ∧ lzDistance out.length p ≤ out.length ∧ e < 2 ^ P.lzN then
      match lzCopy (lzDistance out.length p) (e + P.minLen) out with
      | some out' => lzExpand P rest out'
      | none => none
    else none
  | .endToken _ :: _, _ => none

/-- One decoded byte: to the sink, into the window at DCUR, and DCUR advances (44_lzss_coder.md R351). -/
def State.decoded (b : Byte) (s : State) : State :=
  { s.putByte b with u := { s.u.winWr s.params s.u.dcur b with dcur := s.u.dcur + 1 } }

/-- Decoded bytes one after another. -/
def State.decodedAll (bs : List Byte) (s : State) : State := bs.foldl (fun t b => t.decoded b) s

/-- The length of a reference with length field e (30_encoding.md R138). -/
def State.refLength (s : State) (e : Nat) : Nat := e + s.params.minLen

/-- The decoder can carry a token out without a fault (44_lzss_coder.md R351, R354): room in the sink, no window write
on a dictionary member, and every byte a reference copies from before its own bytes written. -/
def State.tokenReady (s : State) : LzToken → Prop
  | .literal _ => s.room 1 ∧ s.u.isMember s.u.dcur = false
  | .reference p e =>
    p ≠ s.u.dcur ∧ e < 2 ^ s.params.lzN ∧ s.room (s.refLength e) ∧
    (∀ k < s.refLength e, s.u.isMember (s.u.dcur + BitVec.ofNat 12 k) = false) ∧
    (∀ k < s.refLength e, k < (s.u.dcur - p).toNat → s.u.written (p + BitVec.ofNat 12 k).toNat = true)
  | .endToken p => p = s.u.dcur

/-- The bytes a reference copies (44_lzss_coder.md R353): the k-th comes from the window, or, once k reaches the
distance, from the same copy. -/
def State.copies (s : State) (p : Pos) (bs : List Byte) : Prop :=
  ∀ k < bs.length, bs[k]? =
    if k < (s.u.dcur - p).toNat then Memory.get s.u.window (p + BitVec.ofNat 12 k).toNat
    else bs[k - (s.u.dcur - p).toNat]?

/-! ## The dictionary -/

/-- A binary search tree of window positions. -/
inductive DTree where
  | nil
  | node (l : DTree) (p : Pos) (r : DTree)
  deriving DecidableEq, Repr

/-- The positions in order. -/
def DTree.inorder : DTree → List Pos
  | .nil => []
  | .node l p r => l.inorder ++ p :: r.inorder

/-- How many leading bytes of the suffixes at p and q agree, of len bytes (43_lzss_dictionary.md R283). -/
def Units.agreeing (u : Units) (len : Nat) (p q : Pos) : Nat :=
  ((List.range len).takeWhile fun j =>
    Memory.get u.window (p.toNat + j) == Memory.get u.window (q.toNat + j)).length

/-- Whether p's byte is the smaller one where the suffixes at p and q first differ (92_eei_decisions.md D18). -/
def Units.goesLeft (u : Units) (len : Nat) (p q : Pos) : Bool :=
  match Memory.get u.window (p.toNat + u.agreeing len p q), Memory.get u.window (q.toNat + u.agreeing len p q) with
  | some a, some b => decide (a.toNat < b.toNat)
  | _, _ => false

/-- The nodes MatchAdd visits for p, from the root on: left where p's byte is smaller at the first difference, else
right, and no further than a node that agrees in all len bytes (43_lzss_dictionary.md R300). -/
def DTree.visited (u : Units) (len : Nat) (p : Pos) : DTree → List Pos
  | .nil => []
  | .node l q r =>
    q :: if u.agreeing len p q = len then []
      else if u.goesLeft len p q then DTree.visited u len p l else DTree.visited u len p r

/-- The tree with p added: in the place of a visited node that agrees in all len bytes, else as a new leaf at the end of
the walk (43_lzss_dictionary.md R301, R302). -/
def DTree.added (u : Units) (len : Nat) (p : Pos) : DTree → DTree
  | .nil => .node .nil p .nil
  | .node l q r =>
    if u.agreeing len p q = len then .node l p r
    else if u.goesLeft len p q then .node (DTree.added u len p l) q r else .node l q (DTree.added u len p r)

/-- The links spell the tree out, below the given parent (10_state.md R46). -/
def Units.spells (u : Units) : Link → Link → DTree → Bool
  | _, none, .nil => true
  | par, some q, .node l p r =>
    q == p && u.parentOf p == par && u.spells (some p) (u.leftOfD p) l && u.spells (some p) (u.rightOfD p) r
  | _, _, _ => false

/-- The dictionary invariant (10_state.md R46, R47): the tree of each first byte is a finite tree without repeats whose
links agree, its nodes start with that byte, exactly the nodes are members, and a non-member has no links. -/
def Units.dictOk (u : Units) : Prop :=
  ∃ tree : Byte → DTree,
    (∀ c, u.spells none (u.rootOf c) (tree c) = true ∧ (tree c).inorder.Nodup) ∧
    (∀ c p, p ∈ (tree c).inorder → Memory.get u.window p.toNat = some c) ∧
    (∀ p, u.isMember p = true ↔ ∃ c, p ∈ (tree c).inorder) ∧
    (∀ p, u.isMember p = false → u.parentOf p = none ∧ u.leftOfD p = none ∧ u.rightOfD p = none)

/-! ## Who writes what -/

/-- The groups of state (10_state.md R72, with the host's registers and the model's own). -/
inductive Group where
  /-- CMD and STATUS. -/
  | control
  /-- ARG0, ARG1, ARG2 and SLEN. -/
  | host
  /-- SRC, the open parameters and the host's pending moves. -/
  | outside
  /-- RES0 and RES1. -/
  | results
  /-- IPOS. -/
  | sourcePos
  /-- OPOS, OLEN and OUT. -/
  | sink
  /-- WPB and WFREE. -/
  | writer
  /-- RPB and RCNT. -/
  | reader
  /-- DCUR and LDEND. -/
  | cursor
  /-- WEIGHT. -/
  | weights
  /-- LEFT_H, RIGHT_H, NWEIGHT, NEXT_H, ROOT_H and PQ. -/
  | tree
  /-- CODE, CLEN and CVALID. -/
  | codes
  /-- WINDOW and WRITTEN. -/
  | window
  /-- ROOTS, PARENT, LEFT_D, RIGHT_D and MEMBER. -/
  | dictionary
  /-- LCUR, LLOOK, LSKIP and LEOF. -/
  | encoder
  /-- The model's own state of the stream parsers (log 15). -/
  | parser
  deriving DecidableEq, Repr

/-- Two states agree on a group. -/
def State.agree (s t : State) : Group → Prop
  | .control => t.cmd = s.cmd ∧ t.status = s.status
  | .host => t.arg0 = s.arg0 ∧ t.arg1 = s.arg1 ∧ t.arg2 = s.arg2 ∧ t.slen = s.slen
  | .outside => t.src = s.src ∧ t.params = s.params ∧ t.moves = s.moves
  | .results => t.res0 = s.res0 ∧ t.res1 = s.res1
  | .sourcePos => t.ipos = s.ipos
  | .sink => t.opos = s.opos ∧ t.olen = s.olen ∧ t.out = s.out
  | .writer => t.u.wpb = s.u.wpb ∧ t.u.wfree = s.u.wfree
  | .reader => t.u.rpb = s.u.rpb ∧ t.u.rcnt = s.u.rcnt
  | .cursor => t.u.dcur = s.u.dcur ∧ t.u.ldend = s.u.ldend
  | .weights => t.u.weight = s.u.weight
  | .tree => t.u.leftH = s.u.leftH ∧ t.u.rightH = s.u.rightH ∧ t.u.nweight = s.u.nweight ∧ t.u.nextH = s.u.nextH ∧
      t.u.rootH = s.u.rootH ∧ t.u.pq = s.u.pq
  | .codes => t.u.code = s.u.code ∧ t.u.clen = s.u.clen ∧ t.u.cvalid = s.u.cvalid
  | .window => t.u.window = s.u.window
  | .dictionary => t.u.roots = s.u.roots ∧ t.u.parent = s.u.parent ∧ t.u.leftD = s.u.leftD ∧
      t.u.rightD = s.u.rightD ∧ t.u.member = s.u.member
  | .encoder => t.u.lcur = s.u.lcur ∧ t.u.llook = s.u.llook ∧ t.u.lskip = s.u.lskip ∧ t.u.leof = s.u.leof
  | .parser => t.u.parseStack = s.u.parseStack ∧ t.u.cntAcc = s.u.cntAcc ∧ t.u.cntIdx = s.u.cntIdx ∧
      t.u.cntDone = s.u.cntDone

/-- The groups an instruction writes when it does not fault (10_state.md R63, R72; 40_block_control.md R164;
92_eei_decisions.md D38, D47). BLK.RESET is not listed: it writes all but the outside. -/
def writeGroups : Instr → List Group
  | .blkReset | .blkNop => [.control]
  | .blkStreamInit => [.control, .sourcePos, .sink, .writer, .reader]
  | .bswWriteBits _ _ _ | .bswFlush | .hencEmitTree | .hencEmitCount _ | .hencEmitCode _ => [.control, .sink, .writer]
  | .lencEmitLiteral _ | .lencEmitReference _ _ | .lencEmitSentinel _ => [.control, .sink, .writer]
  | .bsrReadBits _ _ => [.control, .results, .sourcePos, .reader]
  | .htbClearWeights | .htbCountByte _ => [.control, .weights]
  | .htbBuildTree => [.control, .results, .tree, .codes]
  | .htbDeriveCodes => [.control, .codes]
  | .hencEncode => [.control, .results, .sourcePos, .sink, .writer, .reader, .weights, .tree, .codes]
  | .hdecDecode => [.control, .results, .sourcePos, .sink, .writer, .reader, .tree, .codes, .parser]
  | .hdecParseTree => [.control, .results, .sourcePos, .reader, .tree, .codes, .parser]
  | .hdecParseCount => [.control, .results, .sourcePos, .reader, .parser]
  | .hdecDecodeSymbol => [.control, .results, .sourcePos, .sink, .reader]
  | .winClear => [.control, .window, .dictionary]
  | .winWrite _ _ => [.control, .window]
  | .winRead _ => [.control, .results]
  | .dictClear | .dictRemove _ => [.control, .dictionary]
  | .mfMatchAdd _ _ => [.control, .results, .dictionary]
  | .lencEncode => [.control, .results, .sourcePos, .sink, .writer, .reader, .window, .dictionary, .encoder]
  | .ldecDecode => [.control, .results, .sourcePos, .sink, .writer, .reader, .cursor, .window, .dictionary]
  | .ldecDecodeToken => [.control, .results, .sourcePos, .sink, .reader, .cursor, .window]
  | .ldecInit => [.control, .cursor, .window, .dictionary]
  | .hufTreeLeaf _ | .hufTreeInternal => [.tree, .parser]
  | .hufCountGroup _ _ => [.parser]
  | .hufCode _ => [.sink]
  | .lzLiteral _ | .lzReference _ _ => [.sink, .cursor, .window]
  | .lzEnd _ => [.cursor]

/-- The commands that begin with the STREAM_INIT actions, or are them (40_block_control.md R164). -/
def startsStreams : Instr → Bool
  | .blkReset | .blkStreamInit | .hencEncode | .hdecDecode | .lencEncode | .ldecDecode => true
  | _ => false

/-! ## The invariants of a run -/

/-- The streams, positions, memories and STATUS in a legal state (10_state.md R32, R34, R35, R64; 20_memory.md R82,
R87), and the memories in canonical form. -/
structure State.StreamInv (s : State) : Prop where
  params : s.params.wf
  srcForm : s.src.wf ∧ ∀ c ∈ s.src, c.1 < s.params.srcSize
  outForm : s.out.wf ∧ ∀ c ∈ s.out, c.1 < s.params.outSize
  windowForm : s.u.window.wf ∧ ∀ c ∈ s.u.window, c.1 < s.params.slots
  source : s.slen.toNat ≤ s.params.srcSize ∧ s.ipos.toNat ≤ s.params.srcSize
  sink : s.opos.toNat ≤ s.olen.toNat ∧ s.olen.toNat ≤ s.params.outSize ∧ s.olen.toNat ≤ s.opos.toNat + 1
  output : ∀ k < s.olen.toNat, (Memory.get s.out k).isSome
  noFault : s.status.fault = false → s.status.fcode = 0 ∧ s.status.fcmd = 0
  oneFault : s.status.fault = true → s.status.done = false ∧ 1 ≤ s.status.fcode.toNat ∧ s.status.fcode.toNat ≤ 9
  units : s.status.fault = false →
    s.u.writerOk ∧ s.u.readerOk ∧ (1 ≤ s.u.rcnt.toNat → 1 ≤ s.ipos.toNat) ∧
    ∀ k < s.params.maxLen, Memory.get s.u.window (Config.W + k) = Memory.get s.u.window k

/-- The Huffman tables in a legal state (10_state.md R41, R42, R43; 42_huffman.md R225): nothing is half built, the
root is NIL or a tree of depth at most 255, and a valid code is a path of that tree. -/
structure Units.HuffInv (u : Units) : Prop where
  idle : u.pq = [] ∧ u.parseStack = []
  nextId : 256 ≤ u.nextH.toNat ∧ u.nextH.toNat ≤ 511
  tree : u.rootH = nilH ∨ ∃ t : Shape, u.holds u.rootH t = true ∧ t.depth ≤ Config.maxCode
  codes : ∀ b, u.codeValid b = true → ∃ t : Shape, u.holds u.rootH t = true ∧
    ∃ path, t.follow path = some b ∧ (u.codeOf b).toNat = bitsValue path ∧ (u.codeLen b).toNat = path.length

/-- The invariant of a run: the streams always; the dictionary and the Huffman tables while no fault is pending. -/
def State.Inv (s : State) : Prop :=
  s.StreamInv ∧ (s.status.fault = false → s.u.dictOk ∧ s.u.HuffInv)

end Sys2Proof.Machine
end

