-- ==== Sys2Proof/Certificates/Slice0/Obligations.lean ====
section
/-! DEFINITION. The statements about the model for the provers. -/

open Sys2Proof Sys2Proof.Machine

/-! ## Encodings -/

/-- Words written out from 30_encoding.md R121, R131, R132, R136 and R151 decode to what they stand for. -/
def Obligations.SampleWordsDecode : Prop :=
  decodeCommand ⟨0x01, 7, 8, 9⟩ = .ok .blkReset ∧
  decodeCommand ⟨0x10, 0x1FF, 9, 0⟩ = .ok (.bswWriteBits 0x1FF 9 0) ∧
  decodeCommand ⟨0x10, 0, 0, 1⟩ = .ok .bswFlush ∧
  decodeCommand ⟨0x43, 0x44, 0, 0⟩ = .ok (.hencEmitCode 0x44) ∧
  decodeCommand ⟨0x80, 2, 6, 0⟩ = .ok (.mfMatchAdd 2 6) ∧
  decodeCommand ⟨0xA1, 0, 0, 0⟩ = .ok .ldecDecodeToken ∧
  decodeToken .hufTree [true, true, false, false, false, false, false, true, false] = .ok (.hufTreeLeaf 0x41, []) ∧
  decodeToken .hufCount [false, true, false, false, false, false, false, false, true] =
    .ok (.hufCountGroup 2 true, []) ∧
  decodeToken (.lz 4 2)
      [false, false, false, false, false, false, false, false, false, false, false, false, false,
       false, false, true, false] = .ok (.lzReference 0 4, []) ∧
  decodeToken (.lz 4 8)
      [false, false, false, false, true, false, false, false, false, false, false, false, false] = .ok (.lzEnd 8, [])

/-- Every well-formed command is read back from its words, with every operand at every 64-bit value
(30_encoding.md R120, R121, R122, R151). -/
def Obligations.EncodedCommandsDecode : Prop :=
  ∀ (P : Config.Params) (i : Instr), wellFormed P i = true → i.isToken = false →
    ∃ w, encode P i = .command w ∧ decodeCommand w = .ok i

/-- Every well-formed token is read back from its bits, whatever follows it, in the context its decoder reads it in
(30_encoding.md R131 to R139). -/
def Obligations.EncodedTokensDecode : Prop :=
  ∀ (P : Config.Params) (ctx : Ctx) (i : Instr) (rest : List Bool), wellFormed P i = true → ctx.admits P i = true →
    ∃ bits, encode P i = .token bits ∧ decodeToken ctx (bits ++ rest) = .ok (i, rest)

/-- Exactly the words of R123 are no command, and writing one of them to CMD faults ILLEGAL_COMMAND and changes nothing
but CMD, which keeps the written word, and STATUS. -/
def Obligations.IllegalCommandWordsFault : Prop :=
  (∀ v a b c : Word, illegalWord v = false → ∃ i, decodeCommand ⟨v, a, b, c⟩ = .ok i) ∧
  ∀ (s : State) (v : Word) (rest : List HostMove), illegalWord v = true → s.healthy →
    s.moves = .writeReg 0 v :: rest →
    step s = .next (({ s with moves := rest } : State).checkFaulted v .illegalCommand)

/-! ## Steps and the host -/

/-- A host write of a command's word to CMD runs exactly that command, with the operands as ARG0, ARG1 and ARG2 stand
(40_block_control.md R160, R36). -/
def Obligations.StepRunsTheDecodedCommand : Prop :=
  ∀ (s : State) (v : Word) (rest : List HostMove) (i : Instr),
    s.moves = .writeReg 0 v :: rest → decodeCommand ⟨v, s.arg0, s.arg1, s.arg2⟩ = .ok i →
    step s = exec i { s with moves := rest }

/-- The word placed by withFetchWord is the one the next step runs: the decoder's instruction of an opcode-table word of
a command, on the same state with the word's operands in ARG0..ARG2. -/
def Obligations.PlacedCommandWordRunsNext : Prop :=
  ∀ (s : State) (nbits w : Nat) (i : Instr), 24 < nbits → decodeTableWord nbits w = some i →
    step (s.withFetchWord nbits w) = exec i { s with
      arg0 := BitVec.ofNat 64 (w % 2 ^ nbits / 2 ^ 64)
      arg1 := BitVec.ofNat 64 (w % 2 ^ nbits / 2 ^ 128)
      arg2 := BitVec.ofNat 64 (w % 2 ^ nbits / 2 ^ 192) }

/-- The host's other moves store what 60_exceptions.md R400 says, whether or not a fault is pending, and with no move
pending the block keeps its state (R392). -/
def Obligations.HostMovesStoreTheirValue : Prop :=
  (∀ s : State, s.moves = [] → step s = .next s) ∧
  (∀ (s : State) (v : Word) (rest : List HostMove),
    step { s with moves := .writeReg 1 v :: rest } = .next { s with moves := rest, arg0 := v } ∧
    step { s with moves := .writeReg 2 v :: rest } = .next { s with moves := rest, arg1 := v } ∧
    step { s with moves := .writeReg 3 v :: rest } = .next { s with moves := rest, arg2 := v } ∧
    (v.toNat ≤ s.params.srcSize →
      step { s with moves := .writeReg 7 v :: rest } = .next { s with moves := rest, slen := v }) ∧
    (s.params.srcSize < v.toNat →
      step { s with moves := .writeReg 7 v :: rest } =
        .next { s with moves := rest, slen := BitVec.ofNat 64 s.params.srcSize })) ∧
  (∀ (s : State) (k : Nat) (b : Byte) (rest : List HostMove), k < s.params.srcSize →
    ∃ src', step { s with moves := .writeSrc k b :: rest } = .next { s with moves := rest, src := src' } ∧
      ∀ (t : State) (a : Nat), t.src = src' → t.srcByte a = if a = k then b else s.srcByte a)

/-- R69: registers 11 to 15 read 0 and ignore writes. -/
def Obligations.ReservedRegistersReadZero : Prop :=
  ∀ (s : State) (n : BitVec 4) (v : Word) (rest : List HostMove), 11 ≤ n.toNat →
    s.readReg n = 0 ∧ (s.moves = .writeReg n v :: rest → step s = .next { s with moves := rest })

/-- The host's reads (10_state.md R60 to R68; 60_exceptions.md R400): registers 0 to 5 and 7 to 10 read as CMD, ARG0,
ARG1, ARG2, RES0, RES1, SLEN, IPOS, OPOS and OLEN; CMD reads the last value written, whatever the command did (R61);
STATUS reads its fields, its reserved bits read 0, and host writes to it are ignored (R64); OUT[k] below OUT_SIZE reads
the byte last stored there, and beyond it the model's read answers nothing (log 9). -/
def Obligations.StatusReadsItsFields : Prop :=
  (∀ s : State,
    s.readReg 0 = s.cmd ∧ s.readReg 1 = s.arg0 ∧ s.readReg 2 = s.arg1 ∧ s.readReg 3 = s.arg2 ∧
    s.readReg 4 = s.res0 ∧ s.readReg 5 = s.res1 ∧ s.readReg 7 = s.slen ∧ s.readReg 8 = s.ipos ∧
    s.readReg 9 = s.opos ∧ s.readReg 10 = s.olen) ∧
  (∀ (s t : State) (v : Word) (rest : List HostMove), s.moves = .writeReg 0 v :: rest → step s = .next t →
    t.readReg 0 = v) ∧
  (∀ (s : State) (k : Nat),
    (k < s.params.outSize → ∀ b, Memory.get s.out k = some b → s.readOut k = some b) ∧
    (k < s.params.outSize → s.readOut k = some (s.outByte k)) ∧ (s.params.outSize ≤ k → s.readOut k = none)) ∧
  ∀ s : State,
    (s.readReg 6).getLsbD 0 = s.status.done ∧ (s.readReg 6).getLsbD 1 = s.status.fault ∧
    (s.readReg 6).extractLsb' 2 2 = 0 ∧ (s.readReg 6).extractLsb' 4 4 = s.status.fcode ∧
    (s.readReg 6).extractLsb' 8 8 = s.status.fcmd ∧ (s.readReg 6).extractLsb' 16 48 = 0 ∧
    ∀ (v : Word) (rest : List HostMove), s.moves = .writeReg 6 v :: rest → step s = .next { s with moves := rest }

/-! ## Reset -/

/-- The values of 10_state.md R70 right after power-on. LEFT_H, RIGHT_H, NWEIGHT, CODE and CLEN, which the spec leaves
unspecified, are not named. -/
def Obligations.PowerOnValues : Prop :=
  State.reset.cmd = 0 ∧ State.reset.arg0 = 0 ∧ State.reset.arg1 = 0 ∧ State.reset.arg2 = 0 ∧
  State.reset.res0 = 0 ∧ State.reset.res1 = 0 ∧ State.reset.readReg 6 = 0 ∧
  State.reset.slen = 0 ∧ State.reset.ipos = 0 ∧ State.reset.opos = 0 ∧ State.reset.olen = 0 ∧
  State.reset.u.wpb = 0 ∧ State.reset.u.wfree = 8 ∧ State.reset.u.rpb = 0 ∧ State.reset.u.rcnt = 0 ∧
  State.reset.u.dcur = 0 ∧ State.reset.u.ldend = false ∧
  State.reset.u.lcur = 0 ∧ State.reset.u.llook = 0 ∧ State.reset.u.lskip = 0 ∧ State.reset.u.leof = false ∧
  State.reset.u.nextH = 256 ∧ State.reset.u.rootH = 511 ∧ State.reset.u.pq = [] ∧
  (∀ b, State.reset.u.weightAt b = 0 ∧ State.reset.u.codeValid b = false ∧ State.reset.u.rootOf b = none) ∧
  (∀ k, State.reset.u.written k = false) ∧
  (∀ p, State.reset.u.parentOf p = none ∧ State.reset.u.leftOfD p = none ∧ State.reset.u.rightOfD p = none ∧
    State.reset.u.isMember p = false)

/-- R161: from every state, a faulted one too, BLK.RESET completes: every item of 10_state.md R70 is at its reset value,
CMD keeps 0x01, STATUS is 0x1, and SRC and OUT keep their content. -/
def Obligations.BlkResetRestoresResetState : Prop :=
  ∀ s : State, ∃ t, exec .blkReset s = .next t ∧
    t.cmd = 1 ∧ t.readReg 6 = 1 ∧
    t.arg0 = 0 ∧ t.arg1 = 0 ∧ t.arg2 = 0 ∧ t.res0 = 0 ∧ t.res1 = 0 ∧
    t.slen = 0 ∧ t.ipos = 0 ∧ t.opos = 0 ∧ t.olen = 0 ∧
    t.u.wpb = 0 ∧ t.u.wfree = 8 ∧ t.u.rpb = 0 ∧ t.u.rcnt = 0 ∧ t.u.dcur = 0 ∧ t.u.ldend = false ∧
    t.u.lcur = 0 ∧ t.u.llook = 0 ∧ t.u.lskip = 0 ∧ t.u.leof = false ∧
    t.u.nextH = 256 ∧ t.u.rootH = 511 ∧ t.u.pq = [] ∧
    (∀ b, t.u.weightAt b = 0 ∧ t.u.codeValid b = false ∧ t.u.rootOf b = none) ∧
    (∀ k, t.u.written k = false) ∧
    (∀ p, t.u.parentOf p = none ∧ t.u.leftOfD p = none ∧ t.u.rightOfD p = none ∧ t.u.isMember p = false) ∧
    t.src = s.src ∧ t.out = s.out ∧ t.params = s.params ∧ t.moves = s.moves

/-! ## Faults -/

/-- R427: while STATUS.FAULT = 1 a write to CMD other than 0x01, legal or not, only updates CMD; so DONE stays as it is. -/
def Obligations.FaultedBlockIgnoresCommands : Prop :=
  ∀ (s : State) (v : Word) (rest : List HostMove), s.status.fault = true → v ≠ 1 →
    s.moves = .writeReg 0 v :: rest → step s = .next { s with cmd := v, moves := rest }

/-- An operand outside its range faults ILLEGAL_OPERAND before any state but CMD and STATUS changes
(30_encoding.md R121, 60_exceptions.md R379). -/
def Obligations.OperandsOutOfRangeFault : Prop :=
  ∀ (s : State) (i : Instr) (v : Word), s.healthy → commandWord s.params i = some v →
    operandsInRange s.params i = false → exec i s = .next (s.checkFaulted v .illegalOperand)

/-- With the operands in range, a precondition of 60_exceptions.md R380 that fails faults STATE_ERROR before any state
but CMD and STATUS changes. -/
def Obligations.FailedPreconditionsFault : Prop :=
  ∀ (s : State) (i : Instr) (v : Word), s.healthy → commandWord s.params i = some v →
    operandsInRange s.params i = true → preconditionMet s i = false →
    exec i s = .next (s.checkFaulted v .stateError)

/-- Fault entry (60_exceptions.md R371, R372, R374, R382). The code of each fault is R372's. A fault a check or a line of
pseudocode raises ends the command, or the token, with exactly that fault's code, the opcode CMD[7:0] in FCMD, FAULT = 1
and DONE = 0, on the state the lines before it left; a check fault leaves everything but STATUS and CMD. An instruction
of a block without a pending fault that ends in one keeps SRC, SLEN and the operand registers, and the source position
and the sink where its rule does not use them. IO_ERROR: a false draw at an instruction's first access ends it with code
2 and nothing moved, and bits written past the end of the sink end it with code 2 and the sink filled to its end. -/
def Obligations.FaultEntryRecordsTheCause : Prop :=
  ([FaultCode.truncated, .ioError, .treeOverflow, .countOverflow, .refreshLost, .uninitRead, .illegalCommand,
    .illegalOperand, .stateError].map fun c => c.code.toNat) = [1, 2, 3, 4, 5, 6, 7, 8, 9] ∧
  (∀ (s : State) (v : Word) (body : Op Unit) (c : FaultCode), s.healthy →
    (∃ t, runCommand v (some c) body s = .next t ∧ t.status = ⟨false, true, c.code, v.setWidth 8⟩ ∧
      t = { s with cmd := v, status := t.status }) ∧
    (∀ q, body (s.begin v) = .error (.raised c) q →
      ∃ t, runCommand v none body s = .next t ∧ t.status = ⟨false, true, c.code, q.cmd.setWidth 8⟩ ∧ t.cmd = q.cmd ∧
        q.agree t .host ∧ q.agree t .outside ∧ q.agree t .sourcePos ∧ q.agree t .sink) ∧
    (∀ q, body s = .error (.raised c) q →
      ∃ t, runToken body s = .next t ∧ t.status = ⟨false, true, c.code, q.cmd.setWidth 8⟩ ∧ t.cmd = q.cmd ∧
        q.agree t .host ∧ q.agree t .outside ∧ q.agree t .sourcePos ∧ q.agree t .sink)) ∧
  (∀ (s t : State) (i : Instr), s.healthy → exec i s = .next t → t.status.fault = true →
    t.status.done = false ∧ (∃ c : FaultCode, t.status.fcode = c.code) ∧ t.status.fcmd = t.cmd.setWidth 8 ∧
    t.cmd = (commandWord s.params i).getD s.cmd ∧ s.agree t .host ∧ s.agree t .outside ∧
    (Group.sourcePos ∉ writeGroups i → s.agree t .sourcePos) ∧ (Group.sink ∉ writeGroups i → s.agree t .sink)) ∧
  (∀ (s : State) (rest : List Bool), s.healthy → s.io = false :: rest →
    (∀ x ∈ [(Instr.hencEncode, (0x4022 : Word)), (.hdecDecode, 0x5022), (.lencEncode, 0x9022), (.ldecDecode, 0xA022)],
      ∃ t, exec x.1 s = .next t ∧ t.readReg 6 = x.2 ∧ t.ipos = 0 ∧ t.opos = 0 ∧ t.olen = 0 ∧ t.out = s.out) ∧
    (s.u.rcnt = 0 → s.u.ldend = false →
      ∀ x ∈ [(Instr.hdecParseTree, (0x5122 : Word)), (.hdecParseCount, 0x5222), (.ldecDecodeToken, 0xA122)],
        ∃ t, exec x.1 s = .next t ∧ t.readReg 6 = x.2 ∧ s.agree t .sourcePos ∧ s.agree t .sink) ∧
    (∀ c r : Word, 1 ≤ c.toNat → c.toNat ≤ 32 → r.toNat ≤ 1 → s.u.rcnt = 0 →
      ∃ t, exec (.bsrReadBits c r) s = .next t ∧ t.readReg 6 = 0x2022 ∧ s.agree t .sourcePos) ∧
    (∀ v c f : Word, s.u.writerOk → c.toNat ≤ 32 → f.toNat ≤ 1 →
      (1 ≤ s.u.bytesFor c.toNat ∨ (f = 1 ∧ s.u.bytesFor c.toNat = 0 ∧ 1 ≤ 8 - s.u.wfree.toNat + c.toNat)) →
      ∃ t, exec (.bswWriteBits v c f) s = .next t ∧ t.readReg 6 = 0x1022 ∧ s.agree t .sink) ∧
    (∀ b, ∃ t, exec (.lzLiteral b) s = .next t ∧ t.status.fcode = 2 ∧ s.agree t .sink)) ∧
  (∀ s : State, s.healthy → s.ioFine → s.params.outSize < 2 ^ 64 → s.opos.toNat ≤ s.params.outSize →
    (∀ v c f : Word, s.u.writerOk → c.toNat ≤ 32 → f.toNat ≤ 1 →
      s.params.outSize < s.opos.toNat + s.u.bytesFor c.toNat →
      ∃ t, exec (.bswWriteBits v c f) s = .next t ∧ t.readReg 6 = 0x1022 ∧ t.opos.toNat = s.params.outSize ∧
        t.out = (s.putBytes (packBytes (s.params.outSize - s.opos.toNat)
          (s.u.pendingBits ++ wordBits c.toNat v.toNat))).out) ∧
    (s.opos.toNat = s.params.outSize →
      (∀ b, ∃ t, exec (.lzLiteral b) s = .next t ∧ t.status.fcode = 2 ∧ s.agree t .sink) ∧
      ∀ (h : Shape) (path : List Bool) (b : Byte), s.u.holds s.u.rootH h = true → h.follow path = some b →
        ∃ t, exec (.hufCode path) s = .next t ∧ t.status.fcode = 2 ∧ s.agree t .sink))

/-- A command of a block without a pending fault ends with DONE = 1 or with FAULT = 1, never both, and a command that
completes leaves FCODE and FCMD alone, BLK.RESET apart (40_block_control.md R160, 60_exceptions.md R382, R400). -/
def Obligations.CommandsEndDoneOrFaulted : Prop :=
  ∀ (s t : State) (i : Instr) (v : Word), s.healthy → commandWord s.params i = some v → exec i s = .next t →
    t.cmd = v ∧ t.status.done = !t.status.fault ∧
    (t.status.fault = false → i ≠ .blkReset → t.status.fcode = s.status.fcode ∧ t.status.fcmd = s.status.fcmd)

/-! ## The byte source, the byte sink and the window -/

/-- SrcRead, SrcSeek, SinkWrite and SinkSeek (20_memory.md R81, R83, R84, R85): a false io_ok draw faults IO_ERROR first
and moves nothing; then the range conditions; then the move. -/
def Obligations.ByteAccesses : Prop :=
  ∀ s : State,
    (∀ rest, s.io = false :: rest →
      srcRead s = .error (.raised .ioError) { s with io := rest } ∧
      (∀ d, srcSeek d s = .error (.raised .ioError) { s with io := rest }) ∧
      (∀ b, sinkWrite b s = .error (.raised .ioError) { s with io := rest }) ∧
      (∀ d, sinkSeek d s = .error (.raised .ioError) { s with io := rest })) ∧
    (s.ioFine →
      (s.ipos.toNat < s.slen.toNat →
        srcRead s = .ok (some (s.srcByte s.ipos.toNat)) { s with ipos := s.ipos + 1, io := s.io.drop 1 }) ∧
      (s.slen.toNat ≤ s.ipos.toNat → srcRead s = .ok none { s with io := s.io.drop 1 }) ∧
      (∀ d : Int, (s.ipos.toNat : Int) + d < 0 → srcSeek d s = .error (.raised .ioError) { s with io := s.io.drop 1 }) ∧
      (∀ (d : Int) (n : Word), (s.ipos.toNat : Int) + d = n.toNat →
        srcSeek d s = .ok () { s with ipos := n, io := s.io.drop 1 }) ∧
      (∀ b, s.params.outSize ≤ s.opos.toNat →
        sinkWrite b s = .error (.raised .ioError) { s with io := s.io.drop 1 }) ∧
      (∀ b, s.opos.toNat < s.params.outSize → s.params.outSize < 2 ^ 64 →
        ∃ t, sinkWrite b s = .ok () t ∧ (∀ k, t.outByte k = if k = s.opos.toNat then b else s.outByte k) ∧
          t.opos.toNat = s.opos.toNat + 1 ∧ t.olen.toNat = max s.olen.toNat t.opos.toNat ∧
          t = { s with out := t.out, opos := t.opos, olen := t.olen, io := s.io.drop 1 }) ∧
      (∀ d : Int, (s.opos.toNat : Int) + d < 0 → sinkSeek d s = .error (.raised .ioError) { s with io := s.io.drop 1 }) ∧
      (∀ (d : Int) (n : Word), (s.opos.toNat : Int) + d = n.toNat →
        sinkSeek d s = .ok () { s with opos := n, io := s.io.drop 1 }))

/-- R82: WinWr writes slot k, and W + k too when k < MAX, and marks them written; WinRd reads a written slot and raises
UNINIT_READ on any other; so a mirror slot equals its slot after any writes. -/
def Obligations.WindowMirrorsItsHead : Prop :=
  ∀ (s : State) (k : Pos) (b : Byte), s.params.wf →
    (∃ t, winWr k b s = .ok () t ∧ t = { s with u := { s.u with window := t.u.window } } ∧
      (∀ j, Memory.get t.u.window j =
        if j = k.toNat ∨ (j = Config.W + k.toNat ∧ k.toNat < s.params.maxLen) then some b
        else Memory.get s.u.window j) ∧
      ((∀ j < s.params.maxLen, Memory.get s.u.window (Config.W + j) = Memory.get s.u.window j) →
        ∀ j < s.params.maxLen, Memory.get t.u.window (Config.W + j) = Memory.get t.u.window j)) ∧
    (∀ j, (∀ v, Memory.get s.u.window j = some v → winRd j s = .ok v s) ∧
      (s.u.written j = false → winRd j s = .error (.raised .uninitRead) s))

/-! ## Invariants and frames -/

/-- The invariants hold right after power-on. -/
def Obligations.PowerOnMeetsTheInvariant : Prop := State.reset.Inv

/-- Every step keeps the stream invariants: the writer's and reader's (10_state.md R32, R34), the positions' (R35), the
window's mirror (20_memory.md R82), the sink's written prefix (R87), STATUS's (R64) and the memories' canonical form. -/
def Obligations.StepKeepsStreams : Prop :=
  ∀ s t : State, s.StreamInv → step s = .next t → t.StreamInv

/-- Every step keeps the dictionary invariant of 10_state.md R47 while no fault is pending, for every parameter set
00_scope.md R12 and R15 admit (no step changes the parameters: StepKeepsStreams). -/
def Obligations.StepKeepsDictionary : Prop :=
  ∀ s t : State, s.params.wf → (s.status.fault = false → s.u.dictOk) → step s = .next t → t.status.fault = false →
    t.u.dictOk

/-- Every step keeps the Huffman invariant while no fault is pending: PQ is empty, the root is NIL or a tree of depth at
most 255, and every valid code is a path of it (10_state.md R41, R42, R43; 42_huffman.md R225). -/
def Obligations.StepKeepsHuffmanTables : Prop :=
  ∀ s t : State, (s.status.fault = false → s.u.HuffInv) → step s = .next t → t.status.fault = false → t.u.HuffInv

/-- From a state that meets the invariant the model never stops: no step ends in a model fault, and the only refusal is
of a host move that is not in the host table (log 9, log 16). -/
def Obligations.StepNeverStops : Prop :=
  ∀ s : State, s.Inv →
    (∀ f, step s ≠ .fault f) ∧ (∀ r, step s = .refused r → r = .hostMoveNotInTable)

/-- The frame (10_state.md R72, R62, R65; R63 and 92_eei_decisions.md D43 for the results): an instruction that ends
without a fault leaves every group of state unchanged that its rule does not write; BLK.RESET apart. -/
def Obligations.UnlistedGroupsUnchanged : Prop :=
  ∀ (s t : State) (i : Instr) (g : Group), s.healthy → i ≠ .blkReset → exec i s = .next t → t.status.fault = false →
    g ∉ writeGroups i → s.agree t g

/-- The frame of OUT: an instruction stores only from OPOS on (from 0 on where it begins with the STREAM_INIT actions)
and only below the extent it leaves; every other byte of OUT reads as before (20_memory.md R84, R87). -/
def Obligations.OutBytesBelowTheStartKept : Prop :=
  ∀ (s t : State) (i : Instr) (k : Nat), s.params.outSize < 2 ^ 64 →
    exec i s = .next t → ((startsStreams i = false ∧ k < s.opos.toNat) ∨ t.olen.toNat ≤ k) →
    t.outByte k = s.outByte k

/-! ## Block control -/

/-- R163, R162: BLK.NOP only completes; BLK.STREAM_INIT resets the writer, the reader and the positions and keeps SLEN,
SRC, OUT's content and every unit table; while a fault is pending both are ignored but for CMD. -/
def Obligations.NopAndStreamInit : Prop :=
  ∀ s : State,
    (s.healthy →
      exec .blkNop s = .next { s with cmd := 0, status := s.status.complete } ∧
      exec .blkStreamInit s = .next { s with
        cmd := 2, status := s.status.complete, ipos := 0, opos := 0, olen := 0
        u := { s.u with wpb := 0, wfree := 8, rpb := 0, rcnt := 0 } }) ∧
    (s.status.fault = true →
      exec .blkNop s = .next { s with cmd := 0 } ∧ exec .blkStreamInit s = .next { s with cmd := 2 })

/-- R220, R280, R290, R350: HTB.CLEAR_WEIGHTS, WIN.CLEAR, DICT.CLEAR and LDEC.INIT complete; each clears exactly its
tables. -/
def Obligations.ClearingCommands : Prop :=
  ∀ s : State, s.healthy →
    (∃ t, exec .htbClearWeights s = .next t ∧ (∀ b, t.u.weightAt b = 0) ∧
      t = { s with cmd := 0x30, status := s.status.complete, u := { s.u with weight := t.u.weight } }) ∧
    (∃ t, exec .winClear s = .next t ∧ (∀ k, t.u.written k = false) ∧
      (∀ c, t.u.rootOf c = none) ∧
      (∀ p, t.u.isMember p = false ∧ t.u.parentOf p = none ∧ t.u.leftOfD p = none ∧ t.u.rightOfD p = none) ∧
      t = { s with cmd := 0x60, status := s.status.complete, u := { s.u with
        window := [], roots := t.u.roots, parent := t.u.parent, leftD := t.u.leftD, rightD := t.u.rightD,
        member := t.u.member } }) ∧
    (∃ t, exec .dictClear s = .next t ∧ (∀ c, t.u.rootOf c = none) ∧
      (∀ p, t.u.isMember p = false ∧ t.u.parentOf p = none ∧ t.u.leftOfD p = none ∧ t.u.rightOfD p = none) ∧
      t = { s with cmd := 0x70, status := s.status.complete, u := { s.u with
        roots := t.u.roots, parent := t.u.parent, leftD := t.u.leftD, rightD := t.u.rightD,
        member := t.u.member } }) ∧
    (∃ t, exec .ldecInit s = .next t ∧ t.u.dcur = 0 ∧ t.u.ldend = false ∧ (∀ k, t.u.written k = false) ∧
      (∀ c, t.u.rootOf c = none) ∧
      (∀ p, t.u.isMember p = false ∧ t.u.parentOf p = none ∧ t.u.leftOfD p = none ∧ t.u.rightOfD p = none) ∧
      t = { s with cmd := 0xA2, status := s.status.complete, u := { s.u with
        dcur := 0, ldend := false, window := [], roots := t.u.roots, parent := t.u.parent, leftD := t.u.leftD,
        rightD := t.u.rightD, member := t.u.member } })

/-! ## The bit streams -/

/-- WriteBits, packed as 41_bit_stream.md R181 and R185 say: the bits join the buffered ones, whole bytes go out at
OPOS, and with flush a partial byte goes out too and OPOS steps back onto it (R180, R182). -/
def Obligations.WriteBitsPacksBits : Prop :=
  ∀ (s : State) (v c : Word), s.healthy → s.ioFine → s.u.writerOk → c.toNat ≤ 32 →
    (s.room (s.u.bytesFor c.toNat) →
      exec (.bswWriteBits v c 0) s = .next ((s.begin 0x10).emit (wordBits c.toNat v.toNat)).completed) ∧
    (s.room (s.u.bytesFor (c.toNat + 7)) →
      exec (.bswWriteBits v c 1) s = .next ((s.begin 0x10).emit (wordBits c.toNat v.toNat)).flushed.completed)

/-- R183: BSW.FLUSH writes the partial byte, if any, at OPOS and steps back; with no partial byte it does nothing; a
second FLUSH leaves OUT unchanged. -/
def Obligations.FlushTwiceWritesTheSameByte : Prop :=
  ∀ s : State, s.healthy → s.ioFine → s.u.writerOk → s.room 1 →
    ∃ t t', exec .bswFlush s = .next t ∧ exec .bswFlush t = .next t' ∧
      t'.out = t.out ∧ t'.opos = s.opos ∧ t.opos = s.opos ∧ t.u = s.u ∧ t'.u = s.u ∧
      (s.u.wfree.toNat < 8 → t.outByte s.opos.toNat = s.u.wpb ∧ t.olen.toNat = max s.olen.toNat (s.opos.toNat + 1)) ∧
      (s.u.wfree = 8 → t = { s with cmd := 0x10, status := s.status.complete } ∧ t' = t)

/-- The output law step by step (41_bit_stream.md R185): whatever WriteBits writes without a fault, the output read as
one bit string grows by exactly those bits, and a flush changes none of them. -/
def Obligations.WrittenBitsAreAppended : Prop :=
  ∀ (s t : State) (v c f : Word), s.healthy → s.u.writerOk → s.params.outSize < 2 ^ 64 →
    exec (.bswWriteBits v c f) s = .next t → t.status.fault = false →
    t.outBits = s.outBits ++ wordBits c.toNat v.toNat ∧ t.u.writerOk

/-- ReadBits without refresh (R192; 41_bit_stream.md R190, R194): RES0 is the value of the next bits and RES1 their
number, exactly min(c, RCNT + 8·(SLEN - IPOS)); the rest of the stream is what is left, and at most 7 bits stay parked. -/
def Obligations.ReadBitsTakesTheNextBits : Prop :=
  ∀ (s : State) (c : Word), s.healthy → s.ioFine → s.u.readerOk → c.toNat ≤ 32 →
    exec (.bsrReadBits c 0) s = .next (((s.begin 0x20).read c.toNat).withResults
      (bitsValue (s.inBits.take c.toNat)) (min c.toNat s.inBits.length)).completed ∧
    s.inBits.length = s.u.rcnt.toNat + 8 * (s.slen.toNat - s.ipos.toNat) ∧
    (s.read c.toNat).inBits = s.inBits.drop c.toNat ∧ (s.read c.toNat).u.readerOk

/-- Refresh (41_bit_stream.md R191): with a parked byte it is read again from SRC[IPOS - 1] before the read goes on at
the same bit; with none it does nothing; when SLEN was lowered to IPOS - 1 or below it faults REFRESH_LOST. -/
def Obligations.RefreshReadsTheParkedByteAgain : Prop :=
  ∀ (s : State) (c : Word), s.healthy → s.ioFine → c.toNat ≤ 32 →
    (s.u.rcnt.toNat = 0 → exec (.bsrReadBits c 1) s = exec (.bsrReadBits c 0) s) ∧
    (1 ≤ s.u.rcnt.toNat → 1 ≤ s.ipos.toNat → s.ipos.toNat ≤ s.slen.toNat →
      exec (.bsrReadBits c 1) s = exec (.bsrReadBits c 0)
        { s with io := s.io.drop 2, u := { s.u with rpb := s.srcByte (s.ipos.toNat - 1) } }) ∧
    (1 ≤ s.u.rcnt.toNat → 1 ≤ s.ipos.toNat → s.slen.toNat < s.ipos.toNat →
      ∃ t, exec (.bsrReadBits c 1) s = .next t ∧ t.readReg 6 = 0x2052 ∧ t.ipos.toNat = s.ipos.toNat - 1)

/-! ## The Huffman tree builder -/

/-- HTB.COUNT_BYTE adds one to one weight; at 2^64 - 1 it faults COUNT_OVERFLOW (42_huffman.md R221). -/
def Obligations.CountByteAddsOne : Prop :=
  ∀ (s : State) (b : Byte), s.healthy →
    ((s.u.weightAt b).toNat + 1 < 2 ^ 64 →
      ∃ t, exec (.htbCountByte (b.setWidth 64)) s = .next t ∧
        (t.u.weightAt b).toNat = (s.u.weightAt b).toNat + 1 ∧ (∀ c, c ≠ b → t.u.weightAt c = s.u.weightAt c) ∧
        t = { s with cmd := 0x31, status := s.status.complete, u := { s.u with weight := t.u.weight } }) ∧
    ((s.u.weightAt b).toNat + 1 = 2 ^ 64 →
      ∃ t, exec (.htbCountByte (b.setWidth 64)) s = .next t ∧ t.readReg 6 = 0x3142)

/-- R223: PopMin takes the entry with the least key (weight, id) out of PQ and changes nothing else. -/
def Obligations.PopMinTakesTheLeastKey : Prop :=
  ∀ s : State, s.u.pq ≠ [] → s.u.pq.Nodup →
    ∃ x, popMin s = .ok (some x) { s with u := { s.u with pq := s.u.pq.erase x } } ∧ x ∈ s.u.pq ∧
      ∀ y ∈ s.u.pq, y ≠ x →
        s.u.weightOf x < s.u.weightOf y ∨ (s.u.weightOf x = s.u.weightOf y ∧ x.toNat < y.toNat)

/-- HTB.BUILD_TREE (42_huffman.md R222): with a total weight below 2^64 it completes; ROOT_H = RES0 is a tree whose
leaves are the present bytes, each once (the leaf 0 where none is present), whose node weights are the sums of their
leaves' weights, and whose root is the last node created; each node joins the two least keys (weight, id) of the entries
PQ held then, the least one as its left child (R223, D11); CVALID is cleared and nothing else changes. With two or more
present bytes and a total of 2^64 or more it faults COUNT_OVERFLOW. -/
def Obligations.BuildTreeJoinsThePresentBytes : Prop :=
  ∀ s : State, s.healthy →
    (s.u.weightSum s.u.present < 2 ^ 64 ∨ s.u.present.length ≤ 1 →
      ∃ (t : State) (h : Shape), exec .htbBuildTree s = .next t ∧ t.u.holds t.u.rootH h = true ∧
        h.leaves.Perm (if s.u.present = [] then [0] else s.u.present) ∧ h.depth ≤ 255 ∧
        t.u.weighed t.u.rootH h = true ∧ t.u.nextH.toNat = 256 + h.nodes ∧
        (1 ≤ h.nodes → t.u.rootH.toNat = 255 + h.nodes) ∧ (∀ k < h.nodes, t.u.joinsTheLeast k) ∧
        (∀ b, t.u.codeValid b = false) ∧
        t = { s with
          cmd := 0x32, status := s.status.complete, res0 := t.u.rootH.setWidth 64
          u := { s.u with
            leftH := t.u.leftH, rightH := t.u.rightH, nweight := t.u.nweight, nextH := t.u.nextH, rootH := t.u.rootH
            pq := [], cvalid := t.u.cvalid } }) ∧
    (2 ≤ s.u.present.length → 2 ^ 64 ≤ s.u.weightSum s.u.present →
      ∃ t, exec .htbBuildTree s = .next t ∧ t.readReg 6 = 0x3242)

/-- HTB.DERIVE_CODES (42_huffman.md R224, R225): on any tree of depth at most 255 it completes, and each leaf's code is
its path, bit j the branch at depth j, its length the depth; nothing but the code table changes. -/
def Obligations.DeriveCodesGivesEachLeafItsPath : Prop :=
  ∀ (s : State) (h : Shape), s.healthy → s.u.holds s.u.rootH h = true → h.depth ≤ 255 →
    exec .htbDeriveCodes s = .next { s with
      cmd := 0x33, status := s.status.complete, u := s.u.withCodes h.paths }

/-! ## The Huffman encoder -/

/-- HENC.EMIT_TREE writes the serialized tree (42_huffman.md R230). -/
def Obligations.EmitTreeWritesTheSerializedTree : Prop :=
  ∀ (s : State) (h : Shape), s.healthy → s.ioFine → s.u.writerOk → s.u.holds s.u.rootH h = true → h.depth ≤ 255 →
    s.room (s.u.bytesFor h.bits.length) →
    exec .hencEmitTree s = .next ((s.begin 0x41).emit h.bits).completed

/-- HENC.EMIT_COUNT writes the minimal groups of the count, low byte first (42_huffman.md R231, 30_encoding.md R132). -/
def Obligations.EmitCountWritesMinimalGroups : Prop :=
  ∀ (s : State) (n : Word), s.healthy → s.ioFine → s.u.writerOk →
    s.room (s.u.bytesFor (groupsBits (countBytes n.toNat)).length) →
    exec (.hencEmitCount n) s = .next ((s.begin 0x42).emit (groupsBits (countBytes n.toNat))).completed

/-- HENC.EMIT_CODE writes CODE[b]'s CLEN[b] low bits, lowest first (42_huffman.md R232, 41_bit_stream.md R184). -/
def Obligations.EmitCodeWritesTheCode : Prop :=
  ∀ (s : State) (b : Byte), s.healthy → s.ioFine → s.u.writerOk → s.u.codeValid b = true →
    s.room (s.u.bytesFor (s.u.codeLen b).toNat) →
    exec (.hencEmitCode (b.setWidth 64)) s =
      .next ((s.begin 0x43).emit (wordBits (s.u.codeLen b).toNat (s.u.codeOf b).toNat)).completed

/-- HENC.ENCODE (42_huffman.md R233, R234): for every source there is one tree over exactly its bytes (the leaf 0 for
an empty source) such that, wherever the sink holds it, the output is the serialized tree, the count of the source bytes
and each source byte's path, padded to a byte, RES0 = IPOS = SLEN and RES1 stays. The tree depends on the source bytes alone. -/
def Obligations.HuffmanEncodeWritesTreeCountCodes : Prop :=
  ∀ bs : List Byte, ∃ (h : Shape) (codes : List (List Bool)),
    h.leaves.Nodup ∧ (∀ b, b ∈ h.leaves ↔ (b ∈ bs ∨ (bs = [] ∧ b = 0))) ∧
    List.Forall₂ (fun b path => h.follow path = some b) bs codes ∧
    ∀ s : State, s.healthy → s.ioFine → s.params.outSize < 2 ^ 64 → s.srcBytes = bs →
      (packPadded (h.bits ++ groupsBits (countBytes bs.length) ++ codes.flatten)).length ≤ s.params.outSize →
      ∃ t, exec .hencEncode s = .next t ∧ t.status.fault = false ∧
        t.outBytes = packPadded (h.bits ++ groupsBits (countBytes bs.length) ++ codes.flatten) ∧
        t.res0 = s.slen ∧ t.res1 = s.res1 ∧ t.ipos = s.slen

/-! ## The Huffman decoder -/

/-- HDEC.PARSE_TREE on a stream that begins with a serialized tree of at most 255 internal nodes (42_huffman.md R240):
HTREE holds that tree with pre-order ids from 256, ROOT_H = RES0 is its root, CVALID is cleared, NWEIGHT and every other
state but the reader stays, and the stream goes on behind the tree. -/
def Obligations.ParseTreeReadsTheSerializedTree : Prop :=
  ∀ (s : State) (h : Shape) (rest : List Bool), s.healthy → s.ioFine → s.u.readerOk →
    s.inBits = h.bits ++ rest → h.nodes ≤ 255 →
    ∃ t, exec .hdecParseTree s = .next t ∧ t.inBits = rest ∧ t.u.rootH = h.idFrom 0 ∧ t.u.holdsFrom 0 h = true ∧
      t.u.holds t.u.rootH h = true ∧ (∀ b, t.u.codeValid b = false) ∧
      t = ({ (s.begin 0x51).consume h.bits.length with
        res0 := t.u.rootH.setWidth 64
        u := { ((s.begin 0x51).consume h.bits.length).u with
          leftH := t.u.leftH, rightH := t.u.rightH, nextH := BitVec.ofNat 10 (256 + h.nodes), rootH := t.u.rootH
          cvalid := t.u.cvalid, parseStack := [] } } : State).completed

/-- HDEC.PARSE_TREE and HDEC.PARSE_COUNT on a stream cut inside the tree or the count fault TRUNCATED; every tree of 256
or more internal nodes, and 256 internal-node flags whatever follows them, fault TREE_OVERFLOW (60_exceptions.md R373,
R375; 42_huffman.md R243). -/
def Obligations.CutTreesAndCountsFault : Prop :=
  ∀ s : State, s.healthy → s.ioFine → s.u.readerOk →
    (∀ (h : Shape) (more : List Bool), h.nodes ≤ 255 → more ≠ [] → h.bits = s.inBits ++ more →
      ∃ t, exec .hdecParseTree s = .next t ∧ t.readReg 6 = 0x5112) ∧
    (∀ (h : Shape) (rest : List Bool), 256 ≤ h.nodes → s.inBits = h.bits ++ rest →
      ∃ t, exec .hdecParseTree s = .next t ∧ t.readReg 6 = 0x5132) ∧
    (∀ rest : List Bool, s.inBits = List.replicate 256 false ++ rest →
      ∃ t, exec .hdecParseTree s = .next t ∧ t.readReg 6 = 0x5132) ∧
    (∀ (ds : List Byte) (more : List Bool), (∀ g d, 8 ≤ g → ds[g]? = some d → d = 0) → more ≠ [] →
      groupsBits ds = s.inBits ++ more → ∃ t, exec .hdecParseCount s = .next t ∧ t.readReg 6 = 0x5212)

/-- HDEC.PARSE_COUNT on a stream that begins with count groups, the data of those from index 8 on being 0
(42_huffman.md R241): RES0 is their count, minimal or not, and the stream goes on behind them. -/
def Obligations.ParseCountReadsTheGroups : Prop :=
  ∀ (s : State) (ds : List Byte) (rest : List Bool), s.healthy → s.ioFine → s.u.readerOk → ds ≠ [] →
    s.inBits = groupsBits ds ++ rest → (∀ g d, 8 ≤ g → ds[g]? = some d → d = 0) →
    ∃ t, exec .hdecParseCount s = .next t ∧ t.inBits = rest ∧ t.res0.toNat = groupsValue ds ∧
      t = ({ (s.begin 0x52).consume (groupsBits ds).length with
        res0 := t.res0
        u := { ((s.begin 0x52).consume (groupsBits ds).length).u with
          cntAcc := t.u.cntAcc, cntIdx := t.u.cntIdx, cntDone := t.u.cntDone } } : State).completed

/-- HDEC.DECODE_SYMBOL follows the stream bits from the root to a leaf and writes its byte, which is RES0; a one-leaf
tree reads no bit (42_huffman.md R242, R226). -/
def Obligations.DecodeSymbolFollowsThePath : Prop :=
  ∀ (s : State) (h : Shape) (path rest : List Bool) (b : Byte), s.healthy → s.ioFine → s.u.readerOk →
    s.u.holds s.u.rootH h = true → h.follow path = some b → s.inBits = path ++ rest → s.room 1 →
    exec .hdecDecodeSymbol s =
      .next ((((s.begin 0x53).consume path.length).putByte b).withResult b.toNat).completed

/-- HDEC.DECODE on a tree, a count and that many codes (42_huffman.md R244): the output is the coded bytes, RES0 and OLEN
their number, RES1 stays, and the bits behind the last code are not needed. -/
def Obligations.HuffmanDecodeWritesTheCodedBytes : Prop :=
  ∀ (s : State) (h : Shape) (ds : List Byte) (bs : List Byte) (codes : List (List Bool)) (rest : List Bool),
    s.healthy → s.ioFine → h.nodes ≤ 255 → ds ≠ [] → (∀ g d, 8 ≤ g → ds[g]? = some d → d = 0) →
    groupsValue ds = bs.length → List.Forall₂ (fun b path => h.follow path = some b) bs codes →
    bytesBits s.srcBytes = h.bits ++ groupsBits ds ++ codes.flatten ++ rest →
    bs.length ≤ s.params.outSize → s.params.outSize < 2 ^ 64 →
    ∃ t, exec .hdecDecode s = .next t ∧ t.status.fault = false ∧ t.outBytes = bs ∧ t.res0.toNat = bs.length ∧
      t.res1 = s.res1 ∧ t.olen.toNat = bs.length ∧ t.u.holds t.u.rootH h = true

/-- The Huffman round trip (42_huffman.md R245): when HENC.ENCODE completes and its output is the source of another run
with room for the result, HDEC.DECODE gives the first source back, whatever its length. -/
def Obligations.HuffmanRoundTrip : Prop :=
  ∀ s t r : State, s.healthy → s.ioFine → s.params.outSize < 2 ^ 64 →
    exec .hencEncode s = .next t → t.status.fault = false →
    r.healthy → r.ioFine → r.srcBytes = t.outBytes → s.slen.toNat ≤ r.params.outSize → r.params.outSize < 2 ^ 64 →
    ∃ q, exec .hdecDecode r = .next q ∧ q.status.fault = false ∧ q.outBytes = s.srcBytes ∧ q.res0 = s.slen

/-- The node tokens of a tree, carried out one after another, build that tree with pre-order ids (30_encoding.md R131,
42_huffman.md R240); one leaf is the root, or its parent's left child, or the right child that completes the tree; an
internal-node token opens the next id, and one that asks for a 256th faults TREE_OVERFLOW (60_exceptions.md R375). -/
def Obligations.TreeTokensBuildTheTree : Prop :=
  (∀ (s : State) (h : Shape), s.healthy → s.u.parseStack = [] → s.u.nextH = 256 → h.nodes ≤ 255 →
    ∃ t, h.tokens.foldl (fun (o : Host.Outcome State Fault Refusal) i =>
        match o with
        | .next q => exec i q
        | stop => stop) (.next s) = .next t ∧
      t.u.rootH = h.idFrom 0 ∧ t.u.holdsFrom 0 h = true ∧ t.u.parseStack = [] ∧
      t.u.nextH.toNat = 256 + h.nodes ∧
      t = { s with u := { s.u with
        leftH := t.u.leftH, rightH := t.u.rightH, rootH := t.u.rootH, nextH := t.u.nextH, parseStack := [] } }) ∧
  (∀ (s : State) (v : Byte), s.healthy →
    (s.u.parseStack = [] → exec (.hufTreeLeaf v) s = .next { s with u := { s.u with rootH := v.setWidth 9 } }) ∧
    (∀ (w : HId) (open_ : List ParseFrame), s.u.parseStack = .left w :: open_ → 256 ≤ w.toNat → w ≠ nilH →
      ∃ t, exec (.hufTreeLeaf v) s = .next t ∧ t.u.leftOf w = some (v.setWidth 9) ∧
        (∀ x : HId, 256 ≤ x.toNat → x ≠ w → t.u.leftOf x = s.u.leftOf x) ∧
        t = { s with u := { s.u with leftH := t.u.leftH, parseStack := .right w :: open_ } }) ∧
    (∀ w : HId, s.u.parseStack = [.right w] → 256 ≤ w.toNat → w ≠ nilH →
      ∃ t, exec (.hufTreeLeaf v) s = .next t ∧ t.u.rightOf w = some (v.setWidth 9) ∧
        (∀ x : HId, 256 ≤ x.toNat → x ≠ w → t.u.rightOf x = s.u.rightOf x) ∧
        t = { s with u := { s.u with rightH := t.u.rightH, rootH := w, parseStack := [] } })) ∧
  (∀ s : State, s.healthy →
    (s.u.nextH ≠ 511 → exec .hufTreeInternal s = .next { s with u := { s.u with
      nextH := s.u.nextH + 1, parseStack := .left (s.u.nextH.setWidth 9) :: s.u.parseStack } }) ∧
    (s.u.nextH = 511 → ∃ t, exec .hufTreeInternal s = .next t ∧
      t.status.fcode = 3 ∧ t.status.fcmd = s.cmd.setWidth 8 ∧ t.status.fault = true ∧ t.status.done = false))

/-- A count group carried out: its data are bits 8g+7..8g of the count, and from index 8 on non-zero data faults
COUNT_OVERFLOW (42_huffman.md R241); a code carried out: its leaf's byte goes to the sink (R242). -/
def Obligations.CountAndCodeTokens : Prop :=
  (∀ (s : State) (d : Byte) (last : Bool), s.healthy →
    (s.u.cntIdx < 8 → exec (.hufCountGroup d last) s = .next { s with u := { s.u with
      cntAcc := s.u.cntAcc ||| BitVec.ofNat 64 (d.toNat * 256 ^ s.u.cntIdx), cntIdx := s.u.cntIdx + 1
      cntDone := last } }) ∧
    (8 ≤ s.u.cntIdx → d = 0 → exec (.hufCountGroup d last) s = .next { s with u := { s.u with
      cntIdx := s.u.cntIdx + 1, cntDone := last } }) ∧
    (8 ≤ s.u.cntIdx → d ≠ 0 → ∃ t, exec (.hufCountGroup d last) s = .next t ∧ t.status.fcode = 4 ∧
      t.status.fault = true)) ∧
  (∀ (s : State) (h : Shape) (path : List Bool) (b : Byte), s.healthy → s.ioFine → s.u.holds s.u.rootH h = true →
    h.follow path = some b → s.room 1 → exec (.hufCode path) s = .next (s.putByte b))

/-! ## The window, the dictionary and the match finder -/

/-- WIN.WRITE on a non-member slot writes it and its mirror; WIN.READ gives a written slot's byte in RES0 and faults
UNINIT_READ on any other (43_lzss_dictionary.md R281, R282). -/
def Obligations.WindowCommandsReadWhatWasWritten : Prop :=
  (∀ (s : State) (k : Pos) (b : Byte), s.healthy → s.params.wf → s.u.isMember k = false →
    ∃ t, exec (.winWrite (k.setWidth 64) (b.setWidth 64)) s = .next t ∧
      (∀ j, Memory.get t.u.window j =
        if j = k.toNat ∨ (j = Config.W + k.toNat ∧ k.toNat < s.params.maxLen) then some b
        else Memory.get s.u.window j) ∧
      t = { s with cmd := 0x61, status := s.status.complete, u := { s.u with window := t.u.window } }) ∧
  (∀ (s : State) (k : Word), s.healthy → k.toNat < s.params.slots →
    (∀ v, Memory.get s.u.window k.toNat = some v →
      exec (.winRead k) s = .next { s with cmd := 0x62, status := s.status.complete, res0 := v.setWidth 64 }) ∧
    (s.u.written k.toNat = false → ∃ t, exec (.winRead k) s = .next t ∧ t.readReg 6 = 0x6262))

/-- DICT.REMOVE (43_lzss_dictionary.md R291, R293, R294): it completes; the position is no member and has no links; each
tree's in-order sequence is the one before with the position left out; the invariant stays, and nothing but the
dictionary changes. On a non-member nothing changes at all. -/
def Obligations.RemoveDeletesOneNode : Prop :=
  ∀ (s : State) (p : Pos), s.healthy → s.u.dictOk →
    ∃ t, exec (.dictRemove (p.setWidth 64)) s = .next t ∧ t.u.isMember p = false ∧ t.u.parentOf p = none ∧
      t.u.leftOfD p = none ∧ t.u.rightOfD p = none ∧ (∀ q, q ≠ p → t.u.isMember q = s.u.isMember q) ∧
      (∀ (c : Byte) (d : DTree), s.u.spells none (s.u.rootOf c) d = true →
        ∃ d', t.u.spells none (t.u.rootOf c) d' = true ∧ d'.inorder = d.inorder.filter fun q => q != p) ∧
      t.u.dictOk ∧ (s.u.isMember p = false → t.u = s.u) ∧
      t = { s with cmd := 0x71, status := s.status.complete, u := { s.u with
        roots := t.u.roots, parent := t.u.parent, leftD := t.u.leftD, rightD := t.u.rightD, member := t.u.member } }

/-- MF.MATCH_ADD (43_lzss_dictionary.md R300 to R303) on a non-member whose bytes, and whose tree's members' bytes, are
written: it completes and adds the position. With an empty tree the result is no match, 2^64 - 1 and 0. Otherwise it is
another member and a length of 1..len for which the bytes agree; that member is replaced exactly when the length is len.
The length is the longest agreeing prefix over the visited nodes and the member the first of them that reached it (R303
(c), D19), where the walk goes left on the smaller byte (D18); the tree is the old one with the position added at the
end of the walk or in the replaced node's place, and every other tree is as before. Nothing but the results and the
dictionary changes. -/
def Obligations.MatchAddFindsAMember : Prop :=
  ∀ (s : State) (p : Pos) (len : Nat) (c : Byte), s.healthy → s.u.dictOk → s.u.isMember p = false → 1 ≤ len →
    len ≤ s.params.maxLen → s.params.wf → Memory.get s.u.window p.toNat = some c →
    (∀ j < len, s.u.written (p.toNat + j) = true) →
    (∀ q, s.u.isMember q = true → ∀ j < len, s.u.written (q.toNat + j) = true) →
    ∃ t, exec (.mfMatchAdd (p.setWidth 64) (BitVec.ofNat 64 len)) s = .next t ∧ t.u.isMember p = true ∧ t.u.dictOk ∧
      (s.u.rootOf c = none → t.res0.toNat = 2 ^ 64 - 1 ∧ t.res1 = 0 ∧
        ∀ q, q ≠ p → t.u.isMember q = s.u.isMember q) ∧
      (s.u.rootOf c ≠ none → ∃ (q : Pos) (n : Nat), t.res0 = q.setWidth 64 ∧ t.res1.toNat = n ∧ 1 ≤ n ∧ n ≤ len ∧
        q ≠ p ∧ s.u.isMember q = true ∧
        (∀ j < n, Memory.get s.u.window (p.toNat + j) = Memory.get s.u.window (q.toNat + j)) ∧
        (∀ r, r ≠ p → r ≠ q → t.u.isMember r = s.u.isMember r) ∧ (t.u.isMember q = true ↔ n < len)) ∧
      (∀ d : DTree, s.u.spells none (s.u.rootOf c) d = true →
        t.u.spells none (t.u.rootOf c) (d.added s.u len p) = true ∧
        (s.u.rootOf c ≠ none → ∃ (q : Pos) (before after : List Pos), d.visited s.u len p = before ++ q :: after ∧
          t.res0 = q.setWidth 64 ∧ t.res1.toNat = s.u.agreeing len p q ∧
          (∀ r ∈ before, s.u.agreeing len p r < s.u.agreeing len p q) ∧
          ∀ r ∈ after, s.u.agreeing len p r ≤ s.u.agreeing len p q)) ∧
      (∀ (x : Byte) (d : DTree), x ≠ c → s.u.spells none (s.u.rootOf x) d = true →
        t.u.spells none (t.u.rootOf x) d = true) ∧
      t = { s with cmd := 0x80, status := s.status.complete, res0 := t.res0, res1 := t.res1, u := { s.u with
        roots := t.u.roots, parent := t.u.parent, leftD := t.u.leftD, rightD := t.u.rightD, member := t.u.member } }

/-- R304: after DICT.REMOVE of p, a MF.MATCH_ADD of p that completes never answers p: it answers no match or a position
that was a member when it began, which p was not. -/
def Obligations.RemovedPositionNeverMatchesItself : Prop :=
  ∀ (s t r : State) (p : Pos) (len : Word), s.healthy → s.u.dictOk →
    exec (.dictRemove (p.setWidth 64)) s = .next t → exec (.mfMatchAdd (p.setWidth 64) len) t = .next r →
    r.status.fault = false →
    t.u.isMember p = false ∧ r.res0 ≠ p.setWidth 64 ∧
    (r.res0.toNat = 2 ^ 64 - 1 ∨ ∃ q : Pos, t.u.isMember q = true ∧ q ≠ p ∧ r.res0 = q.setWidth 64)

/-! ## The LZSS coder -/

/-- LENC.EMIT_LITERAL, LENC.EMIT_REFERENCE and LENC.EMIT_SENTINEL write the token's bits (44_lzss_coder.md R330, R331,
R332; 30_encoding.md R136, R138). -/
def Obligations.LzssEmittersWriteTheirToken : Prop :=
  ∀ s : State, s.healthy → s.ioFine → s.u.writerOk →
    (∀ b : Byte, s.room (s.u.bytesFor 9) →
      exec (.lencEmitLiteral (b.setWidth 64)) s =
        .next ((s.begin 0x91).emit (tokenBits s.params (.lzLiteral b))).completed) ∧
    (∀ (p : Pos) (e : Nat), s.params.wf → e < 2 ^ s.params.lzN → s.room (s.u.bytesFor (13 + s.params.lzN)) →
      exec (.lencEmitReference (p.setWidth 64) (BitVec.ofNat 64 (e + s.params.minLen))) s =
        .next ((s.begin 0x92).emit (tokenBits s.params (.lzReference p e))).completed) ∧
    (∀ p : Pos, s.room (s.u.bytesFor 13) →
      exec (.lencEmitSentinel (p.setWidth 64)) s =
        .next ((s.begin 0x93).emit (tokenBits s.params (.lzEnd p))).completed)

/-- LENC.ENCODE (44_lzss_coder.md R340, R341, R342): for every source and length-field width there are literals and
references that stand for exactly the source bytes such that, wherever the sink holds them, the output is those tokens
and the end token at SLEN mod W, padded to a byte, RES0 = IPOS = SLEN and RES1 stays. That LCUR still holds SLEN mod W
afterwards is the model's choice (log 23): 10_state.md R48 gives LCUR no value between commands. -/
def Obligations.LzssEncodeWritesTokensForTheSource : Prop :=
  ∀ (bs : List Byte) (n : Nat), ∃ ts : List LzToken,
    ∀ s : State, s.healthy → s.ioFine → s.params.wf → s.params.lzN = n → s.srcBytes = bs →
      lzExpand s.params ts [] = some bs ∧
      ((packPadded (tokensBits s.params (ts ++ [.endToken (BitVec.ofNat 12 bs.length)]))).length ≤ s.params.outSize →
        ∃ t, exec .lencEncode s = .next t ∧ t.status.fault = false ∧
          t.outBytes = packPadded (tokensBits s.params (ts ++ [.endToken (BitVec.ofNat 12 bs.length)])) ∧
          t.res0 = s.slen ∧ t.res1 = s.res1 ∧ t.ipos = s.slen ∧ t.u.lcur = BitVec.ofNat 12 bs.length)

/-- LDEC.DECODE on tokens and their end token (44_lzss_coder.md R352, R353): the output is what the tokens stand for, RES0
and OLEN its length, DCUR its length mod W, LDEND is set, and the bits behind the end token are not needed. -/
def Obligations.LzssDecodeExpandsTheTokens : Prop :=
  ∀ (s : State) (ts : List LzToken) (bs : List Byte) (rest : List Bool), s.healthy → s.ioFine → s.params.wf →
    lzExpand s.params ts [] = some bs →
    bytesBits s.srcBytes = tokensBits s.params (ts ++ [.endToken (BitVec.ofNat 12 bs.length)]) ++ rest →
    bs.length ≤ s.params.outSize →
    ∃ t, exec .ldecDecode s = .next t ∧ t.status.fault = false ∧ t.outBytes = bs ∧ t.res0.toNat = bs.length ∧
      t.res1 = s.res1 ∧ t.olen.toNat = bs.length ∧ t.u.dcur = BitVec.ofNat 12 bs.length ∧ t.u.ldend = true

/-- The LZSS round trip (44_lzss_coder.md R355): when LENC.ENCODE completes and its output is the source of another run
with the same length field and room for the result, LDEC.DECODE gives the first source back, whatever its length. -/
def Obligations.LzssRoundTrip : Prop :=
  ∀ s t r : State, s.healthy → s.ioFine → s.params.wf → exec .lencEncode s = .next t → t.status.fault = false →
    r.healthy → r.ioFine → r.params.wf → r.params.lzN = s.params.lzN → r.srcBytes = t.outBytes →
    s.slen.toNat ≤ r.params.outSize →
    ∃ q, exec .ldecDecode r = .next q ∧ q.status.fault = false ∧ q.outBytes = s.srcBytes ∧ q.res0 = s.slen

/-- The encoders on an empty source (42_huffman.md R234, 44_lzss_coder.md R340): they complete with RES0 = 0; the
outputs are 01 00 02 and 00 00. -/
def Obligations.EmptySourceEncodes : Prop :=
  ∀ s : State, s.healthy → s.ioFine → s.slen = 0 → 3 ≤ s.params.outSize → s.params.outSize < 2 ^ 64 →
    (∃ t, exec .hencEncode s = .next t ∧ t.outBytes = [0x01, 0x00, 0x02] ∧ t.res0 = 0 ∧ t.status.fault = false) ∧
    (∃ t, exec .lencEncode s = .next t ∧ t.outBytes = [0x00, 0x00] ∧ t.res0 = 0 ∧ t.status.fault = false)

/-- LDEC.DECODE_TOKEN reads the token the stream decoder reads at the cursor and carries it out; RES0 is its kind and
RES1 the bytes written (44_lzss_coder.md R351, 30_encoding.md R137). -/
def Obligations.DecodeTokenCarriesOutTheNextToken : Prop :=
  ∀ (s : State) (k : LzToken) (rest : List Bool), s.healthy → s.ioFine → s.u.readerOk → s.u.ldend = false →
    decodeToken (.lz s.params.lzN s.u.dcur) s.inBits = .ok (k.instr, rest) →
    ((s.begin 0xA1).consume (s.inBits.length - rest.length)).tokenReady k →
    ∃ t, exec k.instr ((s.begin 0xA1).consume (s.inBits.length - rest.length)) = .next t ∧ t.status.fault = false ∧
      exec .ldecDecodeToken s = .next (t.withResults
        (match k with | .literal _ => 0 | .reference _ _ => 1 | .endToken _ => 2)
        (match k with | .literal _ => 1 | .reference _ e => s.refLength e | .endToken _ => 0)).completed

/-- The three tokens carried out by a decoder that can (44_lzss_coder.md R351, R353): a literal is one decoded byte; a
reference decodes its bytes one at a time, from the window and, past the distance, from the copy itself; the end token
sets LDEND and nothing else. -/
def Obligations.LzssTokensCarriedOut : Prop :=
  ∀ s : State, s.healthy → s.ioFine → s.params.wf →
    (∀ b, s.tokenReady (.literal b) → exec (.lzLiteral b) s = .next (s.decoded b)) ∧
    (∀ p e, s.tokenReady (.reference p e) →
      ∃ bs, bs.length = s.refLength e ∧ s.copies p bs ∧ exec (.lzReference p e) s = .next (s.decodedAll bs)) ∧
    (∀ p, s.tokenReady (.endToken p) → exec (.lzEnd p) s = .next { s with u := { s.u with ldend := true } })

/-- What the decoder cannot carry out (44_lzss_coder.md R354, 60_exceptions.md R380): a literal whose window slot is a
dictionary member faults STATE_ERROR after its byte went to the sink, and so does a reference at the first copied byte
whose slot is one, with the bytes up to that one in the sink; a reference faults UNINIT_READ at the first byte it copies
from a slot never written, with the bytes before it in the sink, so at its first byte with nothing written. -/
def Obligations.LzssTokensThatFault : Prop :=
  ∀ s : State, s.healthy → s.ioFine → s.room 1 →
    (∀ b, s.u.isMember s.u.dcur = true → ∃ t, exec (.lzLiteral b) s = .next t ∧ t.status.fault = true ∧
      t.status.fcode = 9 ∧ t.status.fcmd = s.cmd.setWidth 8 ∧ t.opos.toNat = s.opos.toNat + 1 ∧
      t.outByte s.opos.toNat = b) ∧
    (∀ (p : Pos) (e : Nat), p ≠ s.u.dcur → 1 ≤ s.refLength e → s.u.written p.toNat = false →
      ∃ t, exec (.lzReference p e) s = .next t ∧ t.status.fault = true ∧ t.status.fcode = 6 ∧
        t.out = s.out ∧ t.opos = s.opos ∧ t.olen = s.olen) ∧
    (∀ (p : Pos) (e k : Nat), p ≠ s.u.dcur → k < s.refLength e → k < (s.u.dcur - p).toNat → s.room k →
      (∀ j < k, s.u.isMember (s.u.dcur + BitVec.ofNat 12 j) = false) →
      (∀ j < k, s.u.written (p + BitVec.ofNat 12 j).toNat = true) → s.u.written (p + BitVec.ofNat 12 k).toNat = false →
      ∃ t, exec (.lzReference p e) s = .next t ∧ t.status.fault = true ∧ t.status.fcode = 6 ∧
        t.status.fcmd = s.cmd.setWidth 8 ∧ t.opos.toNat = s.opos.toNat + k ∧
        ∀ j < k, Memory.get s.u.window (p + BitVec.ofNat 12 j).toNat = some (t.outByte (s.opos.toNat + j))) ∧
    (∀ (p : Pos) (e k : Nat), p ≠ s.u.dcur → k < s.refLength e → s.room (k + 1) →
      (∀ j < k, s.u.isMember (s.u.dcur + BitVec.ofNat 12 j) = false) →
      s.u.isMember (s.u.dcur + BitVec.ofNat 12 k) = true →
      (∀ j ≤ k, j < (s.u.dcur - p).toNat → s.u.written (p + BitVec.ofNat 12 j).toNat = true) →
      ∃ (t : State) (bs : List Byte), exec (.lzReference p e) s = .next t ∧ t.status.fault = true ∧ t.status.fcode = 9 ∧
        t.status.fcmd = s.cmd.setWidth 8 ∧ t.opos.toNat = s.opos.toNat + k + 1 ∧ bs.length = k + 1 ∧ s.copies p bs ∧
        ∀ j < k + 1, bs[j]? = some (t.outByte (s.opos.toNat + j)))
end

