-- ==== Sys2Proof/Laws/Bits.lean ====
section
/-! SUPPORT. Bit strings: words as bits, bits as numbers, and packing into bytes. -/

namespace Sys2Proof

@[simp] theorem length_wordBits (k w : Nat) : (wordBits k w).length = k := by
  induction k generalizing w with
  | zero => rfl
  | succ k ih => simp [wordBits, ih]

theorem wordBits_add (a b w : Nat) : wordBits (a + b) w = wordBits a w ++ wordBits b (w / 2 ^ a) := by
  induction a generalizing w with
  | zero => simp [wordBits]
  | succ a ih =>
    rw [Nat.succ_add]
    simp [wordBits, ih, Nat.pow_succ', Nat.div_div_eq_div_mul]

/-- Only the low k bits of a word reach its k-bit field. -/
theorem wordBits_mod (k j w : Nat) (h : k ≤ j) : wordBits k (w % 2 ^ j) = wordBits k w := by
  induction k generalizing j w with
  | zero => rfl
  | succ k ih =>
    obtain ⟨j, rfl⟩ : ∃ i, j = i + 1 := ⟨j - 1, by omega⟩
    have hd : w % 2 ^ (j + 1) / 2 = w / 2 % 2 ^ j := by
      rw [Nat.pow_succ', Nat.mod_mul_right_div_self]
    have hm : w % 2 ^ (j + 1) % 2 = w % 2 := by
      rw [Nat.pow_succ', Nat.mod_mul_right_mod]
    rw [wordBits, wordBits, hd, hm, ih j _ (by omega)]

namespace Machine

theorem bitsValue_lt (bs : List Bool) : bitsValue bs < 2 ^ bs.length := by
  induction bs with
  | nil => simp [bitsValue]
  | cons b bs ih =>
    have := Bool.toNat_le b
    simp only [bitsValue, List.length_cons, Nat.pow_succ']
    omega

theorem bitsValue_append (as bs : List Bool) :
    bitsValue (as ++ bs) = bitsValue as + 2 ^ as.length * bitsValue bs := by
  induction as with
  | nil => simp [bitsValue]
  | cons a as ih =>
    simp only [List.cons_append, bitsValue, ih, List.length_cons, Nat.pow_succ']
    ring

@[simp] theorem bitsValue_wordBits (k w : Nat) : bitsValue (wordBits k w) = w % 2 ^ k := by
  induction k generalizing w with
  | zero => simp [wordBits, bitsValue, Nat.mod_one]
  | succ k ih =>
    have h := Nat.mod_mul (a := 2) (b := 2 ^ k) (x := w)
    rw [wordBits, bitsValue, ih, Nat.pow_succ', h]
    rcases Nat.mod_two_eq_zero_or_one w with h2 | h2 <;> simp [h2]

@[simp] theorem wordBits_bitsValue (bs : List Bool) : wordBits bs.length (bitsValue bs) = bs := by
  induction bs with
  | nil => rfl
  | cons b bs ih =>
    have hm : (b.toNat + 2 * bitsValue bs) % 2 = b.toNat := by
      have := Bool.toNat_le b; omega
    have hd : (b.toNat + 2 * bitsValue bs) / 2 = bitsValue bs := by
      have := Bool.toNat_le b; omega
    rw [List.length_cons, wordBits, bitsValue, hm, hd, ih]
    cases b <;> rfl

theorem wordBits_of_length {bs : List Bool} {k : Nat} (h : bs.length = k) : wordBits k (bitsValue bs) = bs := by
  subst h; exact wordBits_bitsValue bs

@[simp] theorem length_packBytes (n : Nat) (bits : List Bool) : (packBytes n bits).length = n := by
  induction n generalizing bits with
  | zero => rfl
  | succ n ih => simp [packBytes, ih]

/-- Packing a whole number of bytes splits at any byte. -/
theorem packBytes_add (n m : Nat) (bits : List Bool) :
    packBytes (n + m) bits = packBytes n bits ++ packBytes m (bits.drop (8 * n)) := by
  induction n generalizing bits with
  | zero => simp [packBytes]
  | succ n ih =>
    rw [show n + 1 + m = (n + m) + 1 by omega]
    simp only [packBytes, ih, List.drop_drop, List.cons_append]
    rw [show 8 * (n + 1) = 8 + 8 * n by omega]

/-- Bits past the packed bytes do not matter. -/
theorem packBytes_append (n : Nat) (bits more : List Bool) (h : 8 * n ≤ bits.length) :
    packBytes n (bits ++ more) = packBytes n bits := by
  induction n generalizing bits with
  | zero => rfl
  | succ n ih =>
    simp only [packBytes]
    rw [List.take_append_of_le_length (by omega), List.drop_append_of_le_length (by omega), ih _ (by simp; omega)]

@[simp] theorem bytesBits_nil : bytesBits [] = [] := rfl

@[simp] theorem bytesBits_cons (b : Byte) (bs : List Byte) :
    bytesBits (b :: bs) = wordBits 8 b.toNat ++ bytesBits bs := rfl

@[simp] theorem bytesBits_append (as bs : List Byte) : bytesBits (as ++ bs) = bytesBits as ++ bytesBits bs := by
  simp [bytesBits]

@[simp] theorem length_bytesBits (bs : List Byte) : (bytesBits bs).length = 8 * bs.length := by
  induction bs with
  | nil => rfl
  | cons b bs ih => simp [ih]; omega

/-- Unpacking packed bytes gives the bits back. -/
theorem bytesBits_packBytes (n : Nat) (bits : List Bool) (h : 8 * n ≤ bits.length) :
    bytesBits (packBytes n bits) = bits.take (8 * n) := by
  induction n generalizing bits with
  | zero => simp [packBytes]
  | succ n ih =>
    have h8 : (bits.take 8).length = 8 := by simp; omega
    have hlt := bitsValue_lt (bits.take 8)
    rw [h8] at hlt
    rw [packBytes, bytesBits_cons, ih _ (by simp; omega), BitVec.toNat_ofNat, Nat.mod_eq_of_lt hlt,
      wordBits_of_length h8, show 8 * (n + 1) = 8 + 8 * n by omega, List.take_add]

/-- A padded packing, unpacked, is the bits followed by zeros. -/
theorem bytesBits_packPadded (bits : List Bool) :
    ∃ pad, bytesBits (packPadded bits) = bits ++ pad := by
  have key : ∀ (n : Nat) (bs : List Bool), bs.length ≤ 8 * n → ∃ pad, bytesBits (packBytes n bs) = bs ++ pad := by
    intro n
    induction n with
    | zero => intro bs h; exact ⟨[], by simp at h; simp [h, packBytes]⟩
    | succ n ih =>
      intro bs h
      by_cases h8 : 8 ≤ bs.length
      · obtain ⟨pad, hp⟩ := ih (bs.drop 8) (by simp; omega)
        refine ⟨pad, ?_⟩
        have hl : (bs.take 8).length = 8 := by simp; omega
        have hlt := bitsValue_lt (bs.take 8)
        rw [hl] at hlt
        rw [packBytes, bytesBits_cons, hp, BitVec.toNat_ofNat, Nat.mod_eq_of_lt hlt, wordBits_of_length hl,
          ← List.append_assoc, List.take_append_drop]
      · obtain ⟨pad, hp⟩ := ih (bs.drop 8) (by simp; omega)
        have ht : bs.take 8 = bs := List.take_of_length_le (by omega)
        have hlt := bitsValue_lt bs
        have hlt8 : bitsValue bs < 2 ^ 8 := lt_of_lt_of_le hlt (Nat.pow_le_pow_right (by omega) (by omega))
        obtain ⟨j, hj⟩ : ∃ j, 8 = bs.length + j := ⟨8 - bs.length, by omega⟩
        refine ⟨wordBits j (bitsValue bs / 2 ^ bs.length) ++ bytesBits (packBytes n (bs.drop 8)), ?_⟩
        rw [packBytes, bytesBits_cons, ht, BitVec.toNat_ofNat, Nat.mod_eq_of_lt hlt8]
        conv_lhs => rw [hj, wordBits_add, wordBits_bitsValue]
        rw [← hj, List.append_assoc]
  exact key _ bits (by omega)

end Machine

end Sys2Proof
end

