-- ==== Sys2Proof/Laws/Memory.lean ====
section
/-! SUPPORT. Byte memories: read after write, and every operation keeps the canonical form and the address bound. -/

namespace Sys2Proof.Machine

/-- A read after a write: the byte at the written address, the old contents everywhere else. -/
@[simp] theorem Memory.get_write (m : Memory) (a k : Nat) (b : Byte) :
    Memory.get (Memory.write m a b) k = if k = a then some b else Memory.get m k := by
  induction m with
  | nil => simp [Memory.write, Memory.get, eq_comm]
  | cons c rest ih =>
    obtain ⟨k', v⟩ := c
    simp only [Memory.write]
    split
    · by_cases h : k = a
      · subst h; simp [Memory.get]
      · simp [Memory.get, h, Ne.symm h]
    · split
      · subst_vars
        by_cases h : k = k'
        · subst h; simp [Memory.get]
        · simp [Memory.get, h, Ne.symm h]
      · simp only [Memory.get, ih]
        by_cases h : k' = k
        · subst h
          rw [if_pos rfl, if_neg (by omega), if_pos rfl]
        · rw [if_neg h, if_neg h]

/-- Writing the same byte again changes nothing. -/
theorem Memory.write_write (m : Memory) (a : Nat) (b c : Byte) :
    Memory.write (Memory.write m a b) a c = Memory.write m a c := by
  induction m with
  | nil => simp [Memory.write]
  | cons x rest ih =>
    obtain ⟨k, v⟩ := x
    simp only [Memory.write]
    split
    · simp [Memory.write]
    · split
      · simp [Memory.write]
      · rename_i h1 h2
        simp [Memory.write, h1, h2, ih]

theorem Memory.mem_write {m : Memory} {a : Nat} {b : Byte} {c : Host.Cell} (h : c ∈ Memory.write m a b) :
    c = (a, b) ∨ c ∈ m := by
  induction m with
  | nil => simp [Memory.write] at h; exact .inl h
  | cons x rest ih =>
    obtain ⟨k, v⟩ := x
    simp only [Memory.write] at h
    split at h
    · simpa using h
    · split at h
      · rcases List.mem_cons.mp h with h | h
        · exact .inl h
        · exact .inr (List.mem_cons_of_mem _ h)
      · rcases List.mem_cons.mp h with h | h
        · exact .inr (h ▸ List.mem_cons_self)
        · exact (ih h).imp id (List.mem_cons_of_mem _)

/-- A write keeps the addresses strictly rising. -/
theorem Memory.wf_write {m : Memory} (h : Memory.wf m) (a : Nat) (b : Byte) : Memory.wf (Memory.write m a b) := by
  induction m with
  | nil => exact List.pairwise_singleton _ _
  | cons x rest ih =>
    obtain ⟨k, v⟩ := x
    rw [Memory.wf, List.map_cons, List.pairwise_cons] at h
    obtain ⟨hk, hr⟩ := h
    simp only [Memory.write]
    split
    · rename_i hlt
      rw [Memory.wf, List.map_cons, List.map_cons, List.pairwise_cons]
      refine ⟨fun y hy => ?_, List.pairwise_cons.mpr ⟨hk, hr⟩⟩
      rcases List.mem_cons.mp hy with rfl | hy
      · exact hlt
      · exact lt_trans hlt (hk y hy)
    · split
      · subst_vars
        exact List.pairwise_cons.mpr ⟨hk, hr⟩
      · refine List.pairwise_cons.mpr ⟨fun y hy => ?_, ih hr⟩
        obtain ⟨c, hc, rfl⟩ := List.mem_map.mp hy
        rcases Memory.mem_write hc with rfl | hc
        · show k < a; omega
        · exact hk _ (List.mem_map_of_mem hc)

/-- A write below a bound keeps all addresses below it. -/
theorem Memory.bound_write {m : Memory} {n a : Nat} (h : ∀ c ∈ m, c.1 < n) (ha : a < n) (b : Byte) :
    ∀ c ∈ Memory.write m a b, c.1 < n := by
  intro c hc
  rcases Memory.mem_write hc with rfl | hc
  · exact ha
  · exact h c hc

theorem Memory.wf_ofCells (n : Nat) (cells : List Host.Cell) : Memory.wf (Memory.ofCells n cells) := by
  induction cells with
  | nil => exact List.Pairwise.nil
  | cons c rest ih =>
    simp only [Memory.ofCells]
    split
    · exact Memory.wf_write ih _ _
    · exact ih

theorem Memory.bound_ofCells (n : Nat) (cells : List Host.Cell) : ∀ c ∈ Memory.ofCells n cells, c.1 < n := by
  induction cells with
  | nil => simp [Memory.ofCells]
  | cons c rest ih =>
    simp only [Memory.ofCells]
    split
    · rename_i hlt
      exact Memory.bound_write ih hlt _
    · exact ih

/-- The memories of the state after power-on are in canonical form. -/
theorem State.reset_memories_wf :
    Memory.wf State.reset.src ∧ Memory.wf State.reset.out ∧ Memory.wf State.reset.u.window :=
  ⟨List.Pairwise.nil, List.Pairwise.nil, List.Pairwise.nil⟩

/-- The window of an unspecified unit state is in canonical form, within the window's slots. -/
theorem freeUnits_window (P : Config.Params) (n : Nat) :
    Memory.wf (freeUnits P n).window ∧ ∀ c ∈ (freeUnits P n).window, c.1 < P.slots :=
  ⟨Memory.wf_ofCells _ _, Memory.bound_ofCells _ _⟩

/-- WinWr in terms of reads (20_memory.md R82). -/
theorem Units.get_winWr (P : Config.Params) (k : Pos) (b : Byte) (u : Units) (j : Nat) :
    Memory.get (u.winWr P k b).window j =
      if j = k.toNat ∨ (j = Config.W + k.toNat ∧ k.toNat < P.maxLen) then some b else Memory.get u.window j := by
  simp only [Units.winWr]
  split
  · rename_i h
    rw [Memory.get_write, Memory.get_write]
    by_cases h1 : j = Config.W + k.toNat
    · simp [h1, h]
    · by_cases h2 : j = k.toNat <;> simp [h1, h2]
  · rename_i h
    rw [Memory.get_write]
    by_cases h2 : j = k.toNat <;> simp [h2, h]

/-- WinWr keeps the window in canonical form, within its slots. -/
theorem Units.winWr_window {P : Config.Params} {u : Units} (k : Pos) (b : Byte)
    (h : Memory.wf u.window ∧ ∀ c ∈ u.window, c.1 < P.slots) :
    Memory.wf (u.winWr P k b).window ∧ ∀ c ∈ (u.winWr P k b).window, c.1 < P.slots := by
  have hk := Pos.lt k
  have h1 : k.toNat < P.slots := by simp only [Config.Params.slots, Config.W]; omega
  simp only [Units.winWr]
  split
  · rename_i hlt
    have h2 : Config.W + k.toNat < P.slots := by simp only [Config.Params.slots]; omega
    exact ⟨Memory.wf_write (Memory.wf_write h.1 _ _) _ _, Memory.bound_write (Memory.bound_write h.2 h1 _) h2 _⟩
  · exact ⟨Memory.wf_write h.1 _ _, Memory.bound_write h.2 h1 _⟩

/-- MAX is below W for every length-field width the spec admits (00_scope.md R12). -/
theorem maxLen_lt {P : Config.Params} (h : P.wf) : P.maxLen < Config.W := by
  obtain ⟨⟨h1, h2⟩, -⟩ := h
  have : 2 ^ P.lzN ≤ 2 ^ 11 := Nat.pow_le_pow_right (by omega) h2
  simp only [Config.Params.maxLen, Config.Params.minLen, Config.M, Config.W]
  omega

end Sys2Proof.Machine
end

