-- ==== Sys2Proof/Laws/State.lean ====
section
/-! SUPPORT. What each named update of the state leaves alone: one lemma per field per update, and what a table entry reads after a table write. -/

namespace Sys2Proof.Machine

/-! ## Updates of the whole state -/

@[simp] theorem State.begin_params (v : Word) (s : State) : (s.begin v).params = s.params := rfl
@[simp] theorem State.begin_arg0 (v : Word) (s : State) : (s.begin v).arg0 = s.arg0 := rfl
@[simp] theorem State.begin_arg1 (v : Word) (s : State) : (s.begin v).arg1 = s.arg1 := rfl
@[simp] theorem State.begin_arg2 (v : Word) (s : State) : (s.begin v).arg2 = s.arg2 := rfl
@[simp] theorem State.begin_res0 (v : Word) (s : State) : (s.begin v).res0 = s.res0 := rfl
@[simp] theorem State.begin_res1 (v : Word) (s : State) : (s.begin v).res1 = s.res1 := rfl
@[simp] theorem State.begin_slen (v : Word) (s : State) : (s.begin v).slen = s.slen := rfl
@[simp] theorem State.begin_ipos (v : Word) (s : State) : (s.begin v).ipos = s.ipos := rfl
@[simp] theorem State.begin_opos (v : Word) (s : State) : (s.begin v).opos = s.opos := rfl
@[simp] theorem State.begin_olen (v : Word) (s : State) : (s.begin v).olen = s.olen := rfl
@[simp] theorem State.begin_src (v : Word) (s : State) : (s.begin v).src = s.src := rfl
@[simp] theorem State.begin_out (v : Word) (s : State) : (s.begin v).out = s.out := rfl
@[simp] theorem State.begin_u (v : Word) (s : State) : (s.begin v).u = s.u := rfl
@[simp] theorem State.begin_moves (v : Word) (s : State) : (s.begin v).moves = s.moves := rfl
@[simp] theorem State.begin_io (v : Word) (s : State) : (s.begin v).io = s.io := rfl
@[simp] theorem State.begin_freeIdx (v : Word) (s : State) : (s.begin v).freeIdx = s.freeIdx := rfl

@[simp] theorem State.begin_cmd (v : Word) (s : State) : (s.begin v).cmd = v := rfl
@[simp] theorem State.begin_status (v : Word) (s : State) : (s.begin v).status = s.status.begin := rfl

@[simp] theorem State.streamInit_params (s : State) : (s.streamInit).params = s.params := rfl
@[simp] theorem State.streamInit_cmd (s : State) : (s.streamInit).cmd = s.cmd := rfl
@[simp] theorem State.streamInit_arg0 (s : State) : (s.streamInit).arg0 = s.arg0 := rfl
@[simp] theorem State.streamInit_arg1 (s : State) : (s.streamInit).arg1 = s.arg1 := rfl
@[simp] theorem State.streamInit_arg2 (s : State) : (s.streamInit).arg2 = s.arg2 := rfl
@[simp] theorem State.streamInit_res0 (s : State) : (s.streamInit).res0 = s.res0 := rfl
@[simp] theorem State.streamInit_res1 (s : State) : (s.streamInit).res1 = s.res1 := rfl
@[simp] theorem State.streamInit_status (s : State) : (s.streamInit).status = s.status := rfl
@[simp] theorem State.streamInit_slen (s : State) : (s.streamInit).slen = s.slen := rfl
@[simp] theorem State.streamInit_src (s : State) : (s.streamInit).src = s.src := rfl
@[simp] theorem State.streamInit_out (s : State) : (s.streamInit).out = s.out := rfl
@[simp] theorem State.streamInit_moves (s : State) : (s.streamInit).moves = s.moves := rfl
@[simp] theorem State.streamInit_io (s : State) : (s.streamInit).io = s.io := rfl
@[simp] theorem State.streamInit_freeIdx (s : State) : (s.streamInit).freeIdx = s.freeIdx := rfl

@[simp] theorem State.streamInit_ipos (s : State) : s.streamInit.ipos = 0 := rfl
@[simp] theorem State.streamInit_opos (s : State) : s.streamInit.opos = 0 := rfl
@[simp] theorem State.streamInit_olen (s : State) : s.streamInit.olen = 0 := rfl
@[simp] theorem State.streamInit_u (s : State) :
    s.streamInit.u = { s.u with wpb := 0, wfree := 8, rpb := 0, rcnt := 0 } := rfl

@[simp] theorem State.writeSlen_params (v : Word) (s : State) : (s.writeSlen v).params = s.params := rfl
@[simp] theorem State.writeSlen_cmd (v : Word) (s : State) : (s.writeSlen v).cmd = s.cmd := rfl
@[simp] theorem State.writeSlen_arg0 (v : Word) (s : State) : (s.writeSlen v).arg0 = s.arg0 := rfl
@[simp] theorem State.writeSlen_arg1 (v : Word) (s : State) : (s.writeSlen v).arg1 = s.arg1 := rfl
@[simp] theorem State.writeSlen_arg2 (v : Word) (s : State) : (s.writeSlen v).arg2 = s.arg2 := rfl
@[simp] theorem State.writeSlen_res0 (v : Word) (s : State) : (s.writeSlen v).res0 = s.res0 := rfl
@[simp] theorem State.writeSlen_res1 (v : Word) (s : State) : (s.writeSlen v).res1 = s.res1 := rfl
@[simp] theorem State.writeSlen_status (v : Word) (s : State) : (s.writeSlen v).status = s.status := rfl
@[simp] theorem State.writeSlen_ipos (v : Word) (s : State) : (s.writeSlen v).ipos = s.ipos := rfl
@[simp] theorem State.writeSlen_opos (v : Word) (s : State) : (s.writeSlen v).opos = s.opos := rfl
@[simp] theorem State.writeSlen_olen (v : Word) (s : State) : (s.writeSlen v).olen = s.olen := rfl
@[simp] theorem State.writeSlen_src (v : Word) (s : State) : (s.writeSlen v).src = s.src := rfl
@[simp] theorem State.writeSlen_out (v : Word) (s : State) : (s.writeSlen v).out = s.out := rfl
@[simp] theorem State.writeSlen_u (v : Word) (s : State) : (s.writeSlen v).u = s.u := rfl
@[simp] theorem State.writeSlen_moves (v : Word) (s : State) : (s.writeSlen v).moves = s.moves := rfl
@[simp] theorem State.writeSlen_io (v : Word) (s : State) : (s.writeSlen v).io = s.io := rfl
@[simp] theorem State.writeSlen_freeIdx (v : Word) (s : State) : (s.writeSlen v).freeIdx = s.freeIdx := rfl

@[simp] theorem State.blockReset_params (s : State) : (s.blockReset).params = s.params := rfl
@[simp] theorem State.blockReset_src (s : State) : (s.blockReset).src = s.src := rfl
@[simp] theorem State.blockReset_out (s : State) : (s.blockReset).out = s.out := rfl
@[simp] theorem State.blockReset_moves (s : State) : (s.blockReset).moves = s.moves := rfl
@[simp] theorem State.blockReset_io (s : State) : (s.blockReset).io = s.io := rfl

@[simp] theorem State.blockReset_cmd (s : State) : s.blockReset.cmd = 1 := rfl
@[simp] theorem State.blockReset_arg0 (s : State) : s.blockReset.arg0 = 0 := rfl
@[simp] theorem State.blockReset_arg1 (s : State) : s.blockReset.arg1 = 0 := rfl
@[simp] theorem State.blockReset_arg2 (s : State) : s.blockReset.arg2 = 0 := rfl
@[simp] theorem State.blockReset_res0 (s : State) : s.blockReset.res0 = 0 := rfl
@[simp] theorem State.blockReset_res1 (s : State) : s.blockReset.res1 = 0 := rfl
@[simp] theorem State.blockReset_status (s : State) : s.blockReset.status = Status.clear.complete := rfl
@[simp] theorem State.blockReset_slen (s : State) : s.blockReset.slen = 0 := rfl
@[simp] theorem State.blockReset_ipos (s : State) : s.blockReset.ipos = 0 := rfl
@[simp] theorem State.blockReset_opos (s : State) : s.blockReset.opos = 0 := rfl
@[simp] theorem State.blockReset_olen (s : State) : s.blockReset.olen = 0 := rfl
@[simp] theorem State.blockReset_u (s : State) : s.blockReset.u = resetUnits s.freeIdx := rfl
@[simp] theorem State.blockReset_freeIdx (s : State) : s.blockReset.freeIdx = s.freeIdx + 1 := rfl

@[simp] theorem State.checkFault_params (c : FaultCode) (s : State) : (s.faultEntry .check c).params = s.params := rfl
@[simp] theorem State.checkFault_cmd (c : FaultCode) (s : State) : (s.faultEntry .check c).cmd = s.cmd := rfl
@[simp] theorem State.checkFault_arg0 (c : FaultCode) (s : State) : (s.faultEntry .check c).arg0 = s.arg0 := rfl
@[simp] theorem State.checkFault_arg1 (c : FaultCode) (s : State) : (s.faultEntry .check c).arg1 = s.arg1 := rfl
@[simp] theorem State.checkFault_arg2 (c : FaultCode) (s : State) : (s.faultEntry .check c).arg2 = s.arg2 := rfl
@[simp] theorem State.checkFault_res0 (c : FaultCode) (s : State) : (s.faultEntry .check c).res0 = s.res0 := rfl
@[simp] theorem State.checkFault_res1 (c : FaultCode) (s : State) : (s.faultEntry .check c).res1 = s.res1 := rfl
@[simp] theorem State.checkFault_slen (c : FaultCode) (s : State) : (s.faultEntry .check c).slen = s.slen := rfl
@[simp] theorem State.checkFault_ipos (c : FaultCode) (s : State) : (s.faultEntry .check c).ipos = s.ipos := rfl
@[simp] theorem State.checkFault_opos (c : FaultCode) (s : State) : (s.faultEntry .check c).opos = s.opos := rfl
@[simp] theorem State.checkFault_olen (c : FaultCode) (s : State) : (s.faultEntry .check c).olen = s.olen := rfl
@[simp] theorem State.checkFault_src (c : FaultCode) (s : State) : (s.faultEntry .check c).src = s.src := rfl
@[simp] theorem State.checkFault_out (c : FaultCode) (s : State) : (s.faultEntry .check c).out = s.out := rfl
@[simp] theorem State.checkFault_u (c : FaultCode) (s : State) : (s.faultEntry .check c).u = s.u := rfl
@[simp] theorem State.checkFault_moves (c : FaultCode) (s : State) : (s.faultEntry .check c).moves = s.moves := rfl
@[simp] theorem State.checkFault_io (c : FaultCode) (s : State) : (s.faultEntry .check c).io = s.io := rfl
@[simp] theorem State.checkFault_freeIdx (c : FaultCode) (s : State) : (s.faultEntry .check c).freeIdx = s.freeIdx := rfl
@[simp] theorem State.faultEntry_status (g : Stage) (c : FaultCode) (s : State) :
    (s.faultEntry g c).status = s.status.enterFault c s.opcode := by cases g <;> rfl

@[simp] theorem State.execFault_params (c : FaultCode) (s : State) : (s.faultEntry .execution c).params = s.params := rfl
@[simp] theorem State.execFault_cmd (c : FaultCode) (s : State) : (s.faultEntry .execution c).cmd = s.cmd := rfl
@[simp] theorem State.execFault_arg0 (c : FaultCode) (s : State) : (s.faultEntry .execution c).arg0 = s.arg0 := rfl
@[simp] theorem State.execFault_arg1 (c : FaultCode) (s : State) : (s.faultEntry .execution c).arg1 = s.arg1 := rfl
@[simp] theorem State.execFault_arg2 (c : FaultCode) (s : State) : (s.faultEntry .execution c).arg2 = s.arg2 := rfl
@[simp] theorem State.execFault_slen (c : FaultCode) (s : State) : (s.faultEntry .execution c).slen = s.slen := rfl
@[simp] theorem State.execFault_ipos (c : FaultCode) (s : State) : (s.faultEntry .execution c).ipos = s.ipos := rfl
@[simp] theorem State.execFault_opos (c : FaultCode) (s : State) : (s.faultEntry .execution c).opos = s.opos := rfl
@[simp] theorem State.execFault_olen (c : FaultCode) (s : State) : (s.faultEntry .execution c).olen = s.olen := rfl
@[simp] theorem State.execFault_src (c : FaultCode) (s : State) : (s.faultEntry .execution c).src = s.src := rfl
@[simp] theorem State.execFault_out (c : FaultCode) (s : State) : (s.faultEntry .execution c).out = s.out := rfl
@[simp] theorem State.execFault_moves (c : FaultCode) (s : State) : (s.faultEntry .execution c).moves = s.moves := rfl
@[simp] theorem State.execFault_io (c : FaultCode) (s : State) : (s.faultEntry .execution c).io = s.io := rfl
@[simp] theorem State.execFault_u (c : FaultCode) (s : State) :
    (s.faultEntry .execution c).u = freeUnits s.params s.freeIdx := rfl
@[simp] theorem State.execFault_freeIdx (c : FaultCode) (s : State) :
    (s.faultEntry .execution c).freeIdx = s.freeIdx + 1 := rfl

@[simp] theorem Status.enterFault_fault (c : FaultCode) (op : BitVec 8) (t : Status) : (t.enterFault c op).fault = true := rfl
@[simp] theorem Status.enterFault_done (c : FaultCode) (op : BitVec 8) (t : Status) : (t.enterFault c op).done = false := rfl
@[simp] theorem Status.enterFault_fcode (c : FaultCode) (op : BitVec 8) (t : Status) : (t.enterFault c op).fcode = c.code := rfl
@[simp] theorem Status.enterFault_fcmd (c : FaultCode) (op : BitVec 8) (t : Status) : (t.enterFault c op).fcmd = op := rfl
@[simp] theorem Status.begin_fault (t : Status) : t.begin.fault = t.fault := rfl
@[simp] theorem Status.begin_done (t : Status) : t.begin.done = false := rfl
@[simp] theorem Status.begin_fcode (t : Status) : t.begin.fcode = t.fcode := rfl
@[simp] theorem Status.begin_fcmd (t : Status) : t.begin.fcmd = t.fcmd := rfl
@[simp] theorem Status.complete_fault (t : Status) : t.complete.fault = t.fault := rfl
@[simp] theorem Status.complete_done (t : Status) : t.complete.done = true := rfl
@[simp] theorem Status.complete_fcode (t : Status) : t.complete.fcode = t.fcode := rfl
@[simp] theorem Status.complete_fcmd (t : Status) : t.complete.fcmd = t.fcmd := rfl
@[simp] theorem Status.begin_complete (t : Status) : t.begin.complete = t.complete := rfl

/-! ## Updates of the unit state -/

@[simp] theorem Units.bufferBits_rpb (v k : Nat) (u : Units) : (u.bufferBits v k).rpb = u.rpb := rfl
@[simp] theorem Units.bufferBits_rcnt (v k : Nat) (u : Units) : (u.bufferBits v k).rcnt = u.rcnt := rfl
@[simp] theorem Units.bufferBits_dcur (v k : Nat) (u : Units) : (u.bufferBits v k).dcur = u.dcur := rfl
@[simp] theorem Units.bufferBits_ldend (v k : Nat) (u : Units) : (u.bufferBits v k).ldend = u.ldend := rfl
@[simp] theorem Units.bufferBits_weight (v k : Nat) (u : Units) : (u.bufferBits v k).weight = u.weight := rfl
@[simp] theorem Units.bufferBits_leftH (v k : Nat) (u : Units) : (u.bufferBits v k).leftH = u.leftH := rfl
@[simp] theorem Units.bufferBits_rightH (v k : Nat) (u : Units) : (u.bufferBits v k).rightH = u.rightH := rfl
@[simp] theorem Units.bufferBits_nweight (v k : Nat) (u : Units) : (u.bufferBits v k).nweight = u.nweight := rfl
@[simp] theorem Units.bufferBits_nextH (v k : Nat) (u : Units) : (u.bufferBits v k).nextH = u.nextH := rfl
@[simp] theorem Units.bufferBits_rootH (v k : Nat) (u : Units) : (u.bufferBits v k).rootH = u.rootH := rfl
@[simp] theorem Units.bufferBits_pq (v k : Nat) (u : Units) : (u.bufferBits v k).pq = u.pq := rfl
@[simp] theorem Units.bufferBits_code (v k : Nat) (u : Units) : (u.bufferBits v k).code = u.code := rfl
@[simp] theorem Units.bufferBits_clen (v k : Nat) (u : Units) : (u.bufferBits v k).clen = u.clen := rfl
@[simp] theorem Units.bufferBits_cvalid (v k : Nat) (u : Units) : (u.bufferBits v k).cvalid = u.cvalid := rfl
@[simp] theorem Units.bufferBits_window (v k : Nat) (u : Units) : (u.bufferBits v k).window = u.window := rfl
@[simp] theorem Units.bufferBits_roots (v k : Nat) (u : Units) : (u.bufferBits v k).roots = u.roots := rfl
@[simp] theorem Units.bufferBits_parent (v k : Nat) (u : Units) : (u.bufferBits v k).parent = u.parent := rfl
@[simp] theorem Units.bufferBits_leftD (v k : Nat) (u : Units) : (u.bufferBits v k).leftD = u.leftD := rfl
@[simp] theorem Units.bufferBits_rightD (v k : Nat) (u : Units) : (u.bufferBits v k).rightD = u.rightD := rfl
@[simp] theorem Units.bufferBits_member (v k : Nat) (u : Units) : (u.bufferBits v k).member = u.member := rfl
@[simp] theorem Units.bufferBits_lcur (v k : Nat) (u : Units) : (u.bufferBits v k).lcur = u.lcur := rfl
@[simp] theorem Units.bufferBits_llook (v k : Nat) (u : Units) : (u.bufferBits v k).llook = u.llook := rfl
@[simp] theorem Units.bufferBits_lskip (v k : Nat) (u : Units) : (u.bufferBits v k).lskip = u.lskip := rfl
@[simp] theorem Units.bufferBits_leof (v k : Nat) (u : Units) : (u.bufferBits v k).leof = u.leof := rfl
@[simp] theorem Units.bufferBits_parseStack (v k : Nat) (u : Units) : (u.bufferBits v k).parseStack = u.parseStack := rfl
@[simp] theorem Units.bufferBits_cntAcc (v k : Nat) (u : Units) : (u.bufferBits v k).cntAcc = u.cntAcc := rfl
@[simp] theorem Units.bufferBits_cntIdx (v k : Nat) (u : Units) : (u.bufferBits v k).cntIdx = u.cntIdx := rfl
@[simp] theorem Units.bufferBits_cntDone (v k : Nat) (u : Units) : (u.bufferBits v k).cntDone = u.cntDone := rfl

@[simp] theorem Units.setLeftH_wpb (t x : HId) (u : Units) : (u.setLeftH t x).wpb = u.wpb := rfl
@[simp] theorem Units.setLeftH_wfree (t x : HId) (u : Units) : (u.setLeftH t x).wfree = u.wfree := rfl
@[simp] theorem Units.setLeftH_rpb (t x : HId) (u : Units) : (u.setLeftH t x).rpb = u.rpb := rfl
@[simp] theorem Units.setLeftH_rcnt (t x : HId) (u : Units) : (u.setLeftH t x).rcnt = u.rcnt := rfl
@[simp] theorem Units.setLeftH_dcur (t x : HId) (u : Units) : (u.setLeftH t x).dcur = u.dcur := rfl
@[simp] theorem Units.setLeftH_ldend (t x : HId) (u : Units) : (u.setLeftH t x).ldend = u.ldend := rfl
@[simp] theorem Units.setLeftH_weight (t x : HId) (u : Units) : (u.setLeftH t x).weight = u.weight := rfl
@[simp] theorem Units.setLeftH_rightH (t x : HId) (u : Units) : (u.setLeftH t x).rightH = u.rightH := rfl
@[simp] theorem Units.setLeftH_nweight (t x : HId) (u : Units) : (u.setLeftH t x).nweight = u.nweight := rfl
@[simp] theorem Units.setLeftH_nextH (t x : HId) (u : Units) : (u.setLeftH t x).nextH = u.nextH := rfl
@[simp] theorem Units.setLeftH_rootH (t x : HId) (u : Units) : (u.setLeftH t x).rootH = u.rootH := rfl
@[simp] theorem Units.setLeftH_pq (t x : HId) (u : Units) : (u.setLeftH t x).pq = u.pq := rfl
@[simp] theorem Units.setLeftH_code (t x : HId) (u : Units) : (u.setLeftH t x).code = u.code := rfl
@[simp] theorem Units.setLeftH_clen (t x : HId) (u : Units) : (u.setLeftH t x).clen = u.clen := rfl
@[simp] theorem Units.setLeftH_cvalid (t x : HId) (u : Units) : (u.setLeftH t x).cvalid = u.cvalid := rfl
@[simp] theorem Units.setLeftH_window (t x : HId) (u : Units) : (u.setLeftH t x).window = u.window := rfl
@[simp] theorem Units.setLeftH_roots (t x : HId) (u : Units) : (u.setLeftH t x).roots = u.roots := rfl
@[simp] theorem Units.setLeftH_parent (t x : HId) (u : Units) : (u.setLeftH t x).parent = u.parent := rfl
@[simp] theorem Units.setLeftH_leftD (t x : HId) (u : Units) : (u.setLeftH t x).leftD = u.leftD := rfl
@[simp] theorem Units.setLeftH_rightD (t x : HId) (u : Units) : (u.setLeftH t x).rightD = u.rightD := rfl
@[simp] theorem Units.setLeftH_member (t x : HId) (u : Units) : (u.setLeftH t x).member = u.member := rfl
@[simp] theorem Units.setLeftH_lcur (t x : HId) (u : Units) : (u.setLeftH t x).lcur = u.lcur := rfl
@[simp] theorem Units.setLeftH_llook (t x : HId) (u : Units) : (u.setLeftH t x).llook = u.llook := rfl
@[simp] theorem Units.setLeftH_lskip (t x : HId) (u : Units) : (u.setLeftH t x).lskip = u.lskip := rfl
@[simp] theorem Units.setLeftH_leof (t x : HId) (u : Units) : (u.setLeftH t x).leof = u.leof := rfl
@[simp] theorem Units.setLeftH_parseStack (t x : HId) (u : Units) : (u.setLeftH t x).parseStack = u.parseStack := rfl
@[simp] theorem Units.setLeftH_cntAcc (t x : HId) (u : Units) : (u.setLeftH t x).cntAcc = u.cntAcc := rfl
@[simp] theorem Units.setLeftH_cntIdx (t x : HId) (u : Units) : (u.setLeftH t x).cntIdx = u.cntIdx := rfl
@[simp] theorem Units.setLeftH_cntDone (t x : HId) (u : Units) : (u.setLeftH t x).cntDone = u.cntDone := rfl

@[simp] theorem Units.setRightH_wpb (t x : HId) (u : Units) : (u.setRightH t x).wpb = u.wpb := rfl
@[simp] theorem Units.setRightH_wfree (t x : HId) (u : Units) : (u.setRightH t x).wfree = u.wfree := rfl
@[simp] theorem Units.setRightH_rpb (t x : HId) (u : Units) : (u.setRightH t x).rpb = u.rpb := rfl
@[simp] theorem Units.setRightH_rcnt (t x : HId) (u : Units) : (u.setRightH t x).rcnt = u.rcnt := rfl
@[simp] theorem Units.setRightH_dcur (t x : HId) (u : Units) : (u.setRightH t x).dcur = u.dcur := rfl
@[simp] theorem Units.setRightH_ldend (t x : HId) (u : Units) : (u.setRightH t x).ldend = u.ldend := rfl
@[simp] theorem Units.setRightH_weight (t x : HId) (u : Units) : (u.setRightH t x).weight = u.weight := rfl
@[simp] theorem Units.setRightH_leftH (t x : HId) (u : Units) : (u.setRightH t x).leftH = u.leftH := rfl
@[simp] theorem Units.setRightH_nweight (t x : HId) (u : Units) : (u.setRightH t x).nweight = u.nweight := rfl
@[simp] theorem Units.setRightH_nextH (t x : HId) (u : Units) : (u.setRightH t x).nextH = u.nextH := rfl
@[simp] theorem Units.setRightH_rootH (t x : HId) (u : Units) : (u.setRightH t x).rootH = u.rootH := rfl
@[simp] theorem Units.setRightH_pq (t x : HId) (u : Units) : (u.setRightH t x).pq = u.pq := rfl
@[simp] theorem Units.setRightH_code (t x : HId) (u : Units) : (u.setRightH t x).code = u.code := rfl
@[simp] theorem Units.setRightH_clen (t x : HId) (u : Units) : (u.setRightH t x).clen = u.clen := rfl
@[simp] theorem Units.setRightH_cvalid (t x : HId) (u : Units) : (u.setRightH t x).cvalid = u.cvalid := rfl
@[simp] theorem Units.setRightH_window (t x : HId) (u : Units) : (u.setRightH t x).window = u.window := rfl
@[simp] theorem Units.setRightH_roots (t x : HId) (u : Units) : (u.setRightH t x).roots = u.roots := rfl
@[simp] theorem Units.setRightH_parent (t x : HId) (u : Units) : (u.setRightH t x).parent = u.parent := rfl
@[simp] theorem Units.setRightH_leftD (t x : HId) (u : Units) : (u.setRightH t x).leftD = u.leftD := rfl
@[simp] theorem Units.setRightH_rightD (t x : HId) (u : Units) : (u.setRightH t x).rightD = u.rightD := rfl
@[simp] theorem Units.setRightH_member (t x : HId) (u : Units) : (u.setRightH t x).member = u.member := rfl
@[simp] theorem Units.setRightH_lcur (t x : HId) (u : Units) : (u.setRightH t x).lcur = u.lcur := rfl
@[simp] theorem Units.setRightH_llook (t x : HId) (u : Units) : (u.setRightH t x).llook = u.llook := rfl
@[simp] theorem Units.setRightH_lskip (t x : HId) (u : Units) : (u.setRightH t x).lskip = u.lskip := rfl
@[simp] theorem Units.setRightH_leof (t x : HId) (u : Units) : (u.setRightH t x).leof = u.leof := rfl
@[simp] theorem Units.setRightH_parseStack (t x : HId) (u : Units) : (u.setRightH t x).parseStack = u.parseStack := rfl
@[simp] theorem Units.setRightH_cntAcc (t x : HId) (u : Units) : (u.setRightH t x).cntAcc = u.cntAcc := rfl
@[simp] theorem Units.setRightH_cntIdx (t x : HId) (u : Units) : (u.setRightH t x).cntIdx = u.cntIdx := rfl
@[simp] theorem Units.setRightH_cntDone (t x : HId) (u : Units) : (u.setRightH t x).cntDone = u.cntDone := rfl

@[simp] theorem Units.addWeight_wpb (b : Byte) (u : Units) : (u.addWeight b).wpb = u.wpb := rfl
@[simp] theorem Units.addWeight_wfree (b : Byte) (u : Units) : (u.addWeight b).wfree = u.wfree := rfl
@[simp] theorem Units.addWeight_rpb (b : Byte) (u : Units) : (u.addWeight b).rpb = u.rpb := rfl
@[simp] theorem Units.addWeight_rcnt (b : Byte) (u : Units) : (u.addWeight b).rcnt = u.rcnt := rfl
@[simp] theorem Units.addWeight_dcur (b : Byte) (u : Units) : (u.addWeight b).dcur = u.dcur := rfl
@[simp] theorem Units.addWeight_ldend (b : Byte) (u : Units) : (u.addWeight b).ldend = u.ldend := rfl
@[simp] theorem Units.addWeight_leftH (b : Byte) (u : Units) : (u.addWeight b).leftH = u.leftH := rfl
@[simp] theorem Units.addWeight_rightH (b : Byte) (u : Units) : (u.addWeight b).rightH = u.rightH := rfl
@[simp] theorem Units.addWeight_nweight (b : Byte) (u : Units) : (u.addWeight b).nweight = u.nweight := rfl
@[simp] theorem Units.addWeight_nextH (b : Byte) (u : Units) : (u.addWeight b).nextH = u.nextH := rfl
@[simp] theorem Units.addWeight_rootH (b : Byte) (u : Units) : (u.addWeight b).rootH = u.rootH := rfl
@[simp] theorem Units.addWeight_pq (b : Byte) (u : Units) : (u.addWeight b).pq = u.pq := rfl
@[simp] theorem Units.addWeight_code (b : Byte) (u : Units) : (u.addWeight b).code = u.code := rfl
@[simp] theorem Units.addWeight_clen (b : Byte) (u : Units) : (u.addWeight b).clen = u.clen := rfl
@[simp] theorem Units.addWeight_cvalid (b : Byte) (u : Units) : (u.addWeight b).cvalid = u.cvalid := rfl
@[simp] theorem Units.addWeight_window (b : Byte) (u : Units) : (u.addWeight b).window = u.window := rfl
@[simp] theorem Units.addWeight_roots (b : Byte) (u : Units) : (u.addWeight b).roots = u.roots := rfl
@[simp] theorem Units.addWeight_parent (b : Byte) (u : Units) : (u.addWeight b).parent = u.parent := rfl
@[simp] theorem Units.addWeight_leftD (b : Byte) (u : Units) : (u.addWeight b).leftD = u.leftD := rfl
@[simp] theorem Units.addWeight_rightD (b : Byte) (u : Units) : (u.addWeight b).rightD = u.rightD := rfl
@[simp] theorem Units.addWeight_member (b : Byte) (u : Units) : (u.addWeight b).member = u.member := rfl
@[simp] theorem Units.addWeight_lcur (b : Byte) (u : Units) : (u.addWeight b).lcur = u.lcur := rfl
@[simp] theorem Units.addWeight_llook (b : Byte) (u : Units) : (u.addWeight b).llook = u.llook := rfl
@[simp] theorem Units.addWeight_lskip (b : Byte) (u : Units) : (u.addWeight b).lskip = u.lskip := rfl
@[simp] theorem Units.addWeight_leof (b : Byte) (u : Units) : (u.addWeight b).leof = u.leof := rfl
@[simp] theorem Units.addWeight_parseStack (b : Byte) (u : Units) : (u.addWeight b).parseStack = u.parseStack := rfl
@[simp] theorem Units.addWeight_cntAcc (b : Byte) (u : Units) : (u.addWeight b).cntAcc = u.cntAcc := rfl
@[simp] theorem Units.addWeight_cntIdx (b : Byte) (u : Units) : (u.addWeight b).cntIdx = u.cntIdx := rfl
@[simp] theorem Units.addWeight_cntDone (b : Byte) (u : Units) : (u.addWeight b).cntDone = u.cntDone := rfl

@[simp] theorem Units.setCode_wpb (b : HId) (c d : Nat) (u : Units) : (u.setCode b c d).wpb = u.wpb := rfl
@[simp] theorem Units.setCode_wfree (b : HId) (c d : Nat) (u : Units) : (u.setCode b c d).wfree = u.wfree := rfl
@[simp] theorem Units.setCode_rpb (b : HId) (c d : Nat) (u : Units) : (u.setCode b c d).rpb = u.rpb := rfl
@[simp] theorem Units.setCode_rcnt (b : HId) (c d : Nat) (u : Units) : (u.setCode b c d).rcnt = u.rcnt := rfl
@[simp] theorem Units.setCode_dcur (b : HId) (c d : Nat) (u : Units) : (u.setCode b c d).dcur = u.dcur := rfl
@[simp] theorem Units.setCode_ldend (b : HId) (c d : Nat) (u : Units) : (u.setCode b c d).ldend = u.ldend := rfl
@[simp] theorem Units.setCode_weight (b : HId) (c d : Nat) (u : Units) : (u.setCode b c d).weight = u.weight := rfl
@[simp] theorem Units.setCode_leftH (b : HId) (c d : Nat) (u : Units) : (u.setCode b c d).leftH = u.leftH := rfl
@[simp] theorem Units.setCode_rightH (b : HId) (c d : Nat) (u : Units) : (u.setCode b c d).rightH = u.rightH := rfl
@[simp] theorem Units.setCode_nweight (b : HId) (c d : Nat) (u : Units) : (u.setCode b c d).nweight = u.nweight := rfl
@[simp] theorem Units.setCode_nextH (b : HId) (c d : Nat) (u : Units) : (u.setCode b c d).nextH = u.nextH := rfl
@[simp] theorem Units.setCode_rootH (b : HId) (c d : Nat) (u : Units) : (u.setCode b c d).rootH = u.rootH := rfl
@[simp] theorem Units.setCode_pq (b : HId) (c d : Nat) (u : Units) : (u.setCode b c d).pq = u.pq := rfl
@[simp] theorem Units.setCode_window (b : HId) (c d : Nat) (u : Units) : (u.setCode b c d).window = u.window := rfl
@[simp] theorem Units.setCode_roots (b : HId) (c d : Nat) (u : Units) : (u.setCode b c d).roots = u.roots := rfl
@[simp] theorem Units.setCode_parent (b : HId) (c d : Nat) (u : Units) : (u.setCode b c d).parent = u.parent := rfl
@[simp] theorem Units.setCode_leftD (b : HId) (c d : Nat) (u : Units) : (u.setCode b c d).leftD = u.leftD := rfl
@[simp] theorem Units.setCode_rightD (b : HId) (c d : Nat) (u : Units) : (u.setCode b c d).rightD = u.rightD := rfl
@[simp] theorem Units.setCode_member (b : HId) (c d : Nat) (u : Units) : (u.setCode b c d).member = u.member := rfl
@[simp] theorem Units.setCode_lcur (b : HId) (c d : Nat) (u : Units) : (u.setCode b c d).lcur = u.lcur := rfl
@[simp] theorem Units.setCode_llook (b : HId) (c d : Nat) (u : Units) : (u.setCode b c d).llook = u.llook := rfl
@[simp] theorem Units.setCode_lskip (b : HId) (c d : Nat) (u : Units) : (u.setCode b c d).lskip = u.lskip := rfl
@[simp] theorem Units.setCode_leof (b : HId) (c d : Nat) (u : Units) : (u.setCode b c d).leof = u.leof := rfl
@[simp] theorem Units.setCode_parseStack (b : HId) (c d : Nat) (u : Units) : (u.setCode b c d).parseStack = u.parseStack := rfl
@[simp] theorem Units.setCode_cntAcc (b : HId) (c d : Nat) (u : Units) : (u.setCode b c d).cntAcc = u.cntAcc := rfl
@[simp] theorem Units.setCode_cntIdx (b : HId) (c d : Nat) (u : Units) : (u.setCode b c d).cntIdx = u.cntIdx := rfl
@[simp] theorem Units.setCode_cntDone (b : HId) (c d : Nat) (u : Units) : (u.setCode b c d).cntDone = u.cntDone := rfl

@[simp] theorem Units.joinNodes_wpb (x y : HId) (w : Nat) (u : Units) : (u.joinNodes x y w).wpb = u.wpb := rfl
@[simp] theorem Units.joinNodes_wfree (x y : HId) (w : Nat) (u : Units) : (u.joinNodes x y w).wfree = u.wfree := rfl
@[simp] theorem Units.joinNodes_rpb (x y : HId) (w : Nat) (u : Units) : (u.joinNodes x y w).rpb = u.rpb := rfl
@[simp] theorem Units.joinNodes_rcnt (x y : HId) (w : Nat) (u : Units) : (u.joinNodes x y w).rcnt = u.rcnt := rfl
@[simp] theorem Units.joinNodes_dcur (x y : HId) (w : Nat) (u : Units) : (u.joinNodes x y w).dcur = u.dcur := rfl
@[simp] theorem Units.joinNodes_ldend (x y : HId) (w : Nat) (u : Units) : (u.joinNodes x y w).ldend = u.ldend := rfl
@[simp] theorem Units.joinNodes_weight (x y : HId) (w : Nat) (u : Units) : (u.joinNodes x y w).weight = u.weight := rfl
@[simp] theorem Units.joinNodes_rootH (x y : HId) (w : Nat) (u : Units) : (u.joinNodes x y w).rootH = u.rootH := rfl
@[simp] theorem Units.joinNodes_code (x y : HId) (w : Nat) (u : Units) : (u.joinNodes x y w).code = u.code := rfl
@[simp] theorem Units.joinNodes_clen (x y : HId) (w : Nat) (u : Units) : (u.joinNodes x y w).clen = u.clen := rfl
@[simp] theorem Units.joinNodes_cvalid (x y : HId) (w : Nat) (u : Units) : (u.joinNodes x y w).cvalid = u.cvalid := rfl
@[simp] theorem Units.joinNodes_window (x y : HId) (w : Nat) (u : Units) : (u.joinNodes x y w).window = u.window := rfl
@[simp] theorem Units.joinNodes_roots (x y : HId) (w : Nat) (u : Units) : (u.joinNodes x y w).roots = u.roots := rfl
@[simp] theorem Units.joinNodes_parent (x y : HId) (w : Nat) (u : Units) : (u.joinNodes x y w).parent = u.parent := rfl
@[simp] theorem Units.joinNodes_leftD (x y : HId) (w : Nat) (u : Units) : (u.joinNodes x y w).leftD = u.leftD := rfl
@[simp] theorem Units.joinNodes_rightD (x y : HId) (w : Nat) (u : Units) : (u.joinNodes x y w).rightD = u.rightD := rfl
@[simp] theorem Units.joinNodes_member (x y : HId) (w : Nat) (u : Units) : (u.joinNodes x y w).member = u.member := rfl
@[simp] theorem Units.joinNodes_lcur (x y : HId) (w : Nat) (u : Units) : (u.joinNodes x y w).lcur = u.lcur := rfl
@[simp] theorem Units.joinNodes_llook (x y : HId) (w : Nat) (u : Units) : (u.joinNodes x y w).llook = u.llook := rfl
@[simp] theorem Units.joinNodes_lskip (x y : HId) (w : Nat) (u : Units) : (u.joinNodes x y w).lskip = u.lskip := rfl
@[simp] theorem Units.joinNodes_leof (x y : HId) (w : Nat) (u : Units) : (u.joinNodes x y w).leof = u.leof := rfl
@[simp] theorem Units.joinNodes_parseStack (x y : HId) (w : Nat) (u : Units) : (u.joinNodes x y w).parseStack = u.parseStack := rfl
@[simp] theorem Units.joinNodes_cntAcc (x y : HId) (w : Nat) (u : Units) : (u.joinNodes x y w).cntAcc = u.cntAcc := rfl
@[simp] theorem Units.joinNodes_cntIdx (x y : HId) (w : Nat) (u : Units) : (u.joinNodes x y w).cntIdx = u.cntIdx := rfl
@[simp] theorem Units.joinNodes_cntDone (x y : HId) (w : Nat) (u : Units) : (u.joinNodes x y w).cntDone = u.cntDone := rfl

@[simp] theorem Units.winWr_wpb (P : Config.Params) (k : Pos) (b : Byte) (u : Units) : (u.winWr P k b).wpb = u.wpb := rfl
@[simp] theorem Units.winWr_wfree (P : Config.Params) (k : Pos) (b : Byte) (u : Units) : (u.winWr P k b).wfree = u.wfree := rfl
@[simp] theorem Units.winWr_rpb (P : Config.Params) (k : Pos) (b : Byte) (u : Units) : (u.winWr P k b).rpb = u.rpb := rfl
@[simp] theorem Units.winWr_rcnt (P : Config.Params) (k : Pos) (b : Byte) (u : Units) : (u.winWr P k b).rcnt = u.rcnt := rfl
@[simp] theorem Units.winWr_dcur (P : Config.Params) (k : Pos) (b : Byte) (u : Units) : (u.winWr P k b).dcur = u.dcur := rfl
@[simp] theorem Units.winWr_ldend (P : Config.Params) (k : Pos) (b : Byte) (u : Units) : (u.winWr P k b).ldend = u.ldend := rfl
@[simp] theorem Units.winWr_weight (P : Config.Params) (k : Pos) (b : Byte) (u : Units) : (u.winWr P k b).weight = u.weight := rfl
@[simp] theorem Units.winWr_leftH (P : Config.Params) (k : Pos) (b : Byte) (u : Units) : (u.winWr P k b).leftH = u.leftH := rfl
@[simp] theorem Units.winWr_rightH (P : Config.Params) (k : Pos) (b : Byte) (u : Units) : (u.winWr P k b).rightH = u.rightH := rfl
@[simp] theorem Units.winWr_nweight (P : Config.Params) (k : Pos) (b : Byte) (u : Units) : (u.winWr P k b).nweight = u.nweight := rfl
@[simp] theorem Units.winWr_nextH (P : Config.Params) (k : Pos) (b : Byte) (u : Units) : (u.winWr P k b).nextH = u.nextH := rfl
@[simp] theorem Units.winWr_rootH (P : Config.Params) (k : Pos) (b : Byte) (u : Units) : (u.winWr P k b).rootH = u.rootH := rfl
@[simp] theorem Units.winWr_pq (P : Config.Params) (k : Pos) (b : Byte) (u : Units) : (u.winWr P k b).pq = u.pq := rfl
@[simp] theorem Units.winWr_code (P : Config.Params) (k : Pos) (b : Byte) (u : Units) : (u.winWr P k b).code = u.code := rfl
@[simp] theorem Units.winWr_clen (P : Config.Params) (k : Pos) (b : Byte) (u : Units) : (u.winWr P k b).clen = u.clen := rfl
@[simp] theorem Units.winWr_cvalid (P : Config.Params) (k : Pos) (b : Byte) (u : Units) : (u.winWr P k b).cvalid = u.cvalid := rfl
@[simp] theorem Units.winWr_roots (P : Config.Params) (k : Pos) (b : Byte) (u : Units) : (u.winWr P k b).roots = u.roots := rfl
@[simp] theorem Units.winWr_parent (P : Config.Params) (k : Pos) (b : Byte) (u : Units) : (u.winWr P k b).parent = u.parent := rfl
@[simp] theorem Units.winWr_leftD (P : Config.Params) (k : Pos) (b : Byte) (u : Units) : (u.winWr P k b).leftD = u.leftD := rfl
@[simp] theorem Units.winWr_rightD (P : Config.Params) (k : Pos) (b : Byte) (u : Units) : (u.winWr P k b).rightD = u.rightD := rfl
@[simp] theorem Units.winWr_member (P : Config.Params) (k : Pos) (b : Byte) (u : Units) : (u.winWr P k b).member = u.member := rfl
@[simp] theorem Units.winWr_lcur (P : Config.Params) (k : Pos) (b : Byte) (u : Units) : (u.winWr P k b).lcur = u.lcur := rfl
@[simp] theorem Units.winWr_llook (P : Config.Params) (k : Pos) (b : Byte) (u : Units) : (u.winWr P k b).llook = u.llook := rfl
@[simp] theorem Units.winWr_lskip (P : Config.Params) (k : Pos) (b : Byte) (u : Units) : (u.winWr P k b).lskip = u.lskip := rfl
@[simp] theorem Units.winWr_leof (P : Config.Params) (k : Pos) (b : Byte) (u : Units) : (u.winWr P k b).leof = u.leof := rfl
@[simp] theorem Units.winWr_parseStack (P : Config.Params) (k : Pos) (b : Byte) (u : Units) : (u.winWr P k b).parseStack = u.parseStack := rfl
@[simp] theorem Units.winWr_cntAcc (P : Config.Params) (k : Pos) (b : Byte) (u : Units) : (u.winWr P k b).cntAcc = u.cntAcc := rfl
@[simp] theorem Units.winWr_cntIdx (P : Config.Params) (k : Pos) (b : Byte) (u : Units) : (u.winWr P k b).cntIdx = u.cntIdx := rfl
@[simp] theorem Units.winWr_cntDone (P : Config.Params) (k : Pos) (b : Byte) (u : Units) : (u.winWr P k b).cntDone = u.cntDone := rfl

@[simp] theorem Units.dictClear_wpb (u : Units) : (u.dictClear).wpb = u.wpb := rfl
@[simp] theorem Units.dictClear_wfree (u : Units) : (u.dictClear).wfree = u.wfree := rfl
@[simp] theorem Units.dictClear_rpb (u : Units) : (u.dictClear).rpb = u.rpb := rfl
@[simp] theorem Units.dictClear_rcnt (u : Units) : (u.dictClear).rcnt = u.rcnt := rfl
@[simp] theorem Units.dictClear_dcur (u : Units) : (u.dictClear).dcur = u.dcur := rfl
@[simp] theorem Units.dictClear_ldend (u : Units) : (u.dictClear).ldend = u.ldend := rfl
@[simp] theorem Units.dictClear_weight (u : Units) : (u.dictClear).weight = u.weight := rfl
@[simp] theorem Units.dictClear_leftH (u : Units) : (u.dictClear).leftH = u.leftH := rfl
@[simp] theorem Units.dictClear_rightH (u : Units) : (u.dictClear).rightH = u.rightH := rfl
@[simp] theorem Units.dictClear_nweight (u : Units) : (u.dictClear).nweight = u.nweight := rfl
@[simp] theorem Units.dictClear_nextH (u : Units) : (u.dictClear).nextH = u.nextH := rfl
@[simp] theorem Units.dictClear_rootH (u : Units) : (u.dictClear).rootH = u.rootH := rfl
@[simp] theorem Units.dictClear_pq (u : Units) : (u.dictClear).pq = u.pq := rfl
@[simp] theorem Units.dictClear_code (u : Units) : (u.dictClear).code = u.code := rfl
@[simp] theorem Units.dictClear_clen (u : Units) : (u.dictClear).clen = u.clen := rfl
@[simp] theorem Units.dictClear_cvalid (u : Units) : (u.dictClear).cvalid = u.cvalid := rfl
@[simp] theorem Units.dictClear_window (u : Units) : (u.dictClear).window = u.window := rfl
@[simp] theorem Units.dictClear_lcur (u : Units) : (u.dictClear).lcur = u.lcur := rfl
@[simp] theorem Units.dictClear_llook (u : Units) : (u.dictClear).llook = u.llook := rfl
@[simp] theorem Units.dictClear_lskip (u : Units) : (u.dictClear).lskip = u.lskip := rfl
@[simp] theorem Units.dictClear_leof (u : Units) : (u.dictClear).leof = u.leof := rfl
@[simp] theorem Units.dictClear_parseStack (u : Units) : (u.dictClear).parseStack = u.parseStack := rfl
@[simp] theorem Units.dictClear_cntAcc (u : Units) : (u.dictClear).cntAcc = u.cntAcc := rfl
@[simp] theorem Units.dictClear_cntIdx (u : Units) : (u.dictClear).cntIdx = u.cntIdx := rfl
@[simp] theorem Units.dictClear_cntDone (u : Units) : (u.dictClear).cntDone = u.cntDone := rfl

@[simp] theorem Units.winClear_wpb (u : Units) : (u.winClear).wpb = u.wpb := rfl
@[simp] theorem Units.winClear_wfree (u : Units) : (u.winClear).wfree = u.wfree := rfl
@[simp] theorem Units.winClear_rpb (u : Units) : (u.winClear).rpb = u.rpb := rfl
@[simp] theorem Units.winClear_rcnt (u : Units) : (u.winClear).rcnt = u.rcnt := rfl
@[simp] theorem Units.winClear_dcur (u : Units) : (u.winClear).dcur = u.dcur := rfl
@[simp] theorem Units.winClear_ldend (u : Units) : (u.winClear).ldend = u.ldend := rfl
@[simp] theorem Units.winClear_weight (u : Units) : (u.winClear).weight = u.weight := rfl
@[simp] theorem Units.winClear_leftH (u : Units) : (u.winClear).leftH = u.leftH := rfl
@[simp] theorem Units.winClear_rightH (u : Units) : (u.winClear).rightH = u.rightH := rfl
@[simp] theorem Units.winClear_nweight (u : Units) : (u.winClear).nweight = u.nweight := rfl
@[simp] theorem Units.winClear_nextH (u : Units) : (u.winClear).nextH = u.nextH := rfl
@[simp] theorem Units.winClear_rootH (u : Units) : (u.winClear).rootH = u.rootH := rfl
@[simp] theorem Units.winClear_pq (u : Units) : (u.winClear).pq = u.pq := rfl
@[simp] theorem Units.winClear_code (u : Units) : (u.winClear).code = u.code := rfl
@[simp] theorem Units.winClear_clen (u : Units) : (u.winClear).clen = u.clen := rfl
@[simp] theorem Units.winClear_cvalid (u : Units) : (u.winClear).cvalid = u.cvalid := rfl
@[simp] theorem Units.winClear_lcur (u : Units) : (u.winClear).lcur = u.lcur := rfl
@[simp] theorem Units.winClear_llook (u : Units) : (u.winClear).llook = u.llook := rfl
@[simp] theorem Units.winClear_lskip (u : Units) : (u.winClear).lskip = u.lskip := rfl
@[simp] theorem Units.winClear_leof (u : Units) : (u.winClear).leof = u.leof := rfl
@[simp] theorem Units.winClear_parseStack (u : Units) : (u.winClear).parseStack = u.parseStack := rfl
@[simp] theorem Units.winClear_cntAcc (u : Units) : (u.winClear).cntAcc = u.cntAcc := rfl
@[simp] theorem Units.winClear_cntIdx (u : Units) : (u.winClear).cntIdx = u.cntIdx := rfl
@[simp] theorem Units.winClear_cntDone (u : Units) : (u.winClear).cntDone = u.cntDone := rfl

@[simp] theorem Units.ldecInit_wpb (u : Units) : (u.ldecInit).wpb = u.wpb := rfl
@[simp] theorem Units.ldecInit_wfree (u : Units) : (u.ldecInit).wfree = u.wfree := rfl
@[simp] theorem Units.ldecInit_rpb (u : Units) : (u.ldecInit).rpb = u.rpb := rfl
@[simp] theorem Units.ldecInit_rcnt (u : Units) : (u.ldecInit).rcnt = u.rcnt := rfl
@[simp] theorem Units.ldecInit_weight (u : Units) : (u.ldecInit).weight = u.weight := rfl
@[simp] theorem Units.ldecInit_leftH (u : Units) : (u.ldecInit).leftH = u.leftH := rfl
@[simp] theorem Units.ldecInit_rightH (u : Units) : (u.ldecInit).rightH = u.rightH := rfl
@[simp] theorem Units.ldecInit_nweight (u : Units) : (u.ldecInit).nweight = u.nweight := rfl
@[simp] theorem Units.ldecInit_nextH (u : Units) : (u.ldecInit).nextH = u.nextH := rfl
@[simp] theorem Units.ldecInit_rootH (u : Units) : (u.ldecInit).rootH = u.rootH := rfl
@[simp] theorem Units.ldecInit_pq (u : Units) : (u.ldecInit).pq = u.pq := rfl
@[simp] theorem Units.ldecInit_code (u : Units) : (u.ldecInit).code = u.code := rfl
@[simp] theorem Units.ldecInit_clen (u : Units) : (u.ldecInit).clen = u.clen := rfl
@[simp] theorem Units.ldecInit_cvalid (u : Units) : (u.ldecInit).cvalid = u.cvalid := rfl
@[simp] theorem Units.ldecInit_lcur (u : Units) : (u.ldecInit).lcur = u.lcur := rfl
@[simp] theorem Units.ldecInit_llook (u : Units) : (u.ldecInit).llook = u.llook := rfl
@[simp] theorem Units.ldecInit_lskip (u : Units) : (u.ldecInit).lskip = u.lskip := rfl
@[simp] theorem Units.ldecInit_leof (u : Units) : (u.ldecInit).leof = u.leof := rfl
@[simp] theorem Units.ldecInit_parseStack (u : Units) : (u.ldecInit).parseStack = u.parseStack := rfl
@[simp] theorem Units.ldecInit_cntAcc (u : Units) : (u.ldecInit).cntAcc = u.cntAcc := rfl
@[simp] theorem Units.ldecInit_cntIdx (u : Units) : (u.ldecInit).cntIdx = u.cntIdx := rfl
@[simp] theorem Units.ldecInit_cntDone (u : Units) : (u.ldecInit).cntDone = u.cntDone := rfl

@[simp] theorem Units.setRoot_wpb (c : Byte) (x : Link) (u : Units) : (u.setRoot c x).wpb = u.wpb := rfl
@[simp] theorem Units.setRoot_wfree (c : Byte) (x : Link) (u : Units) : (u.setRoot c x).wfree = u.wfree := rfl
@[simp] theorem Units.setRoot_rpb (c : Byte) (x : Link) (u : Units) : (u.setRoot c x).rpb = u.rpb := rfl
@[simp] theorem Units.setRoot_rcnt (c : Byte) (x : Link) (u : Units) : (u.setRoot c x).rcnt = u.rcnt := rfl
@[simp] theorem Units.setRoot_dcur (c : Byte) (x : Link) (u : Units) : (u.setRoot c x).dcur = u.dcur := rfl
@[simp] theorem Units.setRoot_ldend (c : Byte) (x : Link) (u : Units) : (u.setRoot c x).ldend = u.ldend := rfl
@[simp] theorem Units.setRoot_weight (c : Byte) (x : Link) (u : Units) : (u.setRoot c x).weight = u.weight := rfl
@[simp] theorem Units.setRoot_leftH (c : Byte) (x : Link) (u : Units) : (u.setRoot c x).leftH = u.leftH := rfl
@[simp] theorem Units.setRoot_rightH (c : Byte) (x : Link) (u : Units) : (u.setRoot c x).rightH = u.rightH := rfl
@[simp] theorem Units.setRoot_nweight (c : Byte) (x : Link) (u : Units) : (u.setRoot c x).nweight = u.nweight := rfl
@[simp] theorem Units.setRoot_nextH (c : Byte) (x : Link) (u : Units) : (u.setRoot c x).nextH = u.nextH := rfl
@[simp] theorem Units.setRoot_rootH (c : Byte) (x : Link) (u : Units) : (u.setRoot c x).rootH = u.rootH := rfl
@[simp] theorem Units.setRoot_pq (c : Byte) (x : Link) (u : Units) : (u.setRoot c x).pq = u.pq := rfl
@[simp] theorem Units.setRoot_code (c : Byte) (x : Link) (u : Units) : (u.setRoot c x).code = u.code := rfl
@[simp] theorem Units.setRoot_clen (c : Byte) (x : Link) (u : Units) : (u.setRoot c x).clen = u.clen := rfl
@[simp] theorem Units.setRoot_cvalid (c : Byte) (x : Link) (u : Units) : (u.setRoot c x).cvalid = u.cvalid := rfl
@[simp] theorem Units.setRoot_window (c : Byte) (x : Link) (u : Units) : (u.setRoot c x).window = u.window := rfl
@[simp] theorem Units.setRoot_parent (c : Byte) (x : Link) (u : Units) : (u.setRoot c x).parent = u.parent := rfl
@[simp] theorem Units.setRoot_leftD (c : Byte) (x : Link) (u : Units) : (u.setRoot c x).leftD = u.leftD := rfl
@[simp] theorem Units.setRoot_rightD (c : Byte) (x : Link) (u : Units) : (u.setRoot c x).rightD = u.rightD := rfl
@[simp] theorem Units.setRoot_member (c : Byte) (x : Link) (u : Units) : (u.setRoot c x).member = u.member := rfl
@[simp] theorem Units.setRoot_lcur (c : Byte) (x : Link) (u : Units) : (u.setRoot c x).lcur = u.lcur := rfl
@[simp] theorem Units.setRoot_llook (c : Byte) (x : Link) (u : Units) : (u.setRoot c x).llook = u.llook := rfl
@[simp] theorem Units.setRoot_lskip (c : Byte) (x : Link) (u : Units) : (u.setRoot c x).lskip = u.lskip := rfl
@[simp] theorem Units.setRoot_leof (c : Byte) (x : Link) (u : Units) : (u.setRoot c x).leof = u.leof := rfl
@[simp] theorem Units.setRoot_parseStack (c : Byte) (x : Link) (u : Units) : (u.setRoot c x).parseStack = u.parseStack := rfl
@[simp] theorem Units.setRoot_cntAcc (c : Byte) (x : Link) (u : Units) : (u.setRoot c x).cntAcc = u.cntAcc := rfl
@[simp] theorem Units.setRoot_cntIdx (c : Byte) (x : Link) (u : Units) : (u.setRoot c x).cntIdx = u.cntIdx := rfl
@[simp] theorem Units.setRoot_cntDone (c : Byte) (x : Link) (u : Units) : (u.setRoot c x).cntDone = u.cntDone := rfl

@[simp] theorem Units.setParent_wpb (p : Pos) (x : Link) (u : Units) : (u.setParent p x).wpb = u.wpb := rfl
@[simp] theorem Units.setParent_wfree (p : Pos) (x : Link) (u : Units) : (u.setParent p x).wfree = u.wfree := rfl
@[simp] theorem Units.setParent_rpb (p : Pos) (x : Link) (u : Units) : (u.setParent p x).rpb = u.rpb := rfl
@[simp] theorem Units.setParent_rcnt (p : Pos) (x : Link) (u : Units) : (u.setParent p x).rcnt = u.rcnt := rfl
@[simp] theorem Units.setParent_dcur (p : Pos) (x : Link) (u : Units) : (u.setParent p x).dcur = u.dcur := rfl
@[simp] theorem Units.setParent_ldend (p : Pos) (x : Link) (u : Units) : (u.setParent p x).ldend = u.ldend := rfl
@[simp] theorem Units.setParent_weight (p : Pos) (x : Link) (u : Units) : (u.setParent p x).weight = u.weight := rfl
@[simp] theorem Units.setParent_leftH (p : Pos) (x : Link) (u : Units) : (u.setParent p x).leftH = u.leftH := rfl
@[simp] theorem Units.setParent_rightH (p : Pos) (x : Link) (u : Units) : (u.setParent p x).rightH = u.rightH := rfl
@[simp] theorem Units.setParent_nweight (p : Pos) (x : Link) (u : Units) : (u.setParent p x).nweight = u.nweight := rfl
@[simp] theorem Units.setParent_nextH (p : Pos) (x : Link) (u : Units) : (u.setParent p x).nextH = u.nextH := rfl
@[simp] theorem Units.setParent_rootH (p : Pos) (x : Link) (u : Units) : (u.setParent p x).rootH = u.rootH := rfl
@[simp] theorem Units.setParent_pq (p : Pos) (x : Link) (u : Units) : (u.setParent p x).pq = u.pq := rfl
@[simp] theorem Units.setParent_code (p : Pos) (x : Link) (u : Units) : (u.setParent p x).code = u.code := rfl
@[simp] theorem Units.setParent_clen (p : Pos) (x : Link) (u : Units) : (u.setParent p x).clen = u.clen := rfl
@[simp] theorem Units.setParent_cvalid (p : Pos) (x : Link) (u : Units) : (u.setParent p x).cvalid = u.cvalid := rfl
@[simp] theorem Units.setParent_window (p : Pos) (x : Link) (u : Units) : (u.setParent p x).window = u.window := rfl
@[simp] theorem Units.setParent_roots (p : Pos) (x : Link) (u : Units) : (u.setParent p x).roots = u.roots := rfl
@[simp] theorem Units.setParent_leftD (p : Pos) (x : Link) (u : Units) : (u.setParent p x).leftD = u.leftD := rfl
@[simp] theorem Units.setParent_rightD (p : Pos) (x : Link) (u : Units) : (u.setParent p x).rightD = u.rightD := rfl
@[simp] theorem Units.setParent_member (p : Pos) (x : Link) (u : Units) : (u.setParent p x).member = u.member := rfl
@[simp] theorem Units.setParent_lcur (p : Pos) (x : Link) (u : Units) : (u.setParent p x).lcur = u.lcur := rfl
@[simp] theorem Units.setParent_llook (p : Pos) (x : Link) (u : Units) : (u.setParent p x).llook = u.llook := rfl
@[simp] theorem Units.setParent_lskip (p : Pos) (x : Link) (u : Units) : (u.setParent p x).lskip = u.lskip := rfl
@[simp] theorem Units.setParent_leof (p : Pos) (x : Link) (u : Units) : (u.setParent p x).leof = u.leof := rfl
@[simp] theorem Units.setParent_parseStack (p : Pos) (x : Link) (u : Units) : (u.setParent p x).parseStack = u.parseStack := rfl
@[simp] theorem Units.setParent_cntAcc (p : Pos) (x : Link) (u : Units) : (u.setParent p x).cntAcc = u.cntAcc := rfl
@[simp] theorem Units.setParent_cntIdx (p : Pos) (x : Link) (u : Units) : (u.setParent p x).cntIdx = u.cntIdx := rfl
@[simp] theorem Units.setParent_cntDone (p : Pos) (x : Link) (u : Units) : (u.setParent p x).cntDone = u.cntDone := rfl

@[simp] theorem Units.setLeftD_wpb (p : Pos) (x : Link) (u : Units) : (u.setLeftD p x).wpb = u.wpb := rfl
@[simp] theorem Units.setLeftD_wfree (p : Pos) (x : Link) (u : Units) : (u.setLeftD p x).wfree = u.wfree := rfl
@[simp] theorem Units.setLeftD_rpb (p : Pos) (x : Link) (u : Units) : (u.setLeftD p x).rpb = u.rpb := rfl
@[simp] theorem Units.setLeftD_rcnt (p : Pos) (x : Link) (u : Units) : (u.setLeftD p x).rcnt = u.rcnt := rfl
@[simp] theorem Units.setLeftD_dcur (p : Pos) (x : Link) (u : Units) : (u.setLeftD p x).dcur = u.dcur := rfl
@[simp] theorem Units.setLeftD_ldend (p : Pos) (x : Link) (u : Units) : (u.setLeftD p x).ldend = u.ldend := rfl
@[simp] theorem Units.setLeftD_weight (p : Pos) (x : Link) (u : Units) : (u.setLeftD p x).weight = u.weight := rfl
@[simp] theorem Units.setLeftD_leftH (p : Pos) (x : Link) (u : Units) : (u.setLeftD p x).leftH = u.leftH := rfl
@[simp] theorem Units.setLeftD_rightH (p : Pos) (x : Link) (u : Units) : (u.setLeftD p x).rightH = u.rightH := rfl
@[simp] theorem Units.setLeftD_nweight (p : Pos) (x : Link) (u : Units) : (u.setLeftD p x).nweight = u.nweight := rfl
@[simp] theorem Units.setLeftD_nextH (p : Pos) (x : Link) (u : Units) : (u.setLeftD p x).nextH = u.nextH := rfl
@[simp] theorem Units.setLeftD_rootH (p : Pos) (x : Link) (u : Units) : (u.setLeftD p x).rootH = u.rootH := rfl
@[simp] theorem Units.setLeftD_pq (p : Pos) (x : Link) (u : Units) : (u.setLeftD p x).pq = u.pq := rfl
@[simp] theorem Units.setLeftD_code (p : Pos) (x : Link) (u : Units) : (u.setLeftD p x).code = u.code := rfl
@[simp] theorem Units.setLeftD_clen (p : Pos) (x : Link) (u : Units) : (u.setLeftD p x).clen = u.clen := rfl
@[simp] theorem Units.setLeftD_cvalid (p : Pos) (x : Link) (u : Units) : (u.setLeftD p x).cvalid = u.cvalid := rfl
@[simp] theorem Units.setLeftD_window (p : Pos) (x : Link) (u : Units) : (u.setLeftD p x).window = u.window := rfl
@[simp] theorem Units.setLeftD_roots (p : Pos) (x : Link) (u : Units) : (u.setLeftD p x).roots = u.roots := rfl
@[simp] theorem Units.setLeftD_parent (p : Pos) (x : Link) (u : Units) : (u.setLeftD p x).parent = u.parent := rfl
@[simp] theorem Units.setLeftD_rightD (p : Pos) (x : Link) (u : Units) : (u.setLeftD p x).rightD = u.rightD := rfl
@[simp] theorem Units.setLeftD_member (p : Pos) (x : Link) (u : Units) : (u.setLeftD p x).member = u.member := rfl
@[simp] theorem Units.setLeftD_lcur (p : Pos) (x : Link) (u : Units) : (u.setLeftD p x).lcur = u.lcur := rfl
@[simp] theorem Units.setLeftD_llook (p : Pos) (x : Link) (u : Units) : (u.setLeftD p x).llook = u.llook := rfl
@[simp] theorem Units.setLeftD_lskip (p : Pos) (x : Link) (u : Units) : (u.setLeftD p x).lskip = u.lskip := rfl
@[simp] theorem Units.setLeftD_leof (p : Pos) (x : Link) (u : Units) : (u.setLeftD p x).leof = u.leof := rfl
@[simp] theorem Units.setLeftD_parseStack (p : Pos) (x : Link) (u : Units) : (u.setLeftD p x).parseStack = u.parseStack := rfl
@[simp] theorem Units.setLeftD_cntAcc (p : Pos) (x : Link) (u : Units) : (u.setLeftD p x).cntAcc = u.cntAcc := rfl
@[simp] theorem Units.setLeftD_cntIdx (p : Pos) (x : Link) (u : Units) : (u.setLeftD p x).cntIdx = u.cntIdx := rfl
@[simp] theorem Units.setLeftD_cntDone (p : Pos) (x : Link) (u : Units) : (u.setLeftD p x).cntDone = u.cntDone := rfl

@[simp] theorem Units.setRightD_wpb (p : Pos) (x : Link) (u : Units) : (u.setRightD p x).wpb = u.wpb := rfl
@[simp] theorem Units.setRightD_wfree (p : Pos) (x : Link) (u : Units) : (u.setRightD p x).wfree = u.wfree := rfl
@[simp] theorem Units.setRightD_rpb (p : Pos) (x : Link) (u : Units) : (u.setRightD p x).rpb = u.rpb := rfl
@[simp] theorem Units.setRightD_rcnt (p : Pos) (x : Link) (u : Units) : (u.setRightD p x).rcnt = u.rcnt := rfl
@[simp] theorem Units.setRightD_dcur (p : Pos) (x : Link) (u : Units) : (u.setRightD p x).dcur = u.dcur := rfl
@[simp] theorem Units.setRightD_ldend (p : Pos) (x : Link) (u : Units) : (u.setRightD p x).ldend = u.ldend := rfl
@[simp] theorem Units.setRightD_weight (p : Pos) (x : Link) (u : Units) : (u.setRightD p x).weight = u.weight := rfl
@[simp] theorem Units.setRightD_leftH (p : Pos) (x : Link) (u : Units) : (u.setRightD p x).leftH = u.leftH := rfl
@[simp] theorem Units.setRightD_rightH (p : Pos) (x : Link) (u : Units) : (u.setRightD p x).rightH = u.rightH := rfl
@[simp] theorem Units.setRightD_nweight (p : Pos) (x : Link) (u : Units) : (u.setRightD p x).nweight = u.nweight := rfl
@[simp] theorem Units.setRightD_nextH (p : Pos) (x : Link) (u : Units) : (u.setRightD p x).nextH = u.nextH := rfl
@[simp] theorem Units.setRightD_rootH (p : Pos) (x : Link) (u : Units) : (u.setRightD p x).rootH = u.rootH := rfl
@[simp] theorem Units.setRightD_pq (p : Pos) (x : Link) (u : Units) : (u.setRightD p x).pq = u.pq := rfl
@[simp] theorem Units.setRightD_code (p : Pos) (x : Link) (u : Units) : (u.setRightD p x).code = u.code := rfl
@[simp] theorem Units.setRightD_clen (p : Pos) (x : Link) (u : Units) : (u.setRightD p x).clen = u.clen := rfl
@[simp] theorem Units.setRightD_cvalid (p : Pos) (x : Link) (u : Units) : (u.setRightD p x).cvalid = u.cvalid := rfl
@[simp] theorem Units.setRightD_window (p : Pos) (x : Link) (u : Units) : (u.setRightD p x).window = u.window := rfl
@[simp] theorem Units.setRightD_roots (p : Pos) (x : Link) (u : Units) : (u.setRightD p x).roots = u.roots := rfl
@[simp] theorem Units.setRightD_parent (p : Pos) (x : Link) (u : Units) : (u.setRightD p x).parent = u.parent := rfl
@[simp] theorem Units.setRightD_leftD (p : Pos) (x : Link) (u : Units) : (u.setRightD p x).leftD = u.leftD := rfl
@[simp] theorem Units.setRightD_member (p : Pos) (x : Link) (u : Units) : (u.setRightD p x).member = u.member := rfl
@[simp] theorem Units.setRightD_lcur (p : Pos) (x : Link) (u : Units) : (u.setRightD p x).lcur = u.lcur := rfl
@[simp] theorem Units.setRightD_llook (p : Pos) (x : Link) (u : Units) : (u.setRightD p x).llook = u.llook := rfl
@[simp] theorem Units.setRightD_lskip (p : Pos) (x : Link) (u : Units) : (u.setRightD p x).lskip = u.lskip := rfl
@[simp] theorem Units.setRightD_leof (p : Pos) (x : Link) (u : Units) : (u.setRightD p x).leof = u.leof := rfl
@[simp] theorem Units.setRightD_parseStack (p : Pos) (x : Link) (u : Units) : (u.setRightD p x).parseStack = u.parseStack := rfl
@[simp] theorem Units.setRightD_cntAcc (p : Pos) (x : Link) (u : Units) : (u.setRightD p x).cntAcc = u.cntAcc := rfl
@[simp] theorem Units.setRightD_cntIdx (p : Pos) (x : Link) (u : Units) : (u.setRightD p x).cntIdx = u.cntIdx := rfl
@[simp] theorem Units.setRightD_cntDone (p : Pos) (x : Link) (u : Units) : (u.setRightD p x).cntDone = u.cntDone := rfl

@[simp] theorem Units.setMember_wpb (p : Pos) (m : Bool) (u : Units) : (u.setMember p m).wpb = u.wpb := rfl
@[simp] theorem Units.setMember_wfree (p : Pos) (m : Bool) (u : Units) : (u.setMember p m).wfree = u.wfree := rfl
@[simp] theorem Units.setMember_rpb (p : Pos) (m : Bool) (u : Units) : (u.setMember p m).rpb = u.rpb := rfl
@[simp] theorem Units.setMember_rcnt (p : Pos) (m : Bool) (u : Units) : (u.setMember p m).rcnt = u.rcnt := rfl
@[simp] theorem Units.setMember_dcur (p : Pos) (m : Bool) (u : Units) : (u.setMember p m).dcur = u.dcur := rfl
@[simp] theorem Units.setMember_ldend (p : Pos) (m : Bool) (u : Units) : (u.setMember p m).ldend = u.ldend := rfl
@[simp] theorem Units.setMember_weight (p : Pos) (m : Bool) (u : Units) : (u.setMember p m).weight = u.weight := rfl
@[simp] theorem Units.setMember_leftH (p : Pos) (m : Bool) (u : Units) : (u.setMember p m).leftH = u.leftH := rfl
@[simp] theorem Units.setMember_rightH (p : Pos) (m : Bool) (u : Units) : (u.setMember p m).rightH = u.rightH := rfl
@[simp] theorem Units.setMember_nweight (p : Pos) (m : Bool) (u : Units) : (u.setMember p m).nweight = u.nweight := rfl
@[simp] theorem Units.setMember_nextH (p : Pos) (m : Bool) (u : Units) : (u.setMember p m).nextH = u.nextH := rfl
@[simp] theorem Units.setMember_rootH (p : Pos) (m : Bool) (u : Units) : (u.setMember p m).rootH = u.rootH := rfl
@[simp] theorem Units.setMember_pq (p : Pos) (m : Bool) (u : Units) : (u.setMember p m).pq = u.pq := rfl
@[simp] theorem Units.setMember_code (p : Pos) (m : Bool) (u : Units) : (u.setMember p m).code = u.code := rfl
@[simp] theorem Units.setMember_clen (p : Pos) (m : Bool) (u : Units) : (u.setMember p m).clen = u.clen := rfl
@[simp] theorem Units.setMember_cvalid (p : Pos) (m : Bool) (u : Units) : (u.setMember p m).cvalid = u.cvalid := rfl
@[simp] theorem Units.setMember_window (p : Pos) (m : Bool) (u : Units) : (u.setMember p m).window = u.window := rfl
@[simp] theorem Units.setMember_roots (p : Pos) (m : Bool) (u : Units) : (u.setMember p m).roots = u.roots := rfl
@[simp] theorem Units.setMember_parent (p : Pos) (m : Bool) (u : Units) : (u.setMember p m).parent = u.parent := rfl
@[simp] theorem Units.setMember_leftD (p : Pos) (m : Bool) (u : Units) : (u.setMember p m).leftD = u.leftD := rfl
@[simp] theorem Units.setMember_rightD (p : Pos) (m : Bool) (u : Units) : (u.setMember p m).rightD = u.rightD := rfl
@[simp] theorem Units.setMember_lcur (p : Pos) (m : Bool) (u : Units) : (u.setMember p m).lcur = u.lcur := rfl
@[simp] theorem Units.setMember_llook (p : Pos) (m : Bool) (u : Units) : (u.setMember p m).llook = u.llook := rfl
@[simp] theorem Units.setMember_lskip (p : Pos) (m : Bool) (u : Units) : (u.setMember p m).lskip = u.lskip := rfl
@[simp] theorem Units.setMember_leof (p : Pos) (m : Bool) (u : Units) : (u.setMember p m).leof = u.leof := rfl
@[simp] theorem Units.setMember_parseStack (p : Pos) (m : Bool) (u : Units) : (u.setMember p m).parseStack = u.parseStack := rfl
@[simp] theorem Units.setMember_cntAcc (p : Pos) (m : Bool) (u : Units) : (u.setMember p m).cntAcc = u.cntAcc := rfl
@[simp] theorem Units.setMember_cntIdx (p : Pos) (m : Bool) (u : Units) : (u.setMember p m).cntIdx = u.cntIdx := rfl
@[simp] theorem Units.setMember_cntDone (p : Pos) (m : Bool) (u : Units) : (u.setMember p m).cntDone = u.cntDone := rfl

@[simp] theorem Units.detach_wpb (q : Pos) (u : Units) : (u.detach q).wpb = u.wpb := rfl
@[simp] theorem Units.detach_wfree (q : Pos) (u : Units) : (u.detach q).wfree = u.wfree := rfl
@[simp] theorem Units.detach_rpb (q : Pos) (u : Units) : (u.detach q).rpb = u.rpb := rfl
@[simp] theorem Units.detach_rcnt (q : Pos) (u : Units) : (u.detach q).rcnt = u.rcnt := rfl
@[simp] theorem Units.detach_dcur (q : Pos) (u : Units) : (u.detach q).dcur = u.dcur := rfl
@[simp] theorem Units.detach_ldend (q : Pos) (u : Units) : (u.detach q).ldend = u.ldend := rfl
@[simp] theorem Units.detach_weight (q : Pos) (u : Units) : (u.detach q).weight = u.weight := rfl
@[simp] theorem Units.detach_leftH (q : Pos) (u : Units) : (u.detach q).leftH = u.leftH := rfl
@[simp] theorem Units.detach_rightH (q : Pos) (u : Units) : (u.detach q).rightH = u.rightH := rfl
@[simp] theorem Units.detach_nweight (q : Pos) (u : Units) : (u.detach q).nweight = u.nweight := rfl
@[simp] theorem Units.detach_nextH (q : Pos) (u : Units) : (u.detach q).nextH = u.nextH := rfl
@[simp] theorem Units.detach_rootH (q : Pos) (u : Units) : (u.detach q).rootH = u.rootH := rfl
@[simp] theorem Units.detach_pq (q : Pos) (u : Units) : (u.detach q).pq = u.pq := rfl
@[simp] theorem Units.detach_code (q : Pos) (u : Units) : (u.detach q).code = u.code := rfl
@[simp] theorem Units.detach_clen (q : Pos) (u : Units) : (u.detach q).clen = u.clen := rfl
@[simp] theorem Units.detach_cvalid (q : Pos) (u : Units) : (u.detach q).cvalid = u.cvalid := rfl
@[simp] theorem Units.detach_window (q : Pos) (u : Units) : (u.detach q).window = u.window := rfl
@[simp] theorem Units.detach_roots (q : Pos) (u : Units) : (u.detach q).roots = u.roots := rfl
@[simp] theorem Units.detach_lcur (q : Pos) (u : Units) : (u.detach q).lcur = u.lcur := rfl
@[simp] theorem Units.detach_llook (q : Pos) (u : Units) : (u.detach q).llook = u.llook := rfl
@[simp] theorem Units.detach_lskip (q : Pos) (u : Units) : (u.detach q).lskip = u.lskip := rfl
@[simp] theorem Units.detach_leof (q : Pos) (u : Units) : (u.detach q).leof = u.leof := rfl
@[simp] theorem Units.detach_parseStack (q : Pos) (u : Units) : (u.detach q).parseStack = u.parseStack := rfl
@[simp] theorem Units.detach_cntAcc (q : Pos) (u : Units) : (u.detach q).cntAcc = u.cntAcc := rfl
@[simp] theorem Units.detach_cntIdx (q : Pos) (u : Units) : (u.detach q).cntIdx = u.cntIdx := rfl
@[simp] theorem Units.detach_cntDone (q : Pos) (u : Units) : (u.detach q).cntDone = u.cntDone := rfl

@[simp] theorem Units.takePlace_wpb (q p : Pos) (u : Units) : (u.takePlace q p).wpb = u.wpb := rfl
@[simp] theorem Units.takePlace_wfree (q p : Pos) (u : Units) : (u.takePlace q p).wfree = u.wfree := rfl
@[simp] theorem Units.takePlace_rpb (q p : Pos) (u : Units) : (u.takePlace q p).rpb = u.rpb := rfl
@[simp] theorem Units.takePlace_rcnt (q p : Pos) (u : Units) : (u.takePlace q p).rcnt = u.rcnt := rfl
@[simp] theorem Units.takePlace_dcur (q p : Pos) (u : Units) : (u.takePlace q p).dcur = u.dcur := rfl
@[simp] theorem Units.takePlace_ldend (q p : Pos) (u : Units) : (u.takePlace q p).ldend = u.ldend := rfl
@[simp] theorem Units.takePlace_weight (q p : Pos) (u : Units) : (u.takePlace q p).weight = u.weight := rfl
@[simp] theorem Units.takePlace_leftH (q p : Pos) (u : Units) : (u.takePlace q p).leftH = u.leftH := rfl
@[simp] theorem Units.takePlace_rightH (q p : Pos) (u : Units) : (u.takePlace q p).rightH = u.rightH := rfl
@[simp] theorem Units.takePlace_nweight (q p : Pos) (u : Units) : (u.takePlace q p).nweight = u.nweight := rfl
@[simp] theorem Units.takePlace_nextH (q p : Pos) (u : Units) : (u.takePlace q p).nextH = u.nextH := rfl
@[simp] theorem Units.takePlace_rootH (q p : Pos) (u : Units) : (u.takePlace q p).rootH = u.rootH := rfl
@[simp] theorem Units.takePlace_pq (q p : Pos) (u : Units) : (u.takePlace q p).pq = u.pq := rfl
@[simp] theorem Units.takePlace_code (q p : Pos) (u : Units) : (u.takePlace q p).code = u.code := rfl
@[simp] theorem Units.takePlace_clen (q p : Pos) (u : Units) : (u.takePlace q p).clen = u.clen := rfl
@[simp] theorem Units.takePlace_cvalid (q p : Pos) (u : Units) : (u.takePlace q p).cvalid = u.cvalid := rfl
@[simp] theorem Units.takePlace_window (q p : Pos) (u : Units) : (u.takePlace q p).window = u.window := rfl
@[simp] theorem Units.takePlace_roots (q p : Pos) (u : Units) : (u.takePlace q p).roots = u.roots := rfl
@[simp] theorem Units.takePlace_lcur (q p : Pos) (u : Units) : (u.takePlace q p).lcur = u.lcur := rfl
@[simp] theorem Units.takePlace_llook (q p : Pos) (u : Units) : (u.takePlace q p).llook = u.llook := rfl
@[simp] theorem Units.takePlace_lskip (q p : Pos) (u : Units) : (u.takePlace q p).lskip = u.lskip := rfl
@[simp] theorem Units.takePlace_leof (q p : Pos) (u : Units) : (u.takePlace q p).leof = u.leof := rfl
@[simp] theorem Units.takePlace_parseStack (q p : Pos) (u : Units) : (u.takePlace q p).parseStack = u.parseStack := rfl
@[simp] theorem Units.takePlace_cntAcc (q p : Pos) (u : Units) : (u.takePlace q p).cntAcc = u.cntAcc := rfl
@[simp] theorem Units.takePlace_cntIdx (q p : Pos) (u : Units) : (u.takePlace q p).cntIdx = u.cntIdx := rfl
@[simp] theorem Units.takePlace_cntDone (q p : Pos) (u : Units) : (u.takePlace q p).cntDone = u.cntDone := rfl

@[simp] theorem Units.insertLeft_wpb (p q : Pos) (u : Units) : (u.insertLeft p q).wpb = u.wpb := rfl
@[simp] theorem Units.insertLeft_wfree (p q : Pos) (u : Units) : (u.insertLeft p q).wfree = u.wfree := rfl
@[simp] theorem Units.insertLeft_rpb (p q : Pos) (u : Units) : (u.insertLeft p q).rpb = u.rpb := rfl
@[simp] theorem Units.insertLeft_rcnt (p q : Pos) (u : Units) : (u.insertLeft p q).rcnt = u.rcnt := rfl
@[simp] theorem Units.insertLeft_dcur (p q : Pos) (u : Units) : (u.insertLeft p q).dcur = u.dcur := rfl
@[simp] theorem Units.insertLeft_ldend (p q : Pos) (u : Units) : (u.insertLeft p q).ldend = u.ldend := rfl
@[simp] theorem Units.insertLeft_weight (p q : Pos) (u : Units) : (u.insertLeft p q).weight = u.weight := rfl
@[simp] theorem Units.insertLeft_leftH (p q : Pos) (u : Units) : (u.insertLeft p q).leftH = u.leftH := rfl
@[simp] theorem Units.insertLeft_rightH (p q : Pos) (u : Units) : (u.insertLeft p q).rightH = u.rightH := rfl
@[simp] theorem Units.insertLeft_nweight (p q : Pos) (u : Units) : (u.insertLeft p q).nweight = u.nweight := rfl
@[simp] theorem Units.insertLeft_nextH (p q : Pos) (u : Units) : (u.insertLeft p q).nextH = u.nextH := rfl
@[simp] theorem Units.insertLeft_rootH (p q : Pos) (u : Units) : (u.insertLeft p q).rootH = u.rootH := rfl
@[simp] theorem Units.insertLeft_pq (p q : Pos) (u : Units) : (u.insertLeft p q).pq = u.pq := rfl
@[simp] theorem Units.insertLeft_code (p q : Pos) (u : Units) : (u.insertLeft p q).code = u.code := rfl
@[simp] theorem Units.insertLeft_clen (p q : Pos) (u : Units) : (u.insertLeft p q).clen = u.clen := rfl
@[simp] theorem Units.insertLeft_cvalid (p q : Pos) (u : Units) : (u.insertLeft p q).cvalid = u.cvalid := rfl
@[simp] theorem Units.insertLeft_window (p q : Pos) (u : Units) : (u.insertLeft p q).window = u.window := rfl
@[simp] theorem Units.insertLeft_roots (p q : Pos) (u : Units) : (u.insertLeft p q).roots = u.roots := rfl
@[simp] theorem Units.insertLeft_rightD (p q : Pos) (u : Units) : (u.insertLeft p q).rightD = u.rightD := rfl
@[simp] theorem Units.insertLeft_lcur (p q : Pos) (u : Units) : (u.insertLeft p q).lcur = u.lcur := rfl
@[simp] theorem Units.insertLeft_llook (p q : Pos) (u : Units) : (u.insertLeft p q).llook = u.llook := rfl
@[simp] theorem Units.insertLeft_lskip (p q : Pos) (u : Units) : (u.insertLeft p q).lskip = u.lskip := rfl
@[simp] theorem Units.insertLeft_leof (p q : Pos) (u : Units) : (u.insertLeft p q).leof = u.leof := rfl
@[simp] theorem Units.insertLeft_parseStack (p q : Pos) (u : Units) : (u.insertLeft p q).parseStack = u.parseStack := rfl
@[simp] theorem Units.insertLeft_cntAcc (p q : Pos) (u : Units) : (u.insertLeft p q).cntAcc = u.cntAcc := rfl
@[simp] theorem Units.insertLeft_cntIdx (p q : Pos) (u : Units) : (u.insertLeft p q).cntIdx = u.cntIdx := rfl
@[simp] theorem Units.insertLeft_cntDone (p q : Pos) (u : Units) : (u.insertLeft p q).cntDone = u.cntDone := rfl

@[simp] theorem Units.insertRight_wpb (p q : Pos) (u : Units) : (u.insertRight p q).wpb = u.wpb := rfl
@[simp] theorem Units.insertRight_wfree (p q : Pos) (u : Units) : (u.insertRight p q).wfree = u.wfree := rfl
@[simp] theorem Units.insertRight_rpb (p q : Pos) (u : Units) : (u.insertRight p q).rpb = u.rpb := rfl
@[simp] theorem Units.insertRight_rcnt (p q : Pos) (u : Units) : (u.insertRight p q).rcnt = u.rcnt := rfl
@[simp] theorem Units.insertRight_dcur (p q : Pos) (u : Units) : (u.insertRight p q).dcur = u.dcur := rfl
@[simp] theorem Units.insertRight_ldend (p q : Pos) (u : Units) : (u.insertRight p q).ldend = u.ldend := rfl
@[simp] theorem Units.insertRight_weight (p q : Pos) (u : Units) : (u.insertRight p q).weight = u.weight := rfl
@[simp] theorem Units.insertRight_leftH (p q : Pos) (u : Units) : (u.insertRight p q).leftH = u.leftH := rfl
@[simp] theorem Units.insertRight_rightH (p q : Pos) (u : Units) : (u.insertRight p q).rightH = u.rightH := rfl
@[simp] theorem Units.insertRight_nweight (p q : Pos) (u : Units) : (u.insertRight p q).nweight = u.nweight := rfl
@[simp] theorem Units.insertRight_nextH (p q : Pos) (u : Units) : (u.insertRight p q).nextH = u.nextH := rfl
@[simp] theorem Units.insertRight_rootH (p q : Pos) (u : Units) : (u.insertRight p q).rootH = u.rootH := rfl
@[simp] theorem Units.insertRight_pq (p q : Pos) (u : Units) : (u.insertRight p q).pq = u.pq := rfl
@[simp] theorem Units.insertRight_code (p q : Pos) (u : Units) : (u.insertRight p q).code = u.code := rfl
@[simp] theorem Units.insertRight_clen (p q : Pos) (u : Units) : (u.insertRight p q).clen = u.clen := rfl
@[simp] theorem Units.insertRight_cvalid (p q : Pos) (u : Units) : (u.insertRight p q).cvalid = u.cvalid := rfl
@[simp] theorem Units.insertRight_window (p q : Pos) (u : Units) : (u.insertRight p q).window = u.window := rfl
@[simp] theorem Units.insertRight_roots (p q : Pos) (u : Units) : (u.insertRight p q).roots = u.roots := rfl
@[simp] theorem Units.insertRight_leftD (p q : Pos) (u : Units) : (u.insertRight p q).leftD = u.leftD := rfl
@[simp] theorem Units.insertRight_lcur (p q : Pos) (u : Units) : (u.insertRight p q).lcur = u.lcur := rfl
@[simp] theorem Units.insertRight_llook (p q : Pos) (u : Units) : (u.insertRight p q).llook = u.llook := rfl
@[simp] theorem Units.insertRight_lskip (p q : Pos) (u : Units) : (u.insertRight p q).lskip = u.lskip := rfl
@[simp] theorem Units.insertRight_leof (p q : Pos) (u : Units) : (u.insertRight p q).leof = u.leof := rfl
@[simp] theorem Units.insertRight_parseStack (p q : Pos) (u : Units) : (u.insertRight p q).parseStack = u.parseStack := rfl
@[simp] theorem Units.insertRight_cntAcc (p q : Pos) (u : Units) : (u.insertRight p q).cntAcc = u.cntAcc := rfl
@[simp] theorem Units.insertRight_cntIdx (p q : Pos) (u : Units) : (u.insertRight p q).cntIdx = u.cntIdx := rfl
@[simp] theorem Units.insertRight_cntDone (p q : Pos) (u : Units) : (u.insertRight p q).cntDone = u.cntDone := rfl

/-! ## Table entries after a table write -/

theorem pos_toNat_eq {p q : Pos} : p.toNat = q.toNat ↔ p = q := BitVec.toNat_inj

@[simp] theorem Units.parentOf_setParent (p q : Pos) (x : Link) (u : Units) :
    (u.setParent p x).parentOf q = if q = p then x else u.parentOf q := by
  simp only [Units.parentOf, Units.setParent, Vector.getElem_set, pos_toNat_eq, eq_comm (a := p)]

@[simp] theorem Units.leftOfD_setLeftD (p q : Pos) (x : Link) (u : Units) :
    (u.setLeftD p x).leftOfD q = if q = p then x else u.leftOfD q := by
  simp only [Units.leftOfD, Units.setLeftD, Vector.getElem_set, pos_toNat_eq, eq_comm (a := p)]

@[simp] theorem Units.rightOfD_setRightD (p q : Pos) (x : Link) (u : Units) :
    (u.setRightD p x).rightOfD q = if q = p then x else u.rightOfD q := by
  simp only [Units.rightOfD, Units.setRightD, Vector.getElem_set, pos_toNat_eq, eq_comm (a := p)]

@[simp] theorem Units.isMember_setMember (p q : Pos) (m : Bool) (u : Units) :
    (u.setMember p m).isMember q = if q = p then m else u.isMember q := by
  simp only [Units.isMember, Units.setMember, Vector.getElem_set, pos_toNat_eq, eq_comm (a := p)]

@[simp] theorem Units.rootOf_setRoot (c d : Byte) (x : Link) (u : Units) :
    (u.setRoot c x).rootOf d = if d = c then x else u.rootOf d := by
  simp only [Units.rootOf, Units.setRoot, Vector.getElem_set, BitVec.toNat_inj, eq_comm (a := c)]

@[simp] theorem Units.weightAt_addWeight (b c : Byte) (u : Units) :
    (u.addWeight b).weightAt c = if c = b then u.weightAt c + 1 else u.weightAt c := by
  by_cases h : c = b
  · subst h
    simp [Units.weightAt, Units.addWeight]
  · have hn : ¬ b.toNat = c.toNat := fun e => h (BitVec.toNat_inj.mp e).symm
    simp [Units.weightAt, Units.addWeight, h, hn]

@[simp] theorem Units.parentOf_detach (q r : Pos) (u : Units) :
    (u.detach q).parentOf r = if r = q then none else u.parentOf r := by
  simp only [Units.parentOf, Units.detach, Vector.getElem_set, pos_toNat_eq, eq_comm (a := q)]

@[simp] theorem Units.parentOf_takePlace (q p r : Pos) (u : Units) :
    (u.takePlace q p).parentOf r = if r = p then u.parentOf q else u.parentOf r := by
  simp only [Units.parentOf, Units.takePlace, Vector.getElem_set, pos_toNat_eq, eq_comm (a := p)]

@[simp] theorem Units.leftOfD_detach (q r : Pos) (u : Units) :
    (u.detach q).leftOfD r = if r = q then none else u.leftOfD r := by
  simp only [Units.leftOfD, Units.detach, Vector.getElem_set, pos_toNat_eq, eq_comm (a := q)]

@[simp] theorem Units.leftOfD_takePlace (q p r : Pos) (u : Units) :
    (u.takePlace q p).leftOfD r = if r = p then u.leftOfD q else u.leftOfD r := by
  simp only [Units.leftOfD, Units.takePlace, Vector.getElem_set, pos_toNat_eq, eq_comm (a := p)]

@[simp] theorem Units.rightOfD_detach (q r : Pos) (u : Units) :
    (u.detach q).rightOfD r = if r = q then none else u.rightOfD r := by
  simp only [Units.rightOfD, Units.detach, Vector.getElem_set, pos_toNat_eq, eq_comm (a := q)]

@[simp] theorem Units.rightOfD_takePlace (q p r : Pos) (u : Units) :
    (u.takePlace q p).rightOfD r = if r = p then u.rightOfD q else u.rightOfD r := by
  simp only [Units.rightOfD, Units.takePlace, Vector.getElem_set, pos_toNat_eq, eq_comm (a := p)]

@[simp] theorem Units.isMember_detach (q r : Pos) (u : Units) :
    (u.detach q).isMember r = if r = q then false else u.isMember r := by
  simp only [Units.isMember, Units.detach, Vector.getElem_set, pos_toNat_eq, eq_comm (a := q)]

@[simp] theorem Units.isMember_takePlace (q p r : Pos) (u : Units) :
    (u.takePlace q p).isMember r = if r = p then true else u.isMember r := by
  simp only [Units.isMember, Units.takePlace, Vector.getElem_set, pos_toNat_eq, eq_comm (a := p)]

@[simp] theorem Units.parentOf_insertLeft (p q r : Pos) (u : Units) :
    (u.insertLeft p q).parentOf r = if r = p then some q else u.parentOf r := by
  simp only [Units.parentOf, Units.insertLeft, Vector.getElem_set, pos_toNat_eq, eq_comm (a := p)]

@[simp] theorem Units.leftOfD_insertLeft (p q r : Pos) (u : Units) :
    (u.insertLeft p q).leftOfD r = if r = q then some p else u.leftOfD r := by
  simp only [Units.leftOfD, Units.insertLeft, Vector.getElem_set, pos_toNat_eq, eq_comm (a := q)]

@[simp] theorem Units.isMember_insertLeft (p q r : Pos) (u : Units) :
    (u.insertLeft p q).isMember r = if r = p then true else u.isMember r := by
  simp only [Units.isMember, Units.insertLeft, Vector.getElem_set, pos_toNat_eq, eq_comm (a := p)]

@[simp] theorem Units.parentOf_insertRight (p q r : Pos) (u : Units) :
    (u.insertRight p q).parentOf r = if r = p then some q else u.parentOf r := by
  simp only [Units.parentOf, Units.insertRight, Vector.getElem_set, pos_toNat_eq, eq_comm (a := p)]

@[simp] theorem Units.rightOfD_insertRight (p q r : Pos) (u : Units) :
    (u.insertRight p q).rightOfD r = if r = q then some p else u.rightOfD r := by
  simp only [Units.rightOfD, Units.insertRight, Vector.getElem_set, pos_toNat_eq, eq_comm (a := q)]

@[simp] theorem Units.isMember_insertRight (p q r : Pos) (u : Units) :
    (u.insertRight p q).isMember r = if r = p then true else u.isMember r := by
  simp only [Units.isMember, Units.insertRight, Vector.getElem_set, pos_toNat_eq, eq_comm (a := p)]

@[simp] theorem Units.rootOf_winWr (e : Byte) (P : Config.Params) (k : Pos) (b : Byte) (u : Units) : (u.winWr P k b).rootOf e = u.rootOf e := rfl
@[simp] theorem Units.rootOf_setParent (e : Byte) (p : Pos) (x : Link) (u : Units) : (u.setParent p x).rootOf e = u.rootOf e := rfl
@[simp] theorem Units.rootOf_setLeftD (e : Byte) (p : Pos) (x : Link) (u : Units) : (u.setLeftD p x).rootOf e = u.rootOf e := rfl
@[simp] theorem Units.rootOf_setRightD (e : Byte) (p : Pos) (x : Link) (u : Units) : (u.setRightD p x).rootOf e = u.rootOf e := rfl
@[simp] theorem Units.rootOf_setMember (e : Byte) (p : Pos) (m : Bool) (u : Units) : (u.setMember p m).rootOf e = u.rootOf e := rfl
@[simp] theorem Units.rootOf_detach (e : Byte) (q : Pos) (u : Units) : (u.detach q).rootOf e = u.rootOf e := rfl
@[simp] theorem Units.rootOf_takePlace (e : Byte) (q p : Pos) (u : Units) : (u.takePlace q p).rootOf e = u.rootOf e := rfl
@[simp] theorem Units.rootOf_insertLeft (e : Byte) (p q : Pos) (u : Units) : (u.insertLeft p q).rootOf e = u.rootOf e := rfl
@[simp] theorem Units.rootOf_insertRight (e : Byte) (p q : Pos) (u : Units) : (u.insertRight p q).rootOf e = u.rootOf e := rfl

@[simp] theorem Units.parentOf_winWr (r : Pos) (P : Config.Params) (k : Pos) (b : Byte) (u : Units) : (u.winWr P k b).parentOf r = u.parentOf r := rfl
@[simp] theorem Units.parentOf_setRoot (r : Pos) (c : Byte) (x : Link) (u : Units) : (u.setRoot c x).parentOf r = u.parentOf r := rfl
@[simp] theorem Units.parentOf_setLeftD (r : Pos) (p : Pos) (x : Link) (u : Units) : (u.setLeftD p x).parentOf r = u.parentOf r := rfl
@[simp] theorem Units.parentOf_setRightD (r : Pos) (p : Pos) (x : Link) (u : Units) : (u.setRightD p x).parentOf r = u.parentOf r := rfl
@[simp] theorem Units.parentOf_setMember (r : Pos) (p : Pos) (m : Bool) (u : Units) : (u.setMember p m).parentOf r = u.parentOf r := rfl

@[simp] theorem Units.leftOfD_winWr (r : Pos) (P : Config.Params) (k : Pos) (b : Byte) (u : Units) : (u.winWr P k b).leftOfD r = u.leftOfD r := rfl
@[simp] theorem Units.leftOfD_setRoot (r : Pos) (c : Byte) (x : Link) (u : Units) : (u.setRoot c x).leftOfD r = u.leftOfD r := rfl
@[simp] theorem Units.leftOfD_setParent (r : Pos) (p : Pos) (x : Link) (u : Units) : (u.setParent p x).leftOfD r = u.leftOfD r := rfl
@[simp] theorem Units.leftOfD_setRightD (r : Pos) (p : Pos) (x : Link) (u : Units) : (u.setRightD p x).leftOfD r = u.leftOfD r := rfl
@[simp] theorem Units.leftOfD_setMember (r : Pos) (p : Pos) (m : Bool) (u : Units) : (u.setMember p m).leftOfD r = u.leftOfD r := rfl
@[simp] theorem Units.leftOfD_insertRight (r : Pos) (p q : Pos) (u : Units) : (u.insertRight p q).leftOfD r = u.leftOfD r := rfl

@[simp] theorem Units.rightOfD_winWr (r : Pos) (P : Config.Params) (k : Pos) (b : Byte) (u : Units) : (u.winWr P k b).rightOfD r = u.rightOfD r := rfl
@[simp] theorem Units.rightOfD_setRoot (r : Pos) (c : Byte) (x : Link) (u : Units) : (u.setRoot c x).rightOfD r = u.rightOfD r := rfl
@[simp] theorem Units.rightOfD_setParent (r : Pos) (p : Pos) (x : Link) (u : Units) : (u.setParent p x).rightOfD r = u.rightOfD r := rfl
@[simp] theorem Units.rightOfD_setLeftD (r : Pos) (p : Pos) (x : Link) (u : Units) : (u.setLeftD p x).rightOfD r = u.rightOfD r := rfl
@[simp] theorem Units.rightOfD_setMember (r : Pos) (p : Pos) (m : Bool) (u : Units) : (u.setMember p m).rightOfD r = u.rightOfD r := rfl
@[simp] theorem Units.rightOfD_insertLeft (r : Pos) (p q : Pos) (u : Units) : (u.insertLeft p q).rightOfD r = u.rightOfD r := rfl

@[simp] theorem Units.isMember_winWr (r : Pos) (P : Config.Params) (k : Pos) (b : Byte) (u : Units) : (u.winWr P k b).isMember r = u.isMember r := rfl
@[simp] theorem Units.isMember_setRoot (r : Pos) (c : Byte) (x : Link) (u : Units) : (u.setRoot c x).isMember r = u.isMember r := rfl
@[simp] theorem Units.isMember_setParent (r : Pos) (p : Pos) (x : Link) (u : Units) : (u.setParent p x).isMember r = u.isMember r := rfl
@[simp] theorem Units.isMember_setLeftD (r : Pos) (p : Pos) (x : Link) (u : Units) : (u.setLeftD p x).isMember r = u.isMember r := rfl
@[simp] theorem Units.isMember_setRightD (r : Pos) (p : Pos) (x : Link) (u : Units) : (u.setRightD p x).isMember r = u.isMember r := rfl

@[simp] theorem Units.rootOf_dictClear (c : Byte) (u : Units) : u.dictClear.rootOf c = none := by
  simp [Units.rootOf, Units.dictClear]

@[simp] theorem Units.parentOf_dictClear (p : Pos) (u : Units) : u.dictClear.parentOf p = none := by
  simp [Units.parentOf, Units.dictClear]

@[simp] theorem Units.leftOfD_dictClear (p : Pos) (u : Units) : u.dictClear.leftOfD p = none := by
  simp [Units.leftOfD, Units.dictClear]

@[simp] theorem Units.rightOfD_dictClear (p : Pos) (u : Units) : u.dictClear.rightOfD p = none := by
  simp [Units.rightOfD, Units.dictClear]

@[simp] theorem Units.isMember_dictClear (p : Pos) (u : Units) : u.dictClear.isMember p = false := by
  simp [Units.isMember, Units.dictClear]

end Sys2Proof.Machine
end

