-- ==== Sys2Proof/Laws/Ops.lean ====
section
/-! SUPPORT. How pieces of pseudocode compose, what each primitive answers, and which groups of state each shared operation can change. -/

namespace Sys2Proof.Machine

/-! ## Composition -/

section
variable {α β : Type}

/-- A sequence, by how its first piece ends. -/
theorem Op.bind_eq (x : Op α) (f : α → Op β) (s : State) :
    (x >>= f) s = match x s with
      | .ok a t => f a t
      | .error e t => .error e t := by
  show EStateM.bind x f s = _
  unfold EStateM.bind
  split <;> simp_all

theorem Op.bind_ok {x : Op α} {f : α → Op β} {s t : State} {a : α} (h : x s = .ok a t) : (x >>= f) s = f a t := by
  rw [Op.bind_eq, h]

theorem Op.bind_error {x : Op α} {f : α → Op β} {s t : State} {e : Stop} (h : x s = .error e t) :
    (x >>= f) s = .error e t := by
  rw [Op.bind_eq, h]

/-- A sequence that ends well: so did its first piece, and the rest went on from there. -/
theorem Op.of_bind_ok {x : Op α} {f : α → Op β} {s t : State} {b : β} (h : (x >>= f) s = .ok b t) :
    ∃ a q, x s = .ok a q ∧ f a q = .ok b t := by
  rw [Op.bind_eq] at h
  split at h
  · exact ⟨_, _, ‹_›, h⟩
  · cases h

@[simp] theorem Op.pure_run (a : α) (s : State) : (pure a : Op α) s = .ok a s := rfl

@[simp] theorem Op.raise_run (c : FaultCode) (s : State) : (raise c : Op α) s = .error (.raised c) s := rfl

@[simp] theorem Op.stuck_run (f : Fault) (s : State) : (stuck f : Op α) s = .error (.stuck f) s := rfl

@[simp] theorem Op.units_run (s : State) : units s = .ok s.u s := rfl

@[simp] theorem Op.params_run (s : State) : params s = .ok s.params s := rfl

@[simp] theorem Op.setUnits_run (f : Units → Units) (s : State) : setUnits f s = .ok () { s with u := f s.u } := rfl

@[simp] theorem Op.streamInit_run (s : State) : streamInit s = .ok () s.streamInit := rfl

@[simp] theorem Op.setRes0_run (a : Nat) (s : State) : setRes0 a s = .ok () (s.withResult a) := rfl

@[simp] theorem Op.setRes_run (a b : Nat) (s : State) : setRes a b s = .ok () (s.withResults a b) := rfl

@[simp] theorem Op.units_bind (f : Units → Op β) (s : State) : (units >>= f) s = f s.u s := rfl

@[simp] theorem Op.params_bind (f : Config.Params → Op β) (s : State) : (params >>= f) s = f s.params s := rfl

@[simp] theorem Op.pure_bind (a : α) (f : α → Op β) (s : State) : ((pure a : Op α) >>= f) s = f a s := rfl

@[simp] theorem Op.setUnits_bind (g : Units → Units) (f : Unit → Op β) (s : State) :
    (setUnits g >>= f) s = f () { s with u := g s.u } := rfl

@[simp] theorem Op.raise_bind (c : FaultCode) (f : α → Op β) (s : State) :
    ((raise c : Op α) >>= f) s = .error (.raised c) s := rfl

/-! ## Preservation -/

/-- From a state where I holds, a piece of pseudocode that ends well ends where I holds, and one that raises a fault
ends where J holds. -/
def Op.Holds (I : State → Prop) (x : Op α) (Q : α → State → Prop) (J : State → Prop) : Prop :=
  ∀ s, I s → match x s with
    | .ok a t => Q a t
    | .error _ t => J t

theorem Op.Holds.pure {I : State → Prop} {Q : α → State → Prop} {J : State → Prop} {a : α}
    (h : ∀ s, I s → Q a s) : Op.Holds I (Pure.pure a : Op α) Q J := fun s hs => h s hs

theorem Op.Holds.bind {I : State → Prop} {R : α → State → Prop} {Q : β → State → Prop} {J : State → Prop}
    {x : Op α} {f : α → Op β} (hx : Op.Holds I x R J) (hf : ∀ a, Op.Holds (R a) (f a) Q J) :
    Op.Holds I (x >>= f) Q J := by
  intro s hs
  have h := hx s hs
  rw [Op.bind_eq]
  cases hxs : x s with
  | ok a t => rw [hxs] at h; exact hf a t h
  | error e t => rw [hxs] at h; exact h

theorem Op.Holds.raise {I : State → Prop} {Q : α → State → Prop} {J : State → Prop} {c : FaultCode}
    (h : ∀ s, I s → J s) : Op.Holds I (Machine.raise c : Op α) Q J := fun s hs => h s hs

theorem Op.Holds.stuck {I : State → Prop} {Q : α → State → Prop} {J : State → Prop} {f : Fault}
    (h : ∀ s, I s → J s) : Op.Holds I (Machine.stuck f : Op α) Q J := fun s hs => h s hs

theorem Op.Holds.ite {I : State → Prop} {Q : α → State → Prop} {J : State → Prop} {p : Prop} [Decidable p]
    {x y : Op α} (hx : p → Op.Holds I x Q J) (hy : ¬p → Op.Holds I y Q J) :
    Op.Holds I (if p then x else y) Q J := by
  split
  · exact hx ‹_›
  · exact hy ‹_›

theorem Op.Holds.imp {I I' : State → Prop} {Q Q' : α → State → Prop} {J J' : State → Prop} {x : Op α}
    (h : Op.Holds I' x Q' J') (hI : ∀ s, I s → I' s) (hQ : ∀ a t, Q' a t → Q a t) (hJ : ∀ t, J' t → J t) :
    Op.Holds I x Q J := by
  intro s hs
  have := h s (hI s hs)
  cases hx : x s with
  | ok a t => rw [hx] at this; exact hQ a t this
  | error e t => rw [hx] at this; exact hJ t this

/-! ## Frames by groups of state -/

/-- The state a piece of pseudocode ends in, whichever way it ends. -/
def Op.final : EStateM.Result Stop State α → State
  | .ok _ t => t
  | .error _ t => t

@[simp] theorem Op.final_ok (a : α) (t : State) : Op.final (.ok a t : EStateM.Result Stop State α) = t := rfl

@[simp] theorem Op.final_error (e : Stop) (t : State) :
    Op.final (.error e t : EStateM.Result Stop State α) = t := rfl

/-- The piece of pseudocode changes no group of state but the listed ones, whichever way it ends. -/
def Op.Writes (gs : List Group) (x : Op α) : Prop :=
  ∀ (s : State) (g : Group), g ∉ gs → s.agree (Op.final (x s)) g

theorem State.agree_refl (s : State) (g : Group) : s.agree s g := by
  cases g <;> simp [State.agree]

theorem State.agree_trans {s t r : State} {g : Group} (h : s.agree t g) (h' : t.agree r g) : s.agree r g := by
  cases g <;> simp_all [State.agree]

theorem Op.Writes.mono {gs hs : List Group} {x : Op α} (h : Op.Writes gs x) (hsub : ∀ g ∈ gs, g ∈ hs) :
    Op.Writes hs x := fun s g hg => h s g fun hm => hg (hsub g hm)

theorem Op.Writes.bind {gs : List Group} {x : Op α} {f : α → Op β} (hx : Op.Writes gs x)
    (hf : ∀ a, Op.Writes gs (f a)) : Op.Writes gs (x >>= f) := by
  intro s g hg
  have h := hx s g hg
  rw [Op.bind_eq]
  cases hxs : x s with
  | error e t => rw [hxs] at h; exact h
  | ok a t =>
    rw [hxs] at h
    exact State.agree_trans h (hf a t g hg)

end

end Sys2Proof.Machine
end

