-- ==== Sys2Proof/Laws/Commands.lean ====
section
/-! SUPPORT. The frame of a command and of a token: how each ends. -/

namespace Sys2Proof.Machine

/-! ## Commands (40_block_control.md R160) -/

/-- While a fault is pending only CMD changes (70_reset_and_hazards.md R427). -/
theorem runCommand_ignored {v : Word} {check : Option FaultCode} {body : Op Unit} {s : State} (h : s.status.fault = true) :
    runCommand v check body s = .next { s with cmd := v } := by
  unfold runCommand
  rw [if_pos h]

/-- A check fault changes CMD and STATUS only (60_exceptions.md R371). -/
theorem runCommand_check {v : Word} {c : FaultCode} {body : Op Unit} {s : State} (h : s.healthy) :
    runCommand v (some c) body s = .next (s.checkFaulted v c) := by
  unfold runCommand
  rw [if_neg (by rw [show s.status.fault = false from h]; decide)]
  rfl

/-- Without a check fault the pseudocode runs from the state with CMD written and DONE cleared. -/
theorem runCommand_runs {v : Word} {body : Op Unit} {s : State} (h : s.healthy) :
    runCommand v none body s = finish (body (s.begin v)) := by
  unfold runCommand
  rw [if_neg (by rw [show s.status.fault = false from h]; decide)]

/-- Pseudocode that ends well completes the command. -/
theorem runCommand_ok {v : Word} {body : Op Unit} {s t : State} (h : s.healthy) (hb : body (s.begin v) = .ok () t) :
    runCommand v none body s = .next t.completed := by
  rw [runCommand_runs h, hb]
  rfl

/-- Pseudocode that raises a fault enters it (60_exceptions.md R371). -/
theorem runCommand_raised {v : Word} {body : Op Unit} {s t : State} {c : FaultCode} (h : s.healthy)
    (hb : body (s.begin v) = .error (.raised c) t) :
    runCommand v none body s = .next (t.faultEntry .execution c) := by
  rw [runCommand_runs h, hb]
  rfl

/-- How a command of a block without a pending fault can end in a next state. -/
theorem runCommand_cases {v : Word} {check : Option FaultCode} {body : Op Unit} {s t : State} (h : s.healthy)
    (hr : runCommand v check body s = .next t) :
    (∃ c, check = some c ∧ t = s.checkFaulted v c) ∨
    (check = none ∧ ((∃ q, body (s.begin v) = .ok () q ∧ t = q.completed) ∨
      ∃ c q, body (s.begin v) = .error (.raised c) q ∧ t = q.faultEntry .execution c)) := by
  cases check with
  | some c =>
    rw [runCommand_check h] at hr
    cases hr
    exact .inl ⟨c, rfl, rfl⟩
  | none =>
    rw [runCommand_runs h] at hr
    refine .inr ⟨rfl, ?_⟩
    cases hb : body (s.begin v) with
    | ok a q =>
      rw [hb] at hr
      cases hr
      exact .inl ⟨q, rfl, rfl⟩
    | error e q =>
      rw [hb] at hr
      cases e with
      | raised c =>
        cases hr
        exact .inr ⟨c, q, rfl, rfl⟩
      | stuck f => cases hr

/-! ## Tokens (log 12) -/

theorem runToken_ignored {body : Op Unit} {s : State} (h : s.status.fault = true) : runToken body s = .next s := by
  unfold runToken
  rw [if_pos h]

theorem runToken_runs {body : Op Unit} {s : State} (h : s.healthy) : runToken body s = finishToken (body s) := by
  unfold runToken
  rw [if_neg (by rw [show s.status.fault = false from h]; decide)]

theorem runToken_ok {body : Op Unit} {s t : State} (h : s.healthy) (hb : body s = .ok () t) :
    runToken body s = .next t := by
  rw [runToken_runs h, hb]
  rfl

theorem runToken_raised {body : Op Unit} {s t : State} {c : FaultCode} (h : s.healthy)
    (hb : body s = .error (.raised c) t) : runToken body s = .next (t.faultEntry .execution c) := by
  rw [runToken_runs h, hb]
  rfl

/-! ## The check before execution (60_exceptions.md R381) -/

theorem checkFault_none {a b : Bool} : checkFault a b = none ↔ a = true ∧ b = true := by
  cases a <;> cases b <;> decide

theorem checkFault_operand {b : Bool} : checkFault false b = some .illegalOperand := rfl

theorem checkFault_state : checkFault true false = some .stateError := rfl

/-! ## Fault entry (60_exceptions.md R371) -/

@[simp] theorem State.faultEntry_fault (g : Stage) (c : FaultCode) (s : State) :
    (s.faultEntry g c).status.fault = true := by cases g <;> rfl

@[simp] theorem State.faultEntry_done (g : Stage) (c : FaultCode) (s : State) :
    (s.faultEntry g c).status.done = false := by cases g <;> rfl

@[simp] theorem State.faultEntry_fcode (g : Stage) (c : FaultCode) (s : State) :
    (s.faultEntry g c).status.fcode = c.code := by cases g <;> rfl

@[simp] theorem State.faultEntry_fcmd (g : Stage) (c : FaultCode) (s : State) :
    (s.faultEntry g c).status.fcmd = s.cmd.setWidth 8 := by cases g <;> rfl

@[simp] theorem State.faultEntry_cmd (g : Stage) (c : FaultCode) (s : State) :
    (s.faultEntry g c).cmd = s.cmd := by cases g <;> rfl

/-- Fault entry keeps what the accesses did: the sink, the source position, the host's registers (60_exceptions.md R382). -/
theorem State.faultEntry_agree (g : Stage) (c : FaultCode) (s : State) :
    s.agree (s.faultEntry g c) .sink ∧ s.agree (s.faultEntry g c) .sourcePos ∧ s.agree (s.faultEntry g c) .host ∧
    s.agree (s.faultEntry g c) .outside := by
  cases g <;> simp [State.agree, State.faultEntry]

end Sys2Proof.Machine
end

