-- ==== Sys2Proof/Laws/Streams.lean ====
section
/-! SUPPORT. The bit streams: what WriteBits and ReadBits answer when no access faults, in terms of the bits written and the bits left. -/

namespace Sys2Proof.Machine

/-! ## Draws -/

theorem State.ioFine_draw {s : State} (h : s.ioFine) (n : Nat) : (s.draw n).ioFine :=
  fun d hd => h d (List.mem_of_mem_drop hd)

theorem State.draw_draw (s : State) (a b : Nat) : (s.draw a).draw b = s.draw (a + b) := by
  simp [State.draw, List.drop_drop]

@[simp] theorem State.draw_zero (s : State) : s.draw 0 = s := rfl

/-- A true draw, or none pending: the access goes on. -/
theorem ioCheck_ok {s : State} (h : s.ioFine) : ioCheck s = .ok () (s.draw 1) := by
  unfold ioCheck State.draw
  cases hio : s.io with
  | nil => cases s; simp_all
  | cons d rest =>
    have : d = true := h d (by rw [hio]; exact List.mem_cons_self)
    subst this; simp

theorem srcRead_some {s : State} (h : s.ioFine) (hi : s.ipos.toNat < s.slen.toNat) :
    srcRead s = .ok (some (s.srcByte s.ipos.toNat)) { s with ipos := s.ipos + 1, io := s.io.drop 1 } := by
  rw [srcRead, Op.bind_ok (ioCheck_ok h)]
  exact if_pos hi

theorem srcRead_none {s : State} (h : s.ioFine) (hi : s.slen.toNat ≤ s.ipos.toNat) :
    srcRead s = .ok none (s.draw 1) := by
  rw [srcRead, Op.bind_ok (ioCheck_ok h)]
  exact if_neg (Nat.not_lt.mpr hi)

theorem sinkWrite_ok {s : State} (h : s.ioFine) (hr : s.opos.toNat < s.params.outSize) (b : Byte) :
    sinkWrite b s = .ok () (s.putByte b) := by
  rw [sinkWrite, Op.bind_ok (ioCheck_ok h)]
  exact if_neg (Nat.not_le.mpr hr)

theorem sinkWrite_full {s : State} (h : s.ioFine) (hr : s.params.outSize ≤ s.opos.toNat) (b : Byte) :
    sinkWrite b s = .error (.raised .ioError) (s.draw 1) := by
  rw [sinkWrite, Op.bind_ok (ioCheck_ok h)]
  exact if_pos hr

theorem srcSeek_ok {s : State} (h : s.ioFine) {d : Int} {n : Word} (hn : (s.ipos.toNat : Int) + d = n.toNat) :
    srcSeek d s = .ok () { s with ipos := n, io := s.io.drop 1 } := by
  have hofs : BitVec.ofInt 64 ((s.ipos.toNat : Int) + d) = n := by rw [hn]; simp
  rw [srcSeek, Op.bind_ok (ioCheck_ok h)]
  refine (if_neg (show ¬ (s.ipos.toNat : Int) + d < 0 by omega)).trans ?_
  show EStateM.Result.ok () { s.draw 1 with ipos := BitVec.ofInt 64 ((s.ipos.toNat : Int) + d) } = _
  rw [hofs]
  rfl

theorem sinkSeek_ok {s : State} (h : s.ioFine) {d : Int} {n : Word} (hn : (s.opos.toNat : Int) + d = n.toNat) :
    sinkSeek d s = .ok () { s with opos := n, io := s.io.drop 1 } := by
  have hofs : BitVec.ofInt 64 ((s.opos.toNat : Int) + d) = n := by rw [hn]; simp
  rw [sinkSeek, Op.bind_ok (ioCheck_ok h)]
  refine (if_neg (show ¬ (s.opos.toNat : Int) + d < 0 by omega)).trans ?_
  show EStateM.Result.ok () { s.draw 1 with opos := BitVec.ofInt 64 ((s.opos.toNat : Int) + d) } = _
  rw [hofs]
  rfl

/-! ## Writing bytes -/

@[simp] theorem State.putBytes_nil (s : State) : s.putBytes [] = s := rfl

@[simp] theorem State.putBytes_cons (s : State) (b : Byte) (bs : List Byte) :
    s.putBytes (b :: bs) = (s.putByte b).putBytes bs := rfl

theorem State.putBytes_append (s : State) (as bs : List Byte) :
    s.putBytes (as ++ bs) = (s.putBytes as).putBytes bs := by
  simp [State.putBytes, List.foldl_append]

/-- Bytes go out whatever the unit state is. -/
theorem State.putBytes_setU (s : State) (u : Units) (bs : List Byte) :
    ({ s with u := u } : State).putBytes bs = { s.putBytes bs with u := u } := by
  induction bs generalizing s with
  | nil => rfl
  | cons b bs ih => exact ih (s.putByte b)

@[simp] theorem State.putBytes_u (s : State) (bs : List Byte) : (s.putBytes bs).u = s.u := by
  induction bs generalizing s with
  | nil => rfl
  | cons b bs ih => exact ih (s.putByte b)

@[simp] theorem State.putBytes_params (s : State) (bs : List Byte) : (s.putBytes bs).params = s.params := by
  induction bs generalizing s with
  | nil => rfl
  | cons b bs ih => exact ih (s.putByte b)

@[simp] theorem State.putBytes_status (s : State) (bs : List Byte) : (s.putBytes bs).status = s.status := by
  induction bs generalizing s with
  | nil => rfl
  | cons b bs ih => exact ih (s.putByte b)

@[simp] theorem State.putBytes_io (s : State) (bs : List Byte) : (s.putBytes bs).io = s.io.drop bs.length := by
  induction bs generalizing s with
  | nil => rfl
  | cons b bs ih =>
    rw [State.putBytes_cons, ih]
    simp [State.putByte, Nat.add_comm]

theorem State.putBytes_opos (s : State) (bs : List Byte) :
    (s.putBytes bs).opos = s.opos + BitVec.ofNat 64 bs.length := by
  induction bs generalizing s with
  | nil => simp
  | cons b bs ih =>
    rw [State.putBytes_cons, ih]
    apply BitVec.eq_of_toNat_eq
    simp [State.putByte, BitVec.toNat_add]
    omega

theorem State.putBytes_opos_toNat {s : State} {bs : List Byte} (h : s.room bs.length) :
    (s.putBytes bs).opos.toNat = s.opos.toNat + bs.length := by
  obtain ⟨h1, h2⟩ := h
  rw [State.putBytes_opos, BitVec.toNat_add, BitVec.toNat_ofNat]
  omega

theorem State.putByte_olen {s : State} (b : Byte) (h : s.room 1) :
    (s.putByte b).olen.toNat = max s.olen.toNat (s.opos.toNat + 1) := by
  obtain ⟨h1, h2⟩ := h
  have : (s.opos + 1).toNat = s.opos.toNat + 1 := by
    rw [BitVec.toNat_add]; simp; omega
  simp only [State.putByte]
  split <;> omega

@[simp] theorem State.putByte_outByte (s : State) (b : Byte) (k : Nat) :
    (s.putByte b).outByte k = if k = s.opos.toNat then b else s.outByte k := by
  simp only [State.outByte, State.putByte, Memory.get_write]
  split <;> rfl

/-- OUT after bytes are written one after another (20_memory.md R84). -/
theorem State.putBytes_outByte {s : State} {bs : List Byte} (h : s.room bs.length) (k : Nat) :
    (s.putBytes bs).outByte k =
      if s.opos.toNat ≤ k then (bs[k - s.opos.toNat]?).getD (s.outByte k) else s.outByte k := by
  induction bs generalizing s with
  | nil => simp
  | cons b bs ih =>
    obtain ⟨h1, h2⟩ := h
    rw [List.length_cons] at h2
    have ho : (s.putByte b).opos.toNat = s.opos.toNat + 1 := by
      show (s.opos + 1).toNat = _
      rw [BitVec.toNat_add]; simp; omega
    have hp : (s.putByte b).params = s.params := rfl
    rw [State.putBytes_cons, ih (s := s.putByte b) ⟨h1, by rw [ho, hp]; omega⟩, ho, State.putByte_outByte]
    by_cases hk : s.opos.toNat + 1 ≤ k
    · rw [if_pos hk, if_neg (show ¬ k = s.opos.toNat by omega), if_pos (show s.opos.toNat ≤ k by omega)]
      rw [show k - s.opos.toNat = (k - (s.opos.toNat + 1)) + 1 by omega, List.getElem?_cons_succ]
    · rw [if_neg hk]
      by_cases he : k = s.opos.toNat
      · subst he; simp
      · rw [if_neg he, if_neg (show ¬ s.opos.toNat ≤ k by omega)]

/-! ## The writer -/

@[simp] theorem Units.length_pendingBits (u : Units) : u.pendingBits.length = 8 - u.wfree.toNat := by
  simp [Units.pendingBits]

theorem Units.pendingBits_setPending {bits : List Bool} (h : bits.length < 8) (u : Units) :
    (u.setPending bits).pendingBits = bits := by
  have hlt := bitsValue_lt bits
  have hv : bitsValue bits < 2 ^ 8 := lt_of_lt_of_le hlt (Nat.pow_le_pow_right (by omega) (by omega))
  simp only [Units.pendingBits, Units.setPending, BitVec.toNat_ofNat]
  rw [Nat.mod_eq_of_lt (by omega : 8 - bits.length < 2 ^ 4), Nat.mod_eq_of_lt hv]
  exact wordBits_of_length (by omega)

theorem Units.writerOk_setPending {bits : List Bool} (h : bits.length < 8) (u : Units) :
    (u.setPending bits).writerOk := by
  have hlt := bitsValue_lt bits
  have hv : bitsValue bits < 2 ^ 8 := lt_of_lt_of_le hlt (Nat.pow_le_pow_right (by omega) (by omega))
  simp only [Units.writerOk, Units.setPending, BitVec.toNat_ofNat]
  rw [Nat.mod_eq_of_lt (by omega : 8 - bits.length < 2 ^ 4), Nat.mod_eq_of_lt hv]
  refine ⟨by omega, by omega, ?_⟩
  rwa [show 8 - (8 - bits.length) = bits.length by omega]

/-- A well-formed writer is the writer holding its own pending bits. -/
theorem Units.setPending_pendingBits {u : Units} (h : u.writerOk) : u.setPending u.pendingBits = u := by
  obtain ⟨h1, h2, h3⟩ := h
  have hw : BitVec.ofNat 8 (bitsValue u.pendingBits) = u.wpb := by
    rw [Units.pendingBits, bitsValue_wordBits, Nat.mod_eq_of_lt h3]
    simp
  have hf : BitVec.ofNat 4 (8 - u.pendingBits.length) = u.wfree := by
    rw [Units.length_pendingBits, show 8 - (8 - u.wfree.toNat) = u.wfree.toNat by omega]
    simp
  rw [Units.setPending, hw, hf]

@[simp] theorem Units.setPending_setPending (u : Units) (a b : List Bool) :
    (u.setPending a).setPending b = u.setPending b := rfl

theorem drop_eight_lt (l : List Bool) : (l.drop (8 * (l.length / 8))).length < 8 := by
  rw [List.length_drop]; omega

@[simp] theorem State.emit_u (s : State) (bits : List Bool) : (s.emit bits).u =
    s.u.setPending ((s.u.pendingBits ++ bits).drop (8 * ((s.u.pendingBits ++ bits).length / 8))) := rfl

theorem State.emit_writerOk (s : State) (bits : List Bool) : (s.emit bits).u.writerOk :=
  Units.writerOk_setPending (drop_eight_lt _) _

@[simp] theorem State.emit_params (s : State) (bits : List Bool) : (s.emit bits).params = s.params := by
  simp [State.emit]

@[simp] theorem State.emit_status (s : State) (bits : List Bool) : (s.emit bits).status = s.status := by
  simp [State.emit]

theorem State.emit_ioFine {s : State} (h : s.ioFine) (bits : List Bool) : (s.emit bits).ioFine := by
  intro d hd
  simp only [State.emit, State.putBytes_io] at hd
  exact h d (List.mem_of_mem_drop hd)

theorem State.emit_nil {s : State} (h : s.u.writerOk) : s.emit [] = s := by
  have h8 : s.u.pendingBits.length / 8 = 0 := by
    rw [Units.length_pendingBits]; have := h.1; omega
  simp only [State.emit, List.append_nil, h8, packBytes, State.putBytes_nil, Nat.mul_zero, List.drop_zero]
  rw [Units.setPending_pendingBits h]

/-- Bits that do not fill the partial byte are only buffered. -/
theorem State.emit_short {s : State} {bits : List Bool} (h : (s.u.pendingBits ++ bits).length < 8) :
    s.emit bits = { s with u := s.u.setPending (s.u.pendingBits ++ bits) } := by
  unfold State.emit
  rw [Nat.div_eq_of_lt h]
  rfl

/-- Bits that just fill the partial byte send it out. -/
theorem State.emit_full {s : State} {bits : List Bool} (h : (s.u.pendingBits ++ bits).length = 8) :
    s.emit bits = { s.putByte (BitVec.ofNat 8 (bitsValue (s.u.pendingBits ++ bits))) with u := s.u.setPending [] } := by
  unfold State.emit
  rw [h]
  simp only [Nat.div_self (show 0 < 8 by omega), packBytes, State.putBytes_cons, State.putBytes_nil, Nat.mul_one]
  rw [List.take_of_length_le (by omega), List.drop_of_length_le (by omega)]

/-- The output law (41_bit_stream.md R184, R185): how the bits are grouped into writes does not matter. -/
theorem State.emit_emit (s : State) (a b : List Bool) : (s.emit a).emit b = s.emit (a ++ b) := by
  have hp : (s.emit a).u.pendingBits = (s.u.pendingBits ++ a).drop (8 * ((s.u.pendingBits ++ a).length / 8)) :=
    Units.pendingBits_setPending (drop_eight_lt _) _
  generalize hP : s.u.pendingBits = P at *
  generalize hN : (P ++ a).length / 8 = n at *
  have hle : 8 * n ≤ (P ++ a).length := by omega
  have hdrop : (P ++ a).drop (8 * n) ++ b = (P ++ (a ++ b)).drop (8 * n) := by
    rw [← List.append_assoc, List.drop_append_of_le_length hle]
  have hlen : (P ++ (a ++ b)).length / 8 = n + ((P ++ a).drop (8 * n) ++ b).length / 8 := by
    simp only [List.length_append, List.length_drop] at *
    omega
  generalize hM : ((P ++ a).drop (8 * n) ++ b).length / 8 = m at *
  have hpack : packBytes (n + m) (P ++ (a ++ b)) =
      packBytes n (P ++ a) ++ packBytes m ((P ++ a).drop (8 * n) ++ b) := by
    rw [packBytes_add, hdrop, ← List.append_assoc, packBytes_append n _ _ hle]
  have hd : ((P ++ a).drop (8 * n) ++ b).drop (8 * m) = (P ++ (a ++ b)).drop (8 * (n + m)) := by
    rw [hdrop, List.drop_drop, ← Nat.mul_add]
  have e1 : s.emit a = { s.putBytes (packBytes n (P ++ a)) with u := s.u.setPending ((P ++ a).drop (8 * n)) } := by
    simp only [State.emit, hP, hN]
  rw [State.emit, hp, hM, e1, State.putBytes_setU, ← State.putBytes_append, ← hpack, hd]
  simp only [State.emit, hP, hlen, Units.setPending_setPending]

theorem State.length_emitted (s : State) (bits : List Bool) :
    (packBytes ((s.u.pendingBits ++ bits).length / 8) (s.u.pendingBits ++ bits)).length = s.u.bytesFor bits.length := by
  rw [length_packBytes, List.length_append, Units.length_pendingBits, Units.bytesFor]

theorem State.emit_opos {s : State} {bits : List Bool} (h : s.room (s.u.bytesFor bits.length)) :
    (s.emit bits).opos.toNat = s.opos.toNat + s.u.bytesFor bits.length := by
  rw [← s.length_emitted bits] at h ⊢
  exact State.putBytes_opos_toNat h

theorem Units.wfree_setPending {bits : List Bool} (h : bits.length < 8) (u : Units) :
    (u.setPending bits).wfree.toNat = 8 - bits.length := by
  simp only [Units.setPending, BitVec.toNat_ofNat]
  omega

/-- Bytes completed by two writes one after the other. -/
theorem State.bytesFor_add (s : State) (a : List Bool) (n : Nat) :
    s.u.bytesFor (a.length + n) = s.u.bytesFor a.length + (s.emit a).u.bytesFor n := by
  have hw := Units.wfree_setPending (drop_eight_lt (s.u.pendingBits ++ a)) s.u
  rw [List.length_drop, List.length_append, Units.length_pendingBits] at hw
  simp only [Units.bytesFor, State.emit_u, List.length_append, Units.length_pendingBits]
  rw [hw]
  omega

/-- Room for two writes is room for the first, and then for the second. -/
theorem State.room_emit {s : State} {a : List Bool} {n : Nat} (h : s.room (s.u.bytesFor (a.length + n))) :
    s.room (s.u.bytesFor a.length) ∧ (s.emit a).room ((s.emit a).u.bytesFor n) := by
  rw [s.bytesFor_add] at h
  have h1 : s.room (s.u.bytesFor a.length) := ⟨h.1, by have := h.2; omega⟩
  refine ⟨h1, by rw [State.emit_params]; exact h.1, ?_⟩
  rw [State.emit_opos h1, State.emit_params]
  have := h.2; omega

/-- One chunk that fits the partial byte: buffer it, and write the byte if it is full (41_bit_stream.md R180). -/
theorem chunk_ok {s : State} {k : Nat} (v : Nat) (hio : s.ioFine) (hw : s.u.writerOk) (hk : k ≤ s.u.wfree.toNat)
    (hr : s.room (s.u.bytesFor k)) :
    emitFullByte { s with u := s.u.bufferBits v k } = .ok () (s.emit (wordBits k v)) := by
  obtain ⟨h1, h2, h3⟩ := hw
  have hval : bitsValue (s.u.pendingBits ++ wordBits k v) =
      s.u.wpb.toNat + 2 ^ (8 - s.u.wfree.toNat) * (v % 2 ^ k) := by
    rw [bitsValue_append, Units.length_pendingBits, bitsValue_wordBits, Units.pendingBits, bitsValue_wordBits,
      Nat.mod_eq_of_lt h3]
  have hor : s.u.wpb ||| BitVec.ofNat 8 ((v % 2 ^ k) <<< (8 - s.u.wfree.toNat)) =
      BitVec.ofNat 8 (bitsValue (s.u.pendingBits ++ wordBits k v)) := by
    have hlt := bitsValue_lt (s.u.pendingBits ++ wordBits k v)
    have hle : 2 ^ (s.u.pendingBits ++ wordBits k v).length ≤ 2 ^ 8 :=
      Nat.pow_le_pow_right (by omega) (by simp; omega)
    have hv8 : bitsValue (s.u.pendingBits ++ wordBits k v) < 2 ^ 8 := lt_of_lt_of_le hlt hle
    have hsh : (v % 2 ^ k) <<< (8 - s.u.wfree.toNat) < 2 ^ 8 := by
      rw [Nat.shiftLeft_eq, Nat.mul_comm]
      exact lt_of_le_of_lt (Nat.le_add_left _ _) (hval ▸ hv8)
    apply BitVec.eq_of_toNat_eq
    rw [BitVec.toNat_or, BitVec.toNat_ofNat, BitVec.toNat_ofNat, Nat.mod_eq_of_lt hsh, Nat.mod_eq_of_lt hv8,
      hval, Nat.or_comm, ← Nat.shiftLeft_add_eq_or_of_lt h3, Nat.shiftLeft_eq, Nat.mul_comm, Nat.add_comm]
  have hlen : (s.u.pendingBits ++ wordBits k v).length = 8 - s.u.wfree.toNat + k := by simp
  unfold emitFullByte
  rw [Op.units_bind]
  by_cases hfull : k = s.u.wfree.toNat
  · have hz : (s.u.bufferBits v k).wfree = 0 := by
      simp [Units.bufferBits, hfull]
    have h8 : (s.u.pendingBits ++ wordBits k v).length = 8 := by rw [hlen]; omega
    rw [if_pos hz, Op.bind_ok (sinkWrite_ok (s := { s with u := s.u.bufferBits v k }) hio ?_ _)]
    · rw [State.emit_full h8, ← hor]
      rfl
    · have hb : s.u.bytesFor k = 1 := by simp only [Units.bytesFor]; omega
      have := hr.2
      rw [hb] at this
      exact this
  · have hz : ¬ (s.u.bufferBits v k).wfree = 0 := by
      intro h0
      have := congrArg BitVec.toNat h0
      simp [Units.bufferBits] at this
      omega
    rw [if_neg hz, State.emit_short (by rw [hlen]; omega), Units.setPending, ← hor, hlen,
      show 8 - (8 - s.u.wfree.toNat + k) = s.u.wfree.toNat - k by omega]
    rfl

theorem writeLoop_ok (fuel v c : Nat) {s : State} (hf : c < fuel) (hio : s.ioFine) (hw : s.u.writerOk)
    (hr : s.room (s.u.bytesFor c)) : writeLoop fuel v c s = .ok () (s.emit (wordBits c v)) := by
  induction fuel generalizing v c s with
  | zero => omega
  | succ fuel ih =>
    unfold writeLoop
    by_cases hc : c = 0
    · subst hc
      rw [if_pos rfl, Op.pure_run, wordBits, State.emit_nil hw]
    · rw [if_neg hc, Op.units_bind]
      have hk : min c s.u.wfree.toNat ≤ s.u.wfree.toNat := Nat.min_le_right _ _
      have hk1 : 1 ≤ min c s.u.wfree.toNat := Nat.le_min.mpr ⟨by omega, hw.1⟩
      have hkc : min c s.u.wfree.toNat ≤ c := Nat.min_le_left _ _
      generalize min c s.u.wfree.toNat = k at *
      have hr' := hr
      rw [show c = (wordBits k v).length + (c - k) by simp; omega] at hr'
      obtain ⟨hr1, hr2⟩ := State.room_emit hr'
      rw [length_wordBits] at hr1
      rw [Op.setUnits_bind, Op.bind_ok (chunk_ok v hio hw hk hr1),
        ih _ _ (by omega) (State.emit_ioFine hio _) (State.emit_writerOk _ _) hr2, State.emit_emit,
        Nat.shiftRight_eq_div_pow, ← wordBits_add, show k + (c - k) = c by omega]

/-- WriteBits(v, c, 0) appends the c low bits of v (41_bit_stream.md R180, R181). -/
theorem writeBits_ok (v c : Nat) {s : State} (hio : s.ioFine) (hw : s.u.writerOk) (hr : s.room (s.u.bytesFor c)) :
    writeBits v c false s = .ok () (s.emit (wordBits c v)) := by
  unfold writeBits
  rw [Op.bind_ok (writeLoop_ok _ _ _ (by omega) hio hw hr), wordBits_mod _ _ _ (Nat.le_refl c)]
  rfl

/-- A flush writes the partial byte and steps back (41_bit_stream.md R182). -/
theorem flushPartial_ok {s : State} (hio : s.ioFine) (hr : s.u.wfree.toNat < 8 → s.room 1) :
    flushPartial s = .ok () s.flushed := by
  unfold flushPartial State.flushed
  rw [Op.units_bind]
  by_cases h : s.u.wfree.toNat < 8
  · have hroom := hr h
    have hlt : s.opos.toNat < s.params.outSize := by have := hroom.2; omega
    rw [if_pos h, if_pos h, Op.bind_ok (sinkWrite_ok hio hlt _)]
    have hio' : (s.putByte s.u.wpb).ioFine := fun d hd => hio d (List.mem_of_mem_drop hd)
    have ho : (s.opos + 1).toNat = s.opos.toNat + 1 := by
      have := hroom.1
      rw [BitVec.toNat_add]; simp; omega
    rw [sinkSeek_ok hio' (n := s.opos) (show ((s.opos + 1).toNat : Int) + -1 = s.opos.toNat by omega)]
    simp [State.putByte]
  · rw [if_neg h, if_neg h]; rfl

/-- WriteBits(v, c, 1) appends the bits and flushes. -/
theorem writeBits_flush_ok (v c : Nat) {s : State} (hio : s.ioFine) (hw : s.u.writerOk)
    (hr : s.room (s.u.bytesFor (c + 7))) :
    writeBits v c true s = .ok () (s.emit (wordBits c v)).flushed := by
  have hr1 : s.room (s.u.bytesFor c) :=
    ⟨hr.1, by have := hr.2; simp only [Units.bytesFor] at this ⊢; omega⟩
  unfold writeBits
  rw [Op.bind_ok (writeLoop_ok _ _ _ (by omega) hio hw hr1), wordBits_mod _ _ _ (Nat.le_refl c)]
  refine flushPartial_ok (State.emit_ioFine hio _) fun h => ?_
  refine ⟨by rw [State.emit_params]; exact hr.1, ?_⟩
  have hl : (wordBits c v).length = c := length_wordBits _ _
  have hbc : s.room (s.u.bytesFor (wordBits c v).length) := by rw [hl]; exact hr1
  rw [State.emit_opos hbc, State.emit_params, hl]
  have := hr.2
  rw [State.emit_u, Units.wfree_setPending (drop_eight_lt _), List.length_drop, List.length_append,
    Units.length_pendingBits, hl] at h
  simp only [Units.bytesFor] at this ⊢
  omega

/-- WriteWide appends all c bits (41_bit_stream.md R184). -/
theorem writeWide_ok (v c : Nat) {s : State} (hio : s.ioFine) (hw : s.u.writerOk) (hr : s.room (s.u.bytesFor c)) :
    writeWide v c s = .ok () (s.emit (wordBits c v)) := by
  have key : ∀ (fuel v c : Nat) (s : State), c ≤ fuel → s.ioFine → s.u.writerOk → s.room (s.u.bytesFor c) →
      writeWideLoop fuel v c s = .ok () (s.emit (wordBits c v)) := by
    intro fuel
    induction fuel with
    | zero =>
      intro v c s hc hio hw hr
      obtain rfl : c = 0 := by omega
      rw [wordBits, State.emit_nil hw]; rfl
    | succ fuel ih =>
      intro v c s hc hio hw hr
      unfold writeWideLoop
      by_cases h0 : c = 0
      · subst h0
        rw [if_pos rfl, wordBits, State.emit_nil hw]; rfl
      · rw [if_neg h0]
        have hk1 : 1 ≤ min c Config.VW := by simp only [Config.VW]; omega
        have hkc : min c Config.VW ≤ c := Nat.min_le_left _ _
        generalize min c Config.VW = k at *
        rw [show c = (wordBits k v).length + (c - k) by simp; omega] at hr
        obtain ⟨hr1, hr2⟩ := State.room_emit hr
        rw [length_wordBits] at hr1
        rw [Op.bind_ok (writeBits_ok _ _ hio hw hr1), wordBits_mod _ _ _ (Nat.le_refl k),
          ih _ _ _ (by omega) (State.emit_ioFine hio _) (State.emit_writerOk _ _) hr2, State.emit_emit,
          Nat.shiftRight_eq_div_pow, ← wordBits_add, show k + (c - k) = c by omega]
  exact key c v c s (Nat.le_refl c) hio hw hr

/-! ## The reader -/

/-- The source bytes not yet pulled. -/
def State.unread (s : State) : List Byte := ((List.range s.slen.toNat).drop s.ipos.toNat).map s.srcByte

theorem State.inBits_eq (s : State) : s.inBits = s.u.parked ++ bytesBits s.unread := rfl

@[simp] theorem State.length_unread (s : State) : s.unread.length = s.slen.toNat - s.ipos.toNat := by
  simp [State.unread]

theorem Units.parked_eq (u : Units) (h : u.rcnt.toNat ≤ 8) :
    u.parked = wordBits u.rcnt.toNat (u.rpb.toNat / 2 ^ (8 - u.rcnt.toNat)) := by
  have h8 := wordBits_add (8 - u.rcnt.toNat) u.rcnt.toNat u.rpb.toNat
  rw [show 8 - u.rcnt.toNat + u.rcnt.toNat = 8 by omega] at h8
  rw [Units.parked, h8, List.drop_left' (length_wordBits _ _)]

theorem Units.length_parked (u : Units) (h : u.rcnt.toNat ≤ 8) : u.parked.length = u.rcnt.toNat := by
  rw [u.parked_eq h, length_wordBits]

theorem State.length_inBits (s : State) (h : s.u.readerOk) :
    s.inBits.length = s.u.rcnt.toNat + 8 * (s.slen.toNat - s.ipos.toNat) := by
  rw [s.inBits_eq, List.length_append, Units.length_parked _ (by have := h; unfold Units.readerOk at this; omega),
    length_bytesBits, State.length_unread]

theorem State.unread_cons {s : State} (h : s.ipos.toNat < s.slen.toNat) :
    s.unread = s.srcByte s.ipos.toNat :: ({ s with ipos := s.ipos + 1 } : State).unread := by
  have hi : (s.ipos + 1).toNat = s.ipos.toNat + 1 := by
    have := s.slen.isLt
    rw [BitVec.toNat_add]; simp; omega
  have hlt : s.ipos.toNat < (List.range s.slen.toNat).length := by simpa using h
  simp only [State.unread]
  rw [hi, List.drop_eq_getElem_cons hlt, List.map_cons, List.getElem_range]
  rfl

/-- The k next parked bits are the k next bits of the stream (41_bit_stream.md R190, R194). -/
theorem Units.parkedBits_eq (u : Units) {k : Nat} (hk : k ≤ u.rcnt.toNat) (h : u.rcnt.toNat ≤ 8) :
    u.parkedBits k = bitsValue (u.parked.take k) := by
  have hsplit := wordBits_add k (u.rcnt.toNat - k) (u.rpb.toNat / 2 ^ (8 - u.rcnt.toNat))
  rw [show k + (u.rcnt.toNat - k) = u.rcnt.toNat by omega] at hsplit
  rw [u.parked_eq h, hsplit, List.take_left' (length_wordBits _ _), bitsValue_wordBits, Units.parkedBits,
    Nat.shiftRight_eq_div_pow]

theorem Units.parked_drop (u : Units) {k : Nat} (hk : k ≤ u.rcnt.toNat) (h : u.rcnt.toNat ≤ 8) :
    ({ u with rcnt := BitVec.ofNat 4 (u.rcnt.toNat - k) } : Units).parked = u.parked.drop k := by
  have hr : (BitVec.ofNat 4 (u.rcnt.toNat - k)).toNat = u.rcnt.toNat - k := by
    rw [BitVec.toNat_ofNat]; omega
  simp only [Units.parked, hr, List.drop_drop]
  congr 1
  omega

@[simp] theorem State.consume_zero (s : State) : s.consume 0 = s := by
  have hp : s.u.pulls 0 = 0 := by simp [Units.pulls]
  simp [State.consume, hp]

theorem State.consume_ioFine {s : State} (h : s.ioFine) (k : Nat) : (s.consume k).ioFine :=
  fun d hd => h d (List.mem_of_mem_drop hd)

theorem Units.pulls_bound (u : Units) (k : Nat) : u.rcnt.toNat + 8 * u.pulls k - k ≤ max u.rcnt.toNat 7 := by
  simp only [Units.pulls]; omega

theorem State.consume_rcnt {s : State} (h : s.u.readerOk) (k : Nat) :
    (s.consume k).u.rcnt.toNat = s.u.rcnt.toNat + 8 * s.u.pulls k - k := by
  have hb := s.u.pulls_bound k
  have h7 : s.u.rcnt.toNat ≤ 7 := h
  show (BitVec.ofNat 4 _).toNat = _
  rw [BitVec.toNat_ofNat]
  omega

theorem State.consume_readerOk {s : State} (h : s.u.readerOk) (k : Nat) : (s.consume k).u.readerOk := by
  have hb := s.u.pulls_bound k
  have h7 : s.u.rcnt.toNat ≤ 7 := h
  show _ ≤ 7
  rw [State.consume_rcnt h]
  omega

/-- The bytes pulled for bits that are there are there. -/
theorem State.pulls_le {s : State} (h : s.u.readerOk) {k : Nat} (hk : k ≤ s.inBits.length) :
    s.u.pulls k = 0 ∨ s.ipos.toNat + s.u.pulls k ≤ s.slen.toNat := by
  rw [s.length_inBits h] at hk
  simp only [Units.pulls]
  omega

theorem State.consume_ipos {s : State} (h : s.u.readerOk) {k : Nat} (hk : k ≤ s.inBits.length) :
    (s.consume k).ipos.toNat = s.ipos.toNat + s.u.pulls k := by
  have hp := State.pulls_le h hk
  have h1 := s.slen.isLt
  have h2 := s.ipos.isLt
  show (s.ipos + BitVec.ofNat 64 (s.u.pulls k)).toNat = _
  rw [BitVec.toNat_add, BitVec.toNat_ofNat]
  rcases hp with hp | hp
  · rw [hp]; simp; omega
  · rw [Nat.mod_eq_of_lt (show s.u.pulls k < 2 ^ 64 by omega), Nat.mod_eq_of_lt (by omega)]

/-- Reading bits in two parts is reading them at once (41_bit_stream.md R195). -/
theorem State.consume_consume {s : State} (h : s.u.readerOk) {a : Nat} (ha : a ≤ s.inBits.length) (b : Nat) :
    (s.consume a).consume b = s.consume (a + b) := by
  have hr := State.consume_rcnt h a
  have hb := s.u.pulls_bound a
  have h7 : s.u.rcnt.toNat ≤ 7 := h
  have hp : s.u.pulls (a + b) = s.u.pulls a + (s.consume a).u.pulls b := by
    simp only [Units.pulls] at hr ⊢
    rw [hr]; omega
  have hipos := State.consume_ipos h ha
  have e1 : (s.consume a).ipos + BitVec.ofNat 64 ((s.consume a).u.pulls b) =
      s.ipos + BitVec.ofNat 64 (s.u.pulls (a + b)) := by
    show s.ipos + BitVec.ofNat 64 (s.u.pulls a) + BitVec.ofNat 64 _ = _
    rw [hp, BitVec.ofNat_add, BitVec.add_assoc]
  have e2 : (s.consume a).io.drop ((s.consume a).u.pulls b) = s.io.drop (s.u.pulls (a + b)) := by
    show (s.io.drop (s.u.pulls a)).drop _ = _
    rw [hp, List.drop_drop]
  have e3 : (if (s.consume a).u.pulls b = 0 then (s.consume a).u.rpb
      else (s.consume a).srcByte ((s.consume a).ipos.toNat + (s.consume a).u.pulls b - 1)) =
      if s.u.pulls (a + b) = 0 then s.u.rpb else s.srcByte (s.ipos.toNat + s.u.pulls (a + b) - 1) := by
    rw [hipos, hp]
    by_cases h0 : (s.consume a).u.pulls b = 0
    · rw [if_pos h0, h0]; rfl
    · rw [if_neg h0, if_neg (by omega), Nat.add_assoc]; rfl
  have e4 : BitVec.ofNat 4 ((s.consume a).u.rcnt.toNat + 8 * (s.consume a).u.pulls b - b) =
      BitVec.ofNat 4 (s.u.rcnt.toNat + 8 * s.u.pulls (a + b) - (a + b)) := by
    rw [hr, hp]
    congr 1
    have : a ≤ s.u.rcnt.toNat + 8 * s.u.pulls a := by simp only [Units.pulls]; omega
    omega
  calc (s.consume a).consume b
      = { s with
          ipos := (s.consume a).ipos + BitVec.ofNat 64 ((s.consume a).u.pulls b)
          io := (s.consume a).io.drop ((s.consume a).u.pulls b)
          u := { s.u with
            rpb := if (s.consume a).u.pulls b = 0 then (s.consume a).u.rpb
              else (s.consume a).srcByte ((s.consume a).ipos.toNat + (s.consume a).u.pulls b - 1)
            rcnt := BitVec.ofNat 4 ((s.consume a).u.rcnt.toNat + 8 * (s.consume a).u.pulls b - b) } } := rfl
    _ = s.consume (a + b) := by rw [e1, e2, e3, e4]; rfl

/-- One byte pulled into an empty reader, of which k bits are taken. -/
theorem State.pull_take {s : State} (h0 : s.u.rcnt.toNat = 0) (hi : s.ipos.toNat < s.slen.toNat) {k : Nat} (h1 : 1 ≤ k)
    (h8 : k ≤ 8) :
    ({ s with
      ipos := s.ipos + 1, io := s.io.drop 1
      u := { s.u with rpb := s.srcByte s.ipos.toNat, rcnt := BitVec.ofNat 4 (8 - k) } } : State) = s.consume k ∧
    (s.consume k).inBits = s.inBits.drop k ∧
    bitsValue (s.inBits.take k) = (s.srcByte s.ipos.toNat).toNat % 2 ^ k := by
  have hp : s.u.pulls k = 1 := by simp only [Units.pulls]; omega
  have hc : s.consume k = ({ s with
      ipos := s.ipos + 1, io := s.io.drop 1
      u := { s.u with rpb := s.srcByte s.ipos.toNat, rcnt := BitVec.ofNat 4 (8 - k) } } : State) := by
    unfold State.consume
    rw [hp, h0, if_neg (by omega)]
    rfl
  have hsplit : wordBits 8 (s.srcByte s.ipos.toNat).toNat =
      wordBits k (s.srcByte s.ipos.toNat).toNat ++ wordBits (8 - k) ((s.srcByte s.ipos.toNat).toNat / 2 ^ k) := by
    rw [← wordBits_add, show k + (8 - k) = 8 by omega]
  have hin : s.inBits = wordBits k (s.srcByte s.ipos.toNat).toNat ++
      (wordBits (8 - k) ((s.srcByte s.ipos.toNat).toNat / 2 ^ k) ++
        bytesBits ({ s with ipos := s.ipos + 1 } : State).unread) := by
    have hpk : s.u.parked = [] := List.eq_nil_of_length_eq_zero (by rw [Units.length_parked _ (by omega), h0])
    rw [s.inBits_eq, hpk, State.unread_cons hi, bytesBits_cons, hsplit, List.nil_append, List.append_assoc]
  refine ⟨hc.symm, ?_, ?_⟩
  · have hr : (BitVec.ofNat 4 (8 - k)).toNat = 8 - k := by rw [BitVec.toNat_ofNat]; omega
    rw [hin, List.drop_left' (length_wordBits _ _), hc, State.inBits_eq, Units.parked_eq _ (by show _ ≤ 8; rw [hr]; omega)]
    simp only [hr, show 8 - (8 - k) = k by omega]
    rfl
  · rw [hin, List.take_left' (length_wordBits _ _), bitsValue_wordBits]

/-- k of the parked bits taken. -/
theorem State.parked_take {s : State} (h : s.u.readerOk) {k : Nat} (hk : k ≤ s.u.rcnt.toNat) :
    ({ s with u := { s.u with rcnt := BitVec.ofNat 4 (s.u.rcnt.toNat - k) } } : State) = s.consume k ∧
    (s.consume k).inBits = s.inBits.drop k ∧ bitsValue (s.inBits.take k) = s.u.parkedBits k := by
  have h7 : s.u.rcnt.toNat ≤ 7 := h
  have hp : s.u.pulls k = 0 := by simp only [Units.pulls]; omega
  have hc : s.consume k =
      ({ s with u := { s.u with rcnt := BitVec.ofNat 4 (s.u.rcnt.toNat - k) } } : State) := by
    unfold State.consume
    rw [hp, if_pos rfl]
    simp
  have hl : k ≤ s.u.parked.length := by rw [Units.length_parked _ (by omega)]; exact hk
  refine ⟨hc.symm, ?_, ?_⟩
  · rw [hc, State.inBits_eq, State.inBits_eq, List.drop_append_of_le_length hl, ← Units.parked_drop _ hk (by omega)]
    rfl
  · rw [State.inBits_eq, List.take_append_of_le_length hl, Units.parkedBits_eq _ hk (by omega)]

/-- The bits left after k bits are read (41_bit_stream.md R194). -/
theorem State.consume_inBits {s : State} (h : s.u.readerOk) {k : Nat} (hk : k ≤ s.inBits.length) :
    (s.consume k).inBits = s.inBits.drop k := by
  induction k using Nat.strong_induction_on generalizing s with
  | _ k ih =>
    by_cases hle : k ≤ s.u.rcnt.toNat
    · exact (State.parked_take h hle).2.1
    · by_cases h0 : s.u.rcnt.toNat = 0
      · have hl := s.length_inBits h
        have hi : s.ipos.toNat < s.slen.toNat := by omega
        by_cases h8 : k ≤ 8
        · exact (State.pull_take h0 hi (by omega) h8).2.1
        · have h8' := (State.pull_take h0 hi (k := 8) (by omega) (by omega)).2.1
          have := ih (k - 8) (by omega) (State.consume_readerOk h 8) (by rw [h8', List.length_drop]; omega)
          rw [State.consume_consume h (by omega), show 8 + (k - 8) = k by omega, h8', List.drop_drop,
            show 8 + (k - 8) = k by omega] at this
          exact this
      · have hr := (State.parked_take h (Nat.le_refl _)).2.1
        have hl := s.length_inBits h
        have := ih (k - s.u.rcnt.toNat) (by omega) (State.consume_readerOk h s.u.rcnt.toNat)
          (by rw [hr, List.length_drop]; omega)
        rw [State.consume_consume h (by omega), show s.u.rcnt.toNat + (k - s.u.rcnt.toNat) = k by omega, hr,
          List.drop_drop, show s.u.rcnt.toNat + (k - s.u.rcnt.toNat) = k by omega] at this
        exact this

theorem State.read_of_le {s : State} {c : Nat} (h : c ≤ s.inBits.length) : s.read c = s.consume c := if_pos h

/-- Reading on after k bits that are there. -/
theorem State.consume_read {s : State} (h : s.u.readerOk) {k : Nat} (hk : k ≤ s.inBits.length) (n : Nat) :
    (s.consume k).read n = s.read (k + n) := by
  have hi := State.consume_inBits h hk
  unfold State.read
  rw [hi, List.length_drop]
  by_cases hn : n ≤ s.inBits.length - k
  · rw [if_pos hn, if_pos (by omega), State.consume_consume h hk]
  · rw [if_neg hn, if_neg (by omega), State.consume_consume h hk, show k + (s.inBits.length - k) = s.inBits.length by omega]

/-- The loop of ReadBits takes the next bits, as many as there are, up to the count (41_bit_stream.md R190, R192). -/
theorem readLoop_ok (c fuel v got : Nat) {s : State} (hg : got ≤ c) (hf : c - got ≤ fuel) (hv : v < 2 ^ got)
    (hio : s.ioFine) (h : s.u.readerOk) :
    readLoop c fuel v got s = .ok (v + 2 ^ got * bitsValue (s.inBits.take (c - got)),
      got + min (c - got) s.inBits.length) (s.read (c - got)) := by
  induction fuel generalizing v got s with
  | zero =>
    obtain rfl : got = c := by omega
    simp [readLoop, State.read, bitsValue]
  | succ fuel ih =>
    unfold readLoop
    by_cases hlt : got < c
    swap
    · obtain rfl : got = c := by omega
      simp [State.read, bitsValue]
    rw [if_pos hlt]
    have h7 : s.u.rcnt.toNat ≤ 7 := h
    have hlen := s.length_inBits h
    have step : ∀ {q : State} {k : Nat}, 1 ≤ k → k ≤ c - got → k ≤ s.inBits.length →
        q.u.parkedBits k = bitsValue (s.inBits.take k) →
        ({ q with u := { q.u with rcnt := BitVec.ofNat 4 (q.u.rcnt.toNat - k) } } : State) = s.consume k →
        readLoop c fuel (v ||| (q.u.parkedBits k <<< got)) (got + k)
          { q with u := { q.u with rcnt := BitVec.ofNat 4 (q.u.rcnt.toNat - k) } } =
        .ok (v + 2 ^ got * bitsValue (s.inBits.take (c - got)), got + min (c - got) s.inBits.length)
          (s.read (c - got)) := by
      intro q k hk1 hk2 hk3 hval hst
      have hb := bitsValue_lt (s.inBits.take k)
      have hbl : (s.inBits.take k).length = k := by rw [List.length_take]; omega
      rw [hbl] at hb
      have hor : v ||| (q.u.parkedBits k <<< got) = v + 2 ^ got * bitsValue (s.inBits.take k) := by
        rw [hval, Nat.or_comm, ← Nat.shiftLeft_add_eq_or_of_lt hv, Nat.shiftLeft_eq, Nat.mul_comm, Nat.add_comm]
      have hv' : v + 2 ^ got * bitsValue (s.inBits.take k) < 2 ^ (got + k) := by
        rw [Nat.pow_add]
        calc v + 2 ^ got * bitsValue (s.inBits.take k) < 2 ^ got * (bitsValue (s.inBits.take k) + 1) := by
              rw [Nat.mul_add]; omega
          _ ≤ 2 ^ got * 2 ^ k := Nat.mul_le_mul_left _ (by omega)
      have hin := State.consume_inBits h hk3
      have htk : s.inBits.take (c - got) = s.inBits.take k ++ (s.inBits.drop k).take (c - (got + k)) := by
        rw [← List.take_add, show k + (c - (got + k)) = c - got by omega]
      rw [hst, hor, ih _ _ (by omega) (by omega) hv' (State.consume_ioFine hio k) (State.consume_readerOk h k), hin,
        List.length_drop, State.consume_read h hk3, show k + (c - (got + k)) = c - got by omega, htk, bitsValue_append,
        hbl, Nat.pow_add, show got + k + min (c - (got + k)) (s.inBits.length - k) =
          got + min (c - got) s.inBits.length by omega]
      congr 2
      ring
    unfold pullByte
    by_cases h0 : s.u.rcnt.toNat = 0
    · by_cases hi : s.ipos.toNat < s.slen.toNat
      · have hk1 : 1 ≤ min (c - got) 8 := by omega
        have hk2 : min (c - got) 8 ≤ c - got := Nat.min_le_left _ _
        have hk8 : min (c - got) 8 ≤ 8 := Nat.min_le_right _ _
        have hpt := State.pull_take h0 hi hk1 hk8
        have hs := step (q := { s with
            ipos := s.ipos + 1, io := s.io.drop 1, u := { s.u with rpb := s.srcByte s.ipos.toNat, rcnt := 8 } })
          hk1 hk2 (by omega) (by rw [hpt.2.2]; rfl) hpt.1
        rw [Op.bind_ok (a := true) (t := { s with
            ipos := s.ipos + 1, io := s.io.drop 1, u := { s.u with rpb := s.srcByte s.ipos.toNat, rcnt := 8 } })]
        · exact hs
        · rw [Op.units_bind, if_pos h0, Op.bind_ok (srcRead_some hio hi)]
          rfl
      · have hz : s.inBits.length = 0 := by omega
        have hnil : s.inBits = [] := List.eq_nil_of_length_eq_zero hz
        rw [Op.bind_ok (a := false) (t := s.draw 1)]
        · have hread : s.read (c - got) = s.draw 1 := by
            unfold State.read
            rw [hz, if_neg (by omega), State.consume_zero]
          rw [hread, hnil]
          simp [bitsValue]
        · rw [Op.units_bind, if_pos h0, Op.bind_ok (srcRead_none hio (by omega))]
          rfl
    · have hk1 : 1 ≤ min (c - got) s.u.rcnt.toNat := by omega
      have hk2 : min (c - got) s.u.rcnt.toNat ≤ c - got := Nat.min_le_left _ _
      have hk3 : min (c - got) s.u.rcnt.toNat ≤ s.u.rcnt.toNat := Nat.min_le_right _ _
      have hpt := State.parked_take h hk3
      have hs := step hk1 hk2 (by omega) hpt.2.2.symm hpt.1
      rw [Op.bind_ok (a := true) (t := s)]
      · exact hs
      · rw [Op.units_bind, if_neg h0]; rfl

/-- ReadBits(c, 0) takes the next c bits, or as many as there are (41_bit_stream.md R190, R192). -/
theorem readBits_ok (c : Nat) {s : State} (hio : s.ioFine) (h : s.u.readerOk) :
    readBits c false s = .ok (bitsValue (s.inBits.take c), min c s.inBits.length) (s.read c) := by
  have := readLoop_ok c c 0 0 (Nat.zero_le _) (by omega) (by simp) hio h
  simp only [Nat.sub_zero, Nat.zero_add, Nat.pow_zero, Nat.one_mul] at this
  exact this

/-- Need(c) gives the next c bits when they are there (00_scope.md R25). -/
theorem need_ok {c : Nat} {s : State} (hio : s.ioFine) (h : s.u.readerOk) (hc : c ≤ s.inBits.length) :
    need c s = .ok (bitsValue (s.inBits.take c)) (s.consume c) := by
  unfold need
  rw [Op.bind_ok (readBits_ok c hio h), State.read_of_le hc]
  dsimp only
  rw [if_neg (by omega)]
  rfl

/-- Need(c) raises TRUNCATED when fewer bits are left (41_bit_stream.md R193). -/
theorem need_short {c : Nat} {s : State} (hio : s.ioFine) (h : s.u.readerOk) (hc : s.inBits.length < c) :
    need c s = .error (.raised .truncated) (s.read c) := by
  unfold need
  rw [Op.bind_ok (readBits_ok c hio h)]
  dsimp only
  rw [if_pos (by omega)]
  rfl

end Sys2Proof.Machine
end

