-- ==== Sys2Proof/Laws/Dictionary.lean ====
section
/-! SUPPORT. The dictionary's trees, and what the shared operations of the window, the dictionary and the match finder do. -/

namespace Sys2Proof.Machine

/-! ## Trees spelled by links -/

/-- No tree hangs from NIL but the empty one. -/
theorem Units.spells_nil_iff (u : Units) (par : Link) (t : DTree) : u.spells par none t = true ↔ t = .nil := by
  cases t <;> simp [Units.spells]

/-- A tree hangs from the link to its root. -/
theorem Units.spells_node_iff (u : Units) (par : Link) (q : Pos) (t : DTree) : u.spells par (some q) t = true ↔
    ∃ l r, t = .node l q r ∧ u.parentOf q = par ∧ u.spells (some q) (u.leftOfD q) l = true ∧
      u.spells (some q) (u.rightOfD q) r = true := by
  cases t with
  | nil => simp [Units.spells]
  | node l p r =>
    simp only [Units.spells, Bool.and_eq_true, beq_iff_eq, DTree.node.injEq]
    constructor
    · rintro ⟨⟨⟨rfl, h1⟩, h2⟩, h3⟩
      exact ⟨l, r, ⟨rfl, rfl, rfl⟩, h1, h2, h3⟩
    · rintro ⟨l', r', ⟨rfl, rfl, rfl⟩, h1, h2, h3⟩
      exact ⟨⟨⟨rfl, h1⟩, h2⟩, h3⟩

/-- The links spell one tree only. -/
theorem Units.spells_unique (u : Units) {par link : Link} {t t' : DTree} (h : u.spells par link t = true)
    (h' : u.spells par link t' = true) : t = t' := by
  induction t generalizing par link t' with
  | nil =>
    cases link with
    | none => exact ((u.spells_nil_iff par t').mp h').symm
    | some q =>
      obtain ⟨l, r, hn, _⟩ := (u.spells_node_iff par q .nil).mp h
      cases hn
  | node l p r ihl ihr =>
    cases link with
    | none => cases (u.spells_nil_iff par _).mp h
    | some q =>
      obtain ⟨l1, r1, h1, _, hl, hr⟩ := (u.spells_node_iff par q _).mp h
      obtain ⟨l2, r2, rfl, _, hl2, hr2⟩ := (u.spells_node_iff par q _).mp h'
      injection h1 with e1 e2 e3
      subst e1 e2 e3
      rw [ihl hl hl2, ihr hr hr2]

/-- The root is a node of its tree. -/
theorem Units.spells_root_mem {u : Units} {par : Link} {q : Pos} {t : DTree} (h : u.spells par (some q) t = true) :
    q ∈ t.inorder := by
  obtain ⟨l, r, rfl, _⟩ := (u.spells_node_iff par q t).mp h
  simp [DTree.inorder]

/-- Only the links of a tree's own nodes matter to it. -/
theorem Units.spells_congr {u v : Units} (par link : Link) (t : DTree)
    (h : ∀ p ∈ t.inorder, v.parentOf p = u.parentOf p ∧ v.leftOfD p = u.leftOfD p ∧ v.rightOfD p = u.rightOfD p) :
    v.spells par link t = u.spells par link t := by
  induction t generalizing par link with
  | nil => cases link <;> rfl
  | node l p r ihl ihr =>
    cases link with
    | none => rfl
    | some q =>
      have hp := h p (by simp [DTree.inorder])
      have hl := fun x (hx : x ∈ l.inorder) => h x (by simp [DTree.inorder, hx])
      have hr := fun x (hx : x ∈ r.inorder) => h x (by simp [DTree.inorder, hx])
      simp only [Units.spells]
      by_cases hq : q = p
      · subst hq
        rw [hp.1, hp.2.1, hp.2.2, ihl _ _ hl, ihr _ _ hr]
      · have hne : (q == p) = false := beq_eq_false_iff_ne.mpr hq
        simp only [hne, Bool.false_and]

/-- A tree's size is at most W when no position repeats. -/
theorem DTree.length_inorder_le {t : DTree} (h : t.inorder.Nodup) : t.inorder.length ≤ Config.W := by
  have h1 : (t.inorder.map fun p : Pos => p.toNat).Nodup := h.map fun _ _ => BitVec.eq_of_toNat_eq
  have h2 : (t.inorder.map fun p : Pos => p.toNat) ⊆ List.range Config.W := by
    intro k hk
    obtain ⟨p, _, rfl⟩ := List.mem_map.mp hk
    exact List.mem_range.mpr p.isLt
  simpa using (h1.subperm h2).length_le

/-! ## Operations -/

theorem winRd_ok {s : State} {k : Nat} {b : Byte} (h : Memory.get s.u.window k = some b) : winRd k s = .ok b s := by
  unfold winRd
  rw [h]

theorem winRd_unwritten {s : State} {k : Nat} (h : s.u.written k = false) :
    winRd k s = .error (.raised .uninitRead) s := by
  have hn : Memory.get s.u.window k = none := by
    unfold Units.written at h
    exact Option.not_isSome_iff_eq_none.mp (by rw [h]; decide)
  unfold winRd
  rw [hn]

/-- A WinPut on a slot that is no member (43_lzss_dictionary.md R281). -/
theorem winPut_ok {s : State} {k : Pos} (b : Byte) (h : s.u.isMember k = false) :
    winPut k b s = .ok () { s with u := s.u.winWr s.params k b } := by
  unfold winPut
  rw [Op.units_bind, if_neg (by rw [h]; decide)]
  rfl

/-- Comparing goes on over bytes that agree (43_lzss_dictionary.md R283). -/
theorem commonFrom_ok (p q : Pos) (more k : Nat) {s : State}
    (hp : ∀ j < more, s.u.written (p.toNat + (k + j)) = true)
    (hq : ∀ j < more, s.u.written (q.toNat + (k + j)) = true) :
    ∃ n, n ≤ more ∧ commonFrom p q more k s = .ok (k + n) s ∧
      (∀ j < n, Memory.get s.u.window (p.toNat + (k + j)) = Memory.get s.u.window (q.toNat + (k + j))) ∧
      (n < more → Memory.get s.u.window (p.toNat + (k + n)) ≠ Memory.get s.u.window (q.toNat + (k + n))) := by
  induction more generalizing k with
  | zero => exact ⟨0, Nat.le_refl _, rfl, by omega, by omega⟩
  | succ more ih =>
    obtain ⟨a, ha⟩ := Option.isSome_iff_exists.mp (hp 0 (by omega))
    obtain ⟨b, hb⟩ := Option.isSome_iff_exists.mp (hq 0 (by omega))
    rw [Nat.add_zero] at ha hb
    unfold commonFrom
    rw [Op.bind_ok (winRd_ok ha), Op.bind_ok (winRd_ok hb)]
    by_cases hab : a = b
    · obtain ⟨n, h1, h2, h3, h4⟩ := ih (k + 1)
        (fun j hj => by have := hp (j + 1) (by omega); rwa [show k + (j + 1) = k + 1 + j by omega] at this)
        (fun j hj => by have := hq (j + 1) (by omega); rwa [show k + (j + 1) = k + 1 + j by omega] at this)
      refine ⟨n + 1, by omega, ?_, ?_, ?_⟩
      · rw [if_pos hab, h2, show k + 1 + n = k + (n + 1) by omega]
      · intro j hj
        cases j with
        | zero => rw [Nat.add_zero, ha, hb, hab]
        | succ j => have := h3 j (by omega); rwa [show k + 1 + j = k + (j + 1) by omega] at this
      · intro hn
        have := h4 (by omega)
        rwa [show k + 1 + n = k + (n + 1) by omega] at this
    · refine ⟨0, by omega, by rw [if_neg hab]; rfl, by omega, fun _ => ?_⟩
      rw [Nat.add_zero, ha, hb]
      exact fun e => hab (Option.some.inj e)

/-- Common(p, q, len) is the length of the agreeing prefix (43_lzss_dictionary.md R283). -/
theorem common_ok (p q : Pos) (len : Nat) {s : State} (hp : ∀ j < len, s.u.written (p.toNat + j) = true)
    (hq : ∀ j < len, s.u.written (q.toNat + j) = true) :
    ∃ n, n ≤ len ∧ common p q len s = .ok n s ∧
      (∀ j < n, Memory.get s.u.window (p.toNat + j) = Memory.get s.u.window (q.toNat + j)) ∧
      (n < len → Memory.get s.u.window (p.toNat + n) ≠ Memory.get s.u.window (q.toNat + n)) := by
  simpa [common] using commonFrom_ok p q len 0 (s := s) (by simpa using hp) (by simpa using hq)

/-- Link at the root: the tree of the old node's first byte gets the new root (43_lzss_dictionary.md R292). -/
theorem linkDown_root {s : State} {new : Link} {old : Pos} {c : Byte}
    (h : Memory.get s.u.window old.toNat = some c) :
    linkDown none new old s = .ok () { s with u := s.u.setRoot c new } := by
  unfold linkDown
  dsimp only
  rw [Op.bind_ok (winRd_ok h)]
  rfl

/-- Link below a parent: the child link that held the old node gets the new one (43_lzss_dictionary.md R292). -/
theorem linkDown_child (s : State) (q : Pos) (new : Link) (old : Pos) :
    linkDown (some q) new old s = .ok () { s with
      u := if s.u.leftOfD q = some old then s.u.setLeftD q new else s.u.setRightD q new } := rfl

/-- The rightmost node below x (43_lzss_dictionary.md R291): the last of its tree in order, within as many links as the
tree has nodes. -/
theorem rightmost_ok (fuel : Nat) {s : State} {par : Link} {x : Pos} {t : DTree}
    (h : s.u.spells par (some x) t = true) (hf : t.inorder.length ≤ fuel) :
    ∃ y, rightmost fuel x s = .ok y s ∧ s.u.rightOfD y = none ∧ t.inorder.getLast? = some y := by
  induction fuel generalizing par x t with
  | zero =>
    have := List.length_pos_of_mem (Units.spells_root_mem h)
    omega
  | succ fuel ih =>
    obtain ⟨l, r, rfl, _, _, hr⟩ := (s.u.spells_node_iff par x t).mp h
    have hlen : r.inorder.length ≤ fuel := by
      simp only [DTree.inorder, List.length_append, List.length_cons] at hf
      omega
    cases hx : s.u.rightOfD x with
    | none =>
      rw [hx] at hr
      obtain rfl := (s.u.spells_nil_iff _ r).mp hr
      refine ⟨x, ?_, hx, by simp [DTree.inorder]⟩
      unfold rightmost
      rw [Op.units_bind, hx]
      rfl
    | some z =>
      rw [hx] at hr
      obtain ⟨y, h1, h2, h3⟩ := ih hr hlen
      refine ⟨y, ?_, h2, ?_⟩
      · unfold rightmost
        rw [Op.units_bind, hx]
        exact h1
      · simp only [DTree.inorder, List.getLast?_append, List.getLast?_cons, h3]
        rfl

end Sys2Proof.Machine
end

