-- ==== Sys2Proof/Laws/Frames.lean ====
section
/-! SUPPORT. The frame of every shared operation: the groups of state it can change, whichever way it ends. -/

namespace Sys2Proof.Machine

section
variable {α β : Type} {gs : List Group}

theorem Op.Writes.pure (a : α) : Op.Writes gs (Pure.pure a : Op α) := fun s g _ => State.agree_refl s g

theorem Op.Writes.raise (c : FaultCode) : Op.Writes gs (Machine.raise c : Op α) := fun s g _ => State.agree_refl s g

theorem Op.Writes.stuck (f : Fault) : Op.Writes gs (Machine.stuck f : Op α) := fun s g _ => State.agree_refl s g

theorem Op.Writes.units : Op.Writes gs Machine.units := fun s g _ => State.agree_refl s g

theorem Op.Writes.params : Op.Writes gs Machine.params := fun s g _ => State.agree_refl s g

theorem Op.Writes.ite {p : Prop} [Decidable p] {x y : Op α} (hx : Op.Writes gs x) (hy : Op.Writes gs y) :
    Op.Writes gs (if p then x else y) := by
  split
  · exact hx
  · exact hy

/-- An update of the unit state writes the groups it touches. -/
theorem Op.Writes.setUnits {f : Units → Units}
    (h : ∀ (s : State) (g : Group), g ∉ gs → s.agree { s with u := f s.u } g) : Op.Writes gs (Machine.setUnits f) :=
  fun s g hg => h s g hg

/-- Reading the unit state first changes nothing. -/
theorem Op.Writes.withUnits {f : Units → Op β} (h : ∀ u, Op.Writes gs (f u)) :
    Op.Writes gs (Machine.units >>= f) := Op.Writes.bind Op.Writes.units h

/-- Reading the parameters first changes nothing. -/
theorem Op.Writes.withParams {f : Config.Params → Op β} (h : ∀ P, Op.Writes gs (f P)) :
    Op.Writes gs (Machine.params >>= f) := Op.Writes.bind Op.Writes.params h

theorem Op.Writes.repeatOp (n : Nat) {x : Op Unit} (hx : Op.Writes gs x) : Op.Writes gs (Machine.repeatOp n x) := by
  induction n with
  | zero => exact Op.Writes.pure ()
  | succ n ih => exact Op.Writes.bind hx fun _ => ih

end

/-! ## Accesses -/

theorem writes_ioCheck : Op.Writes [] ioCheck := by
  intro s
  simp only [ioCheck]
  split <;> intro g _ <;> cases g <;> simp_all [State.agree]

theorem writes_srcReadCore : Op.Writes [.sourcePos] srcReadCore := by
  intro s
  simp only [srcReadCore]
  split <;> intro g hg <;> cases g <;> simp_all [State.agree]

theorem writes_srcRead : Op.Writes [.sourcePos] srcRead :=
  (writes_ioCheck.mono (by simp)).bind fun _ => writes_srcReadCore

theorem writes_srcSeek (d : Int) : Op.Writes [.sourcePos] (srcSeek d) := by
  refine (writes_ioCheck.mono (by simp)).bind fun _ s => ?_
  simp only [srcSeekCore]
  split <;> intro g hg <;> cases g <;> simp_all [State.agree]

theorem writes_sinkWrite (b : Byte) : Op.Writes [.sink] (sinkWrite b) := by
  refine (writes_ioCheck.mono (by simp)).bind fun _ s => ?_
  simp only [sinkWriteCore]
  split <;> intro g hg <;> cases g <;> simp_all [State.agree]

theorem writes_sinkSeek (d : Int) : Op.Writes [.sink] (sinkSeek d) := by
  refine (writes_ioCheck.mono (by simp)).bind fun _ s => ?_
  simp only [sinkSeekCore]
  split <;> intro g hg <;> cases g <;> simp_all [State.agree]

theorem writes_winRd (k : Nat) : Op.Writes [] (winRd k) := by
  intro s
  simp only [winRd]
  split <;> intro g _ <;> cases g <;> simp_all [State.agree]

theorem writes_winWr (k : Pos) (b : Byte) : Op.Writes [.window] (winWr k b) :=
  .withParams fun P => .setUnits fun s g hg => by cases g <;> simp_all [State.agree]

theorem writes_setRes0 (a : Nat) : Op.Writes [.results] (setRes0 a) := by
  intro s g hg; cases g <;> simp_all [State.agree, State.withResult]

theorem writes_setRes (a b : Nat) : Op.Writes [.results] (setRes a b) := by
  intro s g hg; cases g <;> simp_all [State.agree, State.withResults]

theorem writes_streamInit : Op.Writes [.sourcePos, .sink, .writer, .reader] streamInit := by
  intro s g hg; cases g <;> simp_all [State.agree, streamInit]

/-! ## The bit streams -/

theorem writes_emitFullByte : Op.Writes [.sink, .writer] emitFullByte :=
  .withUnits fun u => .ite (((writes_sinkWrite _).mono (by simp)).bind fun _ =>
    .setUnits fun s g hg => by cases g <;> simp_all [State.agree]) (.pure _)

theorem writes_writeLoop (n v c : Nat) : Op.Writes [.sink, .writer] (writeLoop n v c) := by
  induction n generalizing v c with
  | zero => exact .pure _
  | succ n ih =>
    refine .ite (.pure _) (.withUnits fun u => .bind (.setUnits fun s g hg => ?_) fun _ =>
      writes_emitFullByte.bind fun _ => ih _ _)
    cases g <;> simp_all [State.agree]

theorem writes_flushPartial : Op.Writes [.sink, .writer] flushPartial :=
  .withUnits fun u => .ite (((writes_sinkWrite _).mono (by simp)).bind fun _ =>
    (writes_sinkSeek _).mono (by simp)) (.pure _)

theorem writes_writeBits (v c : Nat) (f : Bool) : Op.Writes [.sink, .writer] (writeBits v c f) :=
  (writes_writeLoop _ _ _).bind fun _ => .ite writes_flushPartial (.pure _)

theorem writes_writeWide (v c : Nat) : Op.Writes [.sink, .writer] (writeWide v c) := by
  have key : ∀ n v c, Op.Writes [.sink, .writer] (writeWideLoop n v c) := by
    intro n
    induction n with
    | zero => exact fun v c => .pure _
    | succ n ih => exact fun v c => .ite (.pure _) ((writes_writeBits _ _ _).bind fun _ => ih _ _)
  exact key _ _ _

theorem writes_refresh : Op.Writes [.sourcePos, .reader] refresh := by
  refine .withUnits fun u => .ite (.pure _) (((writes_srcSeek _).mono (by simp)).bind fun _ =>
    ((writes_srcRead).mono (by simp)).bind fun r => ?_)
  cases r with
  | none => exact .raise _
  | some b => exact .setUnits fun s g hg => by cases g <;> simp_all [State.agree]

theorem writes_pullByte : Op.Writes [.sourcePos, .reader] pullByte := by
  refine .withUnits fun u => .ite ((writes_srcRead.mono (by simp)).bind fun r => ?_) (.pure _)
  cases r with
  | none => exact .pure _
  | some b => exact .bind (.setUnits fun s g hg => by cases g <;> simp_all [State.agree]) fun _ => .pure _

theorem writes_readLoop (c n v got : Nat) : Op.Writes [.sourcePos, .reader] (readLoop c n v got) := by
  induction n generalizing v got with
  | zero => exact .pure _
  | succ n ih =>
    refine .ite (writes_pullByte.bind fun m => .ite (.withUnits fun u =>
      .bind (.setUnits fun s g hg => ?_) fun _ => ih _ _) (.pure _)) (.pure _)
    cases g <;> simp_all [State.agree]

theorem writes_readBits (c : Nat) (r : Bool) : Op.Writes [.sourcePos, .reader] (readBits c r) := by
  cases r
  · exact writes_readLoop _ _ _ _
  · exact writes_refresh.bind fun _ => writes_readLoop _ _ _ _

theorem writes_need (c : Nat) : Op.Writes [.sourcePos, .reader] (need c) :=
  (writes_readBits _ _).bind fun _ => .ite (.raise _) (.pure _)

/-! ## The Huffman coder -/

theorem writes_children (t : HId) : Op.Writes [] (children t) := by
  refine .withUnits fun u => ?_
  split
  · exact .pure _
  · exact .stuck _

theorem writes_popMin : Op.Writes [.tree] popMin := by
  refine .withUnits fun u => ?_
  split
  · exact .pure _
  · exact .bind (.setUnits fun s g hg => by cases g <;> simp_all [State.agree]) fun _ => .pure _

theorem writes_buildRound : Op.Writes [.tree] buildRound :=
  .withUnits fun u => .ite (.pure _) (writes_popMin.bind fun x => writes_popMin.bind fun y =>
    .ite (.raise _) (.bind (.setUnits fun s g hg => by cases g <;> simp_all [State.agree]) fun _ => .pure _))

theorem writes_buildLoop (n : Nat) : Op.Writes [.tree] (buildLoop n) := by
  induction n with
  | zero => exact .pure _
  | succ n ih => exact writes_buildRound.bind fun m => .ite ih (.pure _)

theorem writes_buildTree : Op.Writes [.tree, .codes] buildTree :=
  .bind (.setUnits fun s g hg => by cases g <;> simp_all [State.agree]) fun _ => .withUnits fun u =>
    .ite (.setUnits fun s g hg => by cases g <;> simp_all [State.agree])
      (((writes_buildLoop _).mono (by simp)).bind fun _ => (writes_popMin.mono (by simp)).bind fun x =>
        .setUnits fun s g hg => by cases g <;> simp_all [State.agree])

theorem writes_walkCodes (n : Nat) (id : HId) (code depth : Nat) : Op.Writes [.codes] (walkCodes n id code depth) := by
  induction n generalizing id code depth with
  | zero =>
    unfold walkCodes
    exact .ite (.setUnits fun s g hg => by cases g <;> simp_all [State.agree]) (.stuck _)
  | succ n ih =>
    unfold walkCodes
    exact .ite (.setUnits fun s g hg => by cases g <;> simp_all [State.agree])
      (((writes_children _).mono (by simp)).bind fun lr => (ih _ _ _).bind fun _ => ih _ _ _)

theorem writes_deriveCodes : Op.Writes [.codes] deriveCodes :=
  .bind (.setUnits fun s g hg => by cases g <;> simp_all [State.agree]) fun _ => .withUnits fun u =>
    writes_walkCodes _ _ _ _

theorem writes_emitNode (n : Nat) (id : HId) : Op.Writes [.sink, .writer] (emitNode n id) := by
  induction n generalizing id with
  | zero =>
    unfold emitNode
    exact .ite ((writes_writeBits _ _ _).bind fun _ => writes_writeBits _ _ _) (.stuck _)
  | succ n ih =>
    unfold emitNode
    exact .ite ((writes_writeBits _ _ _).bind fun _ => writes_writeBits _ _ _)
      ((writes_writeBits _ _ _).bind fun _ => ((writes_children _).mono (by simp)).bind fun lr =>
        (ih _).bind fun _ => ih _)

theorem writes_emitTree : Op.Writes [.sink, .writer] emitTree := .withUnits fun _ => writes_emitNode _ _

theorem writes_emitCount (n : Nat) : Op.Writes [.sink, .writer] (emitCount n) := by
  have key : ∀ f n, Op.Writes [.sink, .writer] (emitGroups f n) := by
    intro f
    induction f with
    | zero => exact fun n => .pure _
    | succ f ih =>
      exact fun n => (writes_writeBits _ _ _).bind fun _ => (writes_writeBits _ _ _).bind fun _ => .ite (.pure _) (ih _)
  exact key _ _

theorem writes_emitCode (b : Byte) : Op.Writes [.sink, .writer] (emitCode b) :=
  .withUnits fun _ => writes_writeWide _ _

theorem writes_countLoop (f n : Nat) : Op.Writes [.sourcePos, .weights] (countLoop f n) := by
  induction f generalizing n with
  | zero => exact .stuck _
  | succ f ih =>
    refine (writes_srcRead.mono (by simp)).bind fun r => ?_
    cases r with
    | none => exact .pure _
    | some b => exact .bind (.setUnits fun s g hg => by cases g <;> simp_all [State.agree]) fun _ => ih _

theorem writes_encodeByte : Op.Writes [.sourcePos, .sink, .writer] encodeByte := by
  refine (writes_srcRead.mono (by simp)).bind fun r => ?_
  cases r with
  | none => exact .raise _
  | some b => exact (writes_emitCode b).mono (by simp)

theorem writes_huffmanEncode :
    Op.Writes [.results, .sourcePos, .sink, .writer, .reader, .weights, .tree, .codes] huffmanEncode :=
  (writes_streamInit.mono (by simp)).bind fun _ =>
  .bind (.setUnits fun s g hg => by cases g <;> simp_all [State.agree]) fun _ =>
  .bind (fun s g _ => State.agree_refl s g) fun bound =>
  ((writes_countLoop _ _).mono (by simp)).bind fun n =>
  (writes_buildTree.mono (by simp)).bind fun _ =>
  (writes_deriveCodes.mono (by simp)).bind fun _ =>
  (writes_emitTree.mono (by simp)).bind fun _ =>
  ((writes_emitCount _).mono (by simp)).bind fun _ =>
  ((writes_srcSeek _).mono (by simp)).bind fun _ =>
  (Op.Writes.repeatOp _ (writes_encodeByte.mono (by simp))).bind fun _ =>
  ((writes_writeBits _ _ _).mono (by simp)).bind fun _ => (writes_setRes0 _).mono (by simp)

theorem agree_attachNode (x : HId) (fs : List ParseFrame) (s : State) (u : Units) (g : Group)
    (hg : g ≠ .tree ∧ g ≠ .parser) (h : s.agree { s with u := u } g) :
    s.agree { s with u := attachNode x fs u } g := by
  induction fs generalizing x u with
  | nil => cases g <;> simp_all [State.agree, attachNode]
  | cons f rest ih =>
    cases f with
    | left t => cases g <;> simp_all [State.agree, attachNode]
    | right t =>
      refine ih t _ ?_
      cases g <;> simp_all [State.agree]

theorem writes_doTreeLeaf (v : Byte) : Op.Writes [.tree, .parser] (doTreeLeaf v) :=
  .setUnits fun s g hg => agree_attachNode _ _ s _ g (by simpa using hg) (State.agree_refl s g)

theorem writes_doTreeInternal : Op.Writes [.tree, .parser] doTreeInternal :=
  .withUnits fun u => .ite (.raise _) (.setUnits fun s g hg => by cases g <;> simp_all [State.agree])

theorem writes_parseNodes (n : Nat) : Op.Writes [.sourcePos, .reader, .tree, .parser] (parseNodes n) := by
  induction n with
  | zero => exact .stuck _
  | succ n ih =>
    refine .bind (((writes_need _).mono (by simp)).bind fun f => .ite (((writes_need _).mono (by simp)).bind fun v =>
      (writes_doTreeLeaf _).mono (by simp)) (writes_doTreeInternal.mono (by simp))) fun _ =>
      .withUnits fun u => .ite (.pure _) ih

theorem writes_parseTree : Op.Writes [.sourcePos, .reader, .tree, .codes, .parser] parseTree :=
  .bind (.setUnits fun s g hg => by cases g <;> simp_all [State.agree]) fun _ =>
  .bind (fun s g _ => State.agree_refl s g) fun bound => (writes_parseNodes _).mono (by simp)

theorem writes_doCountGroup (d : Byte) (last : Bool) : Op.Writes [.parser] (doCountGroup d last) :=
  .withUnits fun u => .ite (.raise _) (.setUnits fun s g hg => by cases g <;> simp_all [State.agree])

theorem writes_parseGroups (n : Nat) : Op.Writes [.sourcePos, .reader, .parser] (parseGroups n) := by
  induction n with
  | zero => exact .stuck _
  | succ n ih =>
    exact .bind (((writes_need _).mono (by simp)).bind fun d => ((writes_need _).mono (by simp)).bind fun l =>
      (writes_doCountGroup _ _).mono (by simp)) fun _ => .withUnits fun u => .ite (.pure _) ih

theorem writes_parseCount : Op.Writes [.sourcePos, .reader, .parser] parseCount :=
  .bind (.setUnits fun s g hg => by cases g <;> simp_all [State.agree]) fun _ =>
  .bind (fun s g _ => State.agree_refl s g) fun bound => (writes_parseGroups _).bind fun _ =>
  .withUnits fun u => .pure _

theorem writes_walkSymbol (n : Nat) (id : HId) : Op.Writes [.sourcePos, .reader] (walkSymbol n id) := by
  induction n generalizing id with
  | zero => exact .stuck _
  | succ n ih =>
    exact .ite (.pure _) (((writes_children _).mono (by simp)).bind fun lr => (writes_need _).bind fun f => ih _)

theorem writes_decodeSymbol : Op.Writes [.sourcePos, .sink, .reader] decodeSymbol :=
  .withUnits fun u => .bind (fun s g _ => State.agree_refl s g) fun bound =>
  ((writes_walkSymbol _ _).mono (by simp)).bind fun id => ((writes_sinkWrite _).mono (by simp)).bind fun _ => .pure _

theorem writes_walkBits (bits : List Bool) (id : HId) : Op.Writes [] (walkBits bits id) := by
  induction bits generalizing id with
  | nil => unfold walkBits; exact .ite (.pure _) (.raise _)
  | cons b rest ih => unfold walkBits; exact .ite (.pure _) ((writes_children _).bind fun lr => ih _)

theorem writes_doCode (bits : List Bool) : Op.Writes [.sink] (doCode bits) :=
  .withUnits fun _ => .ite (.raise _) (((writes_walkBits _ _).mono (by simp)).bind fun _ => writes_sinkWrite _)

theorem writes_huffmanDecode :
    Op.Writes [.results, .sourcePos, .sink, .writer, .reader, .tree, .codes, .parser] huffmanDecode :=
  (writes_streamInit.mono (by simp)).bind fun _ => (writes_parseTree.mono (by simp)).bind fun _ =>
  (writes_parseCount.mono (by simp)).bind fun n =>
  (Op.Writes.repeatOp _ ((writes_decodeSymbol.mono (by simp)).bind fun _ => .pure _)).bind fun _ =>
  (writes_setRes0 _).mono (by simp)

/-! ## The dictionary -/

theorem writes_winPut (k : Pos) (b : Byte) : Op.Writes [.window] (winPut k b) :=
  .withUnits fun _ => .ite (.raise _) (writes_winWr k b)

theorem writes_common (p q : Pos) (len : Nat) : Op.Writes [] (common p q len) := by
  have key : ∀ n k, Op.Writes [] (commonFrom p q n k) := by
    intro n
    induction n with
    | zero => exact fun k => .pure _
    | succ n ih => exact fun k => (writes_winRd _).bind fun a => (writes_winRd _).bind fun b => .ite (ih _) (.pure _)
  exact key _ _

theorem writes_linkNode (par new : Link) (old : Pos) : Op.Writes [.dictionary] (linkNode par new old) := by
  refine .bind (?_ : Op.Writes _ (linkDown par new old)) fun _ => ?_
  · unfold linkDown
    split
    · exact ((writes_winRd _).mono (by simp)).bind fun c =>
        .setUnits fun s g hg => by cases g <;> simp_all [State.agree]
    · exact .setUnits fun s g hg => by split <;> cases g <;> simp_all [State.agree]
  · split
    · exact .pure _
    · exact .setUnits fun s g hg => by cases g <;> simp_all [State.agree]

theorem writes_rightmost (n : Nat) (x : Pos) : Op.Writes [] (rightmost n x) := by
  induction n generalizing x with
  | zero => exact .stuck _
  | succ n ih =>
    refine .withUnits fun u => ?_
    split
    · exact .pure _
    · exact ih _

theorem writes_liftPredecessor (l x : Pos) : Op.Writes [.dictionary] (liftPredecessor l x) :=
  .withUnits fun u => .ite (.pure _) ((writes_linkNode _ _ _).bind fun _ =>
    .setUnits fun s g hg => by cases g <;> simp_all [State.agree])

theorem writes_removeNode (p : Pos) : Op.Writes [.dictionary] (removeNode p) := by
  refine .withUnits fun u => .ite (.bind (.withUnits fun u => ?_ : Op.Writes _ (unlinkMember p)) fun _ =>
    .setUnits fun s g hg => by cases g <;> simp_all [State.agree]) (.pure _)
  split
  · exact ((writes_rightmost _ _).mono (by simp)).bind fun x => (writes_liftPredecessor _ _).bind fun _ =>
      .bind (.setUnits fun s g hg => by cases g <;> simp_all [State.agree]) fun _ => writes_linkNode _ _ _
  · exact writes_linkNode _ _ _
  · exact writes_linkNode _ _ _

theorem agree_adopt (s : State) (u : Units) (x : Link) (p : Pos) (g : Group) (hg : g ≠ .dictionary)
    (h : s.agree { s with u := u } g) : s.agree { s with u := u.adopt x p } g := by
  unfold Units.adopt
  split
  · exact h
  · cases g <;> simp_all [State.agree]

theorem writes_replaceNode (q p : Pos) : Op.Writes [.dictionary] (replaceNode q p) :=
  .bind (.setUnits fun s g hg => by cases g <;> simp_all [State.agree]) fun _ => .withUnits fun u =>
  (writes_linkNode _ _ _).bind fun _ =>
  .bind (.setUnits fun s g hg => agree_adopt s _ _ _ g (by simpa using hg) (State.agree_refl s g)) fun _ =>
  .bind (.setUnits fun s g hg => agree_adopt s _ _ _ g (by simpa using hg) (State.agree_refl s g)) fun _ =>
  .setUnits fun s g hg => by cases g <;> simp_all [State.agree]

theorem writes_matchWalk (p : Pos) (len n : Nat) (q : Pos) (best : Link × Nat) :
    Op.Writes [.dictionary] (matchWalk p len n q best) := by
  induction n generalizing q best with
  | zero => exact .stuck _
  | succ n ih =>
    refine ((writes_common _ _ _).mono (by simp)).bind fun k => .ite ((writes_replaceNode _ _).bind fun _ => .pure _)
      (((writes_winRd _).mono (by simp)).bind fun a => ((writes_winRd _).mono (by simp)).bind fun b =>
        .withUnits fun u => .ite ?_ ?_)
    · split
      · exact .bind (.setUnits fun s g hg => by cases g <;> simp_all [State.agree]) fun _ => .pure _
      · exact ih _ _
    · split
      · exact .bind (.setUnits fun s g hg => by cases g <;> simp_all [State.agree]) fun _ => .pure _
      · exact ih _ _

theorem writes_matchAdd (p : Pos) (len : Nat) : Op.Writes [.dictionary] (matchAdd p len) := by
  refine ((writes_winRd _).mono (by simp)).bind fun c => .withUnits fun u => ?_
  split
  · exact .bind (.setUnits fun s g hg => by cases g <;> simp_all [State.agree]) fun _ => .pure _
  · exact writes_matchWalk _ _ _ _ _

/-! ## The LZSS coder -/

theorem writes_emitLiteral (b : Byte) : Op.Writes [.sink, .writer] (emitLiteral b) :=
  (writes_writeBits _ _ _).bind fun _ => writes_writeBits _ _ _

theorem writes_emitReference (p len : Nat) : Op.Writes [.sink, .writer] (emitReference p len) :=
  .withParams fun _ => (writes_writeBits _ _ _).bind fun _ => (writes_writeBits _ _ _).bind fun _ =>
    writes_writeBits _ _ _

theorem writes_emitSentinel (p : Nat) : Op.Writes [.sink, .writer] (emitSentinel p) :=
  (writes_writeBits _ _ _).bind fun _ => writes_writeBits _ _ _

theorem writes_fillLoop (room n : Nat) : Op.Writes [.sourcePos, .window, .encoder] (fillLoop room n) := by
  induction room generalizing n with
  | zero => exact .pure _
  | succ room ih =>
    refine (writes_srcRead.mono (by simp)).bind fun r => ?_
    cases r with
    | none => exact .bind (.setUnits fun s g hg => by cases g <;> simp_all [State.agree]) fun _ => .pure _
    | some b =>
      exact .withUnits fun u => ((writes_winWr _ _).mono (by simp)).bind fun _ =>
        .bind (.setUnits fun s g hg => by cases g <;> simp_all [State.agree]) fun _ => ih _

theorem writes_useMatch (m : Link × Nat) : Op.Writes [.sink, .writer, .encoder] (useMatch m) :=
  .withParams fun P => .withUnits fun u =>
  .ite (.setUnits fun s g hg => by cases g <;> simp_all [State.agree])
    (.ite (((writes_winRd _).mono (by simp)).bind fun b => (writes_emitLiteral b).mono (by simp))
      (((writes_emitReference _ _).mono (by simp)).bind fun _ =>
        .setUnits fun s g hg => by cases g <;> simp_all [State.agree]))

theorem writes_nextInput : Op.Writes [.sourcePos, .encoder] nextInput := by
  refine .withUnits fun u => .ite (.pure _) ((writes_srcRead.mono (by simp)).bind fun r => ?_)
  cases r with
  | none => exact .bind (.setUnits fun s g hg => by cases g <;> simp_all [State.agree]) fun _ => .pure _
  | some b => exact .pure _

theorem writes_slideWindow (n : Nat) : Op.Writes [.sourcePos, .window, .dictionary, .encoder] (slideWindow n) := by
  refine .withUnits fun u => (writes_nextInput.mono (by simp)).bind fun r => ?_
  cases r with
  | none => exact .bind (.setUnits fun s g hg => by cases g <;> simp_all [State.agree]) fun _ => .pure _
  | some b =>
    exact ((writes_removeNode _).mono (by simp)).bind fun _ => ((writes_winWr _ _).mono (by simp)).bind fun _ =>
      .bind (.setUnits fun s g hg => by cases g <;> simp_all [State.agree]) fun _ => .pure _

theorem writes_encodeLoop (f n : Nat) :
    Op.Writes [.sourcePos, .sink, .writer, .window, .dictionary, .encoder] (encodeLoop f n) := by
  induction f generalizing n with
  | zero => exact .stuck _
  | succ f ih =>
    exact .withUnits fun u => .ite (((writes_matchAdd _ _).mono (by simp)).bind fun m =>
      ((writes_useMatch _).mono (by simp)).bind fun _ => ((writes_slideWindow _).mono (by simp)).bind fun _ => ih _)
      (.pure _)

theorem writes_lzssEncode :
    Op.Writes [.results, .sourcePos, .sink, .writer, .reader, .window, .dictionary, .encoder] lzssEncode :=
  (writes_streamInit.mono (by simp)).bind fun _ =>
  .bind (.setUnits fun s g hg => by cases g <;> simp_all [State.agree]) fun _ => .withParams fun P =>
  ((writes_fillLoop _ _).mono (by simp)).bind fun n0 =>
  .bind (fun s g _ => State.agree_refl s g) fun bound =>
  ((writes_encodeLoop _ _).mono (by simp)).bind fun n => .withUnits fun u =>
  ((writes_emitSentinel _).mono (by simp)).bind fun _ => ((writes_writeBits _ _ _).mono (by simp)).bind fun _ =>
  (writes_setRes0 _).mono (by simp)

theorem writes_outputByte (b : Byte) : Op.Writes [.sink, .cursor, .window] (outputByte b) :=
  ((writes_sinkWrite _).mono (by simp)).bind fun _ => .withUnits fun u =>
  ((writes_winPut _ _).mono (by simp)).bind fun _ => .setUnits fun s g hg => by cases g <;> simp_all [State.agree]

theorem writes_copyLoop (n : Nat) (p : Pos) : Op.Writes [.sink, .cursor, .window] (copyLoop n p) := by
  induction n generalizing p with
  | zero => exact .pure _
  | succ n ih =>
    exact ((writes_winRd _).mono (by simp)).bind fun b => (writes_outputByte b).bind fun _ => ih _

theorem writes_doEnd : Op.Writes [.cursor] doEnd :=
  .setUnits fun s g hg => by cases g <;> simp_all [State.agree]

theorem writes_fetchToken : Op.Writes [.sourcePos, .reader] fetchToken :=
  (writes_need _).bind fun _ => .ite ((writes_need _).bind fun _ => .pure _)
    ((writes_need _).bind fun _ => .withUnits fun _ => .ite (.pure _) (.withParams fun _ =>
      (writes_need _).bind fun _ => .pure _))

theorem writes_doToken (t : LzToken) : Op.Writes [.sink, .cursor, .window] (doToken t) := by
  refine .withUnits fun u => .withParams fun P => ?_
  cases t with
  | literal b => exact (writes_outputByte b).bind fun _ => .pure _
  | reference p e =>
    exact .ite ((writes_doEnd.mono (by simp)).bind fun _ => .pure _) ((writes_copyLoop _ _).bind fun _ => .pure _)
  | endToken p => exact .ite ((writes_doEnd.mono (by simp)).bind fun _ => .pure _) (.raise _)

theorem writes_decodeLzToken : Op.Writes [.sourcePos, .sink, .reader, .cursor, .window] decodeLzToken :=
  (writes_fetchToken.mono (by simp)).bind fun t => (writes_doToken t).mono (by simp)

theorem writes_lzssDecode :
    Op.Writes [.results, .sourcePos, .sink, .writer, .reader, .cursor, .window, .dictionary] lzssDecode := by
  have key : ∀ f n, Op.Writes [.sourcePos, .sink, .reader, .cursor, .window] (decodeTokens f n) := by
    intro f
    induction f with
    | zero => exact fun n => .stuck _
    | succ f ih => exact fun n => writes_decodeLzToken.bind fun kc => .ite (.pure _) (ih _)
  exact (writes_streamInit.mono (by simp)).bind fun _ =>
    .bind (.setUnits fun s g hg => by cases g <;> simp_all [State.agree]) fun _ =>
    .bind (fun s g _ => State.agree_refl s g) fun bound =>
    ((key _ _).mono (by simp)).bind fun n => (writes_setRes0 _).mono (by simp)

end Sys2Proof.Machine
end

