-- ==== Sys2Proof/Laws/Huffman.lean ====
section
/-! SUPPORT. What the shared operations of the Huffman units do on the trees and streams they are made for. -/

namespace Sys2Proof.Machine

/-! ## Emitting -/

/-- A tree does not depend on the writer or the reader. -/
theorem Units.holds_congr {u v : Units} (hl : v.leftH = u.leftH) (hr : v.rightH = u.rightH) (id : HId) (h : Shape) :
    v.holds id h = u.holds id h := by
  induction h generalizing id with
  | leaf b => rfl
  | node l r ihl ihr => simp only [Units.holds, Units.leftOf, Units.rightOf, hl, hr, ihl, ihr]

theorem State.emit_holds (s : State) (bits : List Bool) (id : HId) (h : Shape) :
    (s.emit bits).u.holds id h = s.u.holds id h :=
  Units.holds_congr (u := s.u) (v := (s.emit bits).u) rfl rfl id h

theorem Units.holds_leaf {u : Units} {id : HId} {v : Byte} (h : u.holds id (.leaf v) = true) : id = v.setWidth 9 :=
  beq_iff_eq.mp h

theorem toNat_leaf (v : Byte) : (v.setWidth 9).toNat = v.toNat := by
  have := v.isLt
  rw [BitVec.toNat_setWidth]
  omega

/-- An internal node has both entries, and they hold the subtrees. -/
theorem Units.holds_node {u : Units} {id : HId} {l r : Shape} (h : u.holds id (.node l r) = true) :
    ∃ a b, u.leftOf id = some a ∧ u.rightOf id = some b ∧ u.holds a l = true ∧ u.holds b r = true ∧
      256 ≤ id.toNat := by
  unfold Units.holds at h
  split at h
  · next a b ha hb =>
    refine ⟨a, b, ha, hb, (Bool.and_eq_true_iff.mp h).1, (Bool.and_eq_true_iff.mp h).2, ?_⟩
    unfold Units.leftOf at ha
    split at ha
    · assumption
    · cases ha
  · cases h

theorem children_ok {s : State} {id a b : HId} (ha : s.u.leftOf id = some a) (hb : s.u.rightOf id = some b) :
    children id s = .ok (a, b) s := by
  simp only [children, Op.units_bind, ha, hb]
  rfl

/-- Two writes of bits in a row. -/
theorem writeBits_bind {α : Type} (v c : Nat) (f : Unit → Op α) {s : State} (hio : s.ioFine) (hw : s.u.writerOk)
    (hr : s.room (s.u.bytesFor c)) : (writeBits v c false >>= f) s = f () (s.emit (wordBits c v)) :=
  Op.bind_ok (writeBits_ok v c hio hw hr)

theorem bytesFor_mono (u : Units) {a b : Nat} (h : a ≤ b) : u.bytesFor a ≤ u.bytesFor b := by
  unfold Units.bytesFor; omega

theorem room_mono {s : State} {a b : Nat} (h : a ≤ b) (hr : s.room b) : s.room a := ⟨hr.1, by have := hr.2; omega⟩

/-- Room for a string of bits is room for its first part, and after that for the rest. -/
theorem room_split {s : State} {a b : List Bool} (h : s.room (s.u.bytesFor (a ++ b).length)) :
    s.room (s.u.bytesFor a.length) ∧ (s.emit a).room ((s.emit a).u.bytesFor b.length) := by
  rw [List.length_append] at h
  exact State.room_emit h

/-- EmitTree writes the serialized tree below a node (42_huffman.md R230). -/
theorem emitNode_ok (levels : Nat) (id : HId) (h : Shape) {s : State} (hh : s.u.holds id h = true)
    (hd : h.depth ≤ levels) (hio : s.ioFine) (hw : s.u.writerOk) (hr : s.room (s.u.bytesFor h.bits.length)) :
    emitNode levels id s = .ok () (s.emit h.bits) := by
  induction h generalizing levels id s with
  | leaf v =>
    obtain rfl := Units.holds_leaf hh
    have hlt : (v.setWidth 9).toNat < 256 := by rw [toNat_leaf]; exact v.isLt
    have hsp := room_split (a := wordBits 1 1) (b := wordBits 8 v.toNat) hr
    unfold emitNode
    rw [if_pos hlt, writeBits_bind 1 1 _ hio hw (by simpa using hsp.1),
      writeBits_ok _ _ (State.emit_ioFine hio _) (State.emit_writerOk _ _) (by simpa using hsp.2), State.emit_emit, toNat_leaf]
    rfl
  | node l r ihl ihr =>
    obtain ⟨a, b, ha, hb, hl, hr', h256⟩ := Units.holds_node hh
    obtain ⟨n, rfl⟩ : ∃ n, levels = n + 1 := ⟨levels - 1, by simp only [Shape.depth] at hd; omega⟩
    simp only [Shape.depth] at hd
    have h1 := room_split (a := wordBits 1 0) (b := l.bits ++ r.bits) hr
    have h2 := room_split (s := s.emit (wordBits 1 0)) (a := l.bits) (b := r.bits) h1.2
    unfold emitNode
    rw [if_neg (by omega)]
    dsimp only
    rw [writeBits_bind 0 1 _ hio hw (by simpa using h1.1),
      Op.bind_ok (children_ok (s := s.emit (wordBits 1 0)) (a := a) (b := b) ha hb),
      Op.bind_ok (ihl n a (by rw [State.emit_holds]; exact hl) (by omega) (State.emit_ioFine hio _)
        (State.emit_writerOk _ _) h2.1),
      ihr n b (by rw [State.emit_holds, State.emit_holds]; exact hr') (by omega)
        (State.emit_ioFine (State.emit_ioFine hio _) _) (State.emit_writerOk _ _) h2.2,
      State.emit_emit, State.emit_emit]
    rfl

/-- The groups of a count, one at a time. -/
theorem countBytes_small {n : Nat} (h : n < 256) : countBytes n = [BitVec.ofNat 8 n] := by
  have hb : bitLength n ≤ 8 := by
    unfold bitLength
    split
    · omega
    · have := (Nat.log2_lt (by omega)).mpr (show n < 2 ^ 8 by omega)
      omega
  unfold countBytes
  rw [show max 1 ((bitLength n + 7) / 8) = 1 by omega]
  simp

theorem countBytes_large {n : Nat} (h : 256 ≤ n) : countBytes n = BitVec.ofNat 8 n :: countBytes (n / 256) := by
  have hn : n / 256 ≠ 0 := by omega
  have hl : Nat.log2 n = Nat.log2 (n / 256) + 8 := by
    have h1 := (Nat.le_log2 (n := n / 256) (k := Nat.log2 (n / 256)) hn).mp (Nat.le_refl _)
    have h2 := Nat.lt_log2_self (n := n / 256)
    apply Nat.le_antisymm
    · apply Nat.le_of_lt_succ
      apply (Nat.log2_lt (by omega)).mpr
      calc n < 256 * (n / 256 + 1) := by omega
        _ ≤ 256 * 2 ^ (Nat.log2 (n / 256) + 1) := Nat.mul_le_mul_left _ h2
        _ = 2 ^ (Nat.log2 (n / 256) + 8).succ := by rw [Nat.succ_eq_add_one, show 256 = 2 ^ 8 by rfl, ← Nat.pow_add]; congr 1; omega
    · apply (Nat.le_log2 (by omega)).mpr
      calc 2 ^ (Nat.log2 (n / 256) + 8) = 256 * 2 ^ Nat.log2 (n / 256) := by rw [Nat.pow_add]; omega
        _ ≤ 256 * (n / 256) := Nat.mul_le_mul_left _ h1
        _ ≤ n := by omega
  have hb : bitLength n = bitLength (n / 256) + 8 := by
    unfold bitLength
    rw [if_neg (by omega), if_neg hn, hl]
  have hpos : 1 ≤ bitLength (n / 256) := by unfold bitLength; rw [if_neg hn]; omega
  unfold countBytes
  rw [hb, show max 1 ((bitLength (n / 256) + 8 + 7) / 8) = max 1 ((bitLength (n / 256) + 7) / 8) + 1 by omega,
    List.range_succ_eq_map, List.map_cons, List.map_map]
  congr 1
  · simp
  · apply List.map_congr_left
    intro g _
    simp only [Function.comp_apply, Nat.succ_eq_add_one, Nat.pow_succ', Nat.div_div_eq_div_mul]

/-- EmitCount writes the groups of the count (42_huffman.md R231). -/
theorem emitGroups_ok (fuel n : Nat) {s : State} (hn : n < 256 ^ (fuel + 1)) (hio : s.ioFine) (hw : s.u.writerOk)
    (hr : s.room (s.u.bytesFor (groupsBits (countBytes n)).length)) :
    emitGroups (fuel + 1) n s = .ok () (s.emit (groupsBits (countBytes n))) := by
  have hsh : n >>> 8 = n / 256 := Nat.shiftRight_eq_div_pow n 8
  have hw8 : wordBits 8 (n % 256) = wordBits 8 n := wordBits_mod 8 8 n (Nat.le_refl _)
  have hto : wordBits 8 (BitVec.ofNat 8 n).toNat = wordBits 8 n := by rw [BitVec.toNat_ofNat]; exact hw8
  induction fuel generalizing n s with
  | zero =>
    have h0 : n / 256 = 0 := by omega
    rw [countBytes_small (by omega)] at hr ⊢
    have hg : groupsBits [BitVec.ofNat 8 n] = wordBits 8 n ++ wordBits 1 1 := by rw [groupsBits, hto]; rfl
    rw [hg] at hr ⊢
    have hsp := room_split hr
    unfold emitGroups
    rw [writeBits_bind _ 8 _ hio hw (by simpa using hsp.1), hsh, if_pos h0, if_pos h0, hw8,
      writeBits_bind _ 1 _ (State.emit_ioFine hio _) (State.emit_writerOk _ _) (by simpa using hsp.2), State.emit_emit]
    rfl
  | succ fuel ih =>
    by_cases h0 : n < 256
    · rw [countBytes_small h0] at hr ⊢
      have hg : groupsBits [BitVec.ofNat 8 n] = wordBits 8 n ++ wordBits 1 1 := by rw [groupsBits, hto]; rfl
      rw [hg] at hr ⊢
      have hsp := room_split hr
      unfold emitGroups
      rw [writeBits_bind _ 8 _ hio hw (by simpa using hsp.1), hsh, if_pos (by omega), if_pos (by omega), hw8,
        writeBits_bind _ 1 _ (State.emit_ioFine hio _) (State.emit_writerOk _ _) (by simpa using hsp.2), State.emit_emit]
      rfl
    · have hne : countBytes (n / 256) ≠ [] := by
        intro h
        have := congrArg List.length h
        simp [countBytes] at this
      have hg : groupsBits (countBytes n) = wordBits 8 n ++ (wordBits 1 0 ++ groupsBits (countBytes (n / 256))) := by
        rw [countBytes_large (by omega)]
        obtain ⟨d, ds, hd⟩ := List.exists_cons_of_ne_nil hne
        rw [hd, groupsBits, hto]
        · rfl
        · exact List.cons_ne_nil d ds
      rw [hg] at hr ⊢
      have h1 := room_split hr
      have h2 := room_split h1.2
      unfold emitGroups
      rw [writeBits_bind _ 8 _ hio hw (by simpa using h1.1), hsh, if_neg (by omega), if_neg (by omega), hw8,
        writeBits_bind _ 1 _ (State.emit_ioFine hio _) (State.emit_writerOk _ _) (by simpa using h2.1),
        ih (n / 256) (by rw [Nat.div_lt_iff_lt_mul (by omega), ← Nat.pow_succ]; exact hn)
          (State.emit_ioFine (State.emit_ioFine hio _) _) (State.emit_writerOk _ _) h2.2
          (Nat.shiftRight_eq_div_pow _ 8) (wordBits_mod 8 8 _ (Nat.le_refl _))
          (by rw [BitVec.toNat_ofNat]; exact wordBits_mod 8 8 _ (Nat.le_refl _)),
        State.emit_emit, State.emit_emit]

/-- EmitCount on a 64-bit count (42_huffman.md R231). -/
theorem emitCount_ok {n : Nat} {s : State} (hn : n < 2 ^ 64) (hio : s.ioFine) (hw : s.u.writerOk)
    (hr : s.room (s.u.bytesFor (groupsBits (countBytes n)).length)) :
    emitCount n s = .ok () (s.emit (groupsBits (countBytes n))) :=
  emitGroups_ok 7 n (by omega) hio hw hr

/-- EmitCode writes the low CLEN bits of CODE (42_huffman.md R232). -/
theorem emitCode_ok (b : Byte) {s : State} (hio : s.ioFine) (hw : s.u.writerOk)
    (hr : s.room (s.u.bytesFor (s.u.codeLen b).toNat)) :
    emitCode b s = .ok () (s.emit (wordBits (s.u.codeLen b).toNat (s.u.codeOf b).toNat)) := by
  unfold emitCode
  rw [Op.units_bind]
  exact writeWide_ok _ _ hio hw hr

/-! ## The code table -/

/-- Setting a code changes no tree. -/
theorem Units.setCode_holds (b id : HId) (c d : Nat) (u : Units) (h : Shape) :
    (Units.setCode b c d u).holds id h = u.holds id h :=
  Units.holds_congr (u := u) (v := Units.setCode b c d u) rfl rfl id h

/-- The code table after the leaves of a tree, in pre-order, set their entries below a path whose bits are `pre`
(42_huffman.md R224). -/
def Units.setCodes (pre : List Bool) (paths : List (Byte × List Bool)) (u : Units) : Units :=
  paths.foldl (fun w vp => w.setCode (vp.1.setWidth 9) (bitsValue (pre ++ vp.2)) (pre.length + vp.2.length)) u

theorem Units.setCodes_append (pre : List Bool) (as bs : List (Byte × List Bool)) (u : Units) :
    Units.setCodes pre (as ++ bs) u = Units.setCodes pre bs (Units.setCodes pre as u) := List.foldl_append

theorem Units.setCodes_cons_bit (pre : List Bool) (b : Bool) (ps : List (Byte × List Bool)) (u : Units) :
    Units.setCodes pre (ps.map fun vp => (vp.1, b :: vp.2)) u = Units.setCodes (pre ++ [b]) ps u := by
  unfold Units.setCodes
  rw [List.foldl_map]
  congr 1
  funext w vp
  show Units.setCode _ (bitsValue (pre ++ (b :: vp.2))) (pre.length + (vp.2.length + 1)) w =
    Units.setCode _ (bitsValue (pre ++ [b] ++ vp.2)) ((pre ++ [b]).length + vp.2.length) w
  rw [List.append_assoc, List.length_append, List.length_singleton, Nat.add_assoc, Nat.add_comm 1]
  rfl

theorem Units.setCodes_holds (pre : List Bool) (ps : List (Byte × List Bool)) (u : Units) (id : HId) (h : Shape) :
    (Units.setCodes pre ps u).holds id h = u.holds id h := by
  induction ps generalizing u with
  | nil => rfl
  | cons vp ps ih =>
    show (Units.setCodes pre ps (u.setCode _ _ _)).holds id h = _
    rw [ih, Units.setCode_holds]

theorem bitsValue_snoc_true (pre : List Bool) : bitsValue (pre ++ [true]) = bitsValue pre ||| (1 <<< pre.length) := by
  rw [bitsValue_append, Nat.or_comm, ← Nat.shiftLeft_add_eq_or_of_lt (bitsValue_lt pre), Nat.shiftLeft_eq]
  simp [bitsValue, Nat.add_comm]

theorem bitsValue_snoc_false (pre : List Bool) : bitsValue (pre ++ [false]) = bitsValue pre := by
  rw [bitsValue_append]
  simp [bitsValue]

/-- Walk gives each leaf below a node its path (42_huffman.md R224). -/
theorem walkCodes_ok (levels : Nat) (id : HId) (h : Shape) (pre : List Bool) {s : State} (hh : s.u.holds id h = true)
    (hd : h.depth ≤ levels) :
    walkCodes levels id (bitsValue pre) pre.length s = .ok () { s with u := Units.setCodes pre h.paths s.u } := by
  induction h generalizing levels id pre s with
  | leaf v =>
    obtain rfl := Units.holds_leaf hh
    have hlt : (v.setWidth 9).toNat < 256 := by rw [toNat_leaf]; exact v.isLt
    unfold walkCodes
    rw [if_pos hlt]
    simp [Shape.paths, Units.setCodes]
  | node l r ihl ihr =>
    obtain ⟨a, b, ha, hb, hl, hr, h256⟩ := Units.holds_node hh
    obtain ⟨n, rfl⟩ : ∃ n, levels = n + 1 := ⟨levels - 1, by simp only [Shape.depth] at hd; omega⟩
    simp only [Shape.depth] at hd
    have h1 := ihl n a (pre ++ [false]) hl (by omega)
    have h2 := ihr n b (pre ++ [true]) (s := { s with u := Units.setCodes (pre ++ [false]) l.paths s.u })
      (by rw [Units.setCodes_holds]; exact hr) (by omega)
    rw [bitsValue_snoc_false, List.length_append, List.length_singleton] at h1
    rw [bitsValue_snoc_true, List.length_append, List.length_singleton] at h2
    unfold walkCodes
    rw [if_neg (by omega)]
    dsimp only
    rw [Op.bind_ok (children_ok ha hb), Op.bind_ok h1]
    refine h2.trans ?_
    simp only [Shape.paths, Units.setCodes_append, Units.setCodes_cons_bit]

/-- DeriveCodes on a tree of depth at most 255 (42_huffman.md R224, R225). -/
theorem deriveCodes_ok (h : Shape) {s : State} (hh : s.u.holds s.u.rootH h = true) (hd : h.depth ≤ Config.maxCode) :
    deriveCodes s = .ok () { s with u := s.u.withCodes h.paths } := by
  have h1 := walkCodes_ok Config.maxCode s.u.rootH h []
    (s := { s with u := { s.u with cvalid := Vector.replicate 256 false } })
    (by rw [← hh]; exact Units.holds_congr (u := s.u) (v := { s.u with cvalid := Vector.replicate 256 false }) rfl rfl _ _)
    hd
  unfold deriveCodes
  rw [Op.setUnits_bind, Op.units_bind]
  refine h1.trans ?_
  simp [Units.setCodes, Units.withCodes]

/-! ## The priority structure -/

/-- Being ahead in the key order (42_huffman.md R223), as a total order on ids. -/
theorem Units.keyLt_iff (u : Units) (x y : HId) : u.keyLt x y = true ↔
    u.weightOf x < u.weightOf y ∨ (u.weightOf x = u.weightOf y ∧ x.toNat < y.toNat) := by
  simp [Units.keyLt]

theorem Units.leastOf_mem (u : Units) (x : HId) (l : List HId) : u.leastOf x l ∈ x :: l := by
  induction l generalizing x with
  | nil => exact List.mem_singleton.mpr rfl
  | cons y l ih =>
    unfold Units.leastOf
    split
    · exact List.mem_cons_of_mem _ (ih y)
    · rcases List.mem_cons.mp (ih x) with h | h
      · rw [h]
        exact List.mem_cons_self
      · exact List.mem_cons_of_mem _ (List.mem_cons_of_mem _ h)

/-- No entry is ahead of the least one. -/
theorem Units.leastOf_le (u : Units) (x : HId) (l : List HId) : ∀ y ∈ x :: l, u.keyLt y (u.leastOf x l) = false := by
  induction l generalizing x with
  | nil =>
    intro y hy
    obtain rfl := List.mem_singleton.mp hy
    simp [Units.leastOf, Units.keyLt]
  | cons z l ih =>
    intro y hy
    unfold Units.leastOf
    split
    · next hz =>
      rcases List.mem_cons.mp hy with rfl | hy
      · have h1 := ih z z List.mem_cons_self
        rw [Bool.eq_false_iff, ne_eq, Units.keyLt_iff] at h1 ⊢
        rw [Units.keyLt_iff] at hz
        omega
      · exact ih z y hy
    · next hz =>
      rcases List.mem_cons.mp hy with rfl | hy
      · exact ih y y List.mem_cons_self
      · rcases List.mem_cons.mp hy with rfl | hy
        · have h1 := ih x x List.mem_cons_self
          rw [Bool.eq_false_iff, ne_eq, Units.keyLt_iff] at h1 ⊢
          rw [Units.keyLt_iff] at hz
          omega
        · exact ih x y (List.mem_cons_of_mem _ hy)

/-- PopMin takes the least entry out (42_huffman.md R223). -/
theorem popMin_cons {s : State} {y : HId} {rest : List HId} (h : s.u.pq = y :: rest) :
    popMin s = .ok (some (s.u.leastOf y rest)) { s with u := { s.u with pq := s.u.pq.erase (s.u.leastOf y rest) } } := by
  obtain ⟨_, _, _, _, _, _, _, _, _, _, _, _, _, _, u, _, _, _⟩ := s
  cases u
  dsimp only at h
  subst h
  rfl

theorem popMin_nil {s : State} (h : s.u.pq = []) : popMin s = .ok none s := by
  unfold popMin
  rw [Op.units_bind, h]
  rfl

/-! ## Parsing and walking -/

theorem State.consume_holds (s : State) (k : Nat) (id : HId) (h : Shape) :
    (s.consume k).u.holds id h = s.u.holds id h :=
  Units.holds_congr (u := s.u) (v := (s.consume k).u) rfl rfl id h

/-- Need(1) on a stream that goes on. -/
theorem need_bit {s : State} {b : Bool} {rest : List Bool} (hio : s.ioFine) (h : s.u.readerOk) (hb : s.inBits = b :: rest) :
    need 1 s = .ok b.toNat (s.consume 1) := by
  rw [need_ok hio h (by rw [hb]; simp), hb]
  simp [bitsValue]

/-- Need(n) on a stream that begins with n given bits. -/
theorem need_bits {s : State} {bs rest : List Bool} (hio : s.ioFine) (h : s.u.readerOk) (hb : s.inBits = bs ++ rest) :
    need bs.length s = .ok (bitsValue bs) (s.consume bs.length) := by
  rw [need_ok hio h (by rw [hb]; simp), hb, List.take_left]

/-- The stream behind bits that are there. -/
theorem State.inBits_after {s : State} {bs rest : List Bool} (h : s.u.readerOk) (hb : s.inBits = bs ++ rest) :
    (s.consume bs.length).inBits = rest := by
  rw [State.consume_inBits h (by rw [hb]; simp), hb, List.drop_left]

/-- The walk of DecodeSymbol along the path of a leaf (42_huffman.md R242). -/
theorem walkSymbol_ok (fuel : Nat) (id : HId) (h : Shape) (path rest : List Bool) (b : Byte) {s : State}
    (hh : s.u.holds id h = true) (hf : h.follow path = some b) (hb : s.inBits = path ++ rest)
    (hl : path.length < fuel) (hio : s.ioFine) (hr : s.u.readerOk) :
    walkSymbol fuel id s = .ok (b.setWidth 9) (s.consume path.length) := by
  induction path generalizing fuel id h s with
  | nil =>
    cases h with
    | node l r => cases hf
    | leaf v =>
      obtain rfl := Units.holds_leaf hh
      obtain rfl : v = b := Option.some.inj hf
      obtain ⟨n, rfl⟩ : ∃ n, fuel = n + 1 := ⟨fuel - 1, by omega⟩
      have hlt : (v.setWidth 9).toNat < 256 := by rw [toNat_leaf]; exact v.isLt
      unfold walkSymbol
      rw [if_pos hlt, List.length_nil, State.consume_zero]
      rfl
  | cons c path ih =>
    cases h with
    | leaf v => cases hf
    | node l r =>
      obtain ⟨x, y, hx, hy, hl', hr', h256⟩ := Units.holds_node hh
      obtain ⟨n, rfl⟩ : ∃ n, fuel = n + 1 := ⟨fuel - 1, by simp at hl; omega⟩
      have hlen : 1 ≤ s.inBits.length := by rw [hb]; simp
      have hb' : (s.consume 1).inBits = path ++ rest := by
        rw [State.consume_inBits hr hlen, hb]; rfl
      have hc : (s.consume 1).consume path.length = s.consume (path.length + 1) := by
        rw [State.consume_consume hr hlen, Nat.add_comm]
      unfold walkSymbol
      rw [if_neg (by omega), Op.bind_ok (children_ok hx hy), Op.bind_ok (need_bit hio hr hb), List.length_cons]
      have hl2 : path.length < n := by simp at hl; omega
      cases c with
      | false =>
        rw [if_pos (show false.toNat = 0 from rfl), ih n x l (by rw [State.consume_holds]; exact hl') hf hb' hl2 (State.consume_ioFine hio 1)
          (State.consume_readerOk hr 1), hc]
      | true =>
        rw [if_neg (by decide), ih n y r (by rw [State.consume_holds]; exact hr') hf hb' hl2 (State.consume_ioFine hio 1)
          (State.consume_readerOk hr 1), hc]

/-- The walk along given bits (30_encoding.md R133). -/
theorem walkBits_ok (id : HId) (h : Shape) (path : List Bool) (b : Byte) {s : State} (hh : s.u.holds id h = true)
    (hf : h.follow path = some b) : walkBits path id s = .ok (b.setWidth 9) s := by
  induction path generalizing id h with
  | nil =>
    cases h with
    | node l r => cases hf
    | leaf v =>
      obtain rfl := Units.holds_leaf hh
      obtain rfl : v = b := Option.some.inj hf
      have hlt : (v.setWidth 9).toNat < 256 := by rw [toNat_leaf]; exact v.isLt
      unfold walkBits
      rw [if_pos hlt]
      rfl
  | cons c path ih =>
    cases h with
    | leaf v => cases hf
    | node l r =>
      obtain ⟨x, y, hx, hy, hl', hr', h256⟩ := Units.holds_node hh
      unfold walkBits
      rw [if_neg (by omega)]
      dsimp only
      rw [Op.bind_ok (children_ok hx hy)]
      cases c with
      | false => exact ih x l hl' hf
      | true => exact ih y r hr' hf

/-- A root that holds a tree is not NIL (10_state.md R41). -/
theorem Units.holds_ne_nilH {u : Units} {id : HId} {h : Shape} (hh : u.holds id h = true) : id ≠ nilH := by
  rintro rfl
  cases h with
  | leaf v =>
    have hv := v.isLt
    have h511 := congrArg BitVec.toNat (Units.holds_leaf hh)
    rw [toNat_leaf, show nilH.toNat = 511 from rfl] at h511
    omega
  | node l r =>
    obtain ⟨a, _, ha, _⟩ := Units.holds_node hh
    have hn : ¬ (nilH.toNat - 256 < 255) := by decide
    simp [Units.leftOf, hn] at ha

/-- A code carried out writes its leaf's byte (42_huffman.md R242). -/
theorem doCode_ok (h : Shape) (path : List Bool) (b : Byte) {s : State} (hh : s.u.holds s.u.rootH h = true)
    (hf : h.follow path = some b) (hio : s.ioFine) (hroom : s.room 1) : doCode path s = .ok () (s.putByte b) := by
  unfold doCode
  rw [Op.units_bind, if_neg (Units.holds_ne_nilH hh), Op.bind_ok (walkBits_ok _ h path b hh hf)]
  have hv : (b.setWidth 9).setWidth 8 = b := by ext i; simp
  rw [hv]
  exact sinkWrite_ok hio hroom.2 b

/-- A code carried out with no tree raises STATE_ERROR (log 14). -/
theorem doCode_nil (bits : List Bool) {s : State} (h : s.u.rootH = nilH) :
    doCode bits s = .error (.raised .stateError) s := by
  unfold doCode
  rw [Op.units_bind, if_pos h]
  rfl

/-- DecodeSymbol writes the leaf's byte (42_huffman.md R242). -/
theorem decodeSymbol_ok (h : Shape) (path rest : List Bool) (b : Byte) {s : State}
    (hh : s.u.holds s.u.rootH h = true) (hf : h.follow path = some b) (hb : s.inBits = path ++ rest)
    (hio : s.ioFine) (hr : s.u.readerOk) (hroom : s.room 1) :
    decodeSymbol s = .ok b.toNat ((s.consume path.length).putByte b) := by
  have hl : path.length ≤ s.bitsLeft := by
    have := s.length_inBits hr
    rw [hb, List.length_append] at this
    show _ ≤ s.u.rcnt.toNat + 8 * (s.slen.toNat - s.ipos.toNat)
    omega
  unfold decodeSymbol
  rw [Op.units_bind, Op.bind_ok (show streamBound s = .ok (s.bitsLeft + 1) s from rfl),
    Op.bind_ok (walkSymbol_ok _ _ h path rest b hh hf hb (by omega) hio hr),
    Op.bind_ok (sinkWrite_ok (State.consume_ioFine hio _) (by have := hroom.2; exact this) _)]
  have hv : (b.setWidth 9).setWidth 8 = b := by ext i; simp
  rw [hv, Op.pure_run, toNat_leaf]

/-- A leaf token at the head of the stream (42_huffman.md R240). -/
theorem parseNodeToken_leaf (v : Byte) (rest : List Bool) {s : State} (hio : s.ioFine) (hr : s.u.readerOk)
    (hb : s.inBits = (Shape.leaf v).bits ++ rest) :
    parseNodeToken s = .ok () { s.consume 9 with
      u := attachNode (v.setWidth 9) s.u.parseStack (s.consume 9).u } := by
  have h1 : s.inBits = true :: (wordBits 8 v.toNat ++ rest) := hb
  have hlen : 1 ≤ s.inBits.length := by rw [h1]; simp
  have h2 : (s.consume 1).inBits = wordBits 8 v.toNat ++ rest := by rw [State.consume_inBits hr hlen, h1]; rfl
  have h3 := need_bits (State.consume_ioFine hio 1) (State.consume_readerOk hr 1) h2
  rw [length_wordBits, bitsValue_wordBits, State.consume_consume hr hlen] at h3
  have hv : BitVec.ofNat 8 (v.toNat % 2 ^ 8) = v := by
    rw [Nat.mod_eq_of_lt v.isLt, BitVec.ofNat_toNat]; rfl
  unfold parseNodeToken
  rw [Op.bind_ok (need_bit hio hr h1)]
  show (if true.toNat = 1 then _ else _ : Op Unit) _ = _
  rw [if_pos (show true.toNat = 1 from rfl), Op.bind_ok h3, hv]
  rfl

/-- An internal-node token at the head of the stream, with an id left for it (42_huffman.md R240). -/
theorem parseNodeToken_internal (rest : List Bool) {s : State} (hio : s.ioFine) (hr : s.u.readerOk)
    (hb : s.inBits = false :: rest) (hn : s.u.nextH ≠ 511) :
    parseNodeToken s = .ok () { s.consume 1 with u := { (s.consume 1).u with
      nextH := s.u.nextH + 1, parseStack := .left (s.u.nextH.setWidth 9) :: s.u.parseStack } } := by
  unfold parseNodeToken
  rw [Op.bind_ok (need_bit hio hr hb)]
  show (if false.toNat = 1 then _ else _ : Op Unit) _ = _
  rw [if_neg (by decide)]
  unfold doTreeInternal
  rw [Op.units_bind, if_neg (show ¬ (s.consume 1).u.nextH = 511 from hn)]
  rfl

/-- A count group at the head of the stream, its data 0 from index 8 on (42_huffman.md R241). -/
theorem parseCountToken_ok (d : Byte) (last : Bool) (rest : List Bool) {s : State} (hio : s.ioFine) (hr : s.u.readerOk)
    (hb : s.inBits = wordBits 8 d.toNat ++ last :: rest) (hz : 8 ≤ s.u.cntIdx → d = 0) :
    parseCountToken s = .ok () { s.consume 9 with u := { (s.consume 9).u with
      cntAcc := if s.u.cntIdx < 8 then s.u.cntAcc ||| BitVec.ofNat 64 (d.toNat <<< (8 * s.u.cntIdx)) else s.u.cntAcc
      cntIdx := s.u.cntIdx + 1
      cntDone := last } } := by
  have hlen : 8 ≤ s.inBits.length := by rw [hb]; simp
  have h1 := need_bits hio hr hb
  have h2 := State.inBits_after hr hb
  rw [length_wordBits] at h1 h2
  have h3 := need_bit (State.consume_ioFine hio 8) (State.consume_readerOk hr 8) h2
  rw [State.consume_consume hr hlen] at h3
  have hv : BitVec.ofNat 8 (bitsValue (wordBits 8 d.toNat)) = d := by
    rw [bitsValue_wordBits, Nat.mod_eq_of_lt d.isLt, BitVec.ofNat_toNat]; rfl
  have hl : (last.toNat == 1) = last := by cases last <;> rfl
  unfold parseCountToken
  rw [Op.bind_ok h1, Op.bind_ok h3, hv, hl]
  unfold doCountGroup
  rw [Op.units_bind, if_neg (by rintro ⟨h8, hne⟩; exact hne (hz h8))]
  rfl

end Sys2Proof.Machine
end

