-- ==== Sys2Proof/Laws/Lzss.lean ====
section
/-! SUPPORT. What the shared operations of the LZSS units do: tokens written, tokens read, bytes copied. -/

namespace Sys2Proof

/-! ## Fields of a token -/

/-- A field that is there: the value of its bits, and the rest. -/
theorem takeField_ok {n : Nat} {bs : List Bool} (h : n ≤ bs.length) :
    takeField n bs = some (Machine.bitsValue (bs.take n), bs.drop n) := by
  induction n generalizing bs with
  | zero => simp [takeField, Machine.bitsValue]
  | succ n ih =>
    cases bs with
    | nil => simp at h
    | cons b bs =>
      rw [takeField, ih (by simpa using h)]
      rfl

theorem takeField_none {n : Nat} {bs : List Bool} (h : bs.length < n) : takeField n bs = none := by
  induction n generalizing bs with
  | zero => omega
  | succ n ih =>
    cases bs with
    | nil => rfl
    | cons b bs => rw [takeField, ih (by simpa using h)]

/-- A field taken was there. -/
theorem of_takeField {n v : Nat} {bs rest : List Bool} (h : takeField n bs = some (v, rest)) :
    n ≤ bs.length ∧ v = Machine.bitsValue (bs.take n) ∧ rest = bs.drop n := by
  by_cases hn : n ≤ bs.length
  · rw [takeField_ok hn] at h
    cases h
    exact ⟨hn, rfl, rfl⟩
  · rw [takeField_none (by omega)] at h
    cases h

namespace Machine

/-! ## Writing tokens -/

/-- EmitLiteral writes the literal token (44_lzss_coder.md R330). -/
theorem emitLiteral_ok (b : Byte) {s : State} (hio : s.ioFine) (hw : s.u.writerOk) (hr : s.room (s.u.bytesFor 9)) :
    emitLiteral b s = .ok () (s.emit (tokenBits s.params (.lzLiteral b))) := by
  have hsp := room_split (a := wordBits 1 1) (b := wordBits 8 b.toNat) (s := s) (by simpa using hr)
  unfold emitLiteral
  rw [writeBits_bind 1 1 _ hio hw (by simpa using hsp.1),
    writeBits_ok _ _ (State.emit_ioFine hio _) (State.emit_writerOk _ _) (by simpa using hsp.2), State.emit_emit]
  rfl

/-- EmitSentinel writes the end token (44_lzss_coder.md R332). -/
theorem emitSentinel_ok (p : Pos) {s : State} (hio : s.ioFine) (hw : s.u.writerOk) (hr : s.room (s.u.bytesFor 13)) :
    emitSentinel p.toNat s = .ok () (s.emit (tokenBits s.params (.lzEnd p))) := by
  have hsp := room_split (a := wordBits 1 0) (b := wordBits Config.M p.toNat) (s := s) (by simpa [Config.M] using hr)
  unfold emitSentinel
  rw [writeBits_bind 0 1 _ hio hw (by simpa using hsp.1),
    writeBits_ok _ _ (State.emit_ioFine hio _) (State.emit_writerOk _ _) (by simpa using hsp.2), State.emit_emit]
  rfl

/-- EmitReference writes the reference token with length field e (44_lzss_coder.md R331). -/
theorem emitReference_ok (p : Pos) (e : Nat) {s : State} (hio : s.ioFine) (hw : s.u.writerOk)
    (hr : s.room (s.u.bytesFor (13 + s.params.lzN))) :
    emitReference p.toNat (e + s.params.minLen) s = .ok () (s.emit (tokenBits s.params (.lzReference p e))) := by
  have h1 := room_split (a := wordBits 1 0) (b := wordBits Config.M p.toNat ++ wordBits s.params.lzN e) (s := s)
    (by simpa [Config.M, Nat.add_assoc, Nat.add_comm, Nat.add_left_comm] using hr)
  have h2 := room_split h1.2
  unfold emitReference
  rw [Op.params_bind, writeBits_bind 0 1 _ hio hw (by simpa using h1.1),
    writeBits_bind _ _ _ (State.emit_ioFine hio _) (State.emit_writerOk _ _) (by simpa using h2.1), Nat.add_sub_cancel,
    writeBits_ok _ _ (State.emit_ioFine (State.emit_ioFine hio _) _) (State.emit_writerOk _ _) (by simpa using h2.2),
    State.emit_emit, State.emit_emit]
  rfl

/-! ## Reading tokens -/

/-- Fetching a token is the stream decoder at the cursor (44_lzss_coder.md R351, 30_encoding.md R137). -/
theorem fetchToken_ok {k : LzToken} {rest : List Bool} {s : State} (hio : s.ioFine) (hr : s.u.readerOk)
    (h : decodeToken (.lz s.params.lzN s.u.dcur) s.inBits = .ok (k.instr, rest)) :
    fetchToken s = .ok k (s.consume (s.inBits.length - rest.length)) := by
  cases hb : s.inBits with
  | nil => rw [hb] at h; cases h
  | cons f tl =>
    have hlen : 1 ≤ s.inBits.length := by rw [hb]; simp
    have h1 : (s.consume 1).inBits = tl := by rw [State.consume_inBits hr hlen, hb]; rfl
    have hio1 := State.consume_ioFine hio 1
    have hr1 := State.consume_readerOk hr 1
    unfold fetchToken
    rw [Op.bind_ok (need_bit hio hr hb)]
    rw [hb] at h
    cases f with
    | true =>
      rw [if_pos (show true.toNat = 1 from rfl)]
      unfold decodeToken at h
      dsimp only at h
      split at h
      swap
      · cases h
      · next v r hv =>
        obtain ⟨h8, rfl, rfl⟩ := of_takeField hv
        have hk : k.instr = .lzLiteral (BitVec.ofNat 8 (bitsValue (tl.take 8))) := by injection h with h; injection h with h _; exact h.symm
        have hrest : rest = tl.drop 8 := by injection h with h; injection h with _ h; exact h.symm
        have hkk : k = .literal (BitVec.ofNat 8 (bitsValue (tl.take 8))) := by
          cases k <;> simp_all [LzToken.instr]
        rw [Op.bind_ok (need_ok hio1 hr1 (by rw [h1]; exact h8)), h1, State.consume_consume hr hlen, hkk, hrest]
        rw [show (true :: tl).length - (tl.drop 8).length = 1 + 8 by simp; omega]
        rfl
    | false =>
      rw [if_neg (by decide)]
      unfold decodeToken at h
      dsimp only at h
      split at h
      · cases h
      · next v r hv =>
        obtain ⟨h12, rfl, rfl⟩ := of_takeField hv
        rw [Op.bind_ok (need_ok hio1 hr1 (by rw [h1]; exact h12)), h1, Op.units_bind]
        have hc := State.consume_consume hr hlen Config.M
        have h2 : ((s.consume 1).consume Config.M).inBits = tl.drop Config.M := by
          rw [State.consume_inBits hr1 (by rw [h1]; exact h12), h1]
        have hd : ((s.consume 1).consume Config.M).u.dcur = s.u.dcur := rfl
        by_cases hcur : BitVec.ofNat 12 (bitsValue (tl.take Config.M)) = s.u.dcur
        · rw [if_pos hcur] at h
          rw [hd, if_pos hcur, hc, hcur]
          have hk : k.instr = .lzEnd s.u.dcur := by injection h with h; injection h with h _; exact h.symm
          have hrest : rest = tl.drop Config.M := by injection h with h; injection h with _ h; exact h.symm
          have hkk : k = .endToken s.u.dcur := by cases k <;> simp_all [LzToken.instr]
          rw [hkk, hrest, show (false :: tl).length - (tl.drop Config.M).length = 1 + Config.M by simp; omega]
          rfl
        · rw [if_neg hcur] at h
          rw [hd, if_neg hcur]
          split at h
          swap
          · cases h
          · next e r he =>
            obtain ⟨hn, rfl, rfl⟩ := of_takeField he
            have hk : k.instr = .lzReference (BitVec.ofNat 12 (bitsValue (tl.take Config.M)))
                (bitsValue ((tl.drop Config.M).take s.params.lzN)) := by
              injection h with h; injection h with h _; exact h.symm
            have hrest : rest = (tl.drop Config.M).drop s.params.lzN := by
              injection h with h; injection h with _ h; exact h.symm
            have hkk : k = .reference (BitVec.ofNat 12 (bitsValue (tl.take Config.M)))
                (bitsValue ((tl.drop Config.M).take s.params.lzN)) := by cases k <;> simp_all [LzToken.instr]
            rw [Op.params_bind]
            have hp : ((s.consume 1).consume Config.M).params = s.params := rfl
            rw [hp, Op.bind_ok (need_ok (State.consume_ioFine hio1 _) (State.consume_readerOk hr1 _) (by rw [h2]; exact hn)),
              h2, hc, State.consume_consume hr (by rw [hb]; simp; omega), hkk, hrest,
              show (false :: tl).length - ((tl.drop Config.M).drop s.params.lzN).length = 1 + Config.M + s.params.lzN by
                simp at hn ⊢; omega]
            rfl

/-! ## Decoded bytes -/

/-- A byte decoded at a slot that is no member (44_lzss_coder.md R351). -/
theorem outputByte_ok (b : Byte) {s : State} (hio : s.ioFine) (hr : s.room 1) (hm : s.u.isMember s.u.dcur = false) :
    outputByte b s = .ok () (s.decoded b) := by
  have hm' : ¬ (s.putByte b).u.isMember (s.putByte b).u.dcur = true := by
    show ¬ s.u.isMember s.u.dcur = true
    rw [hm]
    decide
  unfold outputByte
  rw [Op.bind_ok (sinkWrite_ok hio (by have := hr.2; exact this) b), Op.units_bind]
  unfold winPut
  rw [Op.bind_ok (a := ()) (t := { s.putByte b with u := s.u.winWr s.params s.u.dcur b })]
  · rfl
  · rw [Op.units_bind, if_neg hm']
    rfl

/-- A byte decoded on a member's slot faults after it went to the sink (44_lzss_coder.md R354). -/
theorem outputByte_member (b : Byte) {s : State} (hio : s.ioFine) (hr : s.room 1) (hm : s.u.isMember s.u.dcur = true) :
    outputByte b s = .error (.raised .stateError) (s.putByte b) := by
  have hm' : (s.putByte b).u.isMember (s.putByte b).u.dcur = true := hm
  unfold outputByte
  rw [Op.bind_ok (sinkWrite_ok hio (by have := hr.2; exact this) b), Op.units_bind]
  unfold winPut
  rw [Op.bind_error (e := .raised .stateError) (t := s.putByte b)]
  rw [Op.units_bind, if_pos hm']
  rfl

/-- One round of the copy: a byte read at its place is decoded, and the copy goes on one place further
(44_lzss_coder.md R353). -/
theorem copyLoop_step (more : Nat) (pos : Pos) {b : Byte} {s : State} (hb : Memory.get s.u.window pos.toNat = some b)
    (hio : s.ioFine) (hr : s.room 1) (hm : s.u.isMember s.u.dcur = false) :
    copyLoop (more + 1) pos s = copyLoop more (pos + 1) (s.decoded b) := by
  have hrd : winRd pos.toNat s = .ok b s := by unfold winRd; rw [hb]
  rw [copyLoop, Op.bind_ok hrd, Op.bind_ok (outputByte_ok b hio hr hm)]

/-- A copy from a slot never written faults with nothing written (44_lzss_coder.md R354). -/
theorem copyLoop_unwritten (more : Nat) (pos : Pos) {s : State} (hb : s.u.written pos.toNat = false) :
    copyLoop (more + 1) pos s = .error (.raised .uninitRead) s := by
  have hn : Memory.get s.u.window pos.toNat = none := by
    unfold Units.written at hb
    exact Option.not_isSome_iff_eq_none.mp (by rw [hb]; decide)
  have hrd : winRd pos.toNat s = .error (.raised .uninitRead) s := by unfold winRd; rw [hn]
  rw [copyLoop, Op.bind_error hrd]

@[simp] theorem State.decoded_params (s : State) (b : Byte) : (s.decoded b).params = s.params := rfl
@[simp] theorem State.decoded_dcur (s : State) (b : Byte) : (s.decoded b).u.dcur = s.u.dcur + 1 := rfl
@[simp] theorem State.decoded_opos (s : State) (b : Byte) : (s.decoded b).opos = s.opos + 1 := rfl
@[simp] theorem State.decoded_isMember (s : State) (b : Byte) (p : Pos) : (s.decoded b).u.isMember p = s.u.isMember p := rfl

theorem State.decoded_ioFine {s : State} (h : s.ioFine) (b : Byte) : (s.decoded b).ioFine :=
  fun d hd => h d (List.mem_of_mem_drop hd)

theorem State.decoded_room {s : State} {n : Nat} (h : s.room (n + 1)) (b : Byte) : (s.decoded b).room n := by
  have h1 := h.1
  have h2 := h.2
  refine ⟨h1, ?_⟩
  show (s.opos + 1).toNat + n ≤ s.params.outSize
  have hv : (s.opos + 1).toNat = s.opos.toNat + 1 := by
    rw [BitVec.toNat_add]
    exact Nat.mod_eq_of_lt (by show s.opos.toNat + 1 < 2 ^ 64; omega)
  omega

end Machine

end Sys2Proof
end

