-- ==== Sys2Proof/Laws/PerInstr.lean ====
section
/-! SUPPORT. The per-instruction family EncodedForm: what kind of encoding each instruction has, one lemma per constructor. -/

namespace Sys2Proof.Laws.EncodedForm

/-- A command is encoded as a word whose bits above the opcode are 0 (30_encoding.md R120); a token is encoded as 1 to
24 bits, or, for a code, as its own branch bits, at most 255 (R131 to R136, 00_scope.md R16). -/
def Statement (i : Instr) : Prop :=
  ∀ P : Config.Params, P.wf → wellFormed P i = true →
    match encode P i with
    | .command w => i.isToken = false ∧ w.cmd.toNat < 256
    | .token bits => i.isToken = true ∧ bits.length ≤ Config.maxCode ∧ (bits.length ≤ 24 ∨ i = .hufCode bits)

theorem blkNop : Statement .blkNop := fun _ _ _ => ⟨rfl, by decide⟩
theorem blkReset : Statement .blkReset := fun _ _ _ => ⟨rfl, by decide⟩
theorem blkStreamInit : Statement .blkStreamInit := fun _ _ _ => ⟨rfl, by decide⟩
theorem bswWriteBits (v c f : Word) : Statement (.bswWriteBits v c f) :=
  fun _ _ _ => ⟨rfl, by show (0x10 : Word).toNat < 256; decide⟩
theorem bsrReadBits (c r : Word) : Statement (.bsrReadBits c r) :=
  fun _ _ _ => ⟨rfl, by show (0x20 : Word).toNat < 256; decide⟩
theorem htbClearWeights : Statement .htbClearWeights := fun _ _ _ => ⟨rfl, by decide⟩
theorem htbCountByte (b : Word) : Statement (.htbCountByte b) :=
  fun _ _ _ => ⟨rfl, by show (0x31 : Word).toNat < 256; decide⟩
theorem htbBuildTree : Statement .htbBuildTree := fun _ _ _ => ⟨rfl, by decide⟩
theorem htbDeriveCodes : Statement .htbDeriveCodes := fun _ _ _ => ⟨rfl, by decide⟩
theorem hencEncode : Statement .hencEncode := fun _ _ _ => ⟨rfl, by decide⟩
theorem hencEmitTree : Statement .hencEmitTree := fun _ _ _ => ⟨rfl, by decide⟩
theorem hencEmitCount (n : Word) : Statement (.hencEmitCount n) :=
  fun _ _ _ => ⟨rfl, by show (0x42 : Word).toNat < 256; decide⟩
theorem hencEmitCode (b : Word) : Statement (.hencEmitCode b) :=
  fun _ _ _ => ⟨rfl, by show (0x43 : Word).toNat < 256; decide⟩
theorem hdecDecode : Statement .hdecDecode := fun _ _ _ => ⟨rfl, by decide⟩
theorem hdecParseTree : Statement .hdecParseTree := fun _ _ _ => ⟨rfl, by decide⟩
theorem hdecParseCount : Statement .hdecParseCount := fun _ _ _ => ⟨rfl, by decide⟩
theorem hdecDecodeSymbol : Statement .hdecDecodeSymbol := fun _ _ _ => ⟨rfl, by decide⟩
theorem winClear : Statement .winClear := fun _ _ _ => ⟨rfl, by decide⟩
theorem winWrite (k b : Word) : Statement (.winWrite k b) :=
  fun _ _ _ => ⟨rfl, by show (0x61 : Word).toNat < 256; decide⟩
theorem winRead (k : Word) : Statement (.winRead k) :=
  fun _ _ _ => ⟨rfl, by show (0x62 : Word).toNat < 256; decide⟩
theorem dictClear : Statement .dictClear := fun _ _ _ => ⟨rfl, by decide⟩
theorem dictRemove (p : Word) : Statement (.dictRemove p) :=
  fun _ _ _ => ⟨rfl, by show (0x71 : Word).toNat < 256; decide⟩
theorem mfMatchAdd (p n : Word) : Statement (.mfMatchAdd p n) :=
  fun _ _ _ => ⟨rfl, by show (0x80 : Word).toNat < 256; decide⟩
theorem lencEncode : Statement .lencEncode := fun _ _ _ => ⟨rfl, by decide⟩
theorem lencEmitLiteral (b : Word) : Statement (.lencEmitLiteral b) :=
  fun _ _ _ => ⟨rfl, by show (0x91 : Word).toNat < 256; decide⟩
theorem lencEmitReference (p n : Word) : Statement (.lencEmitReference p n) :=
  fun _ _ _ => ⟨rfl, by show (0x92 : Word).toNat < 256; decide⟩
theorem lencEmitSentinel (p : Word) : Statement (.lencEmitSentinel p) :=
  fun _ _ _ => ⟨rfl, by show (0x93 : Word).toNat < 256; decide⟩
theorem ldecDecode : Statement .ldecDecode := fun _ _ _ => ⟨rfl, by decide⟩
theorem ldecDecodeToken : Statement .ldecDecodeToken := fun _ _ _ => ⟨rfl, by decide⟩
theorem ldecInit : Statement .ldecInit := fun _ _ _ => ⟨rfl, by decide⟩
theorem bswFlush : Statement .bswFlush := fun _ _ _ => ⟨rfl, by decide⟩

theorem hufTreeLeaf (v : Byte) : Statement (.hufTreeLeaf v) := fun _ _ _ =>
  ⟨rfl, by simp [Config.maxCode], .inl (by simp)⟩
theorem hufTreeInternal : Statement .hufTreeInternal := fun _ _ _ =>
  ⟨rfl, by decide, .inl (by decide)⟩
theorem hufCountGroup (d : Byte) (last : Bool) : Statement (.hufCountGroup d last) := fun _ _ _ =>
  ⟨rfl, by simp [Config.maxCode], .inl (by simp)⟩
theorem hufCode (bits : List Bool) : Statement (.hufCode bits) := fun _ _ h =>
  ⟨rfl, of_decide_eq_true h, .inr rfl⟩
theorem lzLiteral (b : Byte) : Statement (.lzLiteral b) := fun _ _ _ =>
  ⟨rfl, by simp [Config.maxCode], .inl (by simp)⟩
theorem lzReference (p : Pos) (e : Nat) : Statement (.lzReference p e) := by
  intro P hP _
  have h11 : P.lzN ≤ 11 := hP.1.2
  have hl : (false :: (wordBits Config.M p.toNat ++ wordBits P.lzN e)).length = 13 + P.lzN := by
    simp [Config.M]; omega
  exact ⟨rfl, by rw [hl]; simp only [Config.maxCode]; omega, .inl (by rw [hl]; omega)⟩
theorem lzEnd (p : Pos) : Statement (.lzEnd p) := fun _ _ _ =>
  ⟨rfl, by simp [Config.maxCode, Config.M], .inl (by simp [Config.M])⟩

end Sys2Proof.Laws.EncodedForm
end

