-- ==== Sys2Proof/Tests/Slice0.lean ====
section
/-! SUPPORT. The model's own tests: ill-formed terms refused, words written out from the spec's encodings, one-step vectors of 95_test_vectors.md, and a witness for the hypotheses of every statement. -/

namespace Sys2Proof.Tests

open Sys2Proof Sys2Proof.Machine

set_option Elab.async false

/-! ## Helpers -/

/-- Whether an outcome is a next state with a property. -/
def nextHas (o : Host.Outcome State Fault Refusal) (p : State → Bool) : Bool :=
  match o with
  | .next t => p t
  | _ => false

/-- The next state a `nextHas` speaks of. -/
theorem of_nextHas {o : Host.Outcome State Fault Refusal} {p : State → Bool} (h : nextHas o p = true) :
    ∃ t, o = .next t ∧ p t = true := by
  cases o with
  | next t => exact ⟨t, rfl, h⟩
  | fault f => cases h
  | refused r => cases h

/-- The default length field with 64-byte memories, after power-on. -/
def small : State := { State.reset with params := { lzN := 4, srcSize := 64, outSize := 64 } }

/-- Cells of consecutive addresses. -/
def cellsFrom : Nat → List Nat → Memory
  | _, [] => []
  | k, b :: bs => (k, BitVec.ofNat 8 b) :: cellsFrom (k + 1) bs

/-- `small` with a source. -/
def withSource (bytes : List Nat) : State := { small with src := cellsFrom 0 bytes, slen := BitVec.ofNat 64 bytes.length }

/-- `small` with a window filled from slot 0 on. -/
def withWindow (bytes : List Nat) : State :=
  { small with u := { Units.powerOn with window := cellsFrom 0 bytes ++ cellsFrom 4096 (bytes.take 17) } }

/-- The same state with another unit state. -/
def mapUnits (f : Units → Units) (s : State) : State := { s with u := f s.u }

/-- The tree of "ABRA": 257 = (A, 256), 256 = (B, R) (42_huffman.md R222, program P1). -/
def abraTree (u : Units) : Units :=
  { Units.setRightH 0x101 0x100 (Units.setLeftH 0x101 0x41
      (Units.setRightH 0x100 0x52 (Units.setLeftH 0x100 0x42 u))) with rootH := 0x101, nextH := 258 }

/-- The shape of `abraTree`. -/
def abraShape : Shape := .node (.leaf 0x41) (.node (.leaf 0x42) (.leaf 0x52))

/-- The weights of "ABRA" (program P1). -/
def abraWeights (u : Units) : Units := Units.addWeight 0x41 (Units.addWeight 0x52 (Units.addWeight 0x42 (Units.addWeight 0x41 u)))

/-- Position 0 as the one member, first byte A. -/
def oneMember (u : Units) : Units := Units.setMember 0 true (Units.setRoot 0x41 (some 0) u)

/-- A member q below a member p. -/
def below (p q : Pos) (left : Bool) (u : Units) : Units :=
  Units.setMember q true (Units.setParent q (some p)
    (if left then Units.setLeftD p (some q) u else Units.setRightD p (some q) u))

/-- The dictionary of vector MF-1: 0(3(9, 12), 6) over "AM.AF.AT.AC.AH.AP.". -/
def mf1 : State :=
  mapUnits (fun u => below 3 12 false (below 3 9 true (below 0 6 false (below 0 3 true (oneMember u)))))
    (withWindow [0x41, 0x4D, 0x2E, 0x41, 0x46, 0x2E, 0x41, 0x54, 0x2E, 0x41, 0x43, 0x2E, 0x41, 0x48, 0x2E, 0x41, 0x50, 0x2E])

/-- OUT's cells from 0 on, OLEN and STATUS = done (10_state.md R64, R68). -/
def wrote (bytes : List Nat) (t : State) : Bool :=
  t.out == cellsFrom 0 bytes && t.olen == BitVec.ofNat 64 bytes.length && t.readReg 6 == 1

/-! ## Ill-formed terms are refused -/

theorem test_wf_refuses_the_flush_words : wellFormed Config.Params.default (.bswWriteBits 0 0 1) = false := by decide
theorem test_wf_admits_other_writes : wellFormed Config.Params.default (.bswWriteBits 0 0 0) = true := by decide
theorem test_wf_refuses_a_code_of_256_bits :
    wellFormed Config.Params.default (.hufCode (List.replicate 256 true)) = false := by decide +kernel
theorem test_wf_admits_a_code_of_255_bits :
    wellFormed Config.Params.default (.hufCode (List.replicate 255 true)) = true := by decide +kernel
theorem test_wf_refuses_a_length_field_of_16 : wellFormed Config.Params.default (.lzReference 3 16) = false := by decide
theorem test_wf_admits_a_length_field_of_15 : wellFormed Config.Params.default (.lzReference 3 15) = true := by decide

/-! ## Every constructor's word, written out from 30_encoding.md R121, R131 to R136, R151 -/

theorem test_decode_blk :
    decodeCommand ⟨0x00, 1, 2, 3⟩ = .ok .blkNop ∧ decodeCommand ⟨0x01, 1, 2, 3⟩ = .ok .blkReset ∧
    decodeCommand ⟨0x02, 1, 2, 3⟩ = .ok .blkStreamInit := by decide

theorem test_decode_bit_streams :
    decodeCommand ⟨0x10, 5, 3, 1⟩ = .ok (.bswWriteBits 5 3 1) ∧ decodeCommand ⟨0x10, 0, 0, 1⟩ = .ok .bswFlush ∧
    decodeCommand ⟨0x20, 32, 1, 9⟩ = .ok (.bsrReadBits 32 1) := by decide

theorem test_decode_huffman_builder :
    decodeCommand ⟨0x30, 1, 2, 3⟩ = .ok .htbClearWeights ∧ decodeCommand ⟨0x31, 0x41, 2, 3⟩ = .ok (.htbCountByte 0x41) ∧
    decodeCommand ⟨0x32, 1, 2, 3⟩ = .ok .htbBuildTree ∧ decodeCommand ⟨0x33, 1, 2, 3⟩ = .ok .htbDeriveCodes := by decide

theorem test_decode_huffman_encoder :
    decodeCommand ⟨0x40, 1, 2, 3⟩ = .ok .hencEncode ∧ decodeCommand ⟨0x41, 1, 2, 3⟩ = .ok .hencEmitTree ∧
    decodeCommand ⟨0x42, 4, 2, 3⟩ = .ok (.hencEmitCount 4) ∧ decodeCommand ⟨0x43, 0x42, 2, 3⟩ = .ok (.hencEmitCode 0x42) := by
  decide

theorem test_decode_huffman_decoder :
    decodeCommand ⟨0x50, 1, 2, 3⟩ = .ok .hdecDecode ∧ decodeCommand ⟨0x51, 1, 2, 3⟩ = .ok .hdecParseTree ∧
    decodeCommand ⟨0x52, 1, 2, 3⟩ = .ok .hdecParseCount ∧ decodeCommand ⟨0x53, 1, 2, 3⟩ = .ok .hdecDecodeSymbol := by
  decide

theorem test_decode_window_and_dictionary :
    decodeCommand ⟨0x60, 1, 2, 3⟩ = .ok .winClear ∧ decodeCommand ⟨0x61, 3, 0x5A, 9⟩ = .ok (.winWrite 3 0x5A) ∧
    decodeCommand ⟨0x62, 4099, 2, 3⟩ = .ok (.winRead 4099) ∧ decodeCommand ⟨0x70, 1, 2, 3⟩ = .ok .dictClear ∧
    decodeCommand ⟨0x71, 6, 2, 3⟩ = .ok (.dictRemove 6) ∧ decodeCommand ⟨0x80, 2, 6, 9⟩ = .ok (.mfMatchAdd 2 6) := by
  decide

theorem test_decode_lzss_coder :
    decodeCommand ⟨0x90, 1, 2, 3⟩ = .ok .lencEncode ∧ decodeCommand ⟨0x91, 0x41, 2, 3⟩ = .ok (.lencEmitLiteral 0x41) ∧
    decodeCommand ⟨0x92, 4095, 17, 9⟩ = .ok (.lencEmitReference 4095 17) ∧
    decodeCommand ⟨0x93, 8, 2, 3⟩ = .ok (.lencEmitSentinel 8) ∧ decodeCommand ⟨0xA0, 1, 2, 3⟩ = .ok .ldecDecode ∧
    decodeCommand ⟨0xA1, 1, 2, 3⟩ = .ok .ldecDecodeToken ∧ decodeCommand ⟨0xA2, 1, 2, 3⟩ = .ok .ldecInit := by decide

theorem test_decode_illegal_words :
    decodeCommand ⟨0x03, 0, 0, 0⟩ = .error .illegalOpcode ∧ decodeCommand ⟨0xA3, 0, 0, 0⟩ = .error .illegalOpcode ∧
    decodeCommand ⟨0x100, 0, 0, 0⟩ = .error .reservedBits := by decide

/-- The first bits of the stream of "ABRACADABRA" (42_huffman.md R230): an internal node, then the leaf A. -/
theorem test_decode_tree_tokens :
    decodeToken .hufTree [false, true] = .ok (.hufTreeInternal, [true]) ∧
    decodeToken .hufTree [true, true, false, false, false, false, false, true, false] = .ok (.hufTreeLeaf 0x41, []) ∧
    decodeToken .hufTree [true, true, false, false] = .error .truncated := by decide

theorem test_decode_count_and_code_tokens :
    decodeToken .hufCount [false, true, false, true, false, false, false, false, true] = .ok (.hufCountGroup 0x0A true, []) ∧
    decodeToken .hufCount [true, true, true, true, true, true, true, true, false] = .ok (.hufCountGroup 0xFF false, []) ∧
    decodeToken (.hufCode 3) [true, false, true, true] = .ok (.hufCode [true, false, true], [true]) := by decide

theorem test_decode_lzss_tokens :
    decodeToken (.lz 4 0) [true, true, false, false, false, false, false, true, false] = .ok (.lzLiteral 0x41, []) ∧
    decodeToken (.lz 4 2)
      [false, false, false, false, false, false, false, false, false, false, false, false, false,
       false, false, true, false] = .ok (.lzReference 0 4, []) ∧
    decodeToken (.lz 4 8)
      [false, false, false, false, true, false, false, false, false, false, false, false, false] = .ok (.lzEnd 8, []) := by
  decide

theorem test_table_words :
    decodeTableWord 64 0xA2 = some .ldecInit ∧ decodeTableWord 64 0xA3 = none ∧
    decodeTableWord 16 0x83 = some (.lzLiteral 0x41) ∧ decodeTableWord 16 0 = some (.lzEnd 0) ∧
    decodeTableWord 24 0x8000 = some (.lzReference 0 4) ∧ decodeTableWord 8 0 = some .hufTreeInternal := by decide

/-- BC-1, BC-2: the words 0x03 and 0x100 fault ILLEGAL_COMMAND. -/
theorem test_step_illegal_command :
    nextHas (step { small with moves := [.writeReg 0 0x03] }) (fun t => t.readReg 6 == 0x0372 && t.cmd == 3) = true ∧
    nextHas (step { small with moves := [.writeReg 0 0x100] }) (fun t => t.readReg 6 == 0x0072) = true := by decide +kernel

/-- A command word placed by withFetchWord runs next: WN-1's write with ARG0 = 3, ARG1 = 0x5A. -/
theorem test_placed_word_runs :
    nextHas (step (State.reset.withFetchWord 192 (0x61 + 3 * 2 ^ 64 + 0x5A * 2 ^ 128)))
      (fun t => t.u.window == [(3, 0x5A), (4099, 0x5A)] && t.cmd == 0x61 && t.readReg 6 == 1) = true := by decide +kernel

/-! ## One step per instruction, the expected values from 95_test_vectors.md -/

/-- BC-3: a pending fault makes BLK.NOP change CMD only. -/
theorem test_blk_nop :
    nextHas (exec .blkNop { small with cmd := 0x51, status := ⟨false, true, 1, 0x51⟩ })
      (fun t => t.cmd == 0 && t.readReg 6 == 0x5112) = true := by decide +kernel

/-- BC-4. -/
theorem test_blk_reset :
    nextHas (exec .blkReset { withSource [1, 2] with ipos := 1, status := ⟨false, true, 1, 0x51⟩, out := [(0, 7)] })
      (fun t => t.cmd == 1 && t.readReg 6 == 1 && t.slen == 0 && t.ipos == 0 && t.out == [(0, 7)] &&
        t.u.nextH == 256) = true := by decide +kernel

/-- BC-6: the buffered bits are dropped, not written. -/
theorem test_blk_stream_init :
    nextHas (exec .blkStreamInit { small with ipos := 3, u := { small.u with wfree := 3, wpb := 5, rcnt := 2 } })
      (fun t => t.out == [] && t.u.wfree == 8 && t.u.wpb == 0 && t.u.rcnt == 0 && t.ipos == 0) = true := by decide +kernel

/-- BW-5: least significant byte first. -/
theorem test_bsw_write_bits :
    nextHas (exec (.bswWriteBits 0xDEADBEEF 32 0) small)
      (fun t => wrote [0xEF, 0xBE, 0xAD, 0xDE] t && t.opos == 4 && t.u.wfree == 8) = true := by decide +kernel

/-- P4, line 6: WPB = 0x3F and WFREE = 2 before; a flush behind 16 bits. -/
theorem test_bsw_write_bits_flush :
    nextHas (exec (.bswWriteBits 0xABCD 16 1)
        { small with out := cellsFrom 0 [0xFD, 0x0F], opos := 1, olen := 2, u := { small.u with wpb := 0x3F, wfree := 2 } })
      (fun t => wrote [0xFD, 0x7F, 0xF3, 0x2A] t && t.opos == 3 && t.u.wpb == 0x2A && t.u.wfree == 2) = true := by
  decide +kernel

/-- BW-4's second flush. -/
theorem test_bsw_flush :
    nextHas (exec .bswFlush { small with out := [(0, 1)], olen := 1, u := { small.u with wpb := 1, wfree := 7 } })
      (fun t => wrote [1] t && t.opos == 0 && t.u.wfree == 7) = true := by decide +kernel

/-- BR-3's second read: 32 bits straddling 5 bytes. -/
theorem test_bsr_read_bits :
    nextHas (exec (.bsrReadBits 32 0)
        { withSource [0x12, 0x34, 0x56, 0x78, 0x9A] with ipos := 1, u := { small.u with rpb := 0x12, rcnt := 4 } })
      (fun t => t.res0 == 0xA7856341 && t.res1 == 32 && t.ipos == 5 && t.u.rcnt == 4) = true := by decide +kernel

/-- BR-6: the refresh reads SRC[0] again; BR-5 without it uses the parked copy. -/
theorem test_bsr_refresh :
    nextHas (exec (.bsrReadBits 4 1) { withSource [0xAF, 0x0F] with ipos := 1, u := { small.u with rpb := 0xF0, rcnt := 4 } })
      (fun t => t.res0 == 0xA && t.res1 == 4) = true ∧
    nextHas (exec (.bsrReadBits 4 0) { withSource [0xAF, 0x0F] with ipos := 1, u := { small.u with rpb := 0xF0, rcnt := 4 } })
      (fun t => t.res0 == 0xF && t.res1 == 4) = true := by decide +kernel

/-- R220. -/
theorem test_htb_clear_weights :
    nextHas (exec .htbClearWeights (mapUnits abraWeights small)) (fun t => t.u.weightAt 0x41 == 0) = true := by decide +kernel

/-- HT-6. -/
theorem test_htb_count_byte :
    nextHas (exec (.htbCountByte 0x41) (mapUnits (fun u => { u with weight := u.weight.set 0x41 (2 ^ 64 - 1) }) small))
      (fun t => t.readReg 6 == 0x3142) = true ∧
    nextHas (exec (.htbCountByte 0x41) (mapUnits (Units.addWeight 0x41) small))
      (fun t => t.u.weightAt 0x41 == 2 && t.u.weightAt 0x42 == 0) = true := by decide +kernel

/-- P1, line 7: 256 = (B, R) of weight 2, 257 = (A, 256) of weight 4. -/
theorem test_htb_build_tree :
    nextHas (exec .htbBuildTree (mapUnits abraWeights small))
      (fun t => t.res0 == 0x101 && t.u.nextH == 258 && t.u.leftOf 0x100 == some 0x42 && t.u.rightOf 0x100 == some 0x52 &&
        t.u.leftOf 0x101 == some 0x41 && t.u.rightOf 0x101 == some 0x100 && t.u.weightOf 0x100 == 2 &&
        t.u.weightOf 0x101 == 4) = true := by decide +kernel

/-- P1, line 8: A = 0, B = 10, R = 11, the first bit lowest. -/
theorem test_htb_derive_codes :
    nextHas (exec .htbDeriveCodes (mapUnits abraTree small))
      (fun t => t.u.codeOf 0x41 == 0 && t.u.codeLen 0x41 == 1 && t.u.codeOf 0x42 == 1 && t.u.codeLen 0x42 == 2 &&
        t.u.codeOf 0x52 == 3 && t.u.codeLen 0x52 == 2 && !t.u.codeValid 0x43) = true := by decide +kernel

/-- HE-5: "AB". -/
theorem test_henc_encode :
    nextHas (exec .hencEncode (withSource [0x41, 0x42]))
      (fun t => wrote [0x06, 0x15, 0x12, 0x28] t && t.res0 == 2) = true := by decide +kernel

/-- P1, line 9. -/
theorem test_henc_emit_tree :
    nextHas (exec .hencEmitTree (mapUnits abraTree small))
      (fun t => wrote [0x06, 0x29, 0x54] t && t.u.wpb == 0x0A && t.u.wfree == 3) = true := by decide +kernel

/-- HC, n = 256, before its flush. -/
theorem test_henc_emit_count :
    nextHas (exec (.hencEmitCount 256) small) (fun t => wrote [0x00, 0x02] t && t.u.wpb == 2 && t.u.wfree == 6) = true := by
  decide +kernel

/-- P1, line 12: B = 10 behind seven buffered bits 0. -/
theorem test_henc_emit_code :
    nextHas (exec (.hencEmitCode 0x42)
        { small with u := { Units.setCode 0x42 1 2 small.u with wpb := 0x20, wfree := 1 } })
      (fun t => wrote [0xA0] t && t.u.wpb == 0 && t.u.wfree == 7) = true := by decide +kernel

/-- HD-8: a count with a group of zero data too many. -/
theorem test_hdec_decode :
    nextHas (exec .hdecDecode (withSource [0x83, 0x06, 0x00, 0x04]))
      (fun t => wrote [0x41, 0x41, 0x41] t && t.res0 == 3) = true := by decide +kernel

/-- The step decode of the ABRACADABRA stream: PARSE_TREE. -/
theorem test_hdec_parse_tree :
    nextHas (exec .hdecParseTree (withSource [0x06, 0x71, 0x28, 0x91, 0x42, 0xA5, 0x16, 0xDA, 0x45, 0xED, 0x00]))
      (fun t => t.res0 == 0x100 && t.ipos == 7 && t.u.rcnt == 7 && t.u.nextH == 260) = true := by decide +kernel

/-- HD-10's count: non-zero data at index 8. -/
theorem test_hdec_parse_count :
    nextHas (exec .hdecParseCount
        { withSource [0x16, 0xDA] with ipos := 1, u := { small.u with rpb := 0x16, rcnt := 7 } })
      (fun t => t.res0 == 0xB && t.ipos == 2 && t.u.rcnt == 6) = true ∧
    nextHas (exec .hdecParseCount (withSource [0, 0, 0, 0, 0, 0, 0, 0, 0, 1, 2]))
      (fun t => t.readReg 6 == 0x5242) = true := by decide +kernel

/-- B = 10 on the tree of "ABRA". -/
theorem test_hdec_decode_symbol :
    nextHas (exec .hdecDecodeSymbol (mapUnits abraTree (withSource [0x01])))
      (fun t => wrote [0x42] t && t.res0 == 0x42 && t.u.rcnt == 6) = true := by decide +kernel

/-- WN-5. -/
theorem test_win_clear :
    nextHas (exec .winClear (mapUnits oneMember (withWindow [0x41])))
      (fun t => t.u.window == [] && !t.u.isMember 0 && t.u.rootOf 0x41 == none) = true := by decide +kernel

/-- WN-1, and MF-3's write on a member. -/
theorem test_win_write :
    nextHas (exec (.winWrite 3 0x5A) small) (fun t => t.u.window == [(3, 0x5A), (4099, 0x5A)]) = true ∧
    nextHas (exec (.winWrite 3 0x58) mf1) (fun t => t.readReg 6 == 0x6192) = true := by decide +kernel

/-- WN-1's read of the mirror, WN-4 and WN-3. -/
theorem test_win_read :
    nextHas (exec (.winRead 4099) (withWindow [0x41, 0x42, 0x43, 0x44])) (fun t => t.res0 == 0x44) = true ∧
    nextHas (exec (.winRead 4112) small) (fun t => t.readReg 6 == 0x6262) = true ∧
    nextHas (exec (.winRead 4113) small) (fun t => t.readReg 6 == 0x6282) = true := by decide +kernel

/-- MF-11's first half. -/
theorem test_dict_clear :
    nextHas (exec .dictClear (mapUnits oneMember (withWindow [0x41])))
      (fun t => t.u.rootOf 0x41 == none && !t.u.isMember 0 && t.u.window == [(0, 0x41), (4096, 0x41)]) = true := by
  decide +kernel

/-- MF-2: the predecessor 12 replaces 0: 12(3(9, -), 6). -/
theorem test_dict_remove :
    nextHas (exec (.dictRemove 0) mf1)
      (fun t => t.u.rootOf 0x41 == some 12 && t.u.leftOfD 12 == some 3 && t.u.rightOfD 12 == some 6 &&
        t.u.leftOfD 3 == some 9 && t.u.rightOfD 3 == none && t.u.parentOf 12 == none && t.u.parentOf 3 == some 12 &&
        !t.u.isMember 0) = true := by decide +kernel

/-- MF-4's second add: (0, 3), and 0 is replaced by 3. -/
theorem test_mf_match_add_replaces :
    nextHas (exec (.mfMatchAdd 3 3) (mapUnits oneMember (withWindow [0x41, 0x42, 0x43, 0x41, 0x42, 0x43, 0x41, 0x42, 0x44])))
      (fun t => t.res0 == 0 && t.res1 == 3 && !t.u.isMember 0 && t.u.isMember 3 && t.u.rootOf 0x41 == some 3) = true := by
  decide +kernel

/-- MF-9's second add, "AB.AC.": 3 becomes the right child of 0, length 1; MF-5 reaches an unwritten slot. -/
theorem test_mf_match_add_inserts :
    nextHas (exec (.mfMatchAdd 3 2) (mapUnits oneMember (withWindow [0x41, 0x42, 0x2E, 0x41, 0x43, 0x2E])))
      (fun t => t.res0 == 0 && t.res1 == 1 && t.u.rightOfD 0 == some 3 && t.u.parentOf 3 == some 0) = true ∧
    nextHas (exec (.mfMatchAdd 1 2) (mapUnits oneMember (withWindow [0x41, 0x41]))) (fun t => t.readReg 6 == 0x8062) = true := by
  decide +kernel

/-- LZ-5: "AAA". -/
theorem test_lenc_encode :
    nextHas (exec .lencEncode (withSource [0x41, 0x41, 0x41]))
      (fun t => wrote [0x83, 0x00, 0x00, 0x18, 0x00] t && t.res0 == 3) = true := by decide +kernel

/-- LE-1, before its flush. -/
theorem test_lenc_emit_literal :
    nextHas (exec (.lencEmitLiteral 0x41) small) (fun t => wrote [0x83] t && t.u.wpb == 0 && t.u.wfree == 7) = true := by
  decide +kernel

/-- LE-4, before its flush, and LE-7. -/
theorem test_lenc_emit_reference :
    nextHas (exec (.lencEmitReference 4095 17) small) (fun t => wrote [0xFE, 0xFF] t && t.u.wpb == 1 && t.u.wfree == 7) = true ∧
    nextHas (exec (.lencEmitReference 4095 18) small) (fun t => t.readReg 6 == 0x9282) = true := by decide +kernel

/-- LE-5, before its flush. -/
theorem test_lenc_emit_sentinel :
    nextHas (exec (.lencEmitSentinel 8) small) (fun t => wrote [0x10] t && t.u.wpb == 0 && t.u.wfree == 3) = true := by
  decide +kernel

/-- LD-4: a copy that overlaps itself. -/
theorem test_ldec_decode :
    nextHas (exec .ldecDecode (withSource [0x83, 0x00, 0x40, 0x20, 0x00]))
      (fun t => wrote [0x41, 0x41, 0x41, 0x41] t && t.res0 == 4 && t.u.ldend) = true := by decide +kernel

/-- P3, lines 3 and 7. -/
theorem test_ldec_decode_token :
    nextHas (exec .ldecDecodeToken (withSource [0x83, 0x0A, 0x01, 0x00, 0x82, 0x00]))
      (fun t => wrote [0x41] t && t.res0 == 0 && t.res1 == 1 && t.ipos == 2 && t.u.rcnt == 7 && t.u.dcur == 1) = true ∧
    nextHas (exec .ldecDecodeToken (mapUnits (fun u => { u with ldend := true }) small))
      (fun t => t.readReg 6 == 0xA192) = true := by decide +kernel

/-- R350. -/
theorem test_ldec_init :
    nextHas (exec .ldecInit (mapUnits (fun u => { u with dcur := 5, ldend := true }) (withWindow [0x41])))
      (fun t => t.u.dcur == 0 && !t.u.ldend && t.u.window == []) = true := by decide +kernel

/-- A leaf behind an open left child, and the right leaf that completes the tree (42_huffman.md R240). -/
theorem test_huf_tree_leaf :
    nextHas (exec (.hufTreeLeaf 0x41) (mapUnits (fun u => { u with parseStack := [.left 256] }) small))
      (fun t => t.u.leftOf 256 == some 0x41 && t.u.parseStack == [.right 256]) = true ∧
    nextHas (exec (.hufTreeLeaf 0x42) (mapUnits (fun u => { u with parseStack := [.right 256] }) small))
      (fun t => t.u.rightOf 256 == some 0x42 && t.u.parseStack == [] && t.u.rootH == 256) = true := by decide +kernel

/-- HD-14's last token: the 256th internal node. -/
theorem test_huf_tree_internal :
    nextHas (exec .hufTreeInternal small) (fun t => t.u.nextH == 257 && t.u.parseStack == [.left 256]) = true ∧
    nextHas (exec .hufTreeInternal { small with cmd := 0x51, u := { small.u with nextH := 511 } })
      (fun t => t.readReg 6 == 0x5132) = true := by decide +kernel

/-- The second group of the count 256 (table HC). -/
theorem test_huf_count_group :
    nextHas (exec (.hufCountGroup 1 true) (mapUnits (fun u => { u with cntIdx := 1 }) small))
      (fun t => t.u.cntAcc == 256 && t.u.cntDone) = true := by decide +kernel

/-- R = 11 on the tree of "ABRA". With no tree the token faults STATE_ERROR, the model's choice (log 14). -/
theorem test_huf_code :
    nextHas (exec (.hufCode [true, true]) (mapUnits abraTree small)) (fun t => t.out == [(0, 0x52)]) = true ∧
    nextHas (exec (.hufCode [true]) { small with cmd := 0x53 }) (fun t => t.readReg 6 == 0x5392 && t.out == []) = true := by
  decide +kernel

/-- P3, line 3: the literal 0x41 at cursor 0. -/
theorem test_lz_literal :
    nextHas (exec (.lzLiteral 0x41) small)
      (fun t => t.out == [(0, 0x41)] && t.u.dcur == 1 && t.u.window == [(0, 0x41), (4096, 0x41)]) = true := by decide +kernel

/-- P3, line 5: six bytes from position 0 at cursor 2 give ABABAB. -/
theorem test_lz_reference :
    nextHas (exec (.lzReference 0 4) { withWindow [0x41, 0x42] with u := { (withWindow [0x41, 0x42]).u with dcur := 2 } })
      (fun t => t.out == cellsFrom 0 [0x41, 0x42, 0x41, 0x42, 0x41, 0x42] && t.u.dcur == 8) = true := by decide +kernel

/-- P3, line 6: the end token at the cursor. -/
theorem test_lz_end :
    nextHas (exec (.lzEnd 8) (mapUnits (fun u => { u with dcur := 8 }) small)) (fun t => t.u.ldend && t.out == []) = true := by
  decide +kernel

/-! ## Witnesses: a concrete state and operands for the hypotheses of every statement, each clause at a boundary -/

/-- The next state of a decided outcome. -/
theorem of_next {o : Host.Outcome State Fault Refusal} {P : State → Prop} [DecidablePred P]
    (h : nextHas o (fun t => decide (P t)) = true) : ∃ t, o = .next t ∧ P t := by
  obtain ⟨t, h1, h2⟩ := of_nextHas h
  exact ⟨t, h1, of_decide_eq_true h2⟩

/-- `small` with a command about to be written. -/
def busy (v : Word) : State := { small with moves := [.writeReg 0 v] }

/-- A writer with k buffered bits 1, at OPOS = o. -/
def writing (k o : Nat) : State :=
  { small with opos := BitVec.ofNat 64 o, olen := BitVec.ofNat 64 o,
               u := { small.u with wpb := BitVec.ofNat 8 (2 ^ k - 1), wfree := BitVec.ofNat 4 (8 - k) } }

theorem witness_EncodedCommandsDecode :
    wellFormed Config.Params.default (.bswWriteBits 0xFFFFFFFFFFFFFFFF 33 2) = true ∧
    (Instr.bswWriteBits 0xFFFFFFFFFFFFFFFF 33 2).isToken = false := by decide

theorem witness_EncodedTokensDecode :
    (∀ x ∈ [(Ctx.lz 4 8, Instr.lzReference 4095 15), (.lz 4 8, .lzEnd 8), (.lz 4 8, .lzLiteral 0xFF),
        (.hufTree, .hufTreeLeaf 0xFF), (.hufTree, .hufTreeInternal), (.hufCount, .hufCountGroup 0xFF true),
        (.hufCode 0, .hufCode []), (.hufCode 255, .hufCode (List.replicate 255 true))],
      wellFormed Config.Params.default x.2 = true ∧ x.1.admits Config.Params.default x.2 = true) := by decide +kernel

theorem witness_IllegalCommandWordsFault :
    illegalWord 0x02 = false ∧ illegalWord 0xA2 = false ∧
    illegalWord 0x03 = true ∧ illegalWord 0xFF = true ∧ illegalWord 0x100 = true ∧
    illegalWord 0xFFFFFFFFFFFFFFFF = true ∧ (busy 0x100).healthy ∧ (busy 0x100).moves = .writeReg 0 0x100 :: [] := by
  decide +kernel

theorem witness_StepRunsTheDecodedCommand :
    ({ small with arg1 := 8, moves := [.writeReg 0 0x10] } : State).moves = .writeReg 0 0x10 :: [] ∧
    decodeCommand ⟨0x10, small.arg0, 8, small.arg2⟩ = .ok (.bswWriteBits 0 8 0) := by decide +kernel

theorem witness_PlacedCommandWordRunsNext :
    24 < 192 ∧ decodeTableWord 192 (0x61 + 3 * 2 ^ 64 + 0x5A * 2 ^ 128) = some (.winWrite 3 0x5A) := by decide

theorem witness_HostMovesStoreTheirValue :
    small.moves = [] ∧ (64 : Word).toNat ≤ small.params.srcSize ∧ small.params.srcSize < (65 : Word).toNat ∧
    63 < small.params.srcSize := by decide +kernel

theorem witness_ReservedRegistersReadZero :
    ∀ n ∈ [(11 : BitVec 4), 15], 11 ≤ n.toNat ∧
      ({ small with moves := [.writeReg n 1] } : State).moves = .writeReg n 1 :: [] := by decide +kernel

theorem witness_StatusReadsItsFields :
    ({ small with moves := [.writeReg 6 1] } : State).moves = .writeReg 6 1 :: [] ∧
    (busy 0x03).moves = .writeReg 0 0x03 :: [] ∧ (∃ t, step (busy 0x03) = .next t ∧ t.status.fault = true) ∧
    (busy 0x01).moves = .writeReg 0 0x01 :: [] ∧ (∃ t, step (busy 0x01) = .next t ∧ t.status.fault = false) ∧
    63 < small.params.outSize ∧ Memory.get ({ small with out := [(63, 7)] } : State).out 63 = some 7 ∧
    small.params.outSize ≤ 64 :=
  ⟨by decide +kernel, by decide +kernel, of_next (by decide +kernel), by decide +kernel, of_next (by decide +kernel),
    by decide +kernel, by decide +kernel, by decide +kernel⟩

/-- A block with a pending fault. -/
def faulted : State := { small with cmd := 0x51, status := { done := false, fault := true, fcode := 1, fcmd := 0x51 } }

theorem witness_FaultedBlockIgnoresCommands :
    faulted.status.fault = true ∧ (0 : Word) ≠ 1 ∧ (0x101 : Word) ≠ 1 ∧
    ({ faulted with moves := [.writeReg 0 0x101] } : State).moves = .writeReg 0 0x101 :: [] := by decide +kernel

theorem witness_OperandsOutOfRangeFault :
    small.healthy ∧
    ∀ x ∈ [(Instr.bswWriteBits 0 33 0, (0x10 : Word)), (.bswWriteBits 0 0 2, 0x10), (.bsrReadBits 33 0, 0x20),
        (.bsrReadBits 0 2, 0x20), (.htbCountByte 256, 0x31), (.hencEmitCode 256, 0x43), (.winWrite 4096 0, 0x61),
        (.winWrite 0 256, 0x61), (.winRead 4113, 0x62), (.dictRemove 4096, 0x71), (.mfMatchAdd 4096 1, 0x80),
        (.mfMatchAdd 0 0, 0x80), (.mfMatchAdd 0 18, 0x80), (.lencEmitLiteral 256, 0x91), (.lencEmitReference 4096 2, 0x92),
        (.lencEmitReference 0 1, 0x92), (.lencEmitReference 0 18, 0x92), (.lencEmitSentinel 4096, 0x93)],
      commandWord small.params x.1 = some x.2 ∧ operandsInRange small.params x.1 = false := by decide +kernel

/-- One member, an end token decoded and no tree: every precondition fails. -/
def unready : State := mapUnits (fun u => { oneMember u with ldend := true }) (withWindow [0x41])

theorem witness_FailedPreconditionsFault :
    unready.healthy ∧
    ∀ x ∈ [(Instr.htbDeriveCodes, (0x33 : Word)), (.hencEmitTree, 0x41), (.hencEmitCode 0xFF, 0x43),
        (.hdecDecodeSymbol, 0x53), (.winWrite 0 0xFF, 0x61), (.mfMatchAdd 0 17, 0x80), (.ldecDecodeToken, 0xA1)],
      commandWord unready.params x.1 = some x.2 ∧ operandsInRange unready.params x.1 = true ∧
      preconditionMet unready x.1 = false := by decide +kernel

/-- A write at a full sink: the draw is true, OPOS = OUT_SIZE. -/
def fullSink (s : State) : State := { s with opos := 64, olen := 64 }

/-- The next access draws false. -/
def denied (s : State) : State := { s with io := false :: s.io }

/-- A piece of pseudocode that only raises a fault. -/
theorem raise_eq (c : FaultCode) (s : State) : (raise c : Op Unit) s = .error (.raised c) s := rfl

theorem witness_FaultEntryRecordsTheCause :
    small.healthy ∧ (raise .truncated : Op Unit) (small.begin 0x51) = .error (.raised .truncated) (small.begin 0x51) ∧
    (raise .stateError : Op Unit) small = .error (.raised .stateError) small ∧
    (∃ t, exec (.winRead 4112) small = .next t ∧ t.status.fault = true) ∧
    (∃ t, exec .hufTreeInternal { small with u := { small.u with nextH := 511 } } = .next t ∧ t.status.fault = true) ∧
    Group.sourcePos ∉ writeGroups (.winRead 4112) ∧ Group.sink ∉ writeGroups (.winRead 4112) :=
  ⟨by decide +kernel, raise_eq _ _, raise_eq _ _, of_next (by decide +kernel), of_next (by decide +kernel), by decide,
    by decide⟩

/-- Its clauses on IO_ERROR: false draws, with one buffered byte to write, or with only a flush; and full sinks, with
the bits of one byte too many. -/
theorem witness_FaultEntryRecordsTheCause_io :
    (denied small).healthy ∧ (denied small).io = false :: [] ∧ (denied small).u.rcnt = 0 ∧ (denied small).u.ldend = false ∧
    (1 : Word).toNat ≤ 32 ∧ (32 : Word).toNat ≤ 32 ∧ (1 : Word).toNat ≤ 1 ∧
    (denied (writing 7 0)).healthy ∧ (denied (writing 7 0)).io = false :: [] ∧ (denied (writing 7 0)).u.writerOk ∧
    1 ≤ (denied (writing 7 0)).u.bytesFor (1 : Word).toNat ∧
    (denied (writing 1 0)).healthy ∧ (denied (writing 1 0)).io = false :: [] ∧ (denied (writing 1 0)).u.writerOk ∧
    (denied (writing 1 0)).u.bytesFor (0 : Word).toNat = 0 ∧
    1 ≤ 8 - (denied (writing 1 0)).u.wfree.toNat + (0 : Word).toNat ∧
    (writing 7 63).healthy ∧ (writing 7 63).ioFine ∧ (writing 7 63).params.outSize < 2 ^ 64 ∧
    (writing 7 63).opos.toNat ≤ (writing 7 63).params.outSize ∧ (writing 7 63).u.writerOk ∧
    (writing 7 63).params.outSize < (writing 7 63).opos.toNat + (writing 7 63).u.bytesFor (9 : Word).toNat ∧
    (fullSink (mapUnits abraTree small)).healthy ∧ (fullSink (mapUnits abraTree small)).ioFine ∧
    (fullSink (mapUnits abraTree small)).opos.toNat = (fullSink (mapUnits abraTree small)).params.outSize ∧
    (fullSink (mapUnits abraTree small)).u.holds (fullSink (mapUnits abraTree small)).u.rootH abraShape = true ∧
    abraShape.follow [true, true] = some 0x52 := by decide +kernel

theorem witness_CommandsEndDoneOrFaulted :
    small.healthy ∧ commandWord small.params (.winRead 4112) = some 0x62 ∧
    (∃ t, exec (.winRead 4112) small = .next t ∧ t.status.fault = true) ∧
    commandWord small.params .blkNop = some 0 ∧
    (∃ t, exec .blkNop small = .next t ∧ t.status.fault = false) ∧ Instr.blkNop ≠ .blkReset :=
  ⟨by decide +kernel, by decide +kernel, of_next (by decide +kernel), by decide +kernel, of_next (by decide +kernel),
    by decide⟩

theorem witness_ByteAccesses :
    ({ small with io := [false, true] } : State).io = false :: [true] ∧
    (withSource [1]).ioFine ∧ (withSource [1]).ipos.toNat < (withSource [1]).slen.toNat ∧
    small.ioFine ∧ small.slen.toNat ≤ small.ipos.toNat ∧ (small.ipos.toNat : Int) + (-1) < 0 ∧
    (small.ipos.toNat : Int) + 0 = (0 : Word).toNat ∧
    (({ small with ipos := 1 } : State).ipos.toNat : Int) + (-1) = (0 : Word).toNat ∧
    small.params.outSize ≤ ({ small with opos := 64 } : State).opos.toNat ∧
    ({ small with opos := 63 } : State).opos.toNat < small.params.outSize ∧ small.params.outSize < 2 ^ 64 ∧
    (small.opos.toNat : Int) + (-1) < 0 ∧
    (({ small with opos := 1 } : State).opos.toNat : Int) + (-1) = (0 : Word).toNat := by decide +kernel

theorem witness_WindowMirrorsItsHead :
    small.params.wf ∧ (16 : Pos).toNat < small.params.maxLen ∧ ¬ (17 : Pos).toNat < small.params.maxLen ∧
    (∀ j < (withWindow [0x41]).params.maxLen,
      Memory.get (withWindow [0x41]).u.window (Config.W + j) = Memory.get (withWindow [0x41]).u.window j) ∧
    Memory.get (withWindow [0x41]).u.window 4096 = some 0x41 ∧ (withWindow [0x41]).u.written 4112 = false := by
  decide +kernel

/-! The parts of the invariants on `busy`. -/

theorem powerOn_isMember (p : Pos) : Units.powerOn.isMember p = false := by simp [Units.isMember, Units.powerOn]
theorem powerOn_parentOf (p : Pos) : Units.powerOn.parentOf p = none := by simp [Units.parentOf, Units.powerOn]
theorem powerOn_leftOfD (p : Pos) : Units.powerOn.leftOfD p = none := by simp [Units.leftOfD, Units.powerOn]
theorem powerOn_rightOfD (p : Pos) : Units.powerOn.rightOfD p = none := by simp [Units.rightOfD, Units.powerOn]
theorem powerOn_rootOf (c : Byte) : Units.powerOn.rootOf c = none := by simp [Units.rootOf, Units.powerOn]
theorem powerOn_codeValid (b : Byte) : Units.powerOn.codeValid b = false := by simp [Units.codeValid, Units.powerOn]

/-- A window changes no link of the power-on dictionary. -/
theorem empty_dictOk (w : Memory) : ({ Units.powerOn with window := w } : Units).dictOk := by
  refine ⟨fun _ => .nil, fun c => ⟨?_, List.nodup_nil⟩, ?_, ?_, ?_⟩
  · have h : ({ Units.powerOn with window := w } : Units).rootOf c = none := powerOn_rootOf c
    rw [h]
    rfl
  · intro c p h
    cases h
  · intro p
    have h : ({ Units.powerOn with window := w } : Units).isMember p = false := powerOn_isMember p
    simp [h, DTree.inorder]
  · intro p _
    exact ⟨powerOn_parentOf p, powerOn_leftOfD p, powerOn_rightOfD p⟩

theorem powerOn_huffInv : Units.powerOn.HuffInv := by
  refine ⟨⟨rfl, rfl⟩, by decide +kernel, .inl rfl, ?_⟩
  intro b h
  rw [powerOn_codeValid] at h
  cases h

theorem busy_streamInv (v : Word) : (busy v).StreamInv := by
  have h : (busy 0).StreamInv := by
    constructor <;> decide +kernel
  exact ⟨h.params, h.srcForm, h.outForm, h.windowForm, h.source, h.sink, h.output, h.noFault, h.oneFault, h.units⟩

theorem witness_StepKeepsStreams : (busy 0x32).StreamInv ∧ ∃ t, step (busy 0x32) = .next t ∧ t.moves = [] :=
  ⟨busy_streamInv _, of_next (by decide +kernel)⟩

theorem witness_StepKeepsDictionary :
    (busy 0x90).params.wf ∧ ((busy 0x90).status.fault = false → (busy 0x90).u.dictOk) ∧
    ∃ t, step (busy 0x90) = .next t ∧ t.status.fault = false :=
  ⟨by decide +kernel, fun _ => empty_dictOk _, of_next (by decide +kernel)⟩

theorem witness_StepKeepsHuffmanTables :
    ((busy 0x32).status.fault = false → (busy 0x32).u.HuffInv) ∧
    ∃ t, step (busy 0x32) = .next t ∧ t.status.fault = false :=
  ⟨fun _ => powerOn_huffInv, of_next (by decide +kernel)⟩

theorem witness_StepNeverStops : (busy 0xFF).Inv := ⟨busy_streamInv _, fun _ => ⟨empty_dictOk _, powerOn_huffInv⟩⟩

theorem witness_UnlistedGroupsUnchanged :
    small.healthy ∧ Instr.hencEncode ≠ .blkReset ∧
    (∃ t, exec .hencEncode small = .next t ∧ t.status.fault = false) ∧ Group.window ∉ writeGroups .hencEncode :=
  ⟨by decide +kernel, by decide, of_next (by decide +kernel), by decide⟩

theorem witness_OutBytesBelowTheStartKept :
    small.params.outSize < 2 ^ 64 ∧ startsStreams .bswFlush = false ∧ 0 < ({ small with opos := 1 } : State).opos.toNat ∧
    (∃ t, exec .bswFlush { small with opos := 1 } = .next t ∧ t.olen.toNat ≤ 0) ∧
    ∃ t, exec .hencEncode small = .next t ∧ t.olen.toNat ≤ 3 :=
  ⟨by decide +kernel, by decide, by decide +kernel, of_next (by decide +kernel), of_next (by decide +kernel)⟩

theorem witness_NopAndStreamInit : small.healthy ∧ faulted.status.fault = true := by decide +kernel

theorem witness_ClearingCommands : unready.healthy := by decide +kernel

/-! The bit streams. -/

theorem witness_WriteBitsPacksBits :
    (writing 7 60).healthy ∧ (writing 7 60).ioFine ∧ (writing 7 60).u.writerOk ∧ (32 : Word).toNat ≤ 32 ∧
    (writing 7 60).room ((writing 7 60).u.bytesFor (32 : Word).toNat) ∧
    (writing 1 59).healthy ∧ (writing 1 59).ioFine ∧ (writing 1 59).u.writerOk ∧
    (writing 1 59).room ((writing 1 59).u.bytesFor ((32 : Word).toNat + 7)) := by decide +kernel

theorem witness_FlushTwiceWritesTheSameByte :
    (writing 1 63).healthy ∧ (writing 1 63).ioFine ∧ (writing 1 63).u.writerOk ∧ (writing 1 63).room 1 ∧
    (writing 1 63).u.wfree.toNat < 8 ∧
    (writing 0 63).healthy ∧ (writing 0 63).ioFine ∧ (writing 0 63).u.writerOk ∧ (writing 0 63).room 1 ∧
    (writing 0 63).u.wfree = 8 := by decide +kernel

theorem witness_WrittenBitsAreAppended :
    (writing 7 0).healthy ∧ (writing 7 0).u.writerOk ∧ (writing 7 0).params.outSize < 2 ^ 64 ∧
    ∃ t, exec (.bswWriteBits 0xFFFFFFFF 32 1) (writing 7 0) = .next t ∧ t.status.fault = false :=
  ⟨by decide +kernel, by decide +kernel, by decide +kernel, of_next (by decide +kernel)⟩

/-- A reader with k parked bits of the byte 0xA5 before IPOS = 1. -/
def reading (k : Nat) (bytes : List Nat) : State :=
  { withSource bytes with ipos := 1, u := { small.u with rpb := 0xA5, rcnt := BitVec.ofNat 4 k } }

theorem witness_ReadBitsTakesTheNextBits :
    (reading 7 [1, 2]).healthy ∧ (reading 7 [1, 2]).ioFine ∧ (reading 7 [1, 2]).u.readerOk ∧ (32 : Word).toNat ≤ 32 := by
  decide +kernel

theorem witness_RefreshReadsTheParkedByteAgain :
    (reading 0 [1]).healthy ∧ (reading 0 [1]).ioFine ∧ (reading 0 [1]).u.rcnt.toNat = 0 ∧ (32 : Word).toNat ≤ 32 ∧
    (reading 1 [1]).healthy ∧ (reading 1 [1]).ioFine ∧ 1 ≤ (reading 1 [1]).u.rcnt.toNat ∧
    1 ≤ (reading 1 [1]).ipos.toNat ∧ (reading 1 [1]).ipos.toNat ≤ (reading 1 [1]).slen.toNat ∧
    (reading 7 []).healthy ∧ (reading 7 []).ioFine ∧ 1 ≤ (reading 7 []).u.rcnt.toNat ∧ 1 ≤ (reading 7 []).ipos.toNat ∧
    (reading 7 []).slen.toNat < (reading 7 []).ipos.toNat := by decide +kernel

/-! Huffman. -/

/-- `small` with the weight of one byte set. -/
def weighing (b : Nat) (w : Nat) (s : State) : State :=
  mapUnits (fun u => { u with weight := u.weight.setIfInBounds b (BitVec.ofNat 64 w) }) s

theorem witness_CountByteAddsOne :
    small.healthy ∧ ((weighing 0x41 (2 ^ 64 - 2) small).u.weightAt 0x41).toNat + 1 < 2 ^ 64 ∧
    ((weighing 0x41 (2 ^ 64 - 1) small).u.weightAt 0x41).toNat + 1 = 2 ^ 64 := by decide +kernel

theorem witness_PopMinTakesTheLeastKey :
    ({ small with u := { small.u with pq := [0x42, 0x41] } } : State).u.pq ≠ [] ∧
    ({ small with u := { small.u with pq := [0x42, 0x41] } } : State).u.pq.Nodup := by decide +kernel

/-- Two weights, all others 0. -/
def twoWeights (v w : Nat) : State := weighing 0 v (weighing 255 w small)

theorem twoWeights_weightAt (v w : Nat) (b : Byte) : (twoWeights v w).u.weightAt b =
    if 0 = b.toNat then BitVec.ofNat 64 v else if 255 = b.toNat then BitVec.ofNat 64 w else 0 := by
  simp [twoWeights, weighing, mapUnits, small, State.reset, Units.powerOn, Units.weightAt, Vector.getElem_setIfInBounds]

theorem twoWeights_present (v w : Nat) (hv : BitVec.ofNat 64 v ≠ 0) (hw : BitVec.ofNat 64 w ≠ 0) :
    (twoWeights v w).u.present = [0, 255] := by
  have h : (twoWeights v w).u.present =
      ((List.range 256).map (BitVec.ofNat 8)).filter fun b => decide (0 = b.toNat) || decide (255 = b.toNat) := by
    refine List.filter_congr fun b _ => ?_
    rw [twoWeights_weightAt]
    by_cases h0 : 0 = b.toNat
    · rw [if_pos h0, decide_eq_true h0, Bool.true_or]
      exact bne_iff_ne.mpr hv
    · rw [if_neg h0, decide_eq_false h0, Bool.false_or]
      by_cases h1 : 255 = b.toNat
      · rw [if_pos h1, decide_eq_true h1]
        exact bne_iff_ne.mpr hw
      · rw [if_neg h1, decide_eq_false h1]
        rfl
  rw [h]
  decide +kernel

theorem small_present : small.u.present = [] := by
  refine List.filter_eq_nil_iff.mpr fun b _ => ?_
  simp [small, State.reset, Units.powerOn, Units.weightAt]

/-- The totals 2^64 - 1 (HT-8) and 2^64 (HT-7). -/
theorem witness_BuildTreeJoinsThePresentBytes :
    small.healthy ∧ small.u.present.length ≤ 1 ∧
    (twoWeights 1 (2 ^ 64 - 2)).healthy ∧
    (twoWeights 1 (2 ^ 64 - 2)).u.weightSum (twoWeights 1 (2 ^ 64 - 2)).u.present < 2 ^ 64 ∧
    (twoWeights 1 (2 ^ 64 - 1)).healthy ∧ 2 ≤ (twoWeights 1 (2 ^ 64 - 1)).u.present.length ∧
    2 ^ 64 ≤ (twoWeights 1 (2 ^ 64 - 1)).u.weightSum (twoWeights 1 (2 ^ 64 - 1)).u.present := by
  rw [small_present, twoWeights_present _ _ (by decide) (by decide), twoWeights_present _ _ (by decide) (by decide)]
  decide +kernel

/-- The tree of "ABRA" with its codes, reading a source. -/
def abra (bytes : List Nat) : State :=
  mapUnits (fun u => Units.withCodes abraShape.paths (abraTree u)) (withSource bytes)

theorem witness_DeriveCodesGivesEachLeafItsPath :
    (abra []).healthy ∧ (abra []).u.holds (abra []).u.rootH abraShape = true ∧ abraShape.depth ≤ 255 := by decide +kernel

theorem witness_EmitTreeWritesTheSerializedTree :
    (abra []).healthy ∧ (abra []).ioFine ∧ (abra []).u.writerOk ∧ (abra []).u.holds (abra []).u.rootH abraShape = true ∧
    abraShape.depth ≤ 255 ∧ (abra []).room ((abra []).u.bytesFor abraShape.bits.length) := by decide +kernel

theorem witness_EmitCountWritesMinimalGroups :
    (writing 7 54).healthy ∧ (writing 7 54).ioFine ∧ (writing 7 54).u.writerOk ∧
    (writing 7 54).room ((writing 7 54).u.bytesFor (groupsBits (countBytes (0xFFFFFFFFFFFFFFFF : Word).toNat)).length) := by
  decide +kernel

theorem witness_EmitCodeWritesTheCode :
    (abra []).healthy ∧ (abra []).ioFine ∧ (abra []).u.writerOk ∧ (abra []).u.codeValid 0x52 = true ∧
    (abra []).room ((abra []).u.bytesFor ((abra []).u.codeLen 0x52).toNat) := by decide +kernel

theorem witness_HuffmanEncodeWritesTreeCountCodes :
    (withSource [0x41]).healthy ∧ (withSource [0x41]).ioFine ∧ (withSource [0x41]).params.outSize < 2 ^ 64 ∧
    (withSource [0x41]).srcBytes = [0x41] ∧
    (packPadded ((Shape.leaf 0x41).bits ++ groupsBits (countBytes 1) ++ [])).length ≤
      (withSource [0x41]).params.outSize := by decide +kernel

/-- The first 29 bits of vector HE-12 are the tree of "ABRA"; 3 bits are left. -/
theorem witness_ParseTreeReadsTheSerializedTree :
    (withSource [0x06, 0x29, 0x54, 0x8A]).healthy ∧ (withSource [0x06, 0x29, 0x54, 0x8A]).ioFine ∧
    (withSource [0x06, 0x29, 0x54, 0x8A]).u.readerOk ∧ abraShape.nodes ≤ 255 ∧
    (withSource [0x06, 0x29, 0x54, 0x8A]).inBits = abraShape.bits ++ [false, false, true] := by decide +kernel

/-- A tree of n internal nodes, each with the leaf 0xA5 on its left. -/
def comb : Nat → Shape
  | 0 => .leaf 0x5A
  | n + 1 => .node (.leaf 0xA5) (comb n)

/-- The stream of a tree of 256 internal nodes. -/
def combSource : State :=
  { withSource ((packPadded (comb 256).bits).map BitVec.toNat) with params := { lzN := 4, srcSize := 400, outSize := 64 } }

/-- A tree whose 256th internal node comes behind 255 leaves. -/
theorem witness_CutTreesAndCountsFault_comb :
    combSource.healthy ∧ combSource.ioFine ∧ combSource.u.readerOk ∧ 256 ≤ (comb 256).nodes ∧
    combSource.inBits = (comb 256).bits ++ [false, false, false, false, false, false, false] := by decide +kernel

/-- A tree cut in its last byte (HD-1); HD-14's 256 bits 0; a count whose last group is cut (HD-11). -/
theorem witness_CutTreesAndCountsFault :
    ((withSource [0x06, 0x29, 0x54]).healthy ∧ (withSource [0x06, 0x29, 0x54]).ioFine ∧
      (withSource [0x06, 0x29, 0x54]).u.readerOk ∧ abraShape.nodes ≤ 255 ∧
      [false, true, false, true, false] ≠ ([] : List Bool) ∧
      abraShape.bits = (withSource [0x06, 0x29, 0x54]).inBits ++ [false, true, false, true, false]) ∧
    ((withSource (List.replicate 32 0)).healthy ∧ (withSource (List.replicate 32 0)).ioFine ∧
      (withSource (List.replicate 32 0)).u.readerOk ∧
      (withSource (List.replicate 32 0)).inBits = List.replicate 256 false ++ []) ∧
    ((withSource [0x0A]).healthy ∧ (withSource [0x0A]).ioFine ∧ (withSource [0x0A]).u.readerOk ∧ [true] ≠ ([] : List Bool) ∧
      groupsBits [0x0A] = (withSource [0x0A]).inBits ++ [true]) := by decide +kernel

/-- Data bytes from index 8 on that are 0. -/
theorem high_groups_zero (ds : List Byte) (h : ∀ d ∈ ds.drop 8, d = 0) : ∀ g d, 8 ≤ g → ds[g]? = some d → d = 0 := by
  intro g d hg hd
  refine h d (List.mem_of_getElem? (i := g - 8) ?_)
  rw [List.getElem?_drop, Nat.add_sub_cancel' hg, hd]

/-- The nine groups of HD-9. -/
theorem witness_ParseCountReadsTheGroups :
    (withSource [4, 0, 0, 0, 0, 0, 0, 0, 0, 0, 1]).healthy ∧ (withSource [4, 0, 0, 0, 0, 0, 0, 0, 0, 0, 1]).ioFine ∧
    (withSource [4, 0, 0, 0, 0, 0, 0, 0, 0, 0, 1]).u.readerOk ∧ ([4, 0, 0, 0, 0, 0, 0, 0, 0] : List Byte) ≠ [] ∧
    (withSource [4, 0, 0, 0, 0, 0, 0, 0, 0, 0, 1]).inBits =
      groupsBits [4, 0, 0, 0, 0, 0, 0, 0, 0] ++ [false, false, false, false, false, false, false] ∧
    ∀ g d, 8 ≤ g → ([4, 0, 0, 0, 0, 0, 0, 0, 0] : List Byte)[g]? = some d → d = 0 :=
  ⟨by decide +kernel, by decide +kernel, by decide +kernel, by decide, by decide +kernel,
    high_groups_zero _ (by decide)⟩

/-- B = 10 on the tree of "ABRA", then six bits 1. -/
theorem witness_DecodeSymbolFollowsThePath :
    (abra [0xFD]).healthy ∧ (abra [0xFD]).ioFine ∧ (abra [0xFD]).u.readerOk ∧
    (abra [0xFD]).u.holds (abra [0xFD]).u.rootH abraShape = true ∧ abraShape.follow [true, false] = some 0x42 ∧
    (abra [0xFD]).inBits = [true, false] ++ [true, true, true, true, true, true] ∧ (abra [0xFD]).room 1 := by decide +kernel

/-- HD-8: three empty codes behind a count with a group too many, and six bits behind them. -/
theorem witness_HuffmanDecodeWritesTheCodedBytes :
    (withSource [0x83, 0x06, 0x00, 0x04]).healthy ∧ (withSource [0x83, 0x06, 0x00, 0x04]).ioFine ∧
    (Shape.leaf 0x41).nodes ≤ 255 ∧ ([3, 0] : List Byte) ≠ [] ∧
    (∀ g d, 8 ≤ g → ([3, 0] : List Byte)[g]? = some d → d = 0) ∧
    groupsValue [3, 0] = ([0x41, 0x41, 0x41] : List Byte).length ∧
    List.Forall₂ (fun b path => (Shape.leaf 0x41).follow path = some b) [0x41, 0x41, 0x41] [[], [], []] ∧
    bytesBits (withSource [0x83, 0x06, 0x00, 0x04]).srcBytes =
      (Shape.leaf 0x41).bits ++ groupsBits [3, 0] ++ [[], [], []].flatten ++ [false, false, false, false, false] ∧
    ([0x41, 0x41, 0x41] : List Byte).length ≤ (withSource [0x83, 0x06, 0x00, 0x04]).params.outSize ∧
    (withSource [0x83, 0x06, 0x00, 0x04]).params.outSize < 2 ^ 64 :=
  ⟨by decide +kernel, by decide +kernel, by decide, by decide, high_groups_zero _ (by decide), by decide,
    .cons rfl (.cons rfl (.cons rfl .nil)), by decide +kernel, by decide +kernel, by decide +kernel⟩

/-- HE-6 and its decoding. -/
theorem witness_HuffmanRoundTrip :
    (withSource [0x42, 0x41]).healthy ∧ (withSource [0x42, 0x41]).ioFine ∧
    (withSource [0x42, 0x41]).params.outSize < 2 ^ 64 ∧
    (∃ t, exec .hencEncode (withSource [0x42, 0x41]) = .next t ∧
      (t.status.fault = false ∧ (withSource [0x06, 0x15, 0x12, 0x18]).srcBytes = t.outBytes)) ∧
    (withSource [0x06, 0x15, 0x12, 0x18]).healthy ∧ (withSource [0x06, 0x15, 0x12, 0x18]).ioFine ∧
    (withSource [0x42, 0x41]).slen.toNat ≤ (withSource [0x06, 0x15, 0x12, 0x18]).params.outSize ∧
    (withSource [0x06, 0x15, 0x12, 0x18]).params.outSize < 2 ^ 64 :=
  ⟨by decide +kernel, by decide +kernel, by decide +kernel, of_next (by decide +kernel), by decide +kernel,
    by decide +kernel, by decide +kernel, by decide +kernel⟩

/-- `small` while a tree is parsed. -/
def parsing (stack : List ParseFrame) (next : Nat) : State :=
  mapUnits (fun u => { u with parseStack := stack, nextH := BitVec.ofNat 10 next }) small

theorem witness_TreeTokensBuildTheTree :
    small.healthy ∧ small.u.parseStack = [] ∧ small.u.nextH = 256 ∧ abraShape.nodes ≤ 255 ∧
    (parsing [.left 510, .right 256] 511).healthy ∧
    (parsing [.left 510, .right 256] 511).u.parseStack = .left 510 :: [.right 256] ∧ 256 ≤ (510 : HId).toNat ∧
    (510 : HId) ≠ nilH ∧
    (parsing [.right 256] 257).healthy ∧ (parsing [.right 256] 257).u.parseStack = [.right 256] ∧ 256 ≤ (256 : HId).toNat ∧
    (256 : HId) ≠ nilH ∧ (parsing [] 510).healthy ∧ (parsing [] 510).u.nextH ≠ 511 ∧
    (parsing [] 511).healthy ∧ (parsing [] 511).u.nextH = 511 := by decide +kernel

/-- `small` at count group g. -/
def counting (g : Nat) : State := mapUnits (fun u => { u with cntIdx := g }) small

theorem witness_CountAndCodeTokens :
    (counting 7).healthy ∧ (counting 7).u.cntIdx < 8 ∧ (counting 8).healthy ∧ 8 ≤ (counting 8).u.cntIdx ∧
    (0 : Byte) = 0 ∧ (1 : Byte) ≠ 0 ∧
    (abra []).healthy ∧ (abra []).ioFine ∧ (abra []).u.holds (abra []).u.rootH abraShape = true ∧
    abraShape.follow [true, true] = some 0x52 ∧ (abra []).room 1 := by decide +kernel

/-! The window and the dictionary. -/

theorem witness_WindowCommandsReadWhatWasWritten :
    small.healthy ∧ small.params.wf ∧ small.u.isMember 16 = false ∧ small.u.isMember 17 = false ∧
    (4112 : Word).toNat < small.params.slots ∧
    Memory.get (withWindow [0x41]).u.window (4096 : Word).toNat = some 0x41 ∧
    small.u.written (4112 : Word).toNat = false := by decide +kernel

/-- Position 0 is the one member of a window that begins with A. -/
def single (bytes : List Nat) : State := mapUnits oneMember (withWindow (0x41 :: bytes))

theorem single_isMember (bytes : List Nat) (p : Pos) : (single bytes).u.isMember p = true ↔ p = 0 := by
  have h : (single bytes).u.isMember p = if (0 : Nat) = p.toNat then true else false := by
    simp [single, mapUnits, oneMember, withWindow, Units.isMember, Units.setMember, Units.setRoot, Units.powerOn,
      Vector.getElem_set]
  rw [h, BitVec.toNat_eq]
  by_cases h0 : (0 : Nat) = p.toNat <;> simp [h0]
  omega

theorem single_rootOf_ne (bytes : List Nat) (c : Byte) (hc : c ≠ 0x41) : (single bytes).u.rootOf c = none := by
  have h : ¬ 0x41 = c.toNat := fun e => hc (BitVec.eq_of_toNat_eq e.symm)
  simp [single, mapUnits, oneMember, withWindow, Units.rootOf, Units.setMember, Units.setRoot, Units.powerOn, h]

/-- The trees of `single`. -/
def singleTree (c : Byte) : DTree := if c = 0x41 then .node .nil 0 .nil else .nil

theorem singleTree_ne (c : Byte) (hc : c ≠ 0x41) : singleTree c = .nil := if_neg hc

theorem mem_singleTree (c : Byte) (p : Pos) : p ∈ (singleTree c).inorder ↔ c = 0x41 ∧ p = 0 := by
  by_cases hc : c = 0x41
  · subst hc
    exact ⟨fun h => ⟨rfl, List.mem_singleton.mp h⟩, fun h => List.mem_singleton.mpr h.2⟩
  · rw [singleTree_ne c hc]
    exact ⟨fun h => (List.not_mem_nil h).elim, fun h => (hc h.1).elim⟩

theorem single_dictOk (bytes : List Nat) : (single bytes).u.dictOk := by
  refine ⟨singleTree, fun c => ?_, fun c p h => ?_, fun p => ?_, fun p _ => ?_⟩
  · by_cases hc : c = 0x41
    · subst hc
      have h : (single bytes).u.rootOf 0x41 = some 0 := rfl
      have h1 : (single bytes).u.parentOf 0 = none := powerOn_parentOf 0
      have h2 : (single bytes).u.leftOfD 0 = none := powerOn_leftOfD 0
      have h3 : (single bytes).u.rightOfD 0 = none := powerOn_rightOfD 0
      refine ⟨?_, by decide⟩
      change (single bytes).u.spells none ((single bytes).u.rootOf 0x41) (.node .nil 0 .nil) = true
      rw [h, Units.spells, h1, h2, h3]
      rfl
    · rw [single_rootOf_ne _ _ hc, singleTree_ne _ hc]
      exact ⟨rfl, by decide⟩
  · obtain ⟨rfl, rfl⟩ := (mem_singleTree c p).mp h
    rfl
  · rw [single_isMember]
    exact ⟨fun h => ⟨0x41, (mem_singleTree _ _).mpr ⟨rfl, h⟩⟩, fun ⟨c, h⟩ => ((mem_singleTree c p).mp h).2⟩
  · exact ⟨powerOn_parentOf p, powerOn_leftOfD p, powerOn_rightOfD p⟩

theorem witness_RemoveDeletesOneNode :
    (single [0x42]).healthy ∧ (single [0x42]).u.dictOk ∧ (single [0x42]).u.isMember 0 = true ∧
    (single [0x42]).u.isMember 4095 = false ∧
    (single [0x42]).u.spells none ((single [0x42]).u.rootOf 0x41) (.node .nil 0 .nil) = true :=
  ⟨by decide +kernel, single_dictOk _, by decide +kernel, by decide +kernel, by decide +kernel⟩

/-- "AB.AC." with the member 0, for MATCH_ADD 3, 2; and "AB.XC.", where the tree of X is empty. -/
theorem witness_MatchAddFindsAMember :
    ∀ x ∈ [(0x41, (0x41 : Byte)), (0x58, 0x58)],
      (single [0x42, 0x2E, x.1, 0x43, 0x2E]).healthy ∧ (single [0x42, 0x2E, x.1, 0x43, 0x2E]).u.dictOk ∧
      (single [0x42, 0x2E, x.1, 0x43, 0x2E]).u.isMember 3 = false ∧ 1 ≤ 2 ∧
      2 ≤ (single [0x42, 0x2E, x.1, 0x43, 0x2E]).params.maxLen ∧ (single [0x42, 0x2E, x.1, 0x43, 0x2E]).params.wf ∧
      Memory.get (single [0x42, 0x2E, x.1, 0x43, 0x2E]).u.window (3 : Pos).toNat = some x.2 ∧
      (∀ j < 2, (single [0x42, 0x2E, x.1, 0x43, 0x2E]).u.written ((3 : Pos).toNat + j) = true) ∧
      (∀ q, (single [0x42, 0x2E, x.1, 0x43, 0x2E]).u.isMember q = true →
        ∀ j < 2, (single [0x42, 0x2E, x.1, 0x43, 0x2E]).u.written (q.toNat + j) = true) ∧
      ((single [0x42, 0x2E, x.1, 0x43, 0x2E]).u.rootOf x.2 = none ↔ x.2 = 0x58) := by
  intro x hx
  have hw : (single [0x42, 0x2E, x.1, 0x43, 0x2E]).healthy ∧
      (single [0x42, 0x2E, x.1, 0x43, 0x2E]).u.isMember 3 = false ∧
      2 ≤ (single [0x42, 0x2E, x.1, 0x43, 0x2E]).params.maxLen ∧ (single [0x42, 0x2E, x.1, 0x43, 0x2E]).params.wf ∧
      Memory.get (single [0x42, 0x2E, x.1, 0x43, 0x2E]).u.window (3 : Pos).toNat = some x.2 ∧
      (∀ j < 2, (single [0x42, 0x2E, x.1, 0x43, 0x2E]).u.written ((3 : Pos).toNat + j) = true) ∧
      (∀ j < 2, (single [0x42, 0x2E, x.1, 0x43, 0x2E]).u.written ((0 : Pos).toNat + j) = true) ∧
      ((single [0x42, 0x2E, x.1, 0x43, 0x2E]).u.rootOf x.2 = none ↔ x.2 = 0x58) := by
    revert x
    decide +kernel
  obtain ⟨h1, h2, h3, h4, h5, h6, h7, h8⟩ := hw
  exact ⟨h1, single_dictOk _, h2, by decide, h3, h4, h5, h6,
    fun q hq j hj => by rw [(single_isMember _ q).mp hq]; exact h7 j hj, h8⟩

/-- The trees of "AB.AC." with the member 0: of A, and of any other byte. -/
theorem witness_MatchAddFindsAMember_trees :
    (single [0x42, 0x2E, 0x41, 0x43, 0x2E]).u.spells none ((single [0x42, 0x2E, 0x41, 0x43, 0x2E]).u.rootOf 0x41)
      (.node .nil 0 .nil) = true ∧
    (0x42 : Byte) ≠ 0x41 ∧
    (single [0x42, 0x2E, 0x41, 0x43, 0x2E]).u.spells none ((single [0x42, 0x2E, 0x41, 0x43, 0x2E]).u.rootOf 0x42)
      .nil = true := by decide +kernel

/-- S8: a removed position added again. -/
theorem witness_RemovedPositionNeverMatchesItself :
    (single [0x42]).healthy ∧ (single [0x42]).u.dictOk ∧
    ∃ t, exec (.dictRemove ((0 : Pos).setWidth 64)) (single [0x42]) = .next t ∧
      ∃ r, exec (.mfMatchAdd ((0 : Pos).setWidth 64) 2) t = .next r ∧ r.status.fault = false := by
  refine ⟨by decide +kernel, single_dictOk _, ?_⟩
  obtain ⟨t, h1, h2⟩ := of_nextHas
    (o := exec (.dictRemove ((0 : Pos).setWidth 64)) (single [0x42]))
    (p := fun t => nextHas (exec (.mfMatchAdd ((0 : Pos).setWidth 64) 2) t) (fun r => decide (r.status.fault = false)))
    (by decide +kernel)
  exact ⟨t, h1, of_next h2⟩

/-! LZSS. -/

theorem witness_LzssEmittersWriteTheirToken :
    (writing 7 62).healthy ∧ (writing 7 62).ioFine ∧ (writing 7 62).u.writerOk ∧
    (writing 7 62).room ((writing 7 62).u.bytesFor 9) ∧ (writing 7 62).room ((writing 7 62).u.bytesFor 13) ∧
    (writing 7 61).healthy ∧ (writing 7 61).ioFine ∧ (writing 7 61).u.writerOk ∧ (writing 7 61).params.wf ∧
    15 < 2 ^ (writing 7 61).params.lzN ∧ (writing 7 61).room ((writing 7 61).u.bytesFor (13 + (writing 7 61).params.lzN)) := by
  decide +kernel

/-- LZ-5: the literal A and the reference 0, 2. -/
theorem witness_LzssEncodeWritesTokensForTheSource :
    (withSource [0x41, 0x41, 0x41]).healthy ∧ (withSource [0x41, 0x41, 0x41]).ioFine ∧
    (withSource [0x41, 0x41, 0x41]).params.wf ∧ (withSource [0x41, 0x41, 0x41]).params.lzN = 4 ∧
    (withSource [0x41, 0x41, 0x41]).srcBytes = [0x41, 0x41, 0x41] ∧
    (packPadded (tokensBits small.params [.literal 0x41, .reference 0 0, .endToken 3])).length ≤
      (withSource [0x41, 0x41, 0x41]).params.outSize := by decide +kernel

/-- LZ-5's output read as tokens, with three bits behind the end token. -/
theorem witness_LzssDecodeExpandsTheTokens :
    (withSource [0x83, 0x00, 0x00, 0x18, 0x00]).healthy ∧ (withSource [0x83, 0x00, 0x00, 0x18, 0x00]).ioFine ∧
    (withSource [0x83, 0x00, 0x00, 0x18, 0x00]).params.wf ∧
    lzExpand small.params [.literal 0x41, .reference 0 0] [] = some [0x41, 0x41, 0x41] ∧
    bytesBits (withSource [0x83, 0x00, 0x00, 0x18, 0x00]).srcBytes =
      tokensBits small.params ([.literal 0x41, .reference 0 0] ++ [.endToken (BitVec.ofNat 12 3)]) ++ [false] ∧
    3 ≤ (withSource [0x83, 0x00, 0x00, 0x18, 0x00]).params.outSize := by decide +kernel

theorem witness_LzssRoundTrip :
    (withSource [0x41, 0x41, 0x41]).healthy ∧ (withSource [0x41, 0x41, 0x41]).ioFine ∧
    (withSource [0x41, 0x41, 0x41]).params.wf ∧
    (∃ t, exec .lencEncode (withSource [0x41, 0x41, 0x41]) = .next t ∧
      (t.status.fault = false ∧ (withSource [0x83, 0x00, 0x00, 0x18, 0x00]).srcBytes = t.outBytes)) ∧
    (withSource [0x83, 0x00, 0x00, 0x18, 0x00]).healthy ∧ (withSource [0x83, 0x00, 0x00, 0x18, 0x00]).ioFine ∧
    (withSource [0x83, 0x00, 0x00, 0x18, 0x00]).params.wf ∧
    (withSource [0x83, 0x00, 0x00, 0x18, 0x00]).params.lzN = (withSource [0x41, 0x41, 0x41]).params.lzN ∧
    (withSource [0x41, 0x41, 0x41]).slen.toNat ≤ (withSource [0x83, 0x00, 0x00, 0x18, 0x00]).params.outSize :=
  ⟨by decide +kernel, by decide +kernel, by decide +kernel, of_next (by decide +kernel), by decide +kernel,
    by decide +kernel, by decide +kernel, by decide +kernel, by decide +kernel⟩

theorem witness_EmptySourceEncodes :
    small.healthy ∧ small.ioFine ∧ small.slen = 0 ∧ 3 ≤ small.params.outSize ∧ small.params.outSize < 2 ^ 64 := by
  decide +kernel

/-- A decoder at cursor 4095 behind a window written at 4094, with one byte of room left for each byte it writes. -/
def decoding (room : Nat) (bytes : List Nat) : State :=
  { withSource bytes with
    opos := BitVec.ofNat 64 (64 - room), olen := BitVec.ofNat 64 (64 - room)
    u := { small.u with dcur := 4095, window := cellsFrom 4094 [0x41] } }

theorem witness_LzssTokensCarriedOut :
    (decoding 2 []).healthy ∧ (decoding 2 []).ioFine ∧ (decoding 2 []).params.wf ∧
    (decoding 2 []).tokenReady (.literal 0x42) ∧ (decoding 2 []).tokenReady (.reference 4094 0) ∧
    (decoding 17 []).tokenReady (.reference 4094 15) ∧ (decoding 0 []).tokenReady (.endToken 4095) := by
  simp only [State.tokenReady]
  decide +kernel

/-- The literal 0x41 of vector P3, then bits of the next token; RES0 = 0. -/
theorem witness_DecodeTokenCarriesOutTheNextToken :
    (decoding 1 [0x83, 0x0A]).healthy ∧ (decoding 1 [0x83, 0x0A]).ioFine ∧ (decoding 1 [0x83, 0x0A]).u.readerOk ∧
    (decoding 1 [0x83, 0x0A]).u.ldend = false ∧
    decodeToken (.lz (decoding 1 [0x83, 0x0A]).params.lzN (decoding 1 [0x83, 0x0A]).u.dcur) (decoding 1 [0x83, 0x0A]).inBits =
      .ok (LzToken.instr (.literal 0x41), [true, false, true, false, false, false, false]) ∧
    (((decoding 1 [0x83, 0x0A]).begin 0xA1).consume
      ((decoding 1 [0x83, 0x0A]).inBits.length - [true, false, true, false, false, false, false].length)).tokenReady
        (.literal 0x41) := by
  simp only [State.tokenReady]
  decide +kernel

/-- A decoder at cursor 0, with slots 4094 and 4095 written, and with a member at the cursor or behind it. -/
def copying (member : Option Pos) : State :=
  mapUnits (fun u => { (match member with | some p => Units.setMember p true u | none => u) with
    dcur := 0, window := cellsFrom 4094 [0x41, 0x42] }) small

/-- A decoder at cursor 5 with slot 0 alone written. -/
def halfWritten : State := mapUnits (fun u => { u with dcur := 5, window := cellsFrom 0 [0x41] }) small

theorem witness_LzssTokensThatFault :
    (single []).healthy ∧ (single []).ioFine ∧ (single []).room 1 ∧ (single []).u.isMember (single []).u.dcur = true ∧
    (decoding 1 []).healthy ∧ (decoding 1 []).ioFine ∧ (decoding 1 []).room 1 ∧ (4093 : Pos) ≠ (decoding 1 []).u.dcur ∧
    1 ≤ (decoding 1 []).refLength 0 ∧ (decoding 1 []).u.written (4093 : Pos).toNat = false := by decide +kernel

/-- A reference whose second slot was never written. -/
theorem witness_LzssTokensThatFault_unwritten :
    halfWritten.healthy ∧ halfWritten.ioFine ∧ halfWritten.room 1 ∧ (0 : Pos) ≠ halfWritten.u.dcur ∧
    1 < halfWritten.refLength 0 ∧ 1 < (halfWritten.u.dcur - (0 : Pos)).toNat ∧
    (∀ j < 1, halfWritten.u.isMember (halfWritten.u.dcur + BitVec.ofNat 12 j) = false) ∧
    (∀ j < 1, halfWritten.u.written ((0 : Pos) + BitVec.ofNat 12 j).toNat = true) ∧
    halfWritten.u.written ((0 : Pos) + BitVec.ofNat 12 1).toNat = false := by decide +kernel

/-- The premises of the clause on a reference of length field 0 whose byte k hits a member. -/
abbrev HitsMember (s : State) (p : Pos) (k : Nat) : Prop :=
  s.healthy ∧ s.ioFine ∧ s.room 1 ∧ p ≠ s.u.dcur ∧ k < s.refLength 0 ∧ s.room (k + 1) ∧
  (∀ j < k, s.u.isMember (s.u.dcur + BitVec.ofNat 12 j) = false) ∧
  s.u.isMember (s.u.dcur + BitVec.ofNat 12 k) = true ∧
  (∀ j < k + 1, j < (s.u.dcur - p).toNat → s.u.written (p + BitVec.ofNat 12 j).toNat = true)

/-- A reference that hits a member at its first byte, at its second, and at a byte it copies from the copy itself. -/
theorem witness_LzssTokensThatFault_member :
    HitsMember (copying (some 0)) 4094 0 ∧ HitsMember (copying (some 1)) 4094 1 ∧ HitsMember (copying (some 1)) 4095 1 := by
  decide +kernel

end Sys2Proof.Tests
end

section
/-! SUPPORT. Every instruction as its check and its pseudocode: the dispatch said once, and what a step from a host's
write to CMD can be. -/

namespace Sys2Proof.Machine

/-- The pseudocode of an instruction, behind its check. BLK.RESET has none: it is `State.blockReset`. -/
def bodyOf : Instr → Op Unit
  | .blkNop | .blkReset => pure ()
  | .blkStreamInit => streamInit
  | .bswWriteBits v c f => writeBits v.toNat c.toNat (f == 1)
  | .bswFlush => writeBits 0 0 true
  | .bsrReadBits c r => do
    let va ← readBits c.toNat (r == 1)
    setRes va.1 va.2
  | .htbClearWeights => setUnits fun u => { u with weight := Vector.replicate 256 0 }
  | .htbCountByte b => countByte (lowByte b)
  | .htbBuildTree => do
    buildTree
    let u ← units
    setRes0 u.rootH.toNat
  | .htbDeriveCodes => deriveCodes
  | .hencEncode => huffmanEncode
  | .hencEmitTree => emitTree
  | .hencEmitCount n => emitCount n.toNat
  | .hencEmitCode b => emitCode (lowByte b)
  | .hdecDecode => huffmanDecode
  | .hdecParseTree => do
    parseTree
    let u ← units
    setRes0 u.rootH.toNat
  | .hdecParseCount => do
    let n ← parseCount
    setRes0 n
  | .hdecDecodeSymbol => do
    let b ← decodeSymbol
    setRes0 b
  | .winClear => setUnits Units.winClear
  | .winWrite k b => winPut (lowPos k) (lowByte b)
  | .winRead k => do
    let b ← winRd k.toNat
    setRes0 b.toNat
  | .dictClear => setUnits Units.dictClear
  | .dictRemove p => removeNode (lowPos p)
  | .mfMatchAdd p n => do
    let m ← matchAdd (lowPos p) n.toNat
    setRes (matchResult m.1) m.2
  | .lencEncode => lzssEncode
  | .lencEmitLiteral b => emitLiteral (lowByte b)
  | .lencEmitReference p n => emitReference p.toNat n.toNat
  | .lencEmitSentinel p => emitSentinel p.toNat
  | .ldecDecode => lzssDecode
  | .ldecDecodeToken => do
    let kc ← decodeLzToken
    setRes kc.1 kc.2
  | .ldecInit => setUnits Units.ldecInit
  | .hufTreeLeaf v => doTreeLeaf v
  | .hufTreeInternal => doTreeInternal
  | .hufCountGroup d last => doCountGroup d last
  | .hufCode bits => doCode bits
  | .lzLiteral b => doTokenOnly (.literal b)
  | .lzReference p e => doTokenOnly (.reference p e)
  | .lzEnd p => doTokenOnly (.endToken p)

/-- The fault, if any, that a command's check before execution raises (60_exceptions.md R379 to R381). -/
def checkOf (s : State) : Instr → Option FaultCode
  | .bswWriteBits _ c f => checkFault (isCount c && isFlag f) true
  | .bsrReadBits c r => checkFault (isCount c && isFlag r) true
  | .htbCountByte b | .lencEmitLiteral b => checkFault (isByte b) true
  | .htbDeriveCodes | .hencEmitTree | .hdecDecodeSymbol => checkFault true s.hasTree
  | .hencEmitCode b => checkFault (isByte b) (s.u.codeValid (lowByte b))
  | .winWrite k b => checkFault (isPosition k && isByte b) (!s.u.isMember (lowPos k))
  | .winRead k => checkFault (isSlot s.params k) true
  | .dictRemove p | .lencEmitSentinel p => checkFault (isPosition p) true
  | .mfMatchAdd p n => checkFault (isPosition p && isMatchLength s.params n) (!s.u.isMember (lowPos p))
  | .lencEmitReference p n => checkFault (isPosition p && isRefLength s.params n) true
  | .ldecDecodeToken => checkFault true (!s.u.ldend)
  | _ => none

/-- A command but BLK.RESET runs its pseudocode behind its check (40_block_control.md R160). -/
theorem exec_command {s : State} {i : Instr} {v : Word} (h : commandWord s.params i = some v) (hr : i ≠ .blkReset) :
    exec i s = runCommand v (checkOf s i) (bodyOf i) s := by
  cases i
  case blkReset => exact absurd rfl hr
  all_goals cases h
  all_goals rfl

/-- A token runs its pseudocode as it stands (log 12). -/
theorem exec_token {s : State} {i : Instr} (h : commandWord s.params i = none) : exec i s = runToken (bodyOf i) s := by
  cases i
  all_goals cases h
  all_goals rfl

/-- The CMD word of a row of the opcode map is its opcode (30_encoding.md R121). -/
theorem commandWord_opcodeMap (P : Config.Params) (a b c : Word) :
    ∀ r ∈ opcodeMap, commandWord P (r.make a b c) = some r.opcode := by
  simp only [opcodeMap, List.cons_append, List.nil_append, List.forall_mem_cons, List.not_mem_nil, false_implies,
    implies_true, and_true]
  have hwrite : commandWord P (writeBitsOf a b c) = some 0x10 := by
    unfold writeBitsOf
    split <;> rfl
  exact ⟨rfl, rfl, rfl, hwrite, by repeat' constructor⟩

/-- A word decodes to the command that is encoded by that word (30_encoding.md R120, R121). -/
theorem commandWord_of_decode (P : Config.Params) {w : CmdWords} {i : Instr} (h : decodeCommand w = .ok i) :
    commandWord P i = some w.cmd := by
  unfold decodeCommand at h
  split at h
  · cases h
  · split at h
    · next r hr =>
      have hop : (r.opcode == w.cmd) = true := List.find?_some (p := fun r : OpRow => r.opcode == w.cmd) hr
      cases h
      rw [commandWord_opcodeMap P _ _ _ r (List.mem_of_find?_eq_some hr), beq_iff_eq.mp hop]
    · cases h

/-- What a host's write of v to CMD can lead to (40_block_control.md R160). -/
inductive CmdEffect (v : Word) (s : State) : State → Prop
  /-- While a fault is pending only CMD changes. -/
  | ignored (hf : s.status.fault = true) : CmdEffect v s { s with cmd := v }
  /-- BLK.RESET, whether or not a fault is pending. -/
  | reset (hv : v = 1) : CmdEffect v s s.blockReset
  /-- A check before execution faults. -/
  | check (c : FaultCode) (h : s.healthy) : CmdEffect v s (s.checkFaulted v c)
  /-- The pseudocode of a command ends well. -/
  | completed (i : Instr) (q : State) (h : s.healthy) (hi : commandWord s.params i = some v) (hr : i ≠ .blkReset)
      (hc : checkOf s i = none) (hb : bodyOf i (s.begin v) = .ok () q) : CmdEffect v s q.completed
  /-- The pseudocode of a command raises a fault. -/
  | faulted (i : Instr) (c : FaultCode) (q : State) (h : s.healthy) (hi : commandWord s.params i = some v)
      (hb : bodyOf i (s.begin v) = .error (.raised c) q) : CmdEffect v s (q.faultEntry .execution c)

/-- A fault is pending or not. -/
theorem State.healthy_or_fault (s : State) : s.healthy ∨ s.status.fault = true := by
  unfold State.healthy
  cases s.status.fault
  · exact .inl rfl
  · exact .inr rfl

theorem illegalCommand_effect (v : Word) (s : State) : ∃ t, illegalCommand v s = .next t ∧ CmdEffect v s t := by
  rcases s.healthy_or_fault with h | h
  · refine ⟨s.checkFaulted v .illegalCommand, ?_, .check _ h⟩
    unfold illegalCommand
    rw [if_neg (by rw [show s.status.fault = false from h]; decide)]
    rfl
  · exact ⟨_, if_pos h, .ignored h⟩

theorem exec_effect {v : Word} {s t : State} {i : Instr} (hi : commandWord s.params i = some v)
    (h : exec i s = .next t) : CmdEffect v s t := by
  by_cases hr : i = .blkReset
  · subst hr
    cases hi
    cases h
    exact .reset rfl
  rw [exec_command hi hr] at h
  rcases s.healthy_or_fault with hs | hs
  · rcases runCommand_cases hs h with ⟨c, -, rfl⟩ | ⟨hc, ⟨q, hb, rfl⟩ | ⟨c, q, hb, rfl⟩⟩
    · exact .check c hs
    · exact .completed i q hs hi hr hc hb
    · exact .faulted i c q hs hi hb
  · rw [runCommand_ignored hs] at h
    cases h
    exact .ignored hs

theorem onCmdWrite_effect {v : Word} {s t : State} (h : onCmdWrite v s = .next t) : CmdEffect v s t := by
  unfold onCmdWrite at h
  split at h
  · next i hd => exact exec_effect (commandWord_of_decode s.params hd) h
  · obtain ⟨t', ht, he⟩ := illegalCommand_effect v s
    rw [ht] at h
    cases h
    exact he

/-- What one step can do (60_exceptions.md R400): nothing, a host's write of an operand register, of SLEN or of SRC, or
a write to CMD. -/
inductive StepEffect (s : State) : State → Prop
  | idle : StepEffect s s
  | operands (rest : List HostMove) (a b c : Word) :
      StepEffect s { s with moves := rest, arg0 := a, arg1 := b, arg2 := c }
  | sourceLength (rest : List HostMove) (v : Word) :
      StepEffect s (({ s with moves := rest } : State).writeSlen v)
  | sourceByte (rest : List HostMove) (k : Nat) (b : Byte) (hk : k < s.params.srcSize) :
      StepEffect s { s with moves := rest, src := Memory.write s.src k b }
  | command (rest : List HostMove) (v : Word) (t : State) (h : CmdEffect v { s with moves := rest } t) : StepEffect s t

theorem step_effect {s t : State} (h : step s = .next t) : StepEffect s t := by
  unfold step at h
  split at h
  · cases h
    exact .idle
  · next m rest _ =>
    cases m with
    | writeSrc k b =>
      unfold hostMove at h
      dsimp only at h
      split at h
      · next hk =>
        cases h
        exact .sourceByte rest k b hk
      · cases h
    | writeReg n v =>
      unfold hostMove at h
      dsimp only at h
      split at h
      · exact .command rest v t (onCmdWrite_effect h)
      · cases h
        exact .operands rest _ _ _
      · cases h
        exact .operands rest _ _ _
      · cases h
        exact .operands rest _ _ _
      · cases h
        exact .operands rest _ _ _
      · cases h
        exact .sourceLength rest v
      · split at h
        · cases h
          exact .operands rest _ _ _
        · cases h

end Sys2Proof.Machine
end

section
/-! SUPPORT. The frame of every instruction's pseudocode, and the statements about the host's port and the frame. -/

namespace Sys2Proof.Machine

/-- The pseudocode of an instruction changes no group but those its rule writes (10_state.md R72), whichever way it
ends; CMD and STATUS belong to the command around it. -/
theorem writes_bodyOf (i : Instr) : Op.Writes ((writeGroups i).erase .control) (bodyOf i) := by
  cases i with
  | blkNop => exact .pure ()
  | blkReset => exact .pure ()
  | blkStreamInit => exact writes_streamInit
  | bswWriteBits v c f => exact writes_writeBits _ _ _
  | bswFlush => exact writes_writeBits _ _ _
  | bsrReadBits c r =>
    exact ((writes_readBits _ _).mono (by simp [writeGroups])).bind fun _ => (writes_setRes _ _).mono (by simp [writeGroups])
  | htbClearWeights => exact .setUnits (f := (fun u => { u with weight := Vector.replicate 256 0 })) fun s g hg => by cases g <;> simp_all [State.agree, writeGroups]
  | htbCountByte b =>
    exact .withUnits fun _ => .ite (.raise _) (.setUnits fun s g hg => by
      cases g <;> simp_all [State.agree, writeGroups])
  | htbBuildTree =>
    exact (writes_buildTree.mono (by simp [writeGroups])).bind fun _ => .withUnits fun _ => (writes_setRes0 _).mono (by simp [writeGroups])
  | htbDeriveCodes => exact writes_deriveCodes
  | hencEncode => exact writes_huffmanEncode
  | hencEmitTree => exact writes_emitTree
  | hencEmitCount n => exact writes_emitCount _
  | hencEmitCode b => exact writes_emitCode _
  | hdecDecode => exact writes_huffmanDecode
  | hdecParseTree =>
    exact (writes_parseTree.mono (by simp [writeGroups])).bind fun _ => .withUnits fun _ => (writes_setRes0 _).mono (by simp [writeGroups])
  | hdecParseCount => exact (writes_parseCount.mono (by simp [writeGroups])).bind fun _ => (writes_setRes0 _).mono (by simp [writeGroups])
  | hdecDecodeSymbol => exact (writes_decodeSymbol.mono (by simp [writeGroups])).bind fun _ => (writes_setRes0 _).mono (by simp [writeGroups])
  | winClear => exact .setUnits (f := Units.winClear) fun s g hg => by cases g <;> simp_all [State.agree, writeGroups]
  | winWrite k b => exact writes_winPut _ _
  | winRead k => exact ((writes_winRd _).mono (by simp [writeGroups])).bind fun _ => (writes_setRes0 _).mono (by simp [writeGroups])
  | dictClear => exact .setUnits (f := Units.dictClear) fun s g hg => by cases g <;> simp_all [State.agree, writeGroups]
  | dictRemove p => exact writes_removeNode _
  | mfMatchAdd p n => exact ((writes_matchAdd _ _).mono (by simp [writeGroups])).bind fun _ => (writes_setRes _ _).mono (by simp [writeGroups])
  | lencEncode => exact writes_lzssEncode
  | lencEmitLiteral b => exact writes_emitLiteral _
  | lencEmitReference p n => exact writes_emitReference _ _
  | lencEmitSentinel p => exact writes_emitSentinel _
  | ldecDecode => exact writes_lzssDecode
  | ldecDecodeToken =>
    exact (writes_decodeLzToken.mono (by simp [writeGroups])).bind fun _ => (writes_setRes _ _).mono (by simp [writeGroups])
  | ldecInit => exact .setUnits (f := Units.ldecInit) fun s g hg => by cases g <;> simp_all [State.agree, writeGroups]
  | hufTreeLeaf v => exact writes_doTreeLeaf v
  | hufTreeInternal => exact writes_doTreeInternal
  | hufCountGroup d last => exact writes_doCountGroup d last
  | hufCode bits => exact writes_doCode bits
  | lzLiteral b => exact (writes_doToken _).bind fun _ => .pure _
  | lzReference p e => exact (writes_doToken _).bind fun _ => .pure _
  | lzEnd p =>
    exact (Op.Writes.withUnits fun _ => .withParams fun _ => .ite (writes_doEnd.bind fun _ => .pure _) (.raise _)).bind
      fun _ => .pure _

/-- No pseudocode changes CMD or STATUS. -/
theorem bodyOf_control (i : Instr) (s : State) : s.agree (Op.final (bodyOf i s)) .control :=
  writes_bodyOf i s .control (by cases i <;> simp [writeGroups])

theorem bodyOf_control_ok {i : Instr} {s q : State} (h : bodyOf i s = .ok () q) : q.cmd = s.cmd ∧ q.status = s.status := by
  have hc := bodyOf_control i s
  rwa [h] at hc

theorem bodyOf_control_error {i : Instr} {s q : State} {e : Stop} (h : bodyOf i s = .error e q) :
    q.cmd = s.cmd ∧ q.status = s.status := by
  have hc := bodyOf_control i s
  rwa [h] at hc

/-! ## The frame of an instruction -/

/-- Completing a command and starting it change CMD and STATUS only. -/
theorem State.agree_completed (s : State) (v : Word) {q : State} {g : Group} (hg : g ≠ .control)
    (h : (s.begin v).agree q g) : s.agree q.completed g := by
  cases g with
  | control => exact absurd rfl hg
  | _ => exact h

theorem command_frame {s t : State} {i : Instr} {v : Word} {g : Group} (hs : s.healthy)
    (hi : commandWord s.params i = some v) (hr : i ≠ .blkReset) (h : exec i s = .next t)
    (ht : t.status.fault = false) (hg : g ∉ writeGroups i) (hc : g ≠ .control) : s.agree t g := by
  rw [exec_command hi hr] at h
  rcases runCommand_cases hs h with ⟨c, -, rfl⟩ | ⟨-, ⟨q, hb, rfl⟩ | ⟨c, q, -, rfl⟩⟩
  · cases ht
  · have hw := writes_bodyOf i (s.begin v) g fun hm => hg (List.mem_of_mem_erase hm)
    rw [hb] at hw
    exact State.agree_completed s v hc hw
  · rw [State.faultEntry_fault] at ht
    cases ht

theorem token_frame {s t : State} {i : Instr} {g : Group} (hs : s.healthy) (hi : commandWord s.params i = none)
    (h : exec i s = .next t) (ht : t.status.fault = false) (hg : g ∉ writeGroups i) : s.agree t g := by
  have hw := writes_bodyOf i s g fun hm => hg (List.mem_of_mem_erase hm)
  rw [exec_token hi, runToken_runs hs] at h
  cases hb : bodyOf i s with
  | ok a q =>
    rw [hb] at h hw
    cases h
    exact hw
  | error e q =>
    rw [hb] at h
    cases e with
    | stuck f => cases h
    | raised c =>
      cases h
      rw [State.faultEntry_fault] at ht
      cases ht

/-- Every command writes CMD and STATUS (40_block_control.md R160). -/
theorem control_mem_writeGroups {P : Config.Params} {i : Instr} {v : Word} (h : commandWord P i = some v) :
    Group.control ∈ writeGroups i := by
  cases i <;> simp_all [commandWord, encode, writeGroups]

/-- Settles O24: the frame of the pseudocode, carried through the frame of a command or of a token. -/
theorem unlistedGroupsUnchanged : Obligations.UnlistedGroupsUnchanged := by
  intro s t i g hs hr h ht hg
  cases hi : commandWord s.params i with
  | none => exact token_frame hs hi h ht hg
  | some v => exact command_frame hs hi hr h ht hg fun hc => hg (hc ▸ control_mem_writeGroups hi)

/-! ## The host's port -/

/-- Settles O6: a table word of a command decodes from the very words withFetchWord puts in CMD and ARG0 to ARG2. -/
theorem placedCommandWordRunsNext : Obligations.PlacedCommandWordRunsNext := by
  intro s nbits w i hn h
  have hd : decodeCommand ⟨BitVec.ofNat 64 (w % 2 ^ nbits), BitVec.ofNat 64 (w % 2 ^ nbits / 2 ^ 64),
      BitVec.ofNat 64 (w % 2 ^ nbits / 2 ^ 128), BitVec.ofNat 64 (w % 2 ^ nbits / 2 ^ 192)⟩ = .ok i := by
    unfold decodeTableWord at h
    rw [if_neg (by omega)] at h
    split at h
    · next j hj =>
      cases h
      exact hj
    · cases h
  unfold State.withFetchWord
  rw [if_neg (by omega)]
  show onCmdWrite _ _ = _
  unfold onCmdWrite
  dsimp only [State.withCommandWord]
  rw [hd]

/-- Settles O8: the host's port has no arm for registers 11 to 15 but the ones that read 0 and drop the write. -/
theorem reservedRegistersReadZero : Obligations.ReservedRegistersReadZero := by
  intro s n v rest hn
  obtain ⟨k, hk⟩ : ∃ k, n.toNat = k + 11 := ⟨n.toNat - 11, by omega⟩
  constructor
  · unfold State.readReg
    rw [hk]
    rfl
  · intro hm
    unfold step
    rw [hm]
    show hostMove _ _ = _
    unfold hostMove
    dsimp only
    rw [hk]
    exact if_pos (by omega)

/-- CMD reads the last value written, whatever the command did (10_state.md R61). -/
theorem CmdEffect.cmd_eq {v : Word} {s t : State} (h : CmdEffect v s t) : t.cmd = v := by
  cases h with
  | ignored => rfl
  | reset hv => exact hv.symm
  | check => rfl
  | completed i q _ _ _ _ hb => exact (bodyOf_control_ok hb).1
  | faulted i c q _ _ hb => exact (bodyOf_control_error hb).1

/-- STATUS as a number, its fields at their places (10_state.md R64). -/
theorem Status.word_toNat (t : Status) :
    t.word.toNat = t.done.toNat + 2 * t.fault.toNat + 16 * t.fcode.toNat + 256 * t.fcmd.toNat := by
  have hd := Bool.toNat_le t.done
  have hf := Bool.toNat_le t.fault
  have hc := t.fcode.isLt
  have hm := t.fcmd.isLt
  unfold Status.word
  rw [BitVec.toNat_ofNat]
  exact Nat.mod_eq_of_lt (by omega)

/-- STATUS reads its fields, and its reserved bits read 0 (10_state.md R64). -/
theorem Status.word_fields (t : Status) :
    t.word.getLsbD 0 = t.done ∧ t.word.getLsbD 1 = t.fault ∧ t.word.extractLsb' 2 2 = 0 ∧
    t.word.extractLsb' 4 4 = t.fcode ∧ t.word.extractLsb' 8 8 = t.fcmd ∧ t.word.extractLsb' 16 48 = 0 := by
  have hw := t.word_toNat
  have hc := t.fcode.isLt
  have hm := t.fcmd.isLt
  have hd := Bool.toNat_le t.done
  have hf := Bool.toNat_le t.fault
  refine ⟨?_, ?_, ?_, ?_, ?_, ?_⟩
  · rw [BitVec.getLsbD, hw, Nat.testBit_zero]
    cases t.done <;> simp <;> omega
  · rw [BitVec.getLsbD, hw, Nat.testBit_succ, Nat.testBit_zero]
    cases t.fault <;> simp at hf ⊢ <;> omega
  all_goals
    apply BitVec.eq_of_toNat_eq
    rw [BitVec.extractLsb'_toNat, hw, Nat.shiftRight_eq_div_pow]
    simp
    omega

/-- Settles O9: the read map by computation, CMD by what a write to it can lead to, STATUS by its word's fields. -/
theorem statusReadsItsFields : Obligations.StatusReadsItsFields := by
  refine ⟨fun s => ⟨rfl, rfl, rfl, rfl, rfl, rfl, rfl, rfl, rfl, rfl⟩, ?_, ?_, ?_⟩
  · intro s t v rest hm h
    unfold step at h
    rw [hm] at h
    exact (onCmdWrite_effect h).cmd_eq
  · intro s k
    refine ⟨fun hk b hb => ?_, fun hk => if_pos hk, fun hk => if_neg (by omega)⟩
    unfold State.readOut State.outByte
    rw [if_pos hk, hb]
    rfl
  · intro s
    obtain ⟨h0, h1, h2, h4, h8, h16⟩ := s.status.word_fields
    refine ⟨h0, h1, h2, h4, h8, h16, fun v rest hm => ?_⟩
    unfold step
    rw [hm]
    rfl

/-! ## Power-on -/

/-- Settles O10. -/
theorem powerOnValues : Obligations.PowerOnValues := by
  refine ⟨rfl, rfl, rfl, rfl, rfl, rfl, rfl, rfl, rfl, rfl, rfl, rfl, rfl, rfl, rfl, rfl, rfl, rfl, rfl, rfl, rfl, rfl,
    rfl, rfl, fun b => ⟨?_, ?_, ?_⟩, fun k => rfl, fun p => ⟨?_, ?_, ?_, ?_⟩⟩
  · simp [State.reset, Units.powerOn, Units.weightAt]
  · simp [State.reset, Units.powerOn, Units.codeValid]
  · simp [State.reset, Units.powerOn, Units.rootOf]
  · simp [State.reset, Units.powerOn, Units.parentOf]
  · simp [State.reset, Units.powerOn, Units.leftOfD]
  · simp [State.reset, Units.powerOn, Units.rightOfD]
  · simp [State.reset, Units.powerOn, Units.isMember]

/-- With every link NIL and no member, the dictionary is 256 empty trees (43_lzss_dictionary.md R290). -/
theorem Units.dictOk_of_empty {u : Units} (hr : ∀ c, u.rootOf c = none) (hp : ∀ p, u.parentOf p = none)
    (hl : ∀ p, u.leftOfD p = none) (hrt : ∀ p, u.rightOfD p = none) (hm : ∀ p, u.isMember p = false) : u.dictOk := by
  refine ⟨fun _ => .nil, fun c => ⟨?_, List.nodup_nil⟩, fun c p h => ?_, fun p => ?_, fun p _ => ⟨hp p, hl p, hrt p⟩⟩
  · rw [hr c]
    rfl
  · cases h
  · rw [hm p]
    exact ⟨fun h => absurd h (by decide), fun ⟨c, h⟩ => absurd h List.not_mem_nil⟩

/-- Without a tree, a code and a construction under way the Huffman tables are legal (10_state.md R70). -/
theorem Units.huffInv_of_noTree {u : Units} (hpq : u.pq = []) (hps : u.parseStack = []) (hn : u.nextH = 256)
    (hr : u.rootH = nilH) (hc : u.cvalid = Vector.replicate 256 false) : u.HuffInv where
  idle := ⟨hpq, hps⟩
  nextId := by
    rw [hn]
    decide
  tree := .inl hr
  codes := by
    intro b hb
    simp [Units.codeValid, hc] at hb

/-- The dictionary and the Huffman tables are legal after BLK.RESET (40_block_control.md R161). -/
theorem resetUnits_ok (n : Nat) : (resetUnits n).dictOk ∧ (resetUnits n).HuffInv := by
  refine ⟨Units.dictOk_of_empty ?_ ?_ ?_ ?_ ?_, Units.huffInv_of_noTree rfl rfl rfl rfl rfl⟩ <;>
    simp [resetUnits, Units.powerOn, Units.rootOf, Units.parentOf, Units.leftOfD, Units.rightOfD, Units.isMember]

/-- The dictionary and the Huffman tables are legal after power-on (10_state.md R70). -/
theorem powerOn_ok : Units.powerOn.dictOk ∧ Units.powerOn.HuffInv := by
  refine ⟨Units.dictOk_of_empty ?_ ?_ ?_ ?_ ?_, Units.huffInv_of_noTree rfl rfl rfl rfl rfl⟩ <;>
    simp [Units.powerOn, Units.rootOf, Units.parentOf, Units.leftOfD, Units.rightOfD, Units.isMember]

/-- The streams are legal after power-on (10_state.md R70). -/
theorem State.reset_streamInv : State.reset.StreamInv where
  params := by decide
  srcForm := ⟨List.Pairwise.nil, fun _ h => absurd h List.not_mem_nil⟩
  outForm := ⟨List.Pairwise.nil, fun _ h => absurd h List.not_mem_nil⟩
  windowForm := ⟨List.Pairwise.nil, fun _ h => absurd h List.not_mem_nil⟩
  source := by decide
  sink := by decide
  output := fun k h => absurd h (Nat.not_lt_zero k)
  noFault := fun _ => ⟨rfl, rfl⟩
  oneFault := fun h => by cases h
  units := fun _ => ⟨by decide, by decide, by decide, fun _ _ => rfl⟩

/-- Settles O19. -/
theorem powerOnMeetsTheInvariant : Obligations.PowerOnMeetsTheInvariant :=
  ⟨State.reset_streamInv, fun _ => powerOn_ok⟩

end Sys2Proof.Machine
end

section
/-! SUPPORT. What one access to the source or the sink can do, whatever the draw of io_ok (20_memory.md R81 to R86). -/

namespace Sys2Proof.Machine

/-- A draw is true or false, and it changes nothing else (20_memory.md R86). -/
theorem ioCheck_cases (s : State) :
    ioCheck s = .ok () (s.draw 1) ∨ ioCheck s = .error (.raised .ioError) (s.draw 1) := by
  unfold ioCheck State.draw
  split
  · next h => exact .inl (by rw [h, List.drop_nil, ← h])
  · next h => exact .inl (by rw [h]; rfl)
  · next h => exact .inr (by rw [h]; rfl)

/-- SrcRead: a false draw, the end of the source, or the byte at IPOS (20_memory.md R81). -/
theorem srcRead_cases (s : State) :
    srcRead s = .error (.raised .ioError) (s.draw 1) ∨
    (s.slen.toNat ≤ s.ipos.toNat ∧ srcRead s = .ok none (s.draw 1)) ∨
    (s.ipos.toNat < s.slen.toNat ∧
      srcRead s = .ok (some (s.srcByte s.ipos.toNat)) { s with ipos := s.ipos + 1, io := s.io.drop 1 }) := by
  unfold srcRead
  rcases ioCheck_cases s with h | h
  · rw [Op.bind_ok h]
    by_cases hi : s.ipos.toNat < s.slen.toNat
    · exact .inr (.inr ⟨hi, if_pos hi⟩)
    · exact .inr (.inl ⟨by omega, if_neg hi⟩)
  · exact .inl (Op.bind_error h)

/-- SrcSeek backwards: a false draw or a position below 0, or the move (20_memory.md R83). -/
theorem srcSeek_back_cases (n : Nat) (s : State) :
    srcSeek (-(n : Int)) s = .error (.raised .ioError) (s.draw 1) ∨
    (n ≤ s.ipos.toNat ∧
      srcSeek (-(n : Int)) s = .ok () { s with ipos := BitVec.ofNat 64 (s.ipos.toNat - n), io := s.io.drop 1 }) := by
  unfold srcSeek
  rcases ioCheck_cases s with h | h
  · rw [Op.bind_ok h]
    by_cases hn : n ≤ s.ipos.toNat
    · refine .inr ⟨hn, (if_neg (show ¬ (s.ipos.toNat : Int) + -(n : Int) < 0 by omega)).trans ?_⟩
      rw [← BitVec.ofInt_natCast, show ((s.ipos.toNat - n : Nat) : Int) = s.ipos.toNat + -(n : Int) by omega]
      rfl
    · exact .inl (if_pos (show (s.ipos.toNat : Int) + -(n : Int) < 0 by omega))
  · exact .inl (Op.bind_error h)

/-- SinkWrite: a false draw or a full sink, or the byte at OPOS (20_memory.md R84). -/
theorem sinkWrite_cases (b : Byte) (s : State) :
    sinkWrite b s = .error (.raised .ioError) (s.draw 1) ∨
    (s.opos.toNat < s.params.outSize ∧ sinkWrite b s = .ok () (s.putByte b)) := by
  unfold sinkWrite
  rcases ioCheck_cases s with h | h
  · rw [Op.bind_ok h]
    by_cases hr : s.params.outSize ≤ s.opos.toNat
    · exact .inl (if_pos hr)
    · exact .inr ⟨by omega, if_neg hr⟩
  · exact .inl (Op.bind_error h)

/-- SinkSeek one back: a false draw or OPOS = 0, or the move (20_memory.md R85). -/
theorem sinkSeek_back_cases (s : State) :
    sinkSeek (-1) s = .error (.raised .ioError) (s.draw 1) ∨
    (1 ≤ s.opos.toNat ∧
      sinkSeek (-1) s = .ok () { s with opos := BitVec.ofNat 64 (s.opos.toNat - 1), io := s.io.drop 1 }) := by
  unfold sinkSeek
  rcases ioCheck_cases s with h | h
  · rw [Op.bind_ok h]
    by_cases hn : 1 ≤ s.opos.toNat
    · refine .inr ⟨hn, (if_neg (show ¬ (s.opos.toNat : Int) + -1 < 0 by omega)).trans ?_⟩
      rw [← BitVec.ofInt_natCast, show ((s.opos.toNat - 1 : Nat) : Int) = s.opos.toNat + -1 by omega]
      rfl
    · exact .inl (if_pos (show (s.opos.toNat : Int) + -1 < 0 by omega))
  · exact .inl (Op.bind_error h)

/-- WinRd: the byte of a written slot, or UNINIT_READ (20_memory.md R82). -/
theorem winRd_cases (k : Nat) (s : State) :
    (∃ b, Memory.get s.u.window k = some b ∧ winRd k s = .ok b s) ∨
    (Memory.get s.u.window k = none ∧ winRd k s = .error (.raised .uninitRead) s) := by
  cases h : Memory.get s.u.window k with
  | some b => exact .inl ⟨b, rfl, winRd_ok h⟩
  | none => exact .inr ⟨rfl, winRd_unwritten (by rw [Units.written, h]; rfl)⟩

/-- A word that counts on stays below 2^64. -/
theorem word_succ_toNat {w : Word} {n : Nat} (h : w.toNat < n) (hn : n < 2 ^ 64) : (w + 1).toNat = w.toNat + 1 := by
  rw [BitVec.toNat_add]
  exact Nat.mod_eq_of_lt (show w.toNat + 1 < 2 ^ 64 by omega)

/-- Taking the unit state first: the rest runs where it is the state's own. -/
theorem Op.Holds.withUnits {β : Type} {I : State → Prop} {Q : β → State → Prop} {J : State → Prop} {f : Units → Op β}
    (h : ∀ u, Op.Holds (fun s => I s ∧ s.u = u) (f u) Q J) : Op.Holds I (units >>= f) Q J :=
  fun s hs => h s.u s ⟨hs, rfl⟩

theorem Op.Holds.withParams {β : Type} {I : State → Prop} {Q : β → State → Prop} {J : State → Prop}
    {f : Config.Params → Op β} (h : ∀ P, Op.Holds (fun s => I s ∧ s.params = P) (f P) Q J) :
    Op.Holds I (params >>= f) Q J := fun s hs => h s.params s ⟨hs, rfl⟩

theorem Op.Holds.setUnits {I : State → Prop} {Q : Unit → State → Prop} {J : State → Prop} {g : Units → Units}
    (h : ∀ s, I s → Q () { s with u := g s.u }) : Op.Holds I (Machine.setUnits g) Q J := fun s hs => h s hs

end Sys2Proof.Machine
end

section
/-! SUPPORT. The streams stay legal: every piece of pseudocode that reads, writes or seeks keeps the invariants of the
memories and the positions however it ends, and those of the writer, the reader and the window when it ends well. -/

namespace Sys2Proof.Machine

/-! ## The invariants, by the fields they read -/

/-- The memories and the positions are legal (10_state.md R35; 20_memory.md R82, R87), and the memories are in canonical
form. -/
structure MemoriesOk (P : Config.Params) (src out window : Memory) (slen ipos opos olen : Word) : Prop where
  params : P.wf
  srcForm : src.wf ∧ ∀ c ∈ src, c.1 < P.srcSize
  outForm : out.wf ∧ ∀ c ∈ out, c.1 < P.outSize
  windowForm : window.wf ∧ ∀ c ∈ window, c.1 < P.slots
  source : slen.toNat ≤ P.srcSize ∧ ipos.toNat ≤ P.srcSize
  sink : opos.toNat ≤ olen.toNat ∧ olen.toNat ≤ P.outSize ∧ olen.toNat ≤ opos.toNat + 1
  output : ∀ k < olen.toNat, (Memory.get out k).isSome

/-- What `MemoriesOk` says of a state. -/
abbrev State.MemInv (s : State) : Prop := MemoriesOk s.params s.src s.out s.u.window s.slen s.ipos s.opos s.olen

/-- A running state: legal memories and positions, the window mirrored (20_memory.md R82), at least `lo` free bits in
the writer (10_state.md R32) and at most `hi` bits parked in the reader, whose byte was pulled (10_state.md R34). With
lo = 1 and hi = 7 it is the state between commands; inside WriteBits and ReadBits lo = 0 and hi = 8 occur. -/
structure State.Legal (lo hi : Nat) (s : State) : Prop where
  mem : s.MemInv
  mirror : ∀ k < s.params.maxLen, Memory.get s.u.window (Config.W + k) = Memory.get s.u.window k
  writer : lo ≤ s.u.wfree.toNat ∧ s.u.wfree.toNat ≤ 8 ∧ s.u.wpb.toNat < 2 ^ (8 - s.u.wfree.toNat)
  reader : s.u.rcnt.toNat ≤ hi
  parked : 1 ≤ s.u.rcnt.toNat → 1 ≤ s.ipos.toNat

theorem State.Legal.mono {lo lo' hi hi' : Nat} {s : State} (h : s.Legal lo hi) (hlo : lo' ≤ lo) (hhi : hi ≤ hi') :
    s.Legal lo' hi' :=
  ⟨h.mem, h.mirror, ⟨hlo.trans h.writer.1, h.writer.2⟩, h.reader.trans hhi, h.parked⟩

theorem State.MemInv.draw {s : State} (h : s.MemInv) (n : Nat) : (s.draw n).MemInv := h

theorem State.Legal.draw {lo hi : Nat} {s : State} (h : s.Legal lo hi) (n : Nat) : (s.draw n).Legal lo hi :=
  ⟨h.mem, h.mirror, h.writer, h.reader, h.parked⟩

/-- The source position moves within SRC_SIZE. -/
theorem State.MemInv.setIpos {s : State} (h : s.MemInv) {n : Word} {io : List Bool} (hn : n.toNat ≤ s.params.srcSize) :
    ({ s with ipos := n, io := io } : State).MemInv :=
  { h with source := ⟨h.source.1, hn⟩ }

/-- The byte at IPOS is below SRC_SIZE, so IPOS moves on without a wrap. -/
theorem State.MemInv.ipos_succ {s : State} (h : s.MemInv) (hi : s.ipos.toNat < s.slen.toNat) :
    (s.ipos + 1).toNat = s.ipos.toNat + 1 :=
  word_succ_toNat (n := s.params.srcSize) (by have := h.source.1; omega) h.params.2.1.2

theorem State.Legal.readByte {lo hi : Nat} {s : State} (h : s.Legal lo hi) (hi' : s.ipos.toNat < s.slen.toNat)
    (io : List Bool) : ({ s with ipos := s.ipos + 1, io := io } : State).Legal lo hi := by
  have hs := h.mem.ipos_succ hi'
  have hle := h.mem.source.1
  exact ⟨h.mem.setIpos (by omega), h.mirror, h.writer, h.reader, fun _ => by
    show 1 ≤ (s.ipos + 1).toNat
    omega⟩

/-- A byte stored at OPOS: OLEN follows it, and the bytes below OLEN stay written (20_memory.md R84, R87). -/
theorem State.MemInv.putByte {s : State} (h : s.MemInv) (hr : s.opos.toNat < s.params.outSize) (b : Byte) :
    (s.putByte b).MemInv ∧ (s.putByte b).opos.toNat = s.opos.toNat + 1 := by
  have hs : (s.opos + 1).toNat = s.opos.toNat + 1 := word_succ_toNat hr h.params.2.2.2
  obtain ⟨h1, h2, h3⟩ := h.sink
  have hlen : (s.putByte b).olen.toNat = s.opos.toNat + 1 := by
    show (if s.olen.toNat < (s.opos + 1).toNat then s.opos + 1 else s.olen).toNat = _
    split <;> omega
  refine ⟨{ h with
    outForm := ⟨Memory.wf_write h.outForm.1 _ _, Memory.bound_write h.outForm.2 hr _⟩
    sink := ?_, output := ?_ }, hs⟩
  · show (s.opos + 1).toNat ≤ _ ∧ _ ∧ _ ≤ (s.opos + 1).toNat + 1
    rw [hlen, hs]
    exact ⟨Nat.le_refl _, hr, by omega⟩
  · intro k hk
    rw [hlen] at hk
    show (Memory.get (Memory.write s.out s.opos.toNat b) k).isSome = true
    rw [Memory.get_write]
    split
    · rfl
    · exact h.output k (by omega)

theorem State.Legal.putByte {lo hi : Nat} {s : State} (h : s.Legal lo hi) (hr : s.opos.toNat < s.params.outSize)
    (b : Byte) : (s.putByte b).Legal lo hi :=
  ⟨(h.mem.putByte hr b).1, h.mirror, h.writer, h.reader, h.parked⟩

/-! ## Pieces of pseudocode that keep a running state legal -/

section
variable {α β : Type} {hi : Nat}

/-- From a running state the piece ends in one, or raises a fault with the memories and positions legal. -/
def Op.Keeps (hi : Nat) (x : Op α) : Prop := Op.Holds (State.Legal 1 hi) x (fun _ => State.Legal 1 hi) State.MemInv

theorem Op.Keeps.pure (a : α) : Op.Keeps hi (Pure.pure a : Op α) := Op.Holds.pure fun _ h => h

theorem Op.Keeps.raise (c : FaultCode) : Op.Keeps hi (Machine.raise c : Op α) := Op.Holds.raise fun _ h => h.mem

theorem Op.Keeps.stuck (f : Fault) : Op.Keeps hi (Machine.stuck f : Op α) := Op.Holds.stuck fun _ h => h.mem

theorem Op.Keeps.bind {x : Op α} {f : α → Op β} (hx : Op.Keeps hi x) (hf : ∀ a, Op.Keeps hi (f a)) :
    Op.Keeps hi (x >>= f) := Op.Holds.bind hx hf

theorem Op.Keeps.ite {p : Prop} [Decidable p] {x y : Op α} (hx : Op.Keeps hi x) (hy : Op.Keeps hi y) :
    Op.Keeps hi (if p then x else y) := Op.Holds.ite (fun _ => hx) fun _ => hy

theorem Op.Keeps.withUnits {f : Units → Op β} (h : ∀ u, Op.Keeps hi (f u)) : Op.Keeps hi (Machine.units >>= f) :=
  Op.Holds.withUnits fun u => (h u).imp (fun _ hs => hs.1) (fun _ _ h => h) fun _ h => h

theorem Op.Keeps.withParams {f : Config.Params → Op β} (h : ∀ P, Op.Keeps hi (f P)) :
    Op.Keeps hi (Machine.params >>= f) := fun s hs => h s.params s hs

theorem Op.Keeps.repeatOp (n : Nat) {x : Op Unit} (hx : Op.Keeps hi x) : Op.Keeps hi (Machine.repeatOp n x) := by
  induction n with
  | zero => exact .pure ()
  | succ n ih => exact hx.bind fun _ => ih

/-- The groups a running state's legality reads. -/
def streamGroups : List Group := [.host, .outside, .sourcePos, .sink, .writer, .reader, .window]

theorem State.Legal.of_agree {lo hi : Nat} {s t : State} (h : s.Legal lo hi) (ha : ∀ g ∈ streamGroups, s.agree t g) :
    t.Legal lo hi := by
  obtain ⟨-, -, -, hslen⟩ := ha .host (by decide)
  obtain ⟨hsrc, hP, -⟩ := ha .outside (by decide)
  obtain ⟨hopos, holen, hout⟩ := ha .sink (by decide)
  obtain ⟨hwpb, hwfree⟩ := ha .writer (by decide)
  obtain ⟨-, hrcnt⟩ := ha .reader (by decide)
  have hipos : t.ipos = s.ipos := ha .sourcePos (by decide)
  have hwin : t.u.window = s.u.window := ha .window (by decide)
  obtain ⟨hm, hmir, hw, hr, hp⟩ := h
  refine ⟨?_, ?_, ?_, ?_, ?_⟩ <;> simp only [State.MemInv, hslen, hsrc, hP, hopos, holen, hout, hwpb, hwfree, hrcnt, hipos, hwin]
  exacts [hm, hmir, hw, hr, hp]

/-- A piece that writes none of those groups keeps the legality. -/
theorem Op.Writes.keeps {gs : List Group} {x : Op α} (hw : Op.Writes gs x) (hd : ∀ g ∈ streamGroups, g ∉ gs) :
    Op.Keeps hi x := by
  intro s hs
  have ht : (Op.final (x s)).Legal 1 hi := hs.of_agree fun g hg => hw s g (hd g hg)
  cases hx : x s with
  | ok a t => rwa [hx] at ht
  | error e t =>
    rw [hx] at ht
    exact ht.mem

end

/-! ## Accesses -/

theorem keeps_srcRead {hi : Nat} : Op.Keeps hi srcRead := by
  intro s hs
  rcases srcRead_cases s with h | ⟨-, h⟩ | ⟨hlt, h⟩ <;> rw [h]
  · exact hs.mem
  · exact hs.draw 1
  · exact hs.readByte hlt _

theorem keeps_sinkWrite {hi : Nat} (b : Byte) : Op.Keeps hi (sinkWrite b) := by
  intro s hs
  rcases sinkWrite_cases b s with h | ⟨hr, h⟩ <;> rw [h]
  · exact hs.mem
  · exact hs.putByte hr b

/-- Seeking back with no bit parked (20_memory.md R83). -/
theorem keeps_srcSeek_back (n : Nat) : Op.Keeps 0 (srcSeek (-(n : Int))) := by
  intro s hs
  rcases srcSeek_back_cases n s with h | ⟨hn, h⟩ <;> rw [h]
  · exact hs.mem
  · have hr := hs.reader
    have hle := hs.mem.source.2
    have hlt := hs.mem.params.2.1.2
    refine ⟨hs.mem.setIpos ?_, hs.mirror, hs.writer, hr, fun hp => ?_⟩
    · rw [BitVec.toNat_ofNat]
      exact (Nat.mod_le _ _).trans (by omega)
    · have hp' : 1 ≤ s.u.rcnt.toNat := hp
      omega

/-- WinWr keeps the window's form and its mirror, since MAX < W (20_memory.md R82). -/
theorem State.Legal.winWr {lo hi : Nat} {s : State} (h : s.Legal lo hi) (k : Pos) (b : Byte) :
    ({ s with u := s.u.winWr s.params k b } : State).Legal lo hi := by
  refine ⟨{ h.mem with windowForm := Units.winWr_window k b h.mem.windowForm }, fun j hj => ?_, h.writer, h.reader,
    h.parked⟩
  have hlt := maxLen_lt h.mem.params
  have hk := Pos.lt k
  have hm := h.mirror j hj
  have hW : Config.W = 4096 := rfl
  have hj' : j < s.params.maxLen := hj
  show Memory.get (s.u.winWr s.params k b).window _ = Memory.get (s.u.winWr s.params k b).window _
  rw [Units.get_winWr, Units.get_winWr, hm]
  by_cases hjk : j = k.toNat
  · rw [if_pos (.inr ⟨by omega, by omega⟩), if_pos (.inl hjk)]
  · rw [if_neg (by omega), if_neg (by omega)]

theorem keeps_winWr {hi : Nat} (k : Pos) (b : Byte) : Op.Keeps hi (winWr k b) := fun _ hs => hs.winWr k b

theorem keeps_winPut {hi : Nat} (k : Pos) (b : Byte) : Op.Keeps hi (winPut k b) :=
  .withUnits fun _ => .ite (.raise _) (keeps_winWr k b)

/-- An emptied window is in form and mirrored (43_lzss_dictionary.md R280). -/
theorem State.Legal.emptyWindow {lo hi : Nat} {s : State} (h : s.Legal lo hi) {u : Units} (hw : u.window = [])
    (hwpb : u.wpb = s.u.wpb) (hwfree : u.wfree = s.u.wfree) (hrcnt : u.rcnt = s.u.rcnt) :
    ({ s with u := u } : State).Legal lo hi := by
  refine ⟨{ h.mem with windowForm := ?_ }, fun k _ => ?_, ?_, ?_, ?_⟩
  · rw [hw]
    exact ⟨List.Pairwise.nil, fun _ hc => absurd hc List.not_mem_nil⟩
  · show Memory.get u.window _ = Memory.get u.window _
    rw [hw]
    rfl
  · show _ ≤ u.wfree.toNat ∧ u.wfree.toNat ≤ 8 ∧ u.wpb.toNat < _
    rw [hwpb, hwfree]
    exact h.writer
  · show u.rcnt.toNat ≤ hi
    rw [hrcnt]
    exact h.reader
  · show 1 ≤ u.rcnt.toNat → _
    rw [hrcnt]
    exact h.parked

/-- The emptied writer (10_state.md R32). -/
theorem emptied_writer :
    1 ≤ (8 : BitVec 4).toNat ∧ (8 : BitVec 4).toNat ≤ 8 ∧ (0 : Byte).toNat < 2 ^ (8 - (8 : BitVec 4).toNat) := by decide

/-- The STREAM_INIT actions empty the writer, the reader and the sink (40_block_control.md R162). -/
theorem State.Legal.streamInit {lo hi : Nat} {s : State} (h : s.Legal lo hi) : s.streamInit.Legal 1 0 where
  mem := { h.mem with
    source := ⟨h.mem.source.1, Nat.zero_le _⟩
    sink := ⟨Nat.le_refl _, Nat.zero_le _, Nat.zero_le _⟩
    output := fun _ hk => absurd hk (Nat.not_lt_zero _) }
  mirror := h.mirror
  writer := emptied_writer
  reader := Nat.le_refl _
  parked := fun hp => by cases hp

/-! ## The writer -/

/-- Buffering k free bits of the writer (41_bit_stream.md R180). -/
theorem Units.bufferBits_writer {u : Units} (v : Nat) {k : Nat} (hk : k ≤ u.wfree.toNat) (h8 : u.wfree.toNat ≤ 8)
    (hw : u.wpb.toNat < 2 ^ (8 - u.wfree.toNat)) :
    (u.bufferBits v k).wfree.toNat = u.wfree.toNat - k ∧
      (u.bufferBits v k).wpb.toNat < 2 ^ (8 - (u.bufferBits v k).wfree.toNat) := by
  have hfree : (u.bufferBits v k).wfree.toNat = u.wfree.toNat - k := by
    show (BitVec.ofNat 4 (u.wfree.toNat - k)).toNat = _
    rw [BitVec.toNat_ofNat]
    exact Nat.mod_eq_of_lt (by omega)
  refine ⟨hfree, ?_⟩
  rw [hfree, show 8 - (u.wfree.toNat - k) = (8 - u.wfree.toNat) + k by omega]
  show (u.wpb ||| BitVec.ofNat 8 ((v % 2 ^ k) <<< (8 - u.wfree.toNat))).toNat < _
  rw [BitVec.toNat_or, BitVec.toNat_ofNat]
  refine Nat.or_lt_two_pow (hw.trans_le (Nat.pow_le_pow_right (by omega) (by omega))) ?_
  refine (Nat.mod_le _ _).trans_lt ?_
  rw [Nat.shiftLeft_eq, Nat.pow_add, Nat.mul_comm]
  exact (Nat.mul_lt_mul_left (Nat.two_pow_pos _)).mpr (Nat.mod_lt _ (Nat.two_pow_pos _))

/-- A full byte goes out and frees the writer (41_bit_stream.md R180, R181). -/
theorem holds_emitFullByte {hi : Nat} :
    Op.Holds (State.Legal 0 hi) emitFullByte (fun _ => State.Legal 1 hi) State.MemInv := by
  intro s hs
  unfold emitFullByte
  rw [Op.units_bind]
  by_cases h0 : s.u.wfree = 0
  · rw [if_pos h0]
    rcases sinkWrite_cases s.u.wpb s with h | ⟨hr, h⟩
    · rw [Op.bind_error h]
      exact hs.mem
    · rw [Op.bind_ok h]
      have hp := hs.putByte hr s.u.wpb
      exact ⟨hp.mem, hp.mirror, emptied_writer, hp.reader, hp.parked⟩
  · rw [if_neg h0]
    have hne : s.u.wfree.toNat ≠ 0 := fun h => h0 (BitVec.eq_of_toNat_eq h)
    exact ⟨hs.mem, hs.mirror, ⟨by omega, hs.writer.2⟩, hs.reader, hs.parked⟩

theorem keeps_writeLoop {hi : Nat} (fuel v c : Nat) : Op.Keeps hi (writeLoop fuel v c) := by
  induction fuel generalizing v c with
  | zero => exact .pure ()
  | succ fuel ih =>
    refine Op.Holds.ite (fun _ => Op.Keeps.pure _) fun _ => Op.Holds.withUnits fun u => Op.Holds.bind
      (R := fun _ => State.Legal 0 hi) (Op.Holds.setUnits ?_) fun _ => Op.Holds.bind holds_emitFullByte fun _ => ih _ _
    rintro s ⟨hs, rfl⟩
    obtain ⟨-, h8, hw⟩ := hs.writer
    obtain ⟨hfree, hlt⟩ := Units.bufferBits_writer v (Nat.min_le_right c s.u.wfree.toNat) h8 hw
    exact ⟨hs.mem, hs.mirror, ⟨Nat.zero_le _, hfree.le.trans (by omega), hlt⟩, hs.reader, hs.parked⟩

/-- A flush: the partial byte goes out, and the sink steps back onto it (41_bit_stream.md R182). -/
theorem keeps_flushPartial {hi : Nat} : Op.Keeps hi flushPartial := by
  intro s hs
  unfold flushPartial
  rw [Op.units_bind]
  by_cases h8 : s.u.wfree.toNat < 8
  · rw [if_pos h8]
    rcases sinkWrite_cases s.u.wpb s with h | ⟨hr, h⟩
    · rw [Op.bind_error h]
      exact hs.mem
    · rw [Op.bind_ok h]
      obtain ⟨hm, ho⟩ := hs.mem.putByte hr s.u.wpb
      have hp := hs.putByte hr s.u.wpb
      rcases sinkSeek_back_cases (s.putByte s.u.wpb) with h' | ⟨h1, h'⟩ <;> rw [h']
      · exact hm
      · refine ⟨{ hm with sink := ?_ }, hp.mirror, hp.writer, hp.reader, hp.parked⟩
        obtain ⟨h1, h2, h3⟩ := hm.sink
        have hlen := hs.mem.sink
        have hb : (BitVec.ofNat 64 ((s.putByte s.u.wpb).opos.toNat - 1)).toNat = s.opos.toNat := by
          rw [BitVec.toNat_ofNat, ho]
          exact Nat.mod_eq_of_lt s.opos.isLt
        have heq : (s.putByte s.u.wpb).olen.toNat = s.opos.toNat + 1 := by
          show (if s.olen.toNat < (s.opos + 1).toNat then s.opos + 1 else s.olen).toNat = _
          have : (s.opos + 1).toNat = s.opos.toNat + 1 := ho
          split <;> omega
        show (BitVec.ofNat 64 _).toNat ≤ (s.putByte s.u.wpb).olen.toNat ∧ _ ∧
          (s.putByte s.u.wpb).olen.toNat ≤ (BitVec.ofNat 64 _).toNat + 1
        rw [hb]
        exact ⟨by omega, h2, by omega⟩
  · rw [if_neg h8]
    exact hs

theorem keeps_writeBits {hi : Nat} (v c : Nat) (f : Bool) : Op.Keeps hi (writeBits v c f) :=
  (keeps_writeLoop _ _ _).bind fun _ => .ite keeps_flushPartial (.pure _)

theorem keeps_writeWide {hi : Nat} (v c : Nat) : Op.Keeps hi (writeWide v c) := by
  have key : ∀ fuel v c, Op.Keeps hi (writeWideLoop fuel v c) := by
    intro fuel
    induction fuel with
    | zero => exact fun v c => .pure _
    | succ fuel ih => exact fun v c => .ite (.pure _) ((keeps_writeBits _ _ _).bind fun _ => ih _ _)
  exact key _ _ _

/-! ## The reader -/

/-- A refresh steps back onto the parked byte and reads it again (41_bit_stream.md R191). -/
theorem keeps_refresh : Op.Keeps 7 refresh := by
  intro s hs
  unfold refresh
  rw [Op.units_bind]
  by_cases h0 : s.u.rcnt.toNat = 0
  · rw [if_pos h0]
    exact hs
  · rw [if_neg h0]
    rcases srcSeek_back_cases 1 s with h | ⟨h1, h⟩
    · rw [Op.bind_error (show srcSeek (-1) s = _ from h)]
      exact hs.mem
    · rw [Op.bind_ok (show srcSeek (-1) s = _ from h)]
      have hle := hs.mem.source.2
      have hm := hs.mem.setIpos (n := BitVec.ofNat 64 (s.ipos.toNat - 1)) (io := s.io.drop 1)
        (by rw [BitVec.toNat_ofNat]; exact (Nat.mod_le _ _).trans (by omega))
      rcases srcRead_cases { s with ipos := BitVec.ofNat 64 (s.ipos.toNat - 1), io := s.io.drop 1 } with
        h' | ⟨-, h'⟩ | ⟨hlt, h'⟩
      · rw [Op.bind_error h']
        exact hm
      · rw [Op.bind_ok h']
        exact hm
      · rw [Op.bind_ok h']
        have hs1 := hm.ipos_succ hlt
        exact ⟨hm.setIpos (by rw [hs1]; exact hlt.trans_le hm.source.1), hs.mirror, hs.writer, hs.reader, fun _ => by
          show 1 ≤ (BitVec.ofNat 64 (s.ipos.toNat - 1) + 1).toNat
          have : (BitVec.ofNat 64 (s.ipos.toNat - 1) + 1).toNat = _ := hs1
          omega⟩

/-- A byte pulled is parked whole (41_bit_stream.md R190). -/
theorem holds_pullByte : Op.Holds (State.Legal 1 7) pullByte
    (fun more t => t.Legal 1 8 ∧ (more = true → 1 ≤ t.u.rcnt.toNat) ∧ (more = false → t.u.rcnt.toNat = 0))
    State.MemInv := by
  intro s hs
  unfold pullByte
  rw [Op.units_bind]
  by_cases h0 : s.u.rcnt.toNat = 0
  · rw [if_pos h0]
    rcases srcRead_cases s with h | ⟨-, h⟩ | ⟨hlt, h⟩
    · rw [Op.bind_error h]
      exact hs.mem
    · rw [Op.bind_ok h]
      exact ⟨(hs.mono (Nat.le_refl _) (by omega)).draw 1, fun hm => absurd hm (by decide), fun _ => h0⟩
    · rw [Op.bind_ok h]
      have hm := hs.readByte hlt (s.io.drop 1)
      have hs1 := hs.mem.ipos_succ hlt
      exact ⟨⟨hm.mem, hm.mirror, hm.writer, show (8 : BitVec 4).toNat ≤ 8 by decide, fun _ => by
        show 1 ≤ (s.ipos + 1).toNat
        omega⟩, fun _ => by show 1 ≤ (8 : BitVec 4).toNat; decide, fun hm => absurd hm (by decide)⟩
  · rw [if_neg h0]
    exact ⟨hs.mono (Nat.le_refl _) (by omega), fun _ => by omega, fun hm => absurd hm (by decide)⟩

theorem keeps_readLoop (c fuel v got : Nat) : Op.Keeps 7 (readLoop c fuel v got) := by
  induction fuel generalizing v got with
  | zero => exact .pure _
  | succ fuel ih =>
    refine Op.Holds.ite (fun hlt => Op.Holds.bind holds_pullByte fun more => ?_) fun _ => Op.Keeps.pure _
    refine Op.Holds.ite (fun hmore => Op.Holds.withUnits fun u => Op.Holds.bind (Op.Holds.setUnits ?_) fun _ => ih _ _)
      fun hmore => Op.Holds.pure ?_
    · rintro s ⟨⟨hs, h1, -⟩, rfl⟩
      have hr := hs.reader
      have hpos := h1 hmore
      have hk : (BitVec.ofNat 4 (s.u.rcnt.toNat - min (c - got) s.u.rcnt.toNat)).toNat =
          s.u.rcnt.toNat - min (c - got) s.u.rcnt.toNat := by
        rw [BitVec.toNat_ofNat]
        exact Nat.mod_eq_of_lt (by omega)
      refine ⟨hs.mem, hs.mirror, hs.writer, ?_, fun _ => hs.parked hpos⟩
      show (BitVec.ofNat 4 (s.u.rcnt.toNat - min (c - got) s.u.rcnt.toNat)).toNat ≤ 7
      rw [hk]
      omega
    · rintro s ⟨hs, -, h0⟩
      have := h0 (by simpa using hmore)
      exact ⟨hs.mem, hs.mirror, hs.writer, by omega, hs.parked⟩

theorem keeps_readBits (c : Nat) (r : Bool) : Op.Keeps 7 (readBits c r) := by
  cases r
  · exact keeps_readLoop _ _ _ _
  · exact keeps_refresh.bind fun _ => keeps_readLoop _ _ _ _

theorem keeps_need (c : Nat) : Op.Keeps 7 (need c) := (keeps_readBits _ _).bind fun _ => .ite (.raise _) (.pure _)

end Sys2Proof.Machine
end

section
/-! SUPPORT. Every command keeps the streams legal, and so does every step. -/

namespace Sys2Proof.Machine

/-! ## The Huffman coder -/

section
variable {hi : Nat}

theorem keeps_emitNode (levels : Nat) (id : HId) : Op.Keeps hi (emitNode levels id) := by
  induction levels generalizing id with
  | zero =>
    unfold emitNode
    exact .ite ((keeps_writeBits _ _ _).bind fun _ => keeps_writeBits _ _ _) (.stuck _)
  | succ n ih =>
    unfold emitNode
    exact .ite ((keeps_writeBits _ _ _).bind fun _ => keeps_writeBits _ _ _)
      ((keeps_writeBits _ _ _).bind fun _ => ((writes_children _).keeps (by decide)).bind fun _ =>
        (ih _).bind fun _ => ih _)

theorem keeps_emitTree : Op.Keeps hi emitTree := .withUnits fun _ => keeps_emitNode _ _

theorem keeps_emitCount (n : Nat) : Op.Keeps hi (emitCount n) := by
  have key : ∀ fuel n, Op.Keeps hi (emitGroups fuel n) := by
    intro fuel
    induction fuel with
    | zero => exact fun n => .pure _
    | succ fuel ih =>
      exact fun n => (keeps_writeBits _ _ _).bind fun _ => (keeps_writeBits _ _ _).bind fun _ => .ite (.pure _) (ih _)
  exact key _ _

theorem keeps_emitCode (b : Byte) : Op.Keeps hi (emitCode b) := .withUnits fun _ => keeps_writeWide _ _

theorem keeps_countLoop (fuel n : Nat) : Op.Keeps hi (countLoop fuel n) := by
  induction fuel generalizing n with
  | zero => exact .stuck _
  | succ fuel ih =>
    refine keeps_srcRead.bind fun r => ?_
    cases r with
    | none => exact .pure _
    | some b =>
      exact ((show Op.Writes [.weights] (setUnits (Units.addWeight b)) from
        .setUnits fun s g hg => by cases g <;> simp_all [State.agree]).keeps (by decide)).bind fun _ => ih _

theorem keeps_encodeByte : Op.Keeps hi encodeByte := by
  refine keeps_srcRead.bind fun r => ?_
  cases r with
  | none => exact .raise _
  | some b => exact keeps_emitCode b

theorem keeps_parseNodes (fuel : Nat) : Op.Keeps 7 (parseNodes fuel) := by
  induction fuel with
  | zero => exact .stuck _
  | succ fuel ih =>
    exact .bind ((keeps_need _).bind fun _ => .ite ((keeps_need _).bind fun _ =>
      (writes_doTreeLeaf _).keeps (by decide)) (writes_doTreeInternal.keeps (by decide))) fun _ =>
      .withUnits fun _ => .ite (.pure _) ih

/-- Reading how many bits are left changes nothing. -/
theorem keeps_bound (f : State → Nat) : Op.Keeps hi (fun s => .ok (f s) s : Op Nat) := fun _ hs => hs

theorem keeps_parseTree : Op.Keeps 7 parseTree :=
  ((show Op.Writes [.tree, .codes, .parser] (setUnits fun u => { u with
      cvalid := Vector.replicate 256 false, nextH := 256, rootH := nilH, parseStack := [] }) from
    .setUnits fun s g hg => by cases g <;> simp_all [State.agree]).keeps (by decide)).bind fun _ =>
  (keeps_bound _).bind fun _ => keeps_parseNodes _

theorem keeps_parseGroups (fuel : Nat) : Op.Keeps 7 (parseGroups fuel) := by
  induction fuel with
  | zero => exact .stuck _
  | succ fuel ih =>
    exact .bind ((keeps_need _).bind fun _ => (keeps_need _).bind fun _ =>
      (writes_doCountGroup _ _).keeps (by decide)) fun _ => .withUnits fun _ => .ite (.pure _) ih

theorem keeps_parseCount : Op.Keeps 7 parseCount :=
  ((show Op.Writes [.parser] (setUnits fun u => { u with cntAcc := 0, cntIdx := 0, cntDone := false }) from
    .setUnits fun s g hg => by cases g <;> simp_all [State.agree]).keeps (by decide)).bind fun _ =>
  (keeps_bound _).bind fun _ => (keeps_parseGroups _).bind fun _ => .withUnits fun _ => .pure _

theorem keeps_walkSymbol (fuel : Nat) (id : HId) : Op.Keeps 7 (walkSymbol fuel id) := by
  induction fuel generalizing id with
  | zero => exact .stuck _
  | succ fuel ih =>
    exact .ite (.pure _) (((writes_children _).keeps (by decide)).bind fun _ => (keeps_need _).bind fun _ => ih _)

theorem keeps_decodeSymbol : Op.Keeps 7 decodeSymbol :=
  .withUnits fun _ => (keeps_bound _).bind fun _ => (keeps_walkSymbol _ _).bind fun _ =>
    (keeps_sinkWrite _).bind fun _ => .pure _

theorem keeps_setRes0 (a : Nat) : Op.Keeps hi (setRes0 a) := (writes_setRes0 a).keeps (by decide)

theorem keeps_setRes (a b : Nat) : Op.Keeps hi (setRes a b) := (writes_setRes a b).keeps (by decide)

/-- A command that begins with the STREAM_INIT actions: no bit is parked until it reads. -/
theorem keeps_afterStreamInit {f : Unit → Op Unit} (h : Op.Keeps 0 (f ()) ∨ Op.Keeps 7 (f ())) :
    Op.Keeps 7 (streamInit >>= f) := by
  refine Op.Holds.bind (R := fun _ => State.Legal 1 0) (fun s hs => hs.streamInit) fun _ => ?_
  rcases h with h | h
  · exact h.imp (fun _ h => h) (fun _ _ h => h.mono (Nat.le_refl _) (by omega)) fun _ h => h
  · exact h.imp (fun _ h => h.mono (Nat.le_refl _) (by omega)) (fun _ _ h => h) fun _ h => h

theorem keeps_huffmanEncode : Op.Keeps 7 huffmanEncode := by
  refine keeps_afterStreamInit (.inl ?_)
  exact ((show Op.Writes [.weights] (setUnits fun u => { u with weight := Vector.replicate 256 0 }) from
      .setUnits fun s g hg => by cases g <;> simp_all [State.agree]).keeps (by decide)).bind fun _ =>
    (keeps_bound _).bind fun _ => (keeps_countLoop _ _).bind fun _ =>
    (writes_buildTree.keeps (by decide)).bind fun _ => (writes_deriveCodes.keeps (by decide)).bind fun _ =>
    keeps_emitTree.bind fun _ => (keeps_emitCount _).bind fun _ => (keeps_srcSeek_back _).bind fun _ =>
    (Op.Keeps.repeatOp _ keeps_encodeByte).bind fun _ => (keeps_writeBits _ _ _).bind fun _ => keeps_setRes0 _

theorem keeps_huffmanDecode : Op.Keeps 7 huffmanDecode :=
  keeps_afterStreamInit (.inr (keeps_parseTree.bind fun _ => keeps_parseCount.bind fun _ =>
    (Op.Keeps.repeatOp _ (keeps_decodeSymbol.bind fun _ => .pure _)).bind fun _ => keeps_setRes0 _))

/-! ## The LZSS coder -/

theorem keeps_emitLiteral (b : Byte) : Op.Keeps hi (emitLiteral b) :=
  (keeps_writeBits _ _ _).bind fun _ => keeps_writeBits _ _ _

theorem keeps_emitReference (p len : Nat) : Op.Keeps hi (emitReference p len) :=
  .withParams fun _ => (keeps_writeBits _ _ _).bind fun _ => (keeps_writeBits _ _ _).bind fun _ =>
    keeps_writeBits _ _ _

theorem keeps_emitSentinel (p : Nat) : Op.Keeps hi (emitSentinel p) :=
  (keeps_writeBits _ _ _).bind fun _ => keeps_writeBits _ _ _

/-- The encoder's own registers are no part of the streams (10_state.md R48). -/
theorem keeps_setEncoder {f : Units → Units}
    (h : ∀ (s : State) (g : Group), g ∉ [Group.encoder] → s.agree { s with u := f s.u } g) :
    Op.Keeps hi (setUnits f) := (Op.Writes.setUnits h).keeps (by decide)

theorem keeps_fillLoop (room n : Nat) : Op.Keeps hi (fillLoop room n) := by
  induction room generalizing n with
  | zero => exact .pure _
  | succ room ih =>
    refine keeps_srcRead.bind fun r => ?_
    cases r with
    | none => exact (keeps_setEncoder fun s g hg => by cases g <;> simp_all [State.agree]).bind fun _ => .pure _
    | some b =>
      exact .withUnits fun _ => (keeps_winWr _ _).bind fun _ =>
        (keeps_setEncoder fun s g hg => by cases g <;> simp_all [State.agree]).bind fun _ => ih _

theorem keeps_useMatch (m : Link × Nat) : Op.Keeps hi (useMatch m) :=
  .withParams fun _ => .withUnits fun _ =>
  .ite (keeps_setEncoder fun s g hg => by cases g <;> simp_all [State.agree])
    (.ite (((writes_winRd _).keeps (by decide)).bind fun b => keeps_emitLiteral b)
      ((keeps_emitReference _ _).bind fun _ =>
        keeps_setEncoder fun s g hg => by cases g <;> simp_all [State.agree]))

theorem keeps_nextInput : Op.Keeps hi nextInput := by
  refine .withUnits fun u => .ite (.pure _) (keeps_srcRead.bind fun r => ?_)
  cases r with
  | none => exact (keeps_setEncoder fun s g hg => by cases g <;> simp_all [State.agree]).bind fun _ => .pure _
  | some b => exact .pure _

theorem keeps_slideWindow (n : Nat) : Op.Keeps hi (slideWindow n) := by
  refine .withUnits fun u => keeps_nextInput.bind fun r => ?_
  cases r with
  | none => exact (keeps_setEncoder fun s g hg => by cases g <;> simp_all [State.agree]).bind fun _ => .pure _
  | some b =>
    exact ((writes_removeNode _).keeps (by decide)).bind fun _ => (keeps_winWr _ _).bind fun _ =>
      (keeps_setEncoder fun s g hg => by cases g <;> simp_all [State.agree]).bind fun _ => .pure _

theorem keeps_encodeLoop (fuel n : Nat) : Op.Keeps hi (encodeLoop fuel n) := by
  induction fuel generalizing n with
  | zero => exact .stuck _
  | succ fuel ih =>
    exact .withUnits fun _ => .ite (((writes_matchAdd _ _).keeps (by decide)).bind fun _ =>
      (keeps_useMatch _).bind fun _ => (keeps_slideWindow _).bind fun _ => ih _) (.pure _)

/-- Emptying the window, whatever else of the dictionary, the decoder and the encoder is set with it. -/
theorem keeps_emptyWindow {f : Units → Units} (hf : ∀ u : Units, (f u).window = [] ∧ (f u).wpb = u.wpb ∧
    (f u).wfree = u.wfree ∧ (f u).rcnt = u.rcnt) : Op.Keeps hi (setUnits f) := by
  intro s hs
  obtain ⟨h1, h2, h3, h4⟩ := hf s.u
  exact hs.emptyWindow h1 h2 h3 h4

theorem keeps_lzssEncode : Op.Keeps 7 lzssEncode := by
  refine keeps_afterStreamInit (.inr (Op.Keeps.bind (keeps_emptyWindow ?_) fun _ => .withParams fun _ =>
    (keeps_fillLoop _ _).bind fun _ => (keeps_bound _).bind fun _ => (keeps_encodeLoop _ _).bind fun _ =>
    .withUnits fun _ => (keeps_emitSentinel _).bind fun _ => (keeps_writeBits _ _ _).bind fun _ => keeps_setRes0 _))
  exact fun _ => ⟨rfl, rfl, rfl, rfl⟩

theorem keeps_setCursor {f : Units → Units}
    (h : ∀ (s : State) (g : Group), g ∉ [Group.cursor] → s.agree { s with u := f s.u } g) :
    Op.Keeps hi (setUnits f) := (Op.Writes.setUnits h).keeps (by decide)

theorem keeps_outputByte (b : Byte) : Op.Keeps hi (outputByte b) :=
  (keeps_sinkWrite _).bind fun _ => .withUnits fun _ => (keeps_winPut _ _).bind fun _ =>
    keeps_setCursor fun s g hg => by cases g <;> simp_all [State.agree]

theorem keeps_copyLoop (more : Nat) (p : Pos) : Op.Keeps hi (copyLoop more p) := by
  induction more generalizing p with
  | zero => exact .pure _
  | succ more ih =>
    exact ((writes_winRd _).keeps (by decide)).bind fun _ => (keeps_outputByte _).bind fun _ => ih _

theorem keeps_fetchToken : Op.Keeps 7 fetchToken :=
  (keeps_need _).bind fun _ => .ite ((keeps_need _).bind fun _ => .pure _)
    ((keeps_need _).bind fun _ => .withUnits fun _ => .ite (.pure _) (.withParams fun _ =>
      (keeps_need _).bind fun _ => .pure _))

theorem keeps_doToken (t : LzToken) : Op.Keeps hi (doToken t) := by
  have hend : Op.Keeps hi doEnd := writes_doEnd.keeps (by decide)
  refine .withUnits fun _ => .withParams fun _ => ?_
  cases t with
  | literal b => exact (keeps_outputByte b).bind fun _ => .pure _
  | reference p e => exact .ite (hend.bind fun _ => .pure _) ((keeps_copyLoop _ _).bind fun _ => .pure _)
  | endToken p => exact .ite (hend.bind fun _ => .pure _) (.raise _)

theorem keeps_decodeLzToken : Op.Keeps 7 decodeLzToken := keeps_fetchToken.bind fun t => keeps_doToken t

theorem keeps_lzssDecode : Op.Keeps 7 lzssDecode := by
  have key : ∀ fuel n, Op.Keeps 7 (decodeTokens fuel n) := by
    intro fuel
    induction fuel with
    | zero => exact fun n => .stuck _
    | succ fuel ih => exact fun n => keeps_decodeLzToken.bind fun _ => .ite (.pure _) (ih _)
  refine keeps_afterStreamInit (.inr (Op.Keeps.bind (keeps_emptyWindow ?_) fun _ =>
    (keeps_bound _).bind fun _ => (key _ _).bind fun _ => keeps_setRes0 _))
  exact fun _ => ⟨rfl, rfl, rfl, rfl⟩

end

/-! ## Commands and steps -/

/-- The pseudocode of every command keeps a running state legal. -/
theorem keeps_bodyOf {P : Config.Params} {i : Instr} {v : Word} (hi : commandWord P i = some v) :
    Op.Keeps 7 (bodyOf i) := by
  cases i with
  | blkNop => exact .pure ()
  | blkReset => exact .pure ()
  | blkStreamInit => exact fun s hs => hs.streamInit.mono (Nat.le_refl _) (by omega)
  | bswWriteBits v c f => exact keeps_writeBits _ _ _
  | bswFlush => exact keeps_writeBits _ _ _
  | bsrReadBits c r => exact (keeps_readBits _ _).bind fun _ => keeps_setRes _ _
  | htbClearWeights => exact (writes_bodyOf .htbClearWeights).keeps (by decide)
  | htbCountByte b => exact (writes_bodyOf (.htbCountByte b)).keeps (by simp [streamGroups, writeGroups])
  | htbBuildTree => exact (writes_bodyOf .htbBuildTree).keeps (by decide)
  | htbDeriveCodes => exact (writes_bodyOf .htbDeriveCodes).keeps (by decide)
  | hencEncode => exact keeps_huffmanEncode
  | hencEmitTree => exact keeps_emitTree
  | hencEmitCount n => exact keeps_emitCount _
  | hencEmitCode b => exact keeps_emitCode _
  | hdecDecode => exact keeps_huffmanDecode
  | hdecParseTree => exact keeps_parseTree.bind fun _ => .withUnits fun _ => keeps_setRes0 _
  | hdecParseCount => exact keeps_parseCount.bind fun _ => keeps_setRes0 _
  | hdecDecodeSymbol => exact keeps_decodeSymbol.bind fun _ => keeps_setRes0 _
  | winClear => exact keeps_emptyWindow fun _ => ⟨rfl, rfl, rfl, rfl⟩
  | winWrite k b => exact keeps_winPut _ _
  | winRead k => exact (writes_bodyOf (.winRead k)).keeps (by simp [streamGroups, writeGroups])
  | dictClear => exact (writes_bodyOf .dictClear).keeps (by decide)
  | dictRemove p => exact (writes_removeNode _).keeps (by decide)
  | mfMatchAdd p n => exact (writes_bodyOf (.mfMatchAdd p n)).keeps (by simp [streamGroups, writeGroups])
  | lencEncode => exact keeps_lzssEncode
  | lencEmitLiteral b => exact keeps_emitLiteral _
  | lencEmitReference p n => exact keeps_emitReference _ _
  | lencEmitSentinel p => exact keeps_emitSentinel _
  | ldecDecode => exact keeps_lzssDecode
  | ldecDecodeToken => exact keeps_decodeLzToken.bind fun _ => keeps_setRes _ _
  | ldecInit => exact keeps_emptyWindow fun _ => ⟨rfl, rfl, rfl, rfl⟩
  | hufTreeLeaf v => cases hi
  | hufTreeInternal => cases hi
  | hufCountGroup d last => cases hi
  | hufCode bits => cases hi
  | lzLiteral b => cases hi
  | lzReference p e => cases hi
  | lzEnd p => cases hi

theorem State.StreamInv.memInv {s : State} (h : s.StreamInv) : s.MemInv :=
  ⟨h.params, h.srcForm, h.outForm, h.windowForm, h.source, h.sink, h.output⟩

theorem State.StreamInv.legal {s : State} (h : s.StreamInv) (hs : s.healthy) : s.Legal 1 7 := by
  obtain ⟨hw, hr, hp, hm⟩ := h.units hs
  exact ⟨h.memInv, hm, hw, hr, hp⟩

theorem State.Legal.begin {lo hi : Nat} {s : State} (h : s.Legal lo hi) (v : Word) : (s.begin v).Legal lo hi :=
  ⟨h.mem, h.mirror, h.writer, h.reader, h.parked⟩

/-- The stream invariant of a state without a pending fault. -/
theorem State.Legal.streamInv {s : State} (h : s.Legal 1 7) (hs : s.healthy)
    (hst : s.status.fcode = 0 ∧ s.status.fcmd = 0) : s.StreamInv := by
  obtain ⟨hm, hmir, hw, hr, hp⟩ := h
  exact ⟨hm.params, hm.srcForm, hm.outForm, hm.windowForm, hm.source, hm.sink, hm.output, fun _ => hst,
    fun hf => absurd (hs.symm.trans hf) (by decide), fun _ => ⟨hw, hr, hp, hmir⟩⟩

/-- The stream invariant of a state with a pending fault. -/
theorem State.MemInv.streamInv {s : State} (hm : s.MemInv) (hf : s.status.fault = true) (hd : s.status.done = false)
    (hc : 1 ≤ s.status.fcode.toNat ∧ s.status.fcode.toNat ≤ 9) : s.StreamInv :=
  ⟨hm.params, hm.srcForm, hm.outForm, hm.windowForm, hm.source, hm.sink, hm.output,
    fun h => absurd (hf.symm.trans h) (by decide), fun _ => ⟨hd, hc⟩,
    fun h => absurd (hf.symm.trans h) (by decide)⟩

/-- A fault's code is one of 1 to 9 (60_exceptions.md R372). -/
theorem FaultCode.code_range (c : FaultCode) : 1 ≤ c.code.toNat ∧ c.code.toNat ≤ 9 := by
  cases c <;> decide

theorem CmdEffect.streamInv {v : Word} {s t : State} (h : CmdEffect v s t) (hs : s.StreamInv) : t.StreamInv := by
  cases h with
  | ignored hf =>
    obtain ⟨hd, hc⟩ := hs.oneFault hf
    exact State.MemInv.streamInv (s := { s with cmd := v }) hs.memInv hf hd hc
  | reset _ =>
    have hm := hs.memInv
    refine State.Legal.streamInv ⟨{ hm with
        windowForm := ⟨List.Pairwise.nil, fun _ h => absurd h List.not_mem_nil⟩
        source := ⟨Nat.zero_le _, Nat.zero_le _⟩
        sink := ⟨Nat.le_refl _, Nat.zero_le _, Nat.zero_le _⟩
        output := fun _ hk => absurd hk (Nat.not_lt_zero _) }, fun _ _ => rfl, emptied_writer, Nat.zero_le _,
      fun hp => by cases hp⟩ rfl ⟨rfl, rfl⟩
  | check c _ => exact State.MemInv.streamInv (s := s.checkFaulted v c) hs.memInv rfl rfl c.code_range
  | completed i q hh hi _ _ hb =>
    have hl := (hs.legal hh).begin v
    have hq := keeps_bodyOf hi _ hl
    rw [hb] at hq
    obtain ⟨-, hst⟩ := bodyOf_control_ok hb
    have hf : q.status.fault = false := by rw [hst]; exact hh
    have hq' : q.completed.Legal 1 7 := ⟨hq.mem, hq.mirror, hq.writer, hq.reader, hq.parked⟩
    exact hq'.streamInv hf (by
      show q.status.fcode = 0 ∧ q.status.fcmd = 0
      rw [hst]
      exact hs.noFault hh)
  | faulted i c q hh hi hb =>
    have hl := (hs.legal hh).begin v
    have hq := keeps_bodyOf hi _ hl
    rw [hb] at hq
    have hq' : (q.faultEntry .execution c).MemInv := { hq with windowForm := freeUnits_window _ _ }
    exact hq'.streamInv rfl rfl c.code_range

/-- What a host's move that starts no command leaves in the units, STATUS, the positions and the sink. -/
theorem State.StreamInv.hostMove {s t : State} (h : s.StreamInv) (hP : t.params = s.params)
    (hsrc : t.src.wf ∧ ∀ c ∈ t.src, c.1 < t.params.srcSize) (hlen : t.slen.toNat ≤ t.params.srcSize)
    (hpos : t.ipos = s.ipos) (hsink : s.agree t .sink) (hu : t.u = s.u) (hst : t.status = s.status) : t.StreamInv := by
  obtain ⟨hopos, holen, hout⟩ := hsink
  exact {
    params := hP ▸ h.params
    srcForm := hsrc
    outForm := by rw [hout, hP]; exact h.outForm
    windowForm := by rw [hu, hP]; exact h.windowForm
    source := ⟨hlen, by rw [hpos, hP]; exact h.source.2⟩
    sink := by rw [hopos, holen, hP]; exact h.sink
    output := by rw [holen, hout]; exact h.output
    noFault := by rw [hst]; exact h.noFault
    oneFault := by rw [hst]; exact h.oneFault
    units := by rw [hst, hu, hP, hpos]; exact h.units }

theorem StepEffect.streamInv {s t : State} (h : StepEffect s t) (hs : s.StreamInv) : t.StreamInv := by
  cases h with
  | idle => exact hs
  | operands rest a b c => exact hs.hostMove rfl hs.srcForm hs.source.1 rfl ⟨rfl, rfl, rfl⟩ rfl rfl
  | sourceLength rest v =>
    refine hs.hostMove rfl hs.srcForm ?_ rfl ⟨rfl, rfl, rfl⟩ rfl rfl
    show (BitVec.ofNat 64 (min v.toNat s.params.srcSize)).toNat ≤ s.params.srcSize
    rw [BitVec.toNat_ofNat]
    exact (Nat.mod_le _ _).trans (Nat.min_le_right _ _)
  | sourceByte rest k b hk =>
    exact hs.hostMove rfl ⟨Memory.wf_write hs.srcForm.1 _ _, Memory.bound_write hs.srcForm.2 hk _⟩ hs.source.1 rfl
      ⟨rfl, rfl, rfl⟩ rfl rfl
  | command rest v _ h =>
    exact h.streamInv (hs.hostMove (t := { s with moves := rest }) rfl hs.srcForm hs.source.1 rfl ⟨rfl, rfl, rfl⟩ rfl rfl)

/-- Settles O20: whatever a step does, it does it by pieces of pseudocode that keep a running state legal, or it enters a
fault, which frees the units and keeps the memories and positions. -/
theorem stepKeepsStreams : Obligations.StepKeepsStreams := fun _ _ hs h => (step_effect h).streamInv hs

end Sys2Proof.Machine
end

section
/-! SUPPORT. Pseudocode that never stops the model: the rules, the accesses, the bit streams, and the bits a read takes. -/

namespace Sys2Proof.Machine

/-! ## Rules -/

section
variable {α β : Type}

/-- From a state where I holds, the piece of pseudocode ends well where Q holds, or raises a fault of the spec: it never
stops the model (log 16). -/
def Op.Runs (I : State → Prop) (x : Op α) (Q : α → State → Prop) : Prop :=
  ∀ s, I s → match x s with
    | .ok a t => Q a t
    | .error (.raised _) _ => True
    | .error (.stuck _) _ => False

variable {I : State → Prop} {Q : α → State → Prop}

theorem Op.Runs.of_ok {x : Op α} (h : Op.Runs I x Q) {s t : State} {a : α} (hs : I s) (hx : x s = .ok a t) : Q a t := by
  have := h s hs
  rwa [hx] at this

theorem Op.Runs.not_stuck {x : Op α} (h : Op.Runs I x Q) {s t : State} {f : Fault} (hs : I s) :
    x s ≠ .error (.stuck f) t := by
  intro hx
  have := h s hs
  rwa [hx] at this

/-- A piece whose every end is known. -/
theorem Op.Runs.intro {x : Op α} (h : ∀ s, I s → (∃ a t, x s = .ok a t ∧ Q a t) ∨ ∃ c t, x s = .error (.raised c) t) :
    Op.Runs I x Q := by
  intro s hs
  rcases h s hs with ⟨a, t, hx, hq⟩ | ⟨c, t, hx⟩
  · rw [hx]
    exact hq
  · rw [hx]
    trivial

theorem Op.Runs.pure {a : α} (h : ∀ s, I s → Q a s) : Op.Runs I (Pure.pure a : Op α) Q := fun s hs => h s hs

theorem Op.Runs.raise {c : FaultCode} : Op.Runs I (Machine.raise c : Op α) Q := fun _ _ => trivial

theorem Op.Runs.absurd {x : Op α} (h : ∀ s, ¬ I s) : Op.Runs I x Q := fun s hs => (h s hs).elim

theorem Op.Runs.setUnits {R : Unit → State → Prop} {g : Units → Units} (h : ∀ s, I s → R () { s with u := g s.u }) :
    Op.Runs I (Machine.setUnits g) R := fun s hs => h s hs

theorem Op.Runs.bind {R : β → State → Prop} {x : Op α} {f : α → Op β} (hx : Op.Runs I x Q)
    (hf : ∀ a, Op.Runs (Q a) (f a) R) : Op.Runs I (x >>= f) R := by
  intro s hs
  have h := hx s hs
  rw [Op.bind_eq]
  cases hxs : x s with
  | ok a t => rw [hxs] at h; exact hf a t h
  | error e t =>
    rw [hxs] at h
    cases e with
    | raised c => trivial
    | stuck f => exact h

theorem Op.Runs.ite {p : Prop} [Decidable p] {x y : Op α} (hx : p → Op.Runs I x Q) (hy : ¬p → Op.Runs I y Q) :
    Op.Runs I (if p then x else y) Q := by
  split
  · exact hx ‹_›
  · exact hy ‹_›

theorem Op.Runs.imp {I' : State → Prop} {Q' : α → State → Prop} {x : Op α} (h : Op.Runs I' x Q')
    (hI : ∀ s, I s → I' s) (hQ : ∀ a t, Q' a t → Q a t) : Op.Runs I x Q := by
  intro s hs
  have := h s (hI s hs)
  cases hx : x s with
  | ok a t => rw [hx] at this; exact hQ a t this
  | error e t => rw [hx] at this; cases e <;> exact this

theorem Op.Runs.pre {I' : State → Prop} {x : Op α} (h : Op.Runs I' x Q) (hI : ∀ s, I s → I' s) : Op.Runs I x Q :=
  h.imp hI fun _ _ h => h

/-- Two claims about one piece hold together. -/
theorem Op.Runs.and {I' : State → Prop} {Q' : α → State → Prop} {x : Op α} (h : Op.Runs I x Q) (h' : Op.Runs I' x Q') :
    Op.Runs (fun s => I s ∧ I' s) x fun a t => Q a t ∧ Q' a t := by
  intro s hs
  have h1 := h s hs.1
  have h2 := h' s hs.2
  cases hx : x s with
  | ok a t => rw [hx] at h1 h2; exact ⟨h1, h2⟩
  | error e t => rw [hx] at h1; cases e <;> exact h1

theorem Op.Runs.withUnits {R : β → State → Prop} {f : Units → Op β}
    (h : ∀ u, Op.Runs (fun s => I s ∧ s.u = u) (f u) R) : Op.Runs I (units >>= f) R := fun s hs => h s.u s ⟨hs, rfl⟩

theorem Op.Runs.withParams {R : β → State → Prop} {f : Config.Params → Op β}
    (h : ∀ P, Op.Runs (fun s => I s ∧ s.params = P) (f P) R) : Op.Runs I (params >>= f) R :=
  fun s hs => h s.params s ⟨hs, rfl⟩

/-- A bound computed from the state. -/
theorem Op.Runs.withBound {R : β → State → Prop} {b : State → Nat} {f : Nat → Op β}
    (h : ∀ n, Op.Runs (fun s => I s ∧ b s = n) (f n) R) :
    Op.Runs I ((fun s => .ok (b s) s : Op Nat) >>= f) R := fun s hs => h (b s) s ⟨hs, rfl⟩

theorem Op.Runs.repeatOp (n : Nat) {x : Op Unit} (hx : Op.Runs I x fun _ => I) :
    Op.Runs I (Machine.repeatOp n x) fun _ => I := by
  induction n with
  | zero => exact .pure fun _ h => h
  | succ n ih => exact hx.bind fun _ => ih

/-- K depends on the listed groups of state alone. -/
def State.Reads (gs : List Group) (K : State → Prop) : Prop := ∀ s t : State, (∀ g ∈ gs, s.agree t g) → K s → K t

theorem State.Reads.and {gs hs : List Group} {K L : State → Prop} (hK : State.Reads gs K) (hL : State.Reads hs L) :
    State.Reads (gs ++ hs) fun s => K s ∧ L s := fun s t h hs =>
  ⟨hK s t (fun g hg => h g (List.mem_append_left _ hg)) hs.1, hL s t (fun g hg => h g (List.mem_append_right _ hg)) hs.2⟩

/-- What depends on none of the groups a piece writes holds after it. -/
theorem Op.Runs.keep {gs ws : List Group} {x : Op α} {K : State → Prop} (h : Op.Runs I x Q) (hw : Op.Writes ws x)
    (hK : State.Reads gs K) (hd : ∀ g ∈ gs, g ∉ ws) : Op.Runs (fun s => I s ∧ K s) x fun a t => Q a t ∧ K t := by
  intro s hs
  have h1 := h s hs.1
  have h2 : K (Op.final (x s)) := hK s _ (fun g hg => hw s g (hd g hg)) hs.2
  cases hx : x s with
  | ok a t => rw [hx] at h1 h2; exact ⟨h1, h2⟩
  | error e t => rw [hx] at h1; cases e <;> exact h1

/-- A piece that never stops the model, from any state. -/
def Op.Safe (x : Op α) : Prop := Op.Runs (fun _ => True) x fun _ _ => True

/-- A piece that never stops the model keeps what depends on none of the groups it writes. -/
theorem Op.Safe.keep {gs ws : List Group} {x : Op α} {K : State → Prop} (h : Op.Safe x) (hw : Op.Writes ws x)
    (hK : State.Reads gs K) (hd : ∀ g ∈ gs, g ∉ ws) : Op.Runs K x fun _ => K :=
  (Op.Runs.keep h hw hK hd).imp (fun _ hs => ⟨trivial, hs⟩) fun _ _ h => h.2

theorem Op.Safe.pure (a : α) : Op.Safe (Pure.pure a : Op α) := Op.Runs.pure fun _ _ => trivial

theorem Op.Safe.raise (c : FaultCode) : Op.Safe (Machine.raise c : Op α) := Op.Runs.raise

theorem Op.Safe.setUnits (g : Units → Units) : Op.Safe (Machine.setUnits g) := fun _ _ => trivial

theorem Op.Safe.bind {x : Op α} {f : α → Op β} (hx : Op.Safe x) (hf : ∀ a, Op.Safe (f a)) : Op.Safe (x >>= f) :=
  Op.Runs.bind hx hf

theorem Op.Safe.ite {p : Prop} [Decidable p] {x y : Op α} (hx : Op.Safe x) (hy : Op.Safe y) :
    Op.Safe (if p then x else y) := Op.Runs.ite (fun _ => hx) fun _ => hy

theorem Op.Safe.withUnits {f : Units → Op β} (h : ∀ u, Op.Safe (f u)) : Op.Safe (Machine.units >>= f) :=
  fun s hs => h s.u s hs

theorem Op.Safe.withParams {f : Config.Params → Op β} (h : ∀ P, Op.Safe (f P)) : Op.Safe (Machine.params >>= f) :=
  fun s hs => h s.params s hs

end

/-! ## Accesses and bit streams -/

theorem safe_srcRead : Op.Safe srcRead := .intro fun s _ => by
  rcases srcRead_cases s with h | ⟨-, h⟩ | ⟨-, h⟩
  · exact .inr ⟨_, _, h⟩
  · exact .inl ⟨_, _, h, trivial⟩
  · exact .inl ⟨_, _, h, trivial⟩

theorem safe_srcSeek_back (n : Nat) : Op.Safe (srcSeek (-(n : Int))) := .intro fun s _ => by
  rcases srcSeek_back_cases n s with h | ⟨-, h⟩
  · exact .inr ⟨_, _, h⟩
  · exact .inl ⟨_, _, h, trivial⟩

theorem safe_sinkWrite (b : Byte) : Op.Safe (sinkWrite b) := .intro fun s _ => by
  rcases sinkWrite_cases b s with h | ⟨-, h⟩
  · exact .inr ⟨_, _, h⟩
  · exact .inl ⟨_, _, h, trivial⟩

theorem safe_sinkSeek_back : Op.Safe (sinkSeek (-1)) := .intro fun s _ => by
  rcases sinkSeek_back_cases s with h | ⟨-, h⟩
  · exact .inr ⟨_, _, h⟩
  · exact .inl ⟨_, _, h, trivial⟩

theorem safe_winRd (k : Nat) : Op.Safe (winRd k) := .intro fun s _ => by
  rcases winRd_cases k s with ⟨b, -, h⟩ | ⟨-, h⟩
  · exact .inl ⟨_, _, h, trivial⟩
  · exact .inr ⟨_, _, h⟩

theorem safe_setRes0 (a : Nat) : Op.Safe (setRes0 a) := fun _ _ => trivial

theorem safe_setRes (a b : Nat) : Op.Safe (setRes a b) := fun _ _ => trivial

theorem safe_streamInit : Op.Safe streamInit := fun _ _ => trivial

theorem safe_emitFullByte : Op.Safe emitFullByte :=
  .withUnits fun _ => .ite ((safe_sinkWrite _).bind fun _ => .setUnits _) (.pure _)

theorem safe_writeLoop (fuel v c : Nat) : Op.Safe (writeLoop fuel v c) := by
  induction fuel generalizing v c with
  | zero => exact .pure _
  | succ fuel ih =>
    exact .ite (.pure _) (.withUnits fun _ => (Op.Safe.setUnits _).bind fun _ => safe_emitFullByte.bind fun _ => ih _ _)

theorem safe_writeBits (v c : Nat) (f : Bool) : Op.Safe (writeBits v c f) :=
  (safe_writeLoop _ _ _).bind fun _ =>
    .ite (.withUnits fun _ => .ite ((safe_sinkWrite _).bind fun _ => safe_sinkSeek_back) (.pure _)) (.pure _)

theorem safe_writeWide (v c : Nat) : Op.Safe (writeWide v c) := by
  have key : ∀ fuel v c, Op.Safe (writeWideLoop fuel v c) := by
    intro fuel
    induction fuel with
    | zero => exact fun v c => .pure _
    | succ fuel ih => exact fun v c => .ite (.pure _) ((safe_writeBits _ _ _).bind fun _ => ih _ _)
  exact key _ _ _

theorem safe_pullByte : Op.Safe pullByte := by
  refine .withUnits fun _ => .ite (safe_srcRead.bind fun r => ?_) (.pure _)
  cases r with
  | none => exact .pure _
  | some b => exact (Op.Safe.setUnits _).bind fun _ => .pure _

theorem safe_refresh : Op.Safe refresh := by
  refine .withUnits fun _ => .ite (.pure _) ((safe_srcSeek_back 1).bind fun _ => safe_srcRead.bind fun r => ?_)
  cases r with
  | none => exact .raise _
  | some b => exact .setUnits _

theorem safe_readLoop (c fuel v got : Nat) : Op.Safe (readLoop c fuel v got) := by
  induction fuel generalizing v got with
  | zero => exact .pure _
  | succ fuel ih =>
    exact .ite (safe_pullByte.bind fun _ => .ite (.withUnits fun _ => (Op.Safe.setUnits _).bind fun _ => ih _ _) (.pure _))
      (.pure _)

theorem safe_readBits (c : Nat) (r : Bool) : Op.Safe (readBits c r) := by
  cases r
  · exact safe_readLoop _ _ _ _
  · exact safe_refresh.bind fun _ => safe_readLoop _ _ _ _

/-! ## The bits a read takes -/

/-- What is left of the source does not depend on the units but the reader. -/
theorem reads_bitsLeft (K : Nat → Prop) : State.Reads [.host, .sourcePos, .reader] fun s => K s.bitsLeft := by
  intro s t h hs
  obtain ⟨-, -, -, hslen⟩ := h .host (by decide)
  obtain ⟨-, hrcnt⟩ := h .reader (by decide)
  have hipos : t.ipos = s.ipos := h .sourcePos (by decide)
  have : t.bitsLeft = s.bitsLeft := by simp only [State.bitsLeft, hslen, hrcnt, hipos]
  rwa [this]

/-- A byte moves from the source to the reader: no bit is lost (41_bit_stream.md R190). -/
theorem runs_pullByte (n : Nat) : Op.Runs (fun s => s.bitsLeft = n) pullByte
    fun more t => t.bitsLeft = n ∧ (more = true → 1 ≤ t.u.rcnt.toNat) := .intro fun s hs => by
  unfold pullByte
  rw [Op.units_bind]
  by_cases h0 : s.u.rcnt.toNat = 0
  · rw [if_pos h0]
    rcases srcRead_cases s with h | ⟨-, h⟩ | ⟨hlt, h⟩
    · exact .inr ⟨_, _, Op.bind_error h⟩
    · exact .inl ⟨_, _, Op.bind_ok h, hs, fun hm => absurd hm (by decide)⟩
    · refine .inl ⟨_, _, Op.bind_ok h, ?_, fun _ => show 1 ≤ (8 : BitVec 4).toNat by decide⟩
      have hs1 : (s.ipos + 1).toNat = s.ipos.toNat + 1 := word_succ_toNat hlt s.slen.isLt
      have hn : s.u.rcnt.toNat + 8 * (s.slen.toNat - s.ipos.toNat) = n := hs
      show (8 : BitVec 4).toNat + 8 * (s.slen.toNat - (s.ipos + 1).toNat) = n
      have h8 : (8 : BitVec 4).toNat = 8 := rfl
      omega
  · rw [if_neg h0]
    exact .inl ⟨_, _, rfl, hs, fun _ => by omega⟩

theorem runs_readLoop (c fuel v got n : Nat) : Op.Runs (fun s => s.bitsLeft = n) (readLoop c fuel v got)
    fun va t => va.2 + t.bitsLeft = got + n := by
  induction fuel generalizing v got n with
  | zero => exact .pure fun s hs => congrArg (got + ·) hs
  | succ fuel ih =>
    refine .ite (fun hlt => (runs_pullByte n).bind fun more => .ite (fun hm => .withUnits fun u => ?_)
      fun _ => .pure fun s hs => congrArg (got + ·) hs.1) fun _ => .pure fun s hs => congrArg (got + ·) hs
    refine Op.Runs.bind (Q := fun _ t => t.bitsLeft = n - min (c - got) u.rcnt.toNat ∧ min (c - got) u.rcnt.toNat ≤ n)
      (.setUnits ?_) fun _ => ?_
    · rintro s ⟨⟨hs, -⟩, rfl⟩
      have hn : s.u.rcnt.toNat + 8 * (s.slen.toNat - s.ipos.toNat) = n := hs
      have h16 := s.u.rcnt.isLt
      have hk : (BitVec.ofNat 4 (s.u.rcnt.toNat - min (c - got) s.u.rcnt.toNat)).toNat =
          s.u.rcnt.toNat - min (c - got) s.u.rcnt.toNat := by
        rw [BitVec.toNat_ofNat]
        exact Nat.mod_eq_of_lt (by omega)
      refine ⟨?_, by omega⟩
      show (BitVec.ofNat 4 (s.u.rcnt.toNat - min (c - got) s.u.rcnt.toNat)).toNat + 8 * (s.slen.toNat - s.ipos.toNat) = _
      omega
    · intro s hs
      have h := ih (v ||| u.parkedBits (min (c - got) u.rcnt.toNat) <<< got) (got + min (c - got) u.rcnt.toNat)
        (n - min (c - got) u.rcnt.toNat) s hs.1
      split at h
      · exact h.trans (by omega)
      · trivial
      · exact h

/-- Need(c) takes c bits off the stream (41_bit_stream.md R193). -/
theorem runs_need (c n : Nat) : Op.Runs (fun s => s.bitsLeft = n) (need c) fun _ t => t.bitsLeft + c ≤ n := by
  refine Op.Runs.bind (runs_readLoop c c 0 0 n) fun va => .ite (fun _ => .raise) fun hge => .pure fun s hs => ?_
  omega

/-- Need(c) takes c bits and keeps what depends neither on the source position nor on the reader. -/
theorem runs_need_keep (c n : Nat) {gs : List Group} {K : State → Prop} (hK : State.Reads gs K)
    (hd : ∀ g ∈ gs, g ∉ [Group.sourcePos, .reader]) :
    Op.Runs (fun s => s.bitsLeft ≤ n ∧ K s) (need c) fun _ t => t.bitsLeft + c ≤ n ∧ K t := by
  intro s ⟨hn, hs⟩
  exact (((runs_need c s.bitsLeft).keep (writes_need c) hK hd).imp (fun _ h => h)
    fun _ t ht => ⟨ht.1.trans hn, ht.2⟩) s ⟨rfl, hs⟩

end Sys2Proof.Machine
end

section
/-! SUPPORT. The Huffman tables stay legal: the tree builder, the code table, the parser, and the walks over a tree. -/

namespace Sys2Proof.Machine

/-! ## What the invariant reads -/

/-- Two unit states agree on the tables the Huffman invariant speaks of. -/
structure Units.SameHuffman (u v : Units) : Prop where
  leftH : v.leftH = u.leftH
  rightH : v.rightH = u.rightH
  nextH : v.nextH = u.nextH
  rootH : v.rootH = u.rootH
  pq : v.pq = u.pq
  code : v.code = u.code
  clen : v.clen = u.clen
  cvalid : v.cvalid = u.cvalid
  parseStack : v.parseStack = u.parseStack

theorem Units.SameHuffman.holds {u v : Units} (h : u.SameHuffman v) (id : HId) (t : Shape) :
    v.holds id t = u.holds id t := Units.holds_congr h.leftH h.rightH id t

theorem Units.HuffInv.congr {u v : Units} (hu : u.HuffInv) (h : u.SameHuffman v) : v.HuffInv where
  idle := by rw [h.pq, h.parseStack]; exact hu.idle
  nextId := by rw [h.nextH]; exact hu.nextId
  tree := by simpa only [h.rootH, h.holds] using hu.tree
  codes := by
    intro b hb
    have hv : u.codeValid b = true := by rw [← hb]; simp only [Units.codeValid, h.cvalid]
    simpa only [h.rootH, h.holds, Units.codeOf, Units.codeLen, h.code, h.clen] using hu.codes b hv

/-- The groups that hold those tables. -/
def huffmanGroups : List Group := [.tree, .codes, .parser]

theorem State.sameHuffman_of_agree {s t : State} (h : ∀ g ∈ huffmanGroups, s.agree t g) : s.u.SameHuffman t.u := by
  obtain ⟨hl, hr, -, hn, hroot, hpq⟩ := h .tree (by decide)
  obtain ⟨hc, hlen, hv⟩ := h .codes (by decide)
  obtain ⟨hps, -⟩ := h .parser (by decide)
  exact ⟨hl, hr, hn, hroot, hpq, hc, hlen, hv, hps⟩

theorem reads_huffInv : State.Reads huffmanGroups fun s => s.u.HuffInv :=
  fun _ _ h hs => hs.congr (State.sameHuffman_of_agree h)

/-- The Huffman tables are legal and there is a tree. -/
def Units.HasTree (u : Units) : Prop := u.HuffInv ∧ u.rootH ≠ nilH

theorem reads_hasTree : State.Reads huffmanGroups fun s => s.u.HasTree := fun s t h hs =>
  ⟨hs.1.congr (State.sameHuffman_of_agree h), by rw [(State.sameHuffman_of_agree h).rootH]; exact hs.2⟩

/-- The tree there is. -/
theorem Units.HasTree.shape {u : Units} (h : u.HasTree) : ∃ t : Shape, u.holds u.rootH t = true ∧ t.depth ≤ Config.maxCode :=
  h.1.tree.resolve_left h.2

/-- The tree at an id does not depend on the other groups. -/
theorem reads_holds (id : HId) (t : Shape) : State.Reads [.tree] fun s => s.u.holds id t = true := by
  intro s r h hs
  obtain ⟨hl, hr, -⟩ := h .tree (by decide)
  rw [Units.holds_congr hl hr]
  exact hs

/-! ## Node ids and the node table -/

/-- The id of internal node 256 + k (10_state.md R41). -/
theorem nodeId_toNat {k : Nat} (hk : k < 255) : (BitVec.ofNat 9 (256 + k)).toNat = 256 + k := by
  rw [BitVec.toNat_ofNat]
  exact Nat.mod_eq_of_lt (by omega)

/-- A child entry of an internal node that exists. -/
theorem Units.leftOf_eq {u : Units} {t : HId} (h : 256 ≤ t.toNat) : u.leftOf t = u.leftH[t.toNat - 256]? := if_pos h

theorem Units.rightOf_eq {u : Units} {t : HId} (h : 256 ≤ t.toNat) : u.rightOf t = u.rightH[t.toNat - 256]? := if_pos h

theorem Units.leftOf_setLeftH {u : Units} {t r x : HId} (ht : 256 ≤ t.toNat) (ht' : t.toNat < 511) :
    (u.setLeftH t x).leftOf r = if r = t then some x else u.leftOf r := by
  by_cases hr : 256 ≤ r.toNat
  · have he : r = t ↔ t.toNat - 256 = r.toNat - 256 := by rw [← BitVec.toNat_inj]; omega
    rw [Units.leftOf_eq hr, Units.leftOf_eq hr, Units.setLeftH, Vector.getElem?_setIfInBounds]
    simp only [he]
    split
    · next h => rw [if_pos (by omega)]
    · rfl
  · rw [if_neg (by rintro rfl; exact hr ht)]
    simp only [Units.leftOf, if_neg hr]

theorem Units.rightOf_setRightH {u : Units} {t r x : HId} (ht : 256 ≤ t.toNat) (ht' : t.toNat < 511) :
    (u.setRightH t x).rightOf r = if r = t then some x else u.rightOf r := by
  by_cases hr : 256 ≤ r.toNat
  · have he : r = t ↔ t.toNat - 256 = r.toNat - 256 := by rw [← BitVec.toNat_inj]; omega
    rw [Units.rightOf_eq hr, Units.rightOf_eq hr, Units.setRightH, Vector.getElem?_setIfInBounds]
    simp only [he]
    split
    · next h => rw [if_pos (by omega)]
    · rfl
  · rw [if_neg (by rintro rfl; exact hr ht)]
    simp only [Units.rightOf, if_neg hr]

theorem Units.rightOf_setLeftH (u : Units) (t r x : HId) : (u.setLeftH t x).rightOf r = u.rightOf r := rfl

theorem Units.leftOf_setRightH (u : Units) (t r x : HId) : (u.setRightH t x).leftOf r = u.leftOf r := rfl

theorem Shape.depth_le_nodes (t : Shape) : t.depth ≤ t.nodes := by
  induction t with
  | leaf v => exact Nat.le_refl _
  | node l r ihl ihr =>
    simp only [Shape.depth, Shape.nodes]
    omega

/-! ## The tree builder (42_huffman.md R222) -/

/-- HTREE holds the tree at this id, with every internal node's id below m. -/
def Units.holdsBelow (u : Units) (m : Nat) : HId → Shape → Prop
  | id, .leaf v => id = v.setWidth 9
  | id, .node l r => 256 ≤ id.toNat ∧ id.toNat < m ∧
      ∃ a b, u.leftOf id = some a ∧ u.rightOf id = some b ∧ u.holdsBelow m a l ∧ u.holdsBelow m b r

theorem Units.holdsBelow.holds {u : Units} {m : Nat} {id : HId} {t : Shape} (h : u.holdsBelow m id t) :
    u.holds id t = true := by
  induction t generalizing id with
  | leaf v => exact beq_iff_eq.mpr h
  | node l r ihl ihr =>
    obtain ⟨-, -, a, b, ha, hb, hl, hr⟩ := h
    simp only [Units.holds, ha, hb, ihl hl, ihr hr, Bool.and_self]

theorem Units.holdsBelow.id_lt {u : Units} {m : Nat} {id : HId} {t : Shape} (h : u.holdsBelow m id t) (hm : 256 ≤ m) :
    id.toNat < m := by
  cases t with
  | leaf v =>
    obtain rfl : id = v.setWidth 9 := h
    have := v.isLt
    rw [toNat_leaf]
    omega
  | node l r => exact h.2.1

/-- A tree over ids below m does not depend on the entries from m on. -/
theorem Units.holdsBelow.congr {u v : Units} {m m' : Nat} {id : HId} {t : Shape} (h : u.holdsBelow m id t) (hm : m ≤ m')
    (hl : ∀ x : HId, x.toNat < m → v.leftOf x = u.leftOf x) (hr : ∀ x : HId, x.toNat < m → v.rightOf x = u.rightOf x) :
    v.holdsBelow m' id t := by
  induction t generalizing id with
  | leaf b => exact h
  | node l r ihl ihr =>
    obtain ⟨h1, h2, a, b, ha, hb, h3, h4⟩ := h
    exact ⟨h1, by omega, a, b, by rw [hl _ h2, ha], by rw [hr _ h2, hb], ihl h3, ihr h4⟩

/-- BuildTree under way on n present bytes: every entry of PQ is a tree over ids below NEXT_H, these trees have all the
internal nodes made, and each one made took one entry out of PQ. -/
structure Units.Building (n : Nat) (u : Units) : Prop where
  parser : u.parseStack = []
  codes : u.cvalid = Vector.replicate 256 false
  present : n ≤ 256
  count : u.nextH.toNat + u.pq.length = 256 + n
  trees : ∃ f : HId → Shape, (∀ x ∈ u.pq, u.holdsBelow u.nextH.toNat x (f x)) ∧
    256 + (u.pq.map fun x => (f x).nodes).sum = u.nextH.toNat

theorem Units.Building.congr {n : Nat} {u v : Units} (hu : u.Building n) (h : u.SameHuffman v) : v.Building n := by
  obtain ⟨hp, hc, hn, hcnt, f, hf, hsum⟩ := hu
  refine ⟨by rw [h.parseStack, hp], by rw [h.cvalid, hc], hn, by rw [h.nextH, h.pq, hcnt], f, ?_, by
    rw [h.pq, h.nextH, hsum]⟩
  rw [h.pq, h.nextH]
  exact fun x hx => (hf x hx).congr (Nat.le_refl _) (fun y _ => by simp only [Units.leftOf, h.leftH])
    fun y _ => by simp only [Units.rightOf, h.rightH]

/-- Two entries popped and joined under the next id: the construction goes on with one entry fewer. -/
theorem Units.Building.join {n : Nat} {u : Units} (hu : u.Building n) {x y : HId} (hx : x ∈ u.pq)
    (hy : y ∈ u.pq.erase x) (w : Nat) :
    (Units.joinNodes x y w { u with pq := (u.pq.erase x).erase y }).Building n ∧
      (Units.joinNodes x y w { u with pq := (u.pq.erase x).erase y }).pq.length + 1 = u.pq.length := by
  obtain ⟨hp, hc, hn, hcnt, f, hf, hsum⟩ := hu
  have hlx := List.length_erase_of_mem hx
  have hly := List.length_erase_of_mem hy
  have hpos := List.length_pos_of_mem hx
  have hpos' := List.length_pos_of_mem hy
  have hyq : y ∈ u.pq := List.mem_of_mem_erase hy
  have h256 : 256 ≤ u.nextH.toNat := by omega
  have ht : (u.nextH.setWidth 9).toNat = u.nextH.toNat := by
    rw [BitVec.toNat_setWidth]
    exact Nat.mod_eq_of_lt (by omega)
  have hnext : (u.nextH + 1).toNat = u.nextH.toNat + 1 := by
    rw [BitVec.toNat_add]
    exact Nat.mod_eq_of_lt (by show u.nextH.toNat + 1 < 1024; omega)
  have htl : 256 ≤ (u.nextH.setWidth 9).toNat := by omega
  have htu : (u.nextH.setWidth 9).toNat < 511 := by omega
  have hfresh : ∀ z ∈ (u.pq.erase x).erase y, z ≠ u.nextH.setWidth 9 := by
    rintro z hz rfl
    have := (hf _ (List.mem_of_mem_erase (List.mem_of_mem_erase hz))).id_lt h256
    omega
  -- the tables of the joined state
  have hL : ∀ z : HId, (Units.joinNodes x y w { u with pq := (u.pq.erase x).erase y }).leftOf z =
      if z = u.nextH.setWidth 9 then some x else u.leftOf z :=
    fun z => Units.leftOf_setLeftH (u := u) htl htu
  have hR : ∀ z : HId, (Units.joinNodes x y w { u with pq := (u.pq.erase x).erase y }).rightOf z =
      if z = u.nextH.setWidth 9 then some y else u.rightOf z :=
    fun z => Units.rightOf_setRightH (u := u) htl htu
  have hne : ∀ z : HId, z.toNat < u.nextH.toNat → z ≠ u.nextH.setWidth 9 := by
    rintro z hz rfl
    omega
  have hkeep : ∀ z t, u.holdsBelow u.nextH.toNat z t →
      (Units.joinNodes x y w { u with pq := (u.pq.erase x).erase y }).holdsBelow (u.nextH.toNat + 1) z t :=
    fun z t h => h.congr (Nat.le_succ _) (fun q hq => by rw [hL, if_neg (hne q hq)])
      fun q hq => by rw [hR, if_neg (hne q hq)]
  have hlen : ((u.pq.erase x).erase y ++ [u.nextH.setWidth 9]).length + 1 = u.pq.length := by
    rw [List.length_append, List.length_singleton]
    omega
  refine ⟨⟨hp, hc, hn, ?_, Function.update f (u.nextH.setWidth 9) (.node (f x) (f y)), ?_, ?_⟩, hlen⟩
  · show (u.nextH + 1).toNat + ((u.pq.erase x).erase y ++ [u.nextH.setWidth 9]).length = _
    omega
  · intro z hz
    show Units.holdsBelow _ (u.nextH + 1).toNat z _
    rw [hnext]
    rcases List.mem_append.mp hz with hz | hz
    · rw [Function.update_of_ne (hfresh z hz)]
      exact hkeep _ _ (hf z (List.mem_of_mem_erase (List.mem_of_mem_erase hz)))
    · obtain rfl := List.mem_singleton.mp hz
      rw [Function.update_self]
      exact ⟨htl, ht.trans_lt (Nat.lt_succ_self _), x, y, by rw [hL, if_pos rfl], by rw [hR, if_pos rfl], hkeep _ _ (hf x hx),
        hkeep _ _ (hf y hyq)⟩
  · show 256 + (((u.pq.erase x).erase y ++ [u.nextH.setWidth 9]).map _).sum = (u.nextH + 1).toNat
    have hsame : ((u.pq.erase x).erase y).map
          (fun z => (Function.update f (u.nextH.setWidth 9) (.node (f x) (f y)) z).nodes) =
        ((u.pq.erase x).erase y).map fun z => (f z).nodes :=
      List.map_congr_left fun z hz => by rw [Function.update_of_ne (hfresh z hz)]
    have hx' := List.sum_map_erase (f := fun z => (f z).nodes) hx
    have hy' := List.sum_map_erase (f := fun z => (f z).nodes) hy
    rw [List.map_append, List.sum_append, hsame, hnext]
    simp only [List.map_cons, List.map_nil, List.sum_cons, List.sum_nil, Function.update_self, Shape.nodes]
    omega

/-- PopMin on entries there are (42_huffman.md R223). -/
theorem popMin_some {s : State} (h : s.u.pq ≠ []) :
    ∃ x ∈ s.u.pq, popMin s = .ok (some x) { s with u := { s.u with pq := s.u.pq.erase x } } := by
  obtain ⟨y, rest, hpq⟩ := List.exists_cons_of_ne_nil h
  exact ⟨s.u.leastOf y rest, by rw [hpq]; exact Units.leastOf_mem _ _ _, popMin_cons hpq⟩

theorem runs_buildRound (n m : Nat) (hm : 1 ≤ m) :
    Op.Runs (fun s => s.u.Building n ∧ s.u.pq.length = m) buildRound
      fun more t => t.u.Building n ∧ 1 ≤ t.u.pq.length ∧
        if more then t.u.pq.length + 1 = m else t.u.pq.length = 1 := .intro fun s ⟨hs, hlen⟩ => by
  unfold buildRound
  rw [Op.units_bind]
  by_cases h2 : s.u.pq.length < 2
  · rw [if_pos h2]
    exact .inl ⟨_, _, rfl, hs, by omega, by rw [if_neg (by decide)]; omega⟩
  · rw [if_neg h2]
    obtain ⟨x, hx, hpx⟩ := popMin_some (s := s) (List.ne_nil_of_length_pos (by omega))
    have hlx := List.length_erase_of_mem hx
    obtain ⟨y, hy, hpy⟩ := popMin_some (s := { s with u := { s.u with pq := s.u.pq.erase x } })
      (List.ne_nil_of_length_pos (by show 0 < (s.u.pq.erase x).length; omega))
    rw [Op.bind_ok hpx, Op.bind_ok hpy]
    dsimp only [Option.getD_some]
    by_cases hw : 2 ^ 64 ≤ s.u.weightOf x + s.u.weightOf y
    · rw [if_pos hw]
      exact .inr ⟨_, _, rfl⟩
    · rw [if_neg hw]
      obtain ⟨hj, hl⟩ := hs.join hx hy (s.u.weightOf x + s.u.weightOf y)
      have h1 := Nat.le_of_succ_le_succ ((show 2 ≤ s.u.pq.length by omega).trans hl.ge)
      exact .inl ⟨_, _, rfl, hj, h1, by rw [if_pos rfl]; exact hl.trans hlen⟩

theorem runs_buildLoop (n fuel : Nat) :
    Op.Runs (fun s => s.u.Building n ∧ 1 ≤ s.u.pq.length ∧ s.u.pq.length ≤ fuel + 1) (buildLoop fuel)
      fun _ t => t.u.Building n ∧ t.u.pq.length = 1 := by
  induction fuel with
  | zero => exact .pure fun s ⟨hs, h1, h2⟩ => ⟨hs, by omega⟩
  | succ fuel ih =>
    intro s ⟨hs, h1, h2⟩
    refine Op.Runs.bind (runs_buildRound n s.u.pq.length h1) (fun more => .ite (fun hm => ih.pre ?_)
      fun hm => .pure ?_) s ⟨hs, rfl⟩
    · rintro t ⟨ht, h3, h4⟩
      rw [if_pos hm] at h4
      exact ⟨ht, h3, by omega⟩
    · rintro t ⟨ht, h3, h4⟩
      rw [if_neg hm] at h4
      exact ⟨ht, h4⟩

theorem mem_presentFrom {x : HId} {b : Nat} {l : List Word} (h : x ∈ presentFrom b l) :
    ∃ i, b ≤ i ∧ i < b + l.length ∧ x = BitVec.ofNat 9 i := by
  induction l generalizing b with
  | nil => cases h
  | cons w rest ih =>
    have hrest : x ∈ presentFrom (b + 1) rest → ∃ i, b ≤ i ∧ i < b + (w :: rest).length ∧ x = BitVec.ofNat 9 i := by
      intro hr
      obtain ⟨i, h1, h2, h3⟩ := ih hr
      exact ⟨i, by omega, by rw [List.length_cons]; omega, h3⟩
    rw [presentFrom] at h
    split at h
    · exact hrest h
    · rcases List.mem_cons.mp h with h | h
      · exact ⟨b, Nat.le_refl _, by rw [List.length_cons]; omega, h⟩
      · exact hrest h

theorem length_presentFrom_le (b : Nat) (l : List Word) : (presentFrom b l).length ≤ l.length := by
  induction l generalizing b with
  | nil => exact Nat.le_refl _
  | cons w rest ih =>
    have := ih (b + 1)
    rw [presentFrom]
    split <;> simp only [List.length_cons] <;> omega

/-- The bytes present are leaves (42_huffman.md R222). -/
theorem Units.leaf_of_presentBytes {u : Units} {x : HId} (h : x ∈ u.presentBytes) : x = (x.setWidth 8).setWidth 9 := by
  obtain ⟨i, -, hi, rfl⟩ := mem_presentFrom h
  rw [Vector.length_toList, Nat.zero_add] at hi
  apply BitVec.eq_of_toNat_eq
  rw [toNat_leaf, BitVec.toNat_setWidth, BitVec.toNat_ofNat]
  omega

/-- BuildTree begins with every present byte in PQ. -/
theorem Units.building_start (u : Units) (hp : u.parseStack = []) :
    Units.Building u.presentBytes.length { u with
      cvalid := Vector.replicate 256 false, nextH := 256, rootH := nilH, pq := u.presentBytes } := by
  refine ⟨hp, rfl, ?_, rfl, fun x => .leaf (x.setWidth 8), fun x hx => Units.leaf_of_presentBytes hx, ?_⟩
  · have := length_presentFrom_le 0 u.weight.toList
    rwa [Vector.length_toList] at this
  · simp [Shape.nodes]

/-- The one tree left is the whole tree, of depth at most 255 (00_scope.md R16). -/
theorem Units.Building.done {n : Nat} {u : Units} (hu : u.Building n) {x : HId} (hx : u.pq = [x]) :
    Units.HasTree { u with pq := [], rootH := x } := by
  obtain ⟨hp, hc, hn, hcnt, f, hf, hsum⟩ := hu
  rw [hx] at hcnt hsum
  simp only [List.length_singleton, List.map_cons, List.map_nil, List.sum_cons, List.sum_nil] at hcnt hsum
  have hd := (f x).depth_le_nodes
  have hh : Units.holds { u with pq := [], rootH := x } x (f x) = true := by
    exact (Units.holds_congr (u := u) (v := { u with pq := [], rootH := x }) rfl rfl x (f x)).trans
      (hf x (by rw [hx]; exact List.mem_singleton_self x)).holds
  refine ⟨⟨⟨rfl, hp⟩, ⟨?_, ?_⟩, .inr ⟨f x, hh, by rw [Config.maxCode]; omega⟩, fun b hb => ?_⟩, Units.holds_ne_nilH hh⟩
  · show 256 ≤ u.nextH.toNat
    omega
  · show u.nextH.toNat ≤ 511
    omega
  · simp [Units.codeValid, hc] at hb

/-- BuildTree makes a legal tree from any weights (42_huffman.md R222). -/
theorem runs_buildTree : Op.Runs (fun s => s.u.parseStack = []) buildTree fun _ t => t.u.HasTree := by
  refine Op.Runs.bind (Q := fun _ t => ∃ n, t.u.Building n ∧ t.u.pq.length = n ∧ t.u.nextH = 256)
    (.setUnits fun s hs => ⟨_, s.u.building_start hs, rfl, rfl⟩) fun _ => .withUnits fun u => .ite (fun he => ?_) fun he => ?_
  · -- no byte is present: the tree is the leaf 0
    refine .setUnits ?_
    rintro s ⟨⟨n, hs, -, hnx⟩, rfl⟩
    have hh : Units.holds { s.u with rootH := 0 } 0 (.leaf 0) = true := rfl
    refine ⟨⟨⟨List.isEmpty_iff.mp he, hs.parser⟩, ?_, .inr ⟨.leaf 0, hh, Nat.zero_le _⟩, fun b hb => ?_⟩,
      show (0 : HId) ≠ nilH by decide⟩
    · show 256 ≤ s.u.nextH.toNat ∧ s.u.nextH.toNat ≤ 511
      rw [hnx]
      decide
    · simp [Units.codeValid, hs.codes] at hb
  · rintro s ⟨⟨n, hs, hlen, -⟩, rfl⟩
    have hne : s.u.pq ≠ [] := fun h => he (List.isEmpty_iff.mpr h)
    have hpos := List.length_pos_of_ne_nil hne
    refine Op.Runs.bind (runs_buildLoop n s.u.pq.length) (fun _ => .intro fun t ⟨ht, h1⟩ => ?_) s ⟨hs, hpos, by omega⟩
    obtain ⟨x, hx⟩ := List.length_eq_one_iff.mp h1
    have hpop := popMin_cons hx
    rw [show t.u.leastOf x [] = x from rfl, hx, List.erase_cons_head] at hpop
    rw [Op.bind_ok hpop]
    exact .inl ⟨_, _, rfl, ht.done hx⟩

/-! ## The code table (42_huffman.md R224, R225) -/

theorem Shape.follow_of_mem_paths {t : Shape} {vp : Byte × List Bool} (h : vp ∈ t.paths) :
    t.follow vp.2 = some vp.1 ∧ vp.2.length ≤ t.depth := by
  induction t generalizing vp with
  | leaf v =>
    obtain rfl := List.mem_singleton.mp h
    exact ⟨rfl, Nat.le_refl _⟩
  | node l r ihl ihr =>
    simp only [Shape.paths, List.mem_append, List.mem_map] at h
    rcases h with ⟨q, hq, rfl⟩ | ⟨q, hq, rfl⟩
    · obtain ⟨h1, h2⟩ := ihl hq
      exact ⟨h1, by simp only [List.length_cons, Shape.depth]; omega⟩
    · obtain ⟨h1, h2⟩ := ihr hq
      exact ⟨h1, by simp only [List.length_cons, Shape.depth]; omega⟩

/-- Every valid code of u is one of the listed paths. -/
def Units.CodesFrom (paths : List (Byte × List Bool)) (u : Units) : Prop :=
  ∀ b, u.codeValid b = true → ∃ path, (b, path) ∈ paths ∧ (u.codeOf b).toNat = bitsValue path ∧
    (u.codeLen b).toNat = path.length

/-- A leaf's entry of the code table, set (42_huffman.md R224). -/
theorem Units.codeEntry_setCode (v b : Byte) (c d : Nat) (u : Units) :
    (u.setCode (v.setWidth 9) c d).codeValid b = (if b = v then true else u.codeValid b) ∧
    (u.setCode (v.setWidth 9) c d).codeOf b = (if b = v then BitVec.ofNat 255 c else u.codeOf b) ∧
    (u.setCode (v.setWidth 9) c d).codeLen b = (if b = v then BitVec.ofNat 8 d else u.codeLen b) := by
  have he : b = v ↔ v.toNat = b.toNat := by rw [BitVec.toNat_inj, eq_comm]
  simp only [Units.codeValid, Units.codeOf, Units.codeLen, Units.setCode, toNat_leaf, Vector.getElem_setIfInBounds, he,
    and_self]

theorem Units.CodesFrom.setCode {paths : List (Byte × List Bool)} {u : Units} (hu : u.CodesFrom paths)
    {vp : Byte × List Bool} (hvp : vp ∈ paths) (hlen : vp.2.length ≤ Config.maxCode) :
    (u.setCode (vp.1.setWidth 9) (bitsValue vp.2) vp.2.length).CodesFrom paths := by
  intro b hb
  obtain ⟨hv, hc, hl⟩ := u.codeEntry_setCode vp.1 b (bitsValue vp.2) vp.2.length
  rw [Config.maxCode] at hlen
  rw [hv] at hb
  rw [hc, hl]
  by_cases he : b = vp.1
  · rw [if_pos he, if_pos he]
    subst he
    refine ⟨vp.2, hvp, ?_, ?_⟩
    · rw [BitVec.toNat_ofNat]
      exact Nat.mod_eq_of_lt ((bitsValue_lt vp.2).trans_le (Nat.pow_le_pow_right (by decide) hlen))
    · rw [BitVec.toNat_ofNat]
      exact Nat.mod_eq_of_lt (by omega)
  · rw [if_neg he] at hb ⊢
    rw [if_neg he]
    exact hu b hb

/-- Setting the codes of a tree's leaves leaves only codes of that tree valid. -/
theorem Units.codesFrom_withCodes {t : Shape} (hd : t.depth ≤ Config.maxCode) (u : Units) :
    (u.withCodes t.paths).CodesFrom t.paths := by
  have key : ∀ (ps : List (Byte × List Bool)) (w : Units), (∀ vp ∈ ps, vp ∈ t.paths) → w.CodesFrom t.paths →
      (ps.foldl (fun w vp => w.setCode (vp.1.setWidth 9) (bitsValue vp.2) vp.2.length) w).CodesFrom t.paths := by
    intro ps
    induction ps with
    | nil => exact fun w _ hw => hw
    | cons vp ps ih =>
      intro w hps hw
      have hvp := hps vp List.mem_cons_self
      exact ih _ (fun q hq => hps q (List.mem_cons_of_mem _ hq))
        (hw.setCode hvp ((Shape.follow_of_mem_paths hvp).2.trans hd))
  refine key _ _ (fun _ h => h) fun b hb => ?_
  simp [Units.codeValid] at hb

/-- Setting codes changes the code table alone. -/
theorem Units.withCodes_frame (paths : List (Byte × List Bool)) (u : Units) :
    (u.withCodes paths).leftH = u.leftH ∧ (u.withCodes paths).rightH = u.rightH ∧
    (u.withCodes paths).nextH = u.nextH ∧ (u.withCodes paths).rootH = u.rootH ∧
    (u.withCodes paths).pq = u.pq ∧ (u.withCodes paths).parseStack = u.parseStack := by
  have key : ∀ (ps : List (Byte × List Bool)) (w : Units), w.leftH = u.leftH ∧ w.rightH = u.rightH ∧
      w.nextH = u.nextH ∧ w.rootH = u.rootH ∧ w.pq = u.pq ∧ w.parseStack = u.parseStack →
      let v := ps.foldl (fun w vp => w.setCode (vp.1.setWidth 9) (bitsValue vp.2) vp.2.length) w
      v.leftH = u.leftH ∧ v.rightH = u.rightH ∧ v.nextH = u.nextH ∧ v.rootH = u.rootH ∧ v.pq = u.pq ∧
        v.parseStack = u.parseStack := by
    intro ps
    induction ps with
    | nil => exact fun w hw => hw
    | cons vp ps ih => exact fun w hw => ih _ hw
  exact key _ _ ⟨rfl, rfl, rfl, rfl, rfl, rfl⟩

/-- DeriveCodes on a legal tree (42_huffman.md R224, R225). -/
theorem runs_deriveCodes : Op.Runs (fun s => s.u.HasTree) deriveCodes fun _ t => t.u.HasTree := .intro fun s hs => by
  obtain ⟨t, hh, hd⟩ := hs.shape
  obtain ⟨hl, hr, hn, hroot, hpq, hps⟩ := s.u.withCodes_frame t.paths
  have hh' : (s.u.withCodes t.paths).holds (s.u.withCodes t.paths).rootH t = true := by
    rw [hroot, Units.holds_congr hl hr, hh]
  refine .inl ⟨_, _, deriveCodes_ok t hh hd, ⟨?_, ?_, .inr ⟨t, hh', hd⟩, fun b hb => ?_⟩, Units.holds_ne_nilH hh'⟩
  · show (s.u.withCodes t.paths).pq = [] ∧ (s.u.withCodes t.paths).parseStack = []
    rw [hpq, hps]
    exact hs.1.idle
  · show 256 ≤ (s.u.withCodes t.paths).nextH.toNat ∧ (s.u.withCodes t.paths).nextH.toNat ≤ 511
    rw [hn]
    exact hs.1.nextId
  · obtain ⟨path, hm, h1, h2⟩ := Units.codesFrom_withCodes hd s.u b hb
    exact ⟨t, hh', path, (Shape.follow_of_mem_paths hm).1, h1, h2⟩

/-! ## The encoder's walks (42_huffman.md R230, R232) -/

theorem runs_emitNode (levels : Nat) (id : HId) (t : Shape) (hd : t.depth ≤ levels) :
    Op.Runs (fun s => s.u.holds id t = true) (emitNode levels id) fun _ s => s.u.holds id t = true := by
  refine Op.Runs.imp (Q' := fun _ s => True ∧ s.u.holds id t = true) (Op.Runs.keep (gs := [.tree])
    (I := fun s => s.u.holds id t = true) ?_ (writes_emitNode _ _) (reads_holds id t) (by decide))
    (fun s hs => ⟨hs, hs⟩) fun _ _ h => h.2
  induction t generalizing levels id with
  | leaf v =>
    unfold emitNode
    exact .ite (fun _ => ((safe_writeBits _ _ _).bind fun _ => safe_writeBits _ _ _).pre fun _ _ => trivial)
      fun hn => .absurd fun s hs => hn (by rw [Units.holds_leaf hs, toNat_leaf]; exact v.isLt)
  | node l r ihl ihr =>
    obtain ⟨n, rfl⟩ : ∃ n, levels = n + 1 := ⟨levels - 1, by simp only [Shape.depth] at hd; omega⟩
    simp only [Shape.depth] at hd
    unfold emitNode
    refine .ite (fun hlt => .absurd fun s hs => ?_) fun _ =>
      ((safe_writeBits _ _ _).keep (writes_writeBits _ _ _) (reads_holds id (.node l r)) (by decide)).bind fun _ =>
        Op.Runs.bind (Q := fun ab s => s.u.holds ab.1 l = true ∧ s.u.holds ab.2 r = true)
          (.intro fun s hs => ?_) fun ab => ?_
    · obtain ⟨_, _, -, -, -, -, h256⟩ := Units.holds_node hs
      omega
    · obtain ⟨a, b, ha, hb, hl, hr, -⟩ := Units.holds_node hs
      exact .inl ⟨_, _, children_ok ha hb, hl, hr⟩
    · exact Op.Runs.bind (Q := fun _ s => True ∧ s.u.holds ab.2 r = true)
        ((ihl n ab.1 (by omega)).keep (writes_emitNode _ _) (reads_holds ab.2 r) (by decide)) fun _ =>
        (ihr n ab.2 (by omega)).pre fun _ hs => hs.2

theorem runs_emitTree : Op.Runs (fun s => s.u.HasTree) emitTree fun _ s => s.u.HasTree := by
  refine Op.Runs.imp (Q' := fun _ s => True ∧ s.u.HasTree) (Op.Runs.keep (gs := huffmanGroups)
    (I := fun s => s.u.HasTree) ?_ writes_emitTree reads_hasTree (by decide))
    (fun s hs => ⟨hs, hs⟩) fun _ _ h => h.2
  intro s hs
  obtain ⟨t, hh, hd⟩ := hs.shape
  exact ((runs_emitNode Config.maxCode s.u.rootH t hd).imp (fun _ h => h) fun _ _ _ => trivial) s hh

theorem safe_emitCount (n : Nat) : Op.Safe (emitCount n) := by
  have key : ∀ fuel n, Op.Safe (emitGroups fuel n) := by
    intro fuel
    induction fuel with
    | zero => exact fun n => .pure _
    | succ fuel ih =>
      exact fun n => (safe_writeBits _ _ _).bind fun _ => (safe_writeBits _ _ _).bind fun _ => .ite (.pure _) (ih _)
  exact key _ _

theorem safe_emitCode (b : Byte) : Op.Safe (emitCode b) := .withUnits fun _ => safe_writeWide _ _

theorem safe_encodeByte : Op.Safe encodeByte := by
  refine safe_srcRead.bind fun r => ?_
  cases r with
  | none => exact .raise _
  | some b => exact safe_emitCode b

/-- Every round of the count reads a byte, so the source bounds it (42_huffman.md R234). -/
theorem runs_countLoop (fuel n : Nat) :
    Op.Runs (fun s => s.slen.toNat - s.ipos.toNat < fuel) (countLoop fuel n) fun _ _ => True := by
  induction fuel generalizing n with
  | zero => exact .absurd fun s hs => by omega
  | succ fuel ih =>
    refine Op.Runs.bind (Q := fun r t => r ≠ none → t.slen.toNat - t.ipos.toNat < fuel) (.intro fun s hs => ?_) fun r => ?_
    · rcases srcRead_cases s with h | ⟨-, h⟩ | ⟨hlt, h⟩
      · exact .inr ⟨_, _, h⟩
      · exact .inl ⟨_, _, h, fun hn => absurd rfl hn⟩
      · refine .inl ⟨_, _, h, fun _ => ?_⟩
        have hs1 : (s.ipos + 1).toNat = s.ipos.toNat + 1 := word_succ_toNat hlt s.slen.isLt
        show s.slen.toNat - (s.ipos + 1).toNat < fuel
        omega
    · cases r with
      | none => exact .pure fun _ _ => trivial
      | some b => exact Op.Runs.bind (.setUnits fun s hs => hs (by simp)) fun _ => ih _

end Sys2Proof.Machine
end

section
/-! SUPPORT. The Huffman parser and decoder: the open nodes of a tree being parsed, and what every Huffman command leaves. -/

namespace Sys2Proof.Machine

/-! ## The tree parser (42_huffman.md R240) -/

/-- The open nodes of a tree of which k internal nodes have ids: each open node is the last one before what was parsed
below it, and a left subtree already parsed has the ids that follow its node's (log 15). -/
def Units.openAt (u : Units) : List ParseFrame → Nat → Prop
  | [], k => k = 0
  | .left t :: rest, k => ∃ j, k = j + 1 ∧ t = BitVec.ofNat 9 (256 + j) ∧ u.openAt rest j
  | .right t :: rest, k => ∃ j l, k = j + 1 + l.nodes ∧ t = BitVec.ofNat 9 (256 + j) ∧
      u.leftOf t = some (l.idFrom (j + 1)) ∧ u.holdsFrom (j + 1) l = true ∧ u.openAt rest j

/-- A tree with ids from 256 + k depends on the entries of these ids only. -/
theorem Units.holdsFrom_congr {u v : Units} {k : Nat} (t : Shape)
    (h : ∀ i, k ≤ i → i < k + t.nodes → v.leftOf (BitVec.ofNat 9 (256 + i)) = u.leftOf (BitVec.ofNat 9 (256 + i)) ∧
      v.rightOf (BitVec.ofNat 9 (256 + i)) = u.rightOf (BitVec.ofNat 9 (256 + i))) :
    v.holdsFrom k t = u.holdsFrom k t := by
  induction t generalizing k with
  | leaf b => rfl
  | node l r ihl ihr =>
    simp only [Shape.nodes] at h
    obtain ⟨h1, h2⟩ := h k (Nat.le_refl _) (by omega)
    have hl := ihl (k := k + 1) fun i hi hi' => h i (by omega) (by omega)
    have hr := ihr (k := k + 1 + l.nodes) fun i hi hi' => h i (by omega) (by omega)
    simp only [Units.holdsFrom, h1, h2, hl, hr]

/-- Open nodes depend on the entries of the ids given so far only. -/
theorem Units.openAt_congr {u v : Units} {fs : List ParseFrame} {k : Nat}
    (h : ∀ i < k, v.leftOf (BitVec.ofNat 9 (256 + i)) = u.leftOf (BitVec.ofNat 9 (256 + i)) ∧
      v.rightOf (BitVec.ofNat 9 (256 + i)) = u.rightOf (BitVec.ofNat 9 (256 + i)))
    (ho : u.openAt fs k) : v.openAt fs k := by
  induction fs generalizing k with
  | nil => exact ho
  | cons f rest ih =>
    cases f with
    | left t =>
      obtain ⟨j, rfl, ht, hr⟩ := ho
      exact ⟨j, rfl, ht, ih (fun i hi => h i (by omega)) hr⟩
    | right t =>
      obtain ⟨j, l, rfl, rfl, hl, hh, hr⟩ := ho
      refine ⟨j, l, rfl, rfl, by rw [(h j (by omega)).1, hl], ?_, ih (fun i hi => h i (by omega)) hr⟩
      rw [Units.holdsFrom_congr l fun i hi hi' => h i (by omega), hh]

/-- An entry of another id is unchanged. -/
theorem Units.entries_setLeftH {u : Units} {j i : Nat} (hj : j < 255) (hi : i < 255) (hne : i ≠ j) (x : HId) :
    (u.setLeftH (BitVec.ofNat 9 (256 + j)) x).leftOf (BitVec.ofNat 9 (256 + i)) = u.leftOf (BitVec.ofNat 9 (256 + i)) ∧
    (u.setLeftH (BitVec.ofNat 9 (256 + j)) x).rightOf (BitVec.ofNat 9 (256 + i)) = u.rightOf (BitVec.ofNat 9 (256 + i)) := by
  have h1 := nodeId_toNat hj
  have h2 := nodeId_toNat hi
  refine ⟨?_, rfl⟩
  rw [Units.leftOf_setLeftH (by omega) (by omega), if_neg]
  intro he
  rw [he] at h2
  omega

theorem Units.entries_setRightH {u : Units} {j i : Nat} (hj : j < 255) (hi : i < 255) (hne : i ≠ j) (x : HId) :
    (u.setRightH (BitVec.ofNat 9 (256 + j)) x).leftOf (BitVec.ofNat 9 (256 + i)) = u.leftOf (BitVec.ofNat 9 (256 + i)) ∧
    (u.setRightH (BitVec.ofNat 9 (256 + j)) x).rightOf (BitVec.ofNat 9 (256 + i)) = u.rightOf (BitVec.ofNat 9 (256 + i)) := by
  have h1 := nodeId_toNat hj
  have h2 := nodeId_toNat hi
  refine ⟨rfl, ?_⟩
  rw [Units.rightOf_setRightH (by omega) (by omega), if_neg]
  intro he
  rw [he] at h2
  omega

/-- A tree with pre-order ids is a tree (42_huffman.md R240). -/
theorem Units.holds_of_holdsFrom {u : Units} {k : Nat} {t : Shape} (h : u.holdsFrom k t = true) (hk : k + t.nodes ≤ 255) :
    u.holds (t.idFrom k) t = true := by
  induction t generalizing k with
  | leaf v => exact beq_self_eq_true _
  | node l r ihl ihr =>
    simp only [Shape.nodes] at hk
    simp only [Units.holdsFrom, Bool.and_eq_true, beq_iff_eq] at h
    obtain ⟨⟨⟨h1, h2⟩, h3⟩, h4⟩ := h
    have hl := ihl h3 (by omega)
    have hr := ihr h4 (by omega)
    show u.holds (BitVec.ofNat 9 (256 + k)) (.node l r) = true
    simp only [Units.holds, h1, h2, hl, hr, Bool.and_self]

/-- The parser after a subtree: the tree is complete, or nodes are open with all ids given so far before them. -/
def Units.parsedTo (m : Nat) (v : Units) : Prop :=
  (v.parseStack = [] ∧ ∃ t : Shape, v.rootH = t.idFrom 0 ∧ v.holdsFrom 0 t = true ∧ t.nodes = m) ∨
  (v.parseStack ≠ [] ∧ v.openAt v.parseStack m)

/-- A completed subtree goes where the innermost open node wants it, and completes the nodes whose right child it ends
(42_huffman.md R240, log 15). -/
theorem attachNode_parsedTo (fs : List ParseFrame) {k : Nat} (t : Shape) {u : Units} (ho : u.openAt fs k)
    (hh : u.holdsFrom k t = true) (hk : k + t.nodes ≤ 255) :
    (attachNode (t.idFrom k) fs u).parsedTo (k + t.nodes) := by
  induction fs generalizing k t u with
  | nil =>
    obtain rfl : k = 0 := ho
    refine .inl ⟨rfl, t, rfl, ?_, (Nat.zero_add _).symm⟩
    exact (Units.holdsFrom_congr (u := u) (v := attachNode (t.idFrom 0) [] u) t fun _ _ _ => ⟨rfl, rfl⟩).trans hh
  | cons f rest ih =>
    cases f with
    | left p =>
      obtain ⟨j, rfl, rfl, hr⟩ := ho
      have hid := nodeId_toNat (show j < 255 by omega)
      have hsame : ∀ i, i ≠ j → i < 255 → _ := fun i hne hi => u.entries_setLeftH (show j < 255 by omega) hi hne (t.idFrom (j + 1))
      refine .inr ⟨List.cons_ne_nil _ _, j, t, rfl, rfl, ?_, ?_, ?_⟩
      · exact (Units.leftOf_setLeftH (u := u) (by omega) (by omega)).trans (if_pos rfl)
      · exact (Units.holdsFrom_congr (u := u)
          (v := attachNode (t.idFrom (j + 1)) (.left (BitVec.ofNat 9 (256 + j)) :: rest) u) t fun i hi hi' => hsame i (by omega) (by omega)).trans hh
      · exact Units.openAt_congr (u := u) (fun i hi => hsame i (by omega) (by omega)) hr
    | right p =>
      obtain ⟨j, l, rfl, rfl, hl, hlh, hr⟩ := ho
      have hid := nodeId_toNat (show j < 255 by omega)
      have hsame : ∀ i, i ≠ j → i < 255 → _ := fun i hne hi =>
        u.entries_setRightH (show j < 255 by omega) hi hne (t.idFrom (j + 1 + l.nodes))
      have hnode : (u.setRightH (BitVec.ofNat 9 (256 + j)) (t.idFrom (j + 1 + l.nodes))).holdsFrom j (.node l t) = true := by
        simp only [Units.holdsFrom, Bool.and_eq_true, beq_iff_eq]
        refine ⟨⟨⟨hl, ?_⟩, ?_⟩, ?_⟩
        · exact (Units.rightOf_setRightH (by omega) (by omega)).trans (if_pos rfl)
        · exact (Units.holdsFrom_congr l fun i hi hi' => hsame i (by omega) (by omega)).trans hlh
        · exact (Units.holdsFrom_congr t fun i hi hi' => hsame i (by omega) (by omega)).trans hh
      have h := ih (.node l t) (Units.openAt_congr (fun i hi => hsame i (by omega) (by omega)) hr) hnode
        (by simp only [Shape.nodes]; omega)
      rw [show j + (Shape.node l t).nodes = j + 1 + l.nodes + t.nodes by simp only [Shape.nodes]; omega] at h
      exact h

/-- Attaching a node leaves the other Huffman tables as they are. -/
theorem attachNode_frame (x : HId) (fs : List ParseFrame) (u : Units) :
    (attachNode x fs u).nextH = u.nextH ∧ (attachNode x fs u).pq = u.pq ∧ (attachNode x fs u).cvalid = u.cvalid := by
  induction fs generalizing x u with
  | nil => exact ⟨rfl, rfl, rfl⟩
  | cons f rest ih =>
    cases f with
    | left t => exact ⟨rfl, rfl, rfl⟩
    | right t => exact ih t (u.setRightH t x)

/-- ParseTree under way: no code is valid, and the open nodes account for the ids given so far. -/
structure Units.Parsing (u : Units) : Prop where
  queue : u.pq = []
  codes : u.cvalid = Vector.replicate 256 false
  ids : ∃ k ≤ 255, u.nextH.toNat = 256 + k ∧ u.openAt u.parseStack k

theorem reads_parsing : State.Reads huffmanGroups fun s => s.u.Parsing := by
  intro s t h hs
  have hm := State.sameHuffman_of_agree h
  obtain ⟨hq, hc, k, hk, hn, ho⟩ := hs
  refine ⟨by rw [hm.pq, hq], by rw [hm.cvalid, hc], k, hk, by rw [hm.nextH, hn], ?_⟩
  rw [hm.parseStack]
  exact Units.openAt_congr (fun i _ => ⟨by simp only [Units.leftOf, hm.leftH], by simp only [Units.rightOf, hm.rightH]⟩) ho

/-- After a node token: with no node open the tree is complete and legal, else the parse goes on. -/
def Units.parsedNode (u : Units) : Prop := if u.parseStack.isEmpty then u.HasTree else u.Parsing

theorem runs_doTreeLeaf (v : Byte) : Op.Runs (fun s => s.u.Parsing) (doTreeLeaf v) fun _ t => t.u.parsedNode := by
  refine .setUnits fun s hs => ?_
  obtain ⟨hq, hc, k, hk, hn, ho⟩ := hs
  obtain ⟨h1, h2, h3⟩ := attachNode_frame (v.setWidth 9) s.u.parseStack s.u
  show (attachNode (v.setWidth 9) s.u.parseStack s.u).parsedNode
  unfold Units.parsedNode
  have hp : (attachNode (v.setWidth 9) s.u.parseStack s.u).parsedTo k :=
    attachNode_parsedTo s.u.parseStack (.leaf v) ho rfl hk
  rcases hp with ⟨he, t, hroot, hh, hnodes⟩ | ⟨hne, ho'⟩
  · have hhold := Units.holds_of_holdsFrom hh (by omega)
    rw [← hroot] at hhold
    have hd := t.depth_le_nodes
    rw [hnodes] at hd
    rw [he]
    refine ⟨⟨⟨h2.trans hq, he⟩, ?_, .inr ⟨t, hhold, hd.trans hk⟩, fun b hb => ?_⟩, Units.holds_ne_nilH hhold⟩
    · rw [h1, hn]
      omega
    · simp [Units.codeValid, h3, hc] at hb
  · rw [if_neg (fun he => hne (List.isEmpty_iff.mp he))]
    exact ⟨h2.trans hq, h3.trans hc, k, hk, by rw [h1, hn], ho'⟩

theorem runs_doTreeInternal : Op.Runs (fun s => s.u.Parsing) doTreeInternal fun _ t => t.u.parsedNode := by
  refine .withUnits fun u => .ite (fun _ => .raise) fun h511 => .setUnits ?_
  rintro s ⟨⟨hq, hc, k, hk, hn, ho⟩, rfl⟩
  have hlt : s.u.nextH.toNat ≠ 511 := fun h => h511 (BitVec.eq_of_toNat_eq h)
  refine ⟨hq, hc, k + 1, by omega, ?_, k, rfl, ?_, ?_⟩
  · show (s.u.nextH + 1).toNat = _
    rw [BitVec.toNat_add, hn]
    exact Nat.mod_eq_of_lt (by show 256 + k + 1 < 1024; omega)
  · apply BitVec.eq_of_toNat_eq
    rw [BitVec.toNat_setWidth, hn, BitVec.toNat_ofNat]
  · exact Units.openAt_congr (u := s.u) (v := { s.u with
      nextH := s.u.nextH + 1, parseStack := .left (s.u.nextH.setWidth 9) :: s.u.parseStack })
      (fun _ _ => ⟨rfl, rfl⟩) ho

/-- A node token takes a bit off the stream (42_huffman.md R240). -/
theorem runs_parseNodeToken (n : Nat) : Op.Runs (fun s => s.bitsLeft ≤ n ∧ s.u.Parsing) parseNodeToken
    fun _ t => t.bitsLeft < n ∧ t.u.parsedNode := by
  refine Op.Runs.bind (runs_need_keep 1 n reads_parsing (by decide)) fun f => .ite (fun _ => ?_) fun _ => ?_
  · refine Op.Runs.bind ((runs_need_keep 8 (n - 1) reads_parsing (by decide)).pre
      fun s h => ⟨by have := h.1; omega, h.2⟩) fun v => ?_
    exact ((runs_doTreeLeaf _).keep (writes_doTreeLeaf _) (reads_bitsLeft (· < n)) (by decide)).imp
      (fun _ h => ⟨h.2, by have := h.1; omega⟩) fun _ _ h => h.symm
  · exact (runs_doTreeInternal.keep writes_doTreeInternal (reads_bitsLeft (· < n)) (by decide)).imp
      (fun _ h => ⟨h.2, by have := h.1; omega⟩) fun _ _ h => h.symm

theorem runs_parseNodes (fuel : Nat) : Op.Runs (fun s => s.bitsLeft < fuel ∧ s.u.Parsing) (parseNodes fuel)
    fun _ t => t.u.HasTree := by
  induction fuel with
  | zero => exact .absurd fun s hs => Nat.not_lt_zero _ hs.1
  | succ fuel ih =>
    intro s hs
    refine Op.Runs.bind (runs_parseNodeToken s.bitsLeft) (fun _ => .withUnits fun u => .ite (fun he => ?_)
      fun he => ?_) s ⟨Nat.le_refl _, hs.2⟩
    · refine .pure ?_
      rintro t ⟨⟨-, ht⟩, rfl⟩
      rwa [Units.parsedNode, if_pos he] at ht
    · refine ih.pre ?_
      rintro t ⟨⟨hlt, ht⟩, rfl⟩
      rw [Units.parsedNode, if_neg he] at ht
      exact ⟨by have := hs.1; omega, ht⟩

/-- ParseTree leaves a legal tree or raises a fault (42_huffman.md R240). -/
theorem runs_parseTree : Op.Runs (fun s => s.u.pq = []) parseTree fun _ t => t.u.HasTree := by
  refine Op.Runs.bind (Q := fun _ t => t.u.Parsing) (.setUnits fun s hs => ?_) fun _ => .withBound fun n =>
    (runs_parseNodes n).pre ?_
  · exact ⟨hs, rfl, 0, Nat.zero_le _, rfl, rfl⟩
  · rintro s ⟨hs, rfl⟩
    exact ⟨Nat.lt_succ_self _, hs⟩

/-! ## The count parser (42_huffman.md R241) -/

section
variable {K : Units → Prop} (hK : ∀ u v : Units, u.SameHuffman v → K u → K v)
include hK

/-- A count group changes the count alone. -/
theorem runs_doCountGroup (d : Byte) (last : Bool) :
    Op.Runs (fun s => K s.u) (doCountGroup d last) fun _ t => K t.u :=
  .withUnits fun _ => .ite (fun _ => .raise) fun _ => .setUnits fun s hs =>
    hK s.u _ ⟨rfl, rfl, rfl, rfl, rfl, rfl, rfl, rfl, rfl⟩ hs.1

theorem runs_parseGroups (fuel : Nat) : Op.Runs (fun s => s.bitsLeft < fuel ∧ K s.u) (parseGroups fuel)
    fun _ t => K t.u := by
  have hr : State.Reads huffmanGroups fun s => K s.u := fun s t h hs => hK _ _ (State.sameHuffman_of_agree h) hs
  induction fuel with
  | zero => exact .absurd fun s hs => Nat.not_lt_zero _ hs.1
  | succ fuel ih =>
    refine Op.Runs.bind (Q := fun _ t => K t.u ∧ t.bitsLeft < fuel) ?_ fun _ => .withUnits fun _ =>
      .ite (fun _ => .pure fun t ht => ht.1.1) fun _ => ih.pre fun t ht => ht.1.symm
    refine Op.Runs.bind ((runs_need_keep 8 fuel hr (by decide)).pre fun s hs => ⟨by have := hs.1; omega, hs.2⟩) fun d =>
      Op.Runs.bind ((runs_need_keep 1 fuel hr (by decide)).pre fun s hs => ⟨by have := hs.1; omega, hs.2⟩) fun l => ?_
    exact ((runs_doCountGroup hK _ _).keep (writes_doCountGroup _ _) (reads_bitsLeft (· < fuel)) (by decide)).pre
      fun s hs => ⟨hs.2, by have := hs.1; omega⟩

/-- ParseCount ends or faults, and keeps the Huffman tables (42_huffman.md R241). -/
theorem runs_parseCount : Op.Runs (fun s => K s.u) parseCount fun _ t => K t.u :=
  Op.Runs.bind (Q := fun _ t => K t.u)
    (.setUnits fun s hs => hK s.u _ ⟨rfl, rfl, rfl, rfl, rfl, rfl, rfl, rfl, rfl⟩ hs) fun _ => .withBound fun n =>
    Op.Runs.bind ((runs_parseGroups hK n).pre fun s hs => ⟨by rw [← hs.2]; exact Nat.lt_succ_self _, hs.1⟩) fun _ =>
    .withUnits fun _ => .pure fun _ ht => ht.1

end

/-! ## The decoder's walk (42_huffman.md R242) -/

/-- Every step of the walk takes a bit and goes down a level (42_huffman.md R242). -/
theorem runs_walkSymbol (fuel : Nat) (id : HId) (t : Shape) :
    Op.Runs (fun s => s.bitsLeft < fuel ∧ s.u.holds id t = true) (walkSymbol fuel id) fun _ _ => True := by
  induction fuel generalizing id t with
  | zero => exact .absurd fun s hs => Nat.not_lt_zero _ hs.1
  | succ fuel ih =>
    refine .ite (fun _ => .pure fun _ _ => trivial) fun hn => ?_
    cases t with
    | leaf v => exact .absurd fun s hs => hn (by rw [Units.holds_leaf hs.2, toNat_leaf]; exact v.isLt)
    | node l r =>
      refine Op.Runs.bind (Q := fun ab s => s.bitsLeft ≤ fuel ∧ s.u.holds ab.1 l = true ∧ s.u.holds ab.2 r = true)
        (.intro fun s hs => ?_) fun ab => Op.Runs.bind (runs_need_keep 1 fuel
          (K := fun s => s.u.holds ab.1 l = true ∧ s.u.holds ab.2 r = true)
          ((reads_holds ab.1 l).and (reads_holds ab.2 r)) (by decide)) fun f => ?_
      · obtain ⟨a, b, ha, hb, hl, hr, -⟩ := Units.holds_node hs.2
        exact .inl ⟨_, _, children_ok ha hb, by have := hs.1; omega, hl, hr⟩
      · split
        · exact (ih ab.1 l).pre fun s hs => ⟨by have := hs.1; omega, hs.2.1⟩
        · exact (ih ab.2 r).pre fun s hs => ⟨by have := hs.1; omega, hs.2.2⟩

/-- DecodeSymbol on a legal tree (42_huffman.md R242). -/
theorem runs_decodeSymbol : Op.Runs (fun s => s.u.HasTree) decodeSymbol fun _ t => t.u.HasTree := by
  refine Op.Runs.imp (Q' := fun _ s => True ∧ s.u.HasTree) (Op.Runs.keep (gs := huffmanGroups)
    (I := fun s => s.u.HasTree) ?_ writes_decodeSymbol reads_hasTree (by decide))
    (fun s hs => ⟨hs, hs⟩) fun _ _ h => h.2
  refine .withUnits fun u => .withBound fun n => ?_
  rintro s ⟨⟨hs, rfl⟩, rfl⟩
  obtain ⟨t, hh, -⟩ := hs.shape
  exact Op.Runs.bind (runs_walkSymbol _ _ t) (fun _ => ((safe_sinkWrite _).bind fun _ => .pure _).pre fun _ _ => trivial) s
    ⟨by show s.bitsLeft < s.bitsLeft + 1 + 1; omega, hh⟩

/-! ## The coders -/

/-- HENC.ENCODE makes its own tree (42_huffman.md R234). -/
theorem runs_huffmanEncode : Op.Runs (fun s => s.u.parseStack = []) huffmanEncode fun _ t => t.u.HuffInv := by
  have hstack : State.Reads [.parser] fun s => s.u.parseStack = [] := fun s t h hs => (h .parser (by decide)).1.trans hs
  refine Op.Runs.bind (Q := fun _ t => t.u.parseStack = [] ∧ t.bitsLeft = 8 * t.slen.toNat ∧ t.ipos = 0) (fun s hs => ?_) fun _ =>
    Op.Runs.bind (Q := fun _ t => t.u.parseStack = [] ∧ t.bitsLeft = 8 * t.slen.toNat ∧ t.ipos = 0) (.setUnits fun _ hs => hs)
    fun _ => .withBound fun n => Op.Runs.bind (Q := fun _ t => True ∧ t.u.parseStack = []) ?_ fun cnt =>
    Op.Runs.bind (Q := fun _ t => t.u.HasTree) (runs_buildTree.pre fun _ h => h.2) fun _ =>
    Op.Runs.bind (Q := fun _ t => t.u.HasTree) runs_deriveCodes fun _ =>
    Op.Runs.bind (Q := fun _ t => t.u.HasTree) runs_emitTree fun _ =>
    ((safe_emitCount _).keep (writes_emitCount _) reads_hasTree (by decide)).bind fun _ =>
    ((safe_srcSeek_back _).keep (writes_srcSeek _) reads_hasTree (by decide)).bind fun _ =>
    (Op.Runs.repeatOp _ (safe_encodeByte.keep writes_encodeByte reads_hasTree (by decide))).bind fun _ =>
    ((safe_writeBits _ _ _).keep (writes_writeBits _ _ _) reads_hasTree (by decide)).bind fun _ =>
    ((safe_setRes0 _).keep (writes_setRes0 _) reads_hasTree (by decide)).imp (fun _ h => h) fun _ _ h => h.1
  · exact ⟨hs, Nat.zero_add _, rfl⟩
  · refine ((runs_countLoop n 0).keep (writes_countLoop _ _) hstack (by decide)).pre fun s hs => ⟨?_, hs.1.1⟩
    obtain ⟨⟨-, hbits, -⟩, rfl⟩ := hs
    omega

/-- HDEC.DECODE parses its own tree (42_huffman.md R244). -/
theorem runs_huffmanDecode : Op.Runs (fun s => s.u.pq = []) huffmanDecode fun _ t => t.u.HuffInv := by
  have hK : ∀ u v : Units, u.SameHuffman v → u.HasTree → v.HasTree := fun u v h hu =>
    ⟨hu.1.congr h, by rw [h.rootH]; exact hu.2⟩
  refine Op.Runs.bind (Q := fun _ t => t.u.pq = []) (fun s hs => hs) fun _ =>
    Op.Runs.bind (Q := fun _ t => t.u.HasTree) runs_parseTree fun _ =>
    Op.Runs.bind (Q := fun _ t => t.u.HasTree) (runs_parseCount hK) fun n =>
    Op.Runs.bind (Q := fun _ t => t.u.HasTree) (Op.Runs.repeatOp n (Op.Runs.bind runs_decodeSymbol fun _ => .pure fun _ h => h))
    fun _ => ((safe_setRes0 _).keep (writes_setRes0 _) reads_hasTree (by decide)).imp (fun _ h => h) fun _ _ h => h.1

end Sys2Proof.Machine
end

section
/-! SUPPORT. The Huffman invariant along a step. -/

namespace Sys2Proof.Machine

/-- The commands that build, read or walk the Huffman tables. -/
def usesHuffman : Instr → Bool
  | .htbBuildTree | .htbDeriveCodes | .hencEncode | .hencEmitTree => true
  | .hdecDecode | .hdecParseTree | .hdecParseCount | .hdecDecodeSymbol => true
  | _ => false

/-- A legal table whose precondition ROOT_H ≠ NIL is met holds a tree (60_exceptions.md R380). -/
theorem State.hasTree_of_check {s : State} (h : s.u.HuffInv) (hc : checkFault true s.hasTree = none) : s.u.HasTree :=
  ⟨h, by simpa [State.hasTree] using (checkFault_none.mp hc).2⟩

/-- RES0 set from the root, behind pseudocode that leaves a legal tree. -/
theorem runs_setRoot : Op.Runs (fun s => s.u.HasTree) (units >>= fun u => setRes0 u.rootH.toNat)
    fun _ t => t.u.HuffInv := fun _ hs => hs.1

/-- Every command of the Huffman units ends with legal tables or raises a fault (10_state.md R41 to R43). -/
theorem runs_huffman_bodyOf {i : Instr} (hi : usesHuffman i = true) :
    Op.Runs (fun s => s.u.HuffInv ∧ checkOf s i = none) (bodyOf i) fun _ t => t.u.HuffInv := by
  have hset : ∀ n, Op.Runs (fun s => s.u.HuffInv) (setRes0 n) fun _ t => t.u.HuffInv := fun n =>
    (safe_setRes0 n).keep (writes_setRes0 n) reads_huffInv (by decide)
  cases i
  case htbBuildTree => exact Op.Runs.bind (runs_buildTree.pre fun _ h => h.1.idle.2) fun _ => runs_setRoot
  case htbDeriveCodes => exact runs_deriveCodes.imp (fun s h => s.hasTree_of_check h.1 h.2) fun _ _ h => h.1
  case hencEncode => exact runs_huffmanEncode.pre fun _ h => h.1.idle.2
  case hencEmitTree => exact runs_emitTree.imp (fun s h => s.hasTree_of_check h.1 h.2) fun _ _ h => h.1
  case hdecDecode => exact runs_huffmanDecode.pre fun _ h => h.1.idle.1
  case hdecParseTree => exact Op.Runs.bind (runs_parseTree.pre fun _ h => h.1.idle.1) fun _ => runs_setRoot
  case hdecParseCount =>
    exact Op.Runs.bind ((runs_parseCount fun _ _ h hu => Units.HuffInv.congr hu h).pre fun _ h => h.1) hset
  case hdecDecodeSymbol =>
    exact Op.Runs.bind (runs_decodeSymbol.imp (fun s h => s.hasTree_of_check h.1 h.2) fun _ _ h => h.1) hset
  all_goals cases hi

/-- The other commands write none of these tables (10_state.md R72). -/
theorem huffmanGroups_not_written {P : Config.Params} {i : Instr} {v : Word} (hi : commandWord P i = some v)
    (hu : usesHuffman i = false) : ∀ g ∈ huffmanGroups, g ∉ (writeGroups i).erase .control := by
  cases i <;> simp_all [commandWord, encode, usesHuffman, huffmanGroups, writeGroups]

theorem checkOf_begin (v : Word) (s : State) (i : Instr) : checkOf (s.begin v) i = checkOf s i := by
  cases i <;> rfl

theorem CmdEffect.huffInv {v : Word} {s t : State} (h : CmdEffect v s t) (hs : s.status.fault = false → s.u.HuffInv)
    (ht : t.status.fault = false) : t.u.HuffInv := by
  cases h with
  | ignored hf => exact absurd (hf.symm.trans ht) (by decide)
  | reset _ => exact (resetUnits_ok s.freeIdx).2
  | check c _ => cases ht
  | faulted i c q _ _ _ => exact absurd ((q.faultEntry_fault .execution c).symm.trans ht) (by decide)
  | completed i q hh hi _ hc hb =>
    show q.u.HuffInv
    cases hu : usesHuffman i with
    | true =>
      exact (runs_huffman_bodyOf hu).of_ok (s := s.begin v) ⟨hs hh, by rw [checkOf_begin, hc]⟩ hb
    | false =>
      refine reads_huffInv (s.begin v) q (fun g hg => ?_) (hs hh)
      have hw := writes_bodyOf i (s.begin v) g (huffmanGroups_not_written hi hu g hg)
      rwa [hb] at hw

/-- Settles O22: BUILD_TREE and PARSE_TREE make a tree over fresh ids with no code valid, DERIVE_CODES makes exactly its
paths valid, and nothing else touches the tables. -/
theorem stepKeepsHuffmanTables : Obligations.StepKeepsHuffmanTables := by
  intro s t hs h ht
  cases step_effect h with
  | idle => exact hs ht
  | operands rest a b c => exact hs ht
  | sourceLength rest v => exact hs ht
  | sourceByte rest k b hk => exact hs ht
  | command rest v t h => exact h.huffInv hs ht

end Sys2Proof.Machine
end

section
/-! SUPPORT. Trees of positions under link surgery: a subtree exchanged for another one, and the dictionary as a forest. -/

namespace Sys2Proof.Machine

/-- A tree spelled from a link, taken apart at its root. -/
theorem Units.spells_node_inv {u : Units} {par link : Link} {l r : DTree} {p : Pos}
    (h : u.spells par link (.node l p r) = true) : link = some p ∧ u.parentOf p = par ∧
      u.spells (some p) (u.leftOfD p) l = true ∧ u.spells (some p) (u.rightOfD p) r = true := by
  cases link with
  | none => cases h
  | some x =>
    obtain ⟨l', r', he, hp, hl, hr⟩ := (u.spells_node_iff par x _).mp h
    cases he
    exact ⟨rfl, hp, hl, hr⟩

/-! ## Exchanging a subtree -/

/-- The tree with the subtree at q exchanged for another tree. -/
def DTree.exchange : DTree → Pos → DTree → DTree
  | .nil, _, _ => .nil
  | .node l p r, q, new => if p = q then new else .node (l.exchange q new) p (r.exchange q new)

/-- Without q the exchange changes nothing. -/
theorem DTree.exchange_of_not_mem {q : Pos} {t : DTree} (new : DTree) (h : q ∉ t.inorder) : t.exchange q new = t := by
  induction t with
  | nil => rfl
  | node l p r ihl ihr =>
    simp only [DTree.inorder, List.mem_append, List.mem_cons, not_or] at h
    obtain ⟨hl, hp, hr⟩ := h
    rw [DTree.exchange, if_neg (Ne.symm hp), ihl hl, ihr hr]

/-- Where a node q of a tree stands: its subtrees, what comes before and after them in order, and the same split after
the subtree is exchanged. -/
theorem DTree.split_at {q : Pos} {t : DTree} (hq : q ∈ t.inorder) (hn : t.inorder.Nodup) :
    ∃ l r before after, t.inorder = before ++ (l.inorder ++ q :: r.inorder) ++ after ∧
      (∀ new : DTree, (t.exchange q new).inorder = before ++ new.inorder ++ after) ∧
      ∀ (u : Units) (par link : Link), u.spells par link t = true →
        u.spells (some q) (u.leftOfD q) l = true ∧ u.spells (some q) (u.rightOfD q) r = true := by
  induction t with
  | nil => cases hq
  | node l p r ihl ihr =>
    have hn' := hn
    simp only [DTree.inorder] at hn' hq
    by_cases hp : p = q
    · subst hp
      refine ⟨l, r, [], [], by simp [DTree.inorder], fun new => by simp [DTree.exchange], fun u par link h => ?_⟩
      exact (Units.spells_node_inv h).2.2
    · obtain ⟨hnl, hnr, hdis⟩ := List.nodup_append.mp hn'
      obtain ⟨-, hnr⟩ := List.nodup_cons.mp hnr
      have hchild : ∀ (u : Units) (par link : Link), u.spells par link (.node l p r) = true →
          u.spells (some p) (u.leftOfD p) l = true ∧ u.spells (some p) (u.rightOfD p) r = true :=
        fun u par link h => (Units.spells_node_inv h).2.2
      rcases List.mem_append.mp hq with hm | hm
      · have hr : q ∉ r.inorder := fun hr => hdis q hm q (List.mem_cons_of_mem _ hr) rfl
        obtain ⟨l', r', before, after, h1, h2, h3⟩ := ihl hm hnl
        refine ⟨l', r', before, after ++ p :: r.inorder, by simp [DTree.inorder, h1], fun new => ?_,
          fun u par link h => h3 u _ _ (hchild u par link h).1⟩
        simp [DTree.exchange, hp, DTree.inorder, h2, DTree.exchange_of_not_mem new hr]
      · have hm' : q ∈ r.inorder := (List.mem_cons.mp hm).resolve_left (Ne.symm hp)
        have hl : q ∉ l.inorder := fun hl => hdis q hl q hm rfl
        obtain ⟨l', r', before, after, h1, h2, h3⟩ := ihr hm' hnr
        refine ⟨l', r', l.inorder ++ p :: before, after, by simp [DTree.inorder, h1], fun new => ?_,
          fun u par link h => h3 u _ _ (hchild u par link h).2⟩
        simp [DTree.exchange, hp, DTree.inorder, h2, DTree.exchange_of_not_mem new hl]

/-- A link that named the old node names the new one (43_lzss_dictionary.md R292). -/
def Link.redirect (old : Pos) (new link : Link) : Link := if link = some old then new else link

theorem Link.redirect_old (old : Pos) (new : Link) : Link.redirect old new (some old) = new := if_pos rfl

theorem Link.redirect_of_ne {old : Pos} {new link : Link} (h : link ≠ some old) : Link.redirect old new link = link :=
  if_neg h

/-- A link that keeps its name stays. -/
theorem Link.redirect_self (q : Pos) (link : Link) : Link.redirect q (some q) link = link := by
  unfold Link.redirect
  split
  · next h => exact h.symm
  · rfl

/-- The parent of a node that hangs from a link. -/
theorem Units.spells_parent {u : Units} {par : Link} {q : Pos} {t : DTree} (h : u.spells par (some q) t = true) :
    u.parentOf q = par := by
  obtain ⟨_, _, -, hp, -⟩ := (u.spells_node_iff par q t).mp h
  exact hp

/-- What is left of a tree without q's subtree are nodes of the tree. -/
theorem DTree.mem_of_mem_exchange_nil {q y : Pos} {t : DTree} (h : y ∈ (t.exchange q .nil).inorder) :
    y ∈ t.inorder ∧ y ≠ q := by
  induction t with
  | nil => cases h
  | node l p r ihl ihr =>
    rw [DTree.exchange] at h
    split at h
    · cases h
    · next hp =>
      simp only [DTree.inorder, List.mem_append, List.mem_cons] at h ⊢
      rcases h with h | rfl | h
      · exact ⟨.inl (ihl h).1, (ihl h).2⟩
      · exact ⟨.inr (.inl rfl), hp⟩
      · exact ⟨.inr (.inr (ihr h).1), (ihr h).2⟩

/-- Link surgery on one tree: outside q's subtree every link to q goes to the new link instead, from which another tree
is spelled. -/
theorem Units.spells_exchange {u v : Units} {q : Pos} {new : Link} {t' : DTree} {par link : Link} {t : DTree}
    (h : u.spells par link t = true) (hnew : v.spells (u.parentOf q) new t' = true)
    (hout : ∀ p ∈ (t.exchange q .nil).inorder, v.parentOf p = u.parentOf p ∧
      v.leftOfD p = Link.redirect q new (u.leftOfD p) ∧ v.rightOfD p = Link.redirect q new (u.rightOfD p)) :
    v.spells par (Link.redirect q new link) (t.exchange q t') = true := by
  induction t generalizing par link with
  | nil =>
    cases link with
    | none => rfl
    | some x => cases h
  | node l p r ihl ihr =>
    obtain ⟨rfl, hp, hl, hr⟩ := Units.spells_node_inv h
    by_cases hpq : p = q
    · subst hpq
      rw [DTree.exchange, if_pos rfl, Link.redirect_old, ← hp]
      exact hnew
    · have hlink : (some p : Link) ≠ some q := fun h => hpq (Option.some.inj h)
      rw [DTree.exchange, if_neg hpq] at hout
      simp only [DTree.inorder, List.mem_append, List.mem_cons] at hout
      obtain ⟨hvp, hvl, hvr⟩ := hout p (.inr (.inl rfl))
      rw [DTree.exchange, if_neg hpq, Link.redirect_of_ne hlink, Units.spells_node_iff]
      refine ⟨_, _, rfl, hvp.trans hp, ?_, ?_⟩
      · rw [hvl]
        exact ihl hl fun y hy => hout y (.inl hy)
      · rw [hvr]
        exact ihr hr fun y hy => hout y (.inr (.inr hy))

/-- A tree under another parent: only the root's parent entry differs. -/
theorem Units.spells_adopted {u v : Units} {par par' link : Link} {t : DTree} (h : u.spells par link t = true)
    (hn : t.inorder.Nodup) (hroot : ∀ a, link = some a → v.parentOf a = par')
    (hpar : ∀ p ∈ t.inorder, link ≠ some p → v.parentOf p = u.parentOf p)
    (hlr : ∀ p ∈ t.inorder, v.leftOfD p = u.leftOfD p ∧ v.rightOfD p = u.rightOfD p) :
    v.spells par' link t = true := by
  cases t with
  | nil =>
    cases link with
    | none => rfl
    | some x => cases h
  | node l p r =>
    obtain ⟨rfl, -, hl, hr⟩ := Units.spells_node_inv h
    simp only [DTree.inorder] at hn hpar hlr
    obtain ⟨-, hn', hdis⟩ := List.nodup_append.mp hn
    obtain ⟨hvl, hvr⟩ := hlr p (by simp)
    have hkeep : ∀ {t' : DTree}, (∀ y ∈ t'.inorder, y ∈ l.inorder ++ p :: r.inorder ∧ y ≠ p) →
        ∀ y ∈ t'.inorder, v.parentOf y = u.parentOf y ∧ v.leftOfD y = u.leftOfD y ∧ v.rightOfD y = u.rightOfD y :=
      fun ht y hy => ⟨hpar y (ht y hy).1 fun e => (ht y hy).2 (Option.some.inj e).symm, hlr y (ht y hy).1⟩
    refine (Units.spells_node_iff _ _ _ _).mpr ⟨l, r, rfl, hroot p rfl, ?_, ?_⟩
    · rw [hvl, Units.spells_congr _ _ _ (hkeep fun y hy => ⟨by simp [hy], hdis y hy p List.mem_cons_self⟩)]
      exact hl
    · rw [hvr, Units.spells_congr _ _ _ (hkeep fun y hy => ⟨by simp [hy], fun e => (List.nodup_cons.mp hn').1 (e ▸ hy)⟩)]
      exact hr

/-- A child of a node of a tree is a node of that tree and has the node as its parent. -/
theorem Units.spells_child {u : Units} {par link : Link} {t : DTree} (h : u.spells par link t = true) {p x : Pos}
    (hp : p ∈ t.inorder) (hx : u.leftOfD p = some x ∨ u.rightOfD p = some x) : x ∈ t.inorder ∧ u.parentOf x = some p := by
  induction t generalizing par link with
  | nil => cases hp
  | node l q r ihl ihr =>
    obtain ⟨rfl, -, hl, hr⟩ := Units.spells_node_inv h
    simp only [DTree.inorder, List.mem_append, List.mem_cons] at hp ⊢
    rcases hp with hp | rfl | hp
    · exact ⟨.inl (ihl hl hp).1, (ihl hl hp).2⟩
    · rcases hx with hx | hx
      · rw [hx] at hl
        exact ⟨.inl (Units.spells_root_mem hl), Units.spells_parent hl⟩
      · rw [hx] at hr
        exact ⟨.inr (.inr (Units.spells_root_mem hr)), Units.spells_parent hr⟩
    · exact ⟨.inr (.inr (ihr hr hp).1), (ihr hr hp).2⟩

/-- A node of a tree hangs from the tree's link or from another node. -/
theorem Units.spells_hangs {u : Units} {par link : Link} {t : DTree} (h : u.spells par link t = true) {x : Pos}
    (hx : x ∈ t.inorder) : link = some x ∨ ∃ p ∈ t.inorder, u.leftOfD p = some x ∨ u.rightOfD p = some x := by
  induction t generalizing par link with
  | nil => cases hx
  | node l q r ihl ihr =>
    obtain ⟨rfl, -, hl, hr⟩ := Units.spells_node_inv h
    simp only [DTree.inorder, List.mem_append, List.mem_cons] at hx ⊢
    rcases hx with hm | rfl | hm
    · rcases ihl hl hm with h1 | ⟨p, hp, h1⟩
      · exact .inr ⟨q, .inr (.inl rfl), .inl h1⟩
      · exact .inr ⟨p, .inl hp, h1⟩
    · exact .inl rfl
    · rcases ihr hr hm with h1 | ⟨p, hp, h1⟩
      · exact .inr ⟨q, .inr (.inl rfl), .inr h1⟩
      · exact .inr ⟨p, .inr (.inr hp), h1⟩

/-! ## The dictionary as a forest -/

/-- The links spell out one tree for each first byte; no position stands twice (10_state.md R46). -/
structure Units.Forest (u : Units) (tree : Byte → DTree) : Prop where
  spelled : ∀ c, u.spells none (u.rootOf c) (tree c) = true
  nodup : ∀ c, (tree c).inorder.Nodup
  apart : ∀ c d p, p ∈ (tree c).inorder → p ∈ (tree d).inorder → c = d

/-- p is a node of the forest. -/
def inForest (tree : Byte → DTree) (p : Pos) : Prop := ∃ c, p ∈ (tree c).inorder

/-- The forest with another tree in the place of q's subtree. -/
def exchangeIn (tree : Byte → DTree) (q : Pos) (t' : DTree) : Byte → DTree := fun c => (tree c).exchange q t'

/-- p is a node of the forest outside q's subtree. -/
def outerNode (tree : Byte → DTree) (q p : Pos) : Prop := inForest (exchangeIn tree q .nil) p

/-- What stands at a node q of the tree of c: its two subtrees, and the rest of the forest around them. -/
structure Units.NodeAt (u : Units) (tree : Byte → DTree) (c : Byte) (q : Pos) (l r : DTree) : Prop where
  left : u.spells (some q) (u.leftOfD q) l = true
  right : u.spells (some q) (u.rightOfD q) r = true
  nodup : (l.inorder ++ q :: r.inorder).Nodup
  mem_exchange : ∀ t' e y, y ∈ (exchangeIn tree q t' e).inorder ↔
    y ∈ (exchangeIn tree q .nil e).inorder ∨ (e = c ∧ y ∈ t'.inorder)
  mem_tree : ∀ e y, y ∈ (tree e).inorder ↔
    y ∈ (exchangeIn tree q .nil e).inorder ∨ (e = c ∧ y ∈ l.inorder ++ q :: r.inorder)
  apart : ∀ y ∈ l.inorder ++ q :: r.inorder, ¬ outerNode tree q y
  exchange_nodup : ∀ t' : DTree, t'.inorder.Nodup → (∀ y ∈ t'.inorder, ¬ outerNode tree q y) →
    ∀ e, (exchangeIn tree q t' e).inorder.Nodup

section
variable {u v : Units} {tree : Byte → DTree} {c : Byte} {q : Pos}

/-- Every node of a forest has its two subtrees and the rest around them. -/
theorem Units.Forest.nodeAt (hf : u.Forest tree) (hq : q ∈ (tree c).inorder) : ∃ l r, u.NodeAt tree c q l r := by
  obtain ⟨l, r, before, after, hin, hex, hch⟩ := DTree.split_at hq (hf.nodup c)
  obtain ⟨hl, hr⟩ := hch u _ _ (hf.spelled c)
  have hother : ∀ e, e ≠ c → ∀ t', exchangeIn tree q t' e = tree e := fun e he t' =>
    DTree.exchange_of_not_mem _ fun h => he (hf.apart e c q h hq)
  have hn := hf.nodup c
  rw [hin] at hn
  have hexc : ∀ t', (exchangeIn tree q t' c).inorder = before ++ t'.inorder ++ after := hex
  obtain ⟨hn1, hn2, hn3⟩ := List.nodup_append.mp hn
  obtain ⟨hn4, hn5, hn6⟩ := List.nodup_append.mp hn1
  have hmem : ∀ y ∈ l.inorder ++ q :: r.inorder, y ∈ (tree c).inorder := fun y hy => by
    rw [hin]
    exact List.mem_append_left _ (List.mem_append_right _ hy)
  refine ⟨l, r, hl, hr, hn5, fun t' e y => ?_, fun e y => ?_, fun y hy => ?_, fun t' ht' hdis e => ?_⟩
  · by_cases he : e = c
    · subst he
      rw [hexc, hexc]
      simp [DTree.inorder]
      tauto
    · simp [hother e he, he]
  · by_cases he : e = c
    · subst he
      rw [hexc, hin]
      simp [DTree.inorder]
      tauto
    · simp [hother e he, he]
  · rintro ⟨e, he⟩
    by_cases hec : e = c
    · subst hec
      rw [hexc] at he
      simp only [DTree.inorder, List.append_nil, List.mem_append] at he
      rcases he with he | he
      · exact hn6 y he y hy rfl
      · exact hn3 y (List.mem_append_right _ hy) y he rfl
    · rw [hother e hec] at he
      exact hec (hf.apart e c y he (hmem y hy))
  · by_cases he : e = c
    · subst he
      have hout : ∀ y, y ∈ before ∨ y ∈ after → outerNode tree q y := fun y hy => ⟨e, by
        rw [hexc]
        simpa [DTree.inorder] using hy⟩
      rw [hexc]
      refine List.nodup_append.mpr ⟨List.nodup_append.mpr ⟨hn4, ht', fun a ha b hb h => ?_⟩, hn2, fun a ha b hb h => ?_⟩
      · exact hdis b hb (hout b (.inl (h ▸ ha)))
      · rcases List.mem_append.mp ha with ha | ha
        · exact hn3 a (List.mem_append_left _ ha) b hb h
        · exact hdis a ha (hout a (.inr (h ▸ hb)))
    · rw [hother e he]
      exact hf.nodup e

/-- A node outside q's subtree is a node of the forest. -/
theorem outerNode.inForest {p : Pos} (h : outerNode tree q p) : inForest tree p :=
  let ⟨e, he⟩ := h
  ⟨e, (DTree.mem_of_mem_exchange_nil he).1⟩

/-- A root of the forest is a node of its tree and has no parent. -/
theorem Units.Forest.root (hf : u.Forest tree) {x : Pos} (hx : u.rootOf c = some x) :
    x ∈ (tree c).inorder ∧ u.parentOf x = none := by
  have h := hf.spelled c
  rw [hx] at h
  exact ⟨Units.spells_root_mem h, Units.spells_parent h⟩

/-- A child of a node of the forest has it as its parent. -/
theorem Units.Forest.parent_of_child (hf : u.Forest tree) {p x : Pos} (hp : inForest tree p)
    (hx : u.leftOfD p = some x ∨ u.rightOfD p = some x) : u.parentOf x = some p :=
  let ⟨c, hp⟩ := hp
  (Units.spells_child (hf.spelled c) hp hx).2

/-- A node of the forest without a parent is the root of its tree. -/
theorem Units.Forest.rootOf_of_parent (hf : u.Forest tree) (hq : q ∈ (tree c).inorder) (h : u.parentOf q = none) :
    u.rootOf c = some q := by
  rcases Units.spells_hangs (hf.spelled c) hq with hr | ⟨p, hp, hx⟩
  · exact hr
  · rw [hf.parent_of_child ⟨c, hp⟩ hx] at h
    cases h

/-- A node of the forest is a child of its parent, which stands outside its subtree. -/
theorem Units.Forest.child_of_parent (hf : u.Forest tree) (hq : q ∈ (tree c).inorder) {a : Pos}
    (h : u.parentOf q = some a) : outerNode tree q a ∧ (u.leftOfD a = some q ∨ u.rightOfD a = some q) := by
  rcases Units.spells_hangs (hf.spelled c) hq with hr | ⟨p, hp, hx⟩
  · rw [(hf.root hr).2] at h
    cases h
  · obtain rfl : p = a := by
      have := hf.parent_of_child ⟨c, hp⟩ hx
      rw [h] at this
      exact (Option.some.inj this).symm
    refine ⟨?_, hx⟩
    obtain ⟨l, r, hat⟩ := hf.nodeAt hq
    rcases (hat.mem_tree c p).mp hp with ho | ⟨-, hin⟩
    · exact ⟨c, ho⟩
    · -- p in q's subtree would put q below itself
      obtain ⟨-, hn, hdis⟩ := List.nodup_append.mp hat.nodup
      have hql : q ∉ l.inorder := fun hm => hdis q hm q List.mem_cons_self rfl
      have hqr : q ∉ r.inorder := (List.nodup_cons.mp hn).1
      have hl := hat.left
      have hr := hat.right
      rcases List.mem_append.mp hin with hm | hm
      · exact (hql (Units.spells_child hl hm hx).1).elim
      · rcases List.mem_cons.mp hm with rfl | hm
        · rcases hx with hx | hx
          · rw [hx] at hl
            exact (hql (Units.spells_root_mem hl)).elim
          · rw [hx] at hr
            exact (hqr (Units.spells_root_mem hr)).elim
        · exact (hqr (Units.spells_child hr hm hx).1).elim

/-- A node has no child twice. -/
theorem Units.Forest.children_ne (hf : u.Forest tree) {p x : Pos} (hp : inForest tree p) (hl : u.leftOfD p = some x) :
    u.rightOfD p ≠ some x := by
  obtain ⟨c, hp⟩ := hp
  obtain ⟨l, r, hat⟩ := hf.nodeAt hp
  obtain ⟨-, -, hdis⟩ := List.nodup_append.mp hat.nodup
  intro hr
  have h1 := hat.left
  have h2 := hat.right
  rw [hl] at h1
  rw [hr] at h2
  exact hdis x (Units.spells_root_mem h1) x (List.mem_cons_of_mem _ (Units.spells_root_mem h2)) rfl

/-- A forest depends on the links of its nodes and on the roots. -/
theorem Units.Forest.congr (hf : u.Forest tree) (hroot : ∀ c, v.rootOf c = u.rootOf c)
    (h : ∀ p, inForest tree p →
      v.parentOf p = u.parentOf p ∧ v.leftOfD p = u.leftOfD p ∧ v.rightOfD p = u.rightOfD p) : v.Forest tree :=
  ⟨fun c => by rw [hroot, Units.spells_congr _ _ _ fun p hp => h p ⟨c, hp⟩]; exact hf.spelled c, hf.nodup, hf.apart⟩

/-- v has u's links outside q's subtree, but for those to q, which go to the new link. -/
structure Units.Redirected (u v : Units) (tree : Byte → DTree) (q : Pos) (new : Link) : Prop where
  roots : ∀ e, v.rootOf e = Link.redirect q new (u.rootOf e)
  outer : ∀ y, outerNode tree q y → v.parentOf y = u.parentOf y ∧
    v.leftOfD y = Link.redirect q new (u.leftOfD y) ∧ v.rightOfD y = Link.redirect q new (u.rightOfD y)

/-- Link surgery on a forest: another tree of nodes of q's subtree and of new ones in the place of q's subtree. -/
theorem Units.Forest.exchange (hf : u.Forest tree) (hq : q ∈ (tree c).inorder) {new : Link} {t' : DTree}
    (hv : u.Redirected v tree q new) (hnew : v.spells (u.parentOf q) new t' = true) (hn : t'.inorder.Nodup)
    (hdis : ∀ y ∈ t'.inorder, ¬ outerNode tree q y) : v.Forest (exchangeIn tree q t') := by
  obtain ⟨l, r, hat⟩ := hf.nodeAt hq
  refine ⟨fun e => ?_, hat.exchange_nodup t' hn hdis, fun e d y he hd => ?_⟩
  · rw [hv.roots]
    exact Units.spells_exchange (hf.spelled e) hnew fun y hy => hv.outer y ⟨e, hy⟩
  · rcases (hat.mem_exchange t' e y).mp he with ho | ⟨rfl, ht⟩
    · rcases (hat.mem_exchange t' d y).mp hd with ho' | ⟨-, ht⟩
      · exact hf.apart e d y (DTree.mem_of_mem_exchange_nil ho).1 (DTree.mem_of_mem_exchange_nil ho').1
      · exact (hdis y ht ⟨e, ho⟩).elim
    · rcases (hat.mem_exchange t' d y).mp hd with ho' | ⟨rfl, -⟩
      · exact (hdis y ht ⟨d, ho'⟩).elim
      · rfl

end

end Sys2Proof.Machine
end

section
/-! SUPPORT. Link and Remove on the dictionary: what the link tables are afterwards, and the forest without the removed
member. -/

namespace Sys2Proof.Machine

/-! ## Link on the tables -/

/-- The first half of Link: the link that held old gets the new one; c is the byte at old (43_lzss_dictionary.md R292). -/
def Units.relinkDown (c : Byte) (new : Link) (old : Pos) (u : Units) : Units :=
  match u.parentOf old with
  | none => u.setRoot c new
  | some q => if u.leftOfD q = some old then u.setLeftD q new else u.setRightD q new

/-- The PARENT entry of the node a link names, when it names one. -/
def Units.setParentOf (new par : Link) (u : Units) : Units :=
  match new with
  | none => u
  | some n => u.setParent n par

/-- Link(parent of old, new, old) (43_lzss_dictionary.md R292). -/
def Units.relink (c : Byte) (new : Link) (old : Pos) (u : Units) : Units :=
  (u.relinkDown c new old).setParentOf new (u.parentOf old)

/-- Link from the old node's own parent is the relinking of the tables, where the old node's byte is written. -/
theorem linkNode_ok {s : State} {new : Link} {old : Pos} {c : Byte} (h : Memory.get s.u.window old.toNat = some c) :
    linkNode (s.u.parentOf old) new old s = .ok () { s with u := s.u.relink c new old } := by
  have hdown : linkDown (s.u.parentOf old) new old s = .ok () { s with u := s.u.relinkDown c new old } := by
    unfold Units.relinkDown
    cases hp : s.u.parentOf old with
    | none => exact linkDown_root h
    | some q => exact linkDown_child s q new old
  unfold linkNode
  rw [Op.bind_ok hdown]
  cases new <;> rfl

section
variable (c : Byte) (new par : Link) (old y : Pos) (u : Units)

@[simp] theorem Units.parentOf_setParentOf :
    (u.setParentOf new par).parentOf y = if new = some y then par else u.parentOf y := by
  cases new with
  | none => rfl
  | some n => simp [Units.setParentOf, eq_comm (a := y)]

@[simp] theorem Units.rootOf_setParentOf (e : Byte) : (u.setParentOf new par).rootOf e = u.rootOf e := by cases new <;> rfl

@[simp] theorem Units.leftOfD_setParentOf : (u.setParentOf new par).leftOfD y = u.leftOfD y := by cases new <;> rfl

@[simp] theorem Units.rightOfD_setParentOf : (u.setParentOf new par).rightOfD y = u.rightOfD y := by cases new <;> rfl

@[simp] theorem Units.isMember_setParentOf : (u.setParentOf new par).isMember y = u.isMember y := by cases new <;> rfl

@[simp] theorem Units.window_setParentOf : (u.setParentOf new par).window = u.window := by cases new <;> rfl

@[simp] theorem Units.parentOf_relinkDown : (u.relinkDown c new old).parentOf y = u.parentOf y := by
  unfold Units.relinkDown
  split
  · rfl
  · split <;> rfl

@[simp] theorem Units.isMember_relinkDown : (u.relinkDown c new old).isMember y = u.isMember y := by
  unfold Units.relinkDown
  split
  · rfl
  · split <;> rfl

@[simp] theorem Units.window_relinkDown : (u.relinkDown c new old).window = u.window := by
  unfold Units.relinkDown
  split
  · rfl
  · split <;> rfl

@[simp] theorem Units.parentOf_relink :
    (u.relink c new old).parentOf y = if new = some y then u.parentOf old else u.parentOf y := by simp [Units.relink]

@[simp] theorem Units.isMember_relink : (u.relink c new old).isMember y = u.isMember y := by simp [Units.relink]

@[simp] theorem Units.window_relink : (u.relink c new old).window = u.window := by simp [Units.relink]

end

/-- Below a node that is not the old one's parent the children stay. -/
theorem Units.relink_of_not_parent {c : Byte} {new : Link} {old y : Pos} {u : Units} (h : u.parentOf old ≠ some y) :
    (u.relink c new old).leftOfD y = u.leftOfD y ∧ (u.relink c new old).rightOfD y = u.rightOfD y := by
  simp only [Units.relink, Units.leftOfD_setParentOf, Units.rightOfD_setParentOf, Units.relinkDown]
  cases hp : u.parentOf old with
  | none => exact ⟨rfl, rfl⟩
  | some a =>
    have hne : y ≠ a := fun e => h (by rw [hp, e])
    dsimp only
    split <;> simp [hne]

/-- Without a parent the old node is a root: only the root entry of c changes among the links down. -/
theorem Units.rootOf_relink_root {c e : Byte} {new : Link} {old : Pos} {u : Units} (h : u.parentOf old = none) :
    (u.relink c new old).rootOf e = if e = c then new else u.rootOf e := by
  simp [Units.relink, Units.relinkDown, h]

/-- With a parent the roots stay. -/
theorem Units.rootOf_relink_child {c e : Byte} {new : Link} {old a : Pos} {u : Units} (h : u.parentOf old = some a) :
    (u.relink c new old).rootOf e = u.rootOf e := by
  simp only [Units.relink, Units.relinkDown, h, Units.rootOf_setParentOf]
  split <;> rfl

/-- The parent's child link that named the old node names the new one. -/
theorem Units.relink_parent {c : Byte} {new : Link} {old a : Pos} {u : Units} (h : u.parentOf old = some a)
    (hc : u.leftOfD a = some old ∨ u.rightOfD a = some old) (hne : u.leftOfD a = some old → u.rightOfD a ≠ some old) :
    (u.relink c new old).leftOfD a = Link.redirect old new (u.leftOfD a) ∧
      (u.relink c new old).rightOfD a = Link.redirect old new (u.rightOfD a) := by
  simp only [Units.relink, Units.leftOfD_setParentOf, Units.rightOfD_setParentOf, Units.relinkDown, h]
  by_cases hl : u.leftOfD a = some old
  · rw [if_pos hl]
    simp [hl, Link.redirect, hne hl]
  · rw [if_neg hl]
    simp [Link.redirect, hl, hc.resolve_left hl]

/-! ## Link on a forest -/

/-- v has the window, the members and, outside S, the links of u. -/
structure Units.SameBut (u v : Units) (S : Pos → Prop) : Prop where
  window : v.window = u.window
  member : ∀ y, v.isMember y = u.isMember y
  links : ∀ y, ¬ S y → v.parentOf y = u.parentOf y ∧ v.leftOfD y = u.leftOfD y ∧ v.rightOfD y = u.rightOfD y

theorem Units.SameBut.trans {u v w : Units} {S : Pos → Prop} (h : u.SameBut v S) (h' : v.SameBut w S) : u.SameBut w S :=
  ⟨h'.window.trans h.window, fun y => (h'.member y).trans (h.member y), fun y hy =>
    let ⟨a, b, c⟩ := h.links y hy
    let ⟨a', b', c'⟩ := h'.links y hy
    ⟨a'.trans a, b'.trans b, c'.trans c⟩⟩

/-- Relinking touches the old node's parent and the new node. -/
theorem Units.sameBut_relink {u : Units} {S : Pos → Prop} {c : Byte} {new : Link} {old : Pos}
    (hpar : ∀ a, u.parentOf old = some a → S a) (hnew : ∀ n, new = some n → S n) :
    u.SameBut (u.relink c new old) S := by
  refine ⟨by simp, by simp, fun y hy => ⟨?_, Units.relink_of_not_parent fun h => hy (hpar y h)⟩⟩
  rw [Units.parentOf_relink, if_neg fun h => hy (hnew y h)]

/-- w has the roots, q's parent entry and the links of the nodes outside q's subtree from u. -/
structure Units.SameAround (u w : Units) (tree : Byte → DTree) (q : Pos) : Prop where
  roots : ∀ e, w.rootOf e = u.rootOf e
  parent : w.parentOf q = u.parentOf q
  links : ∀ y, outerNode tree q y →
    w.parentOf y = u.parentOf y ∧ w.leftOfD y = u.leftOfD y ∧ w.rightOfD y = u.rightOfD y

theorem Units.SameAround.refl {u : Units} {tree : Byte → DTree} {q : Pos} : u.SameAround u tree q :=
  ⟨fun _ => rfl, rfl, fun _ _ => ⟨rfl, rfl, rfl⟩⟩

theorem Units.SameAround.trans {u v w : Units} {tree : Byte → DTree} {q : Pos} (h : u.SameAround v tree q)
    (h' : v.SameAround w tree q) : u.SameAround w tree q :=
  ⟨fun e => (h'.roots e).trans (h.roots e), h'.parent.trans h.parent, fun y hy =>
    let ⟨a, b, c⟩ := h.links y hy
    let ⟨a', b', c'⟩ := h'.links y hy
    ⟨a'.trans a, b'.trans b, c'.trans c⟩⟩

section
variable {u v w : Units} {tree : Byte → DTree} {c : Byte} {q : Pos}

/-- Changes inside q's subtree leave a redirection a redirection. -/
theorem Units.Redirected.congr {new : Link} (h : u.Redirected v tree q new) (hroot : ∀ e, w.rootOf e = v.rootOf e)
    (hout : ∀ y, outerNode tree q y →
      w.parentOf y = v.parentOf y ∧ w.leftOfD y = v.leftOfD y ∧ w.rightOfD y = v.rightOfD y) :
    u.Redirected w tree q new :=
  ⟨fun e => (hroot e).trans (h.roots e), fun y hy =>
    let ⟨a, b, c⟩ := h.outer y hy
    let ⟨a', b', c'⟩ := hout y hy
    ⟨a'.trans a, b'.trans b, c'.trans c⟩⟩

/-- Relinking a node of a forest redirects every link to it. -/
theorem Units.Forest.redirected (hf : u.Forest tree) (hq : q ∈ (tree c).inorder) {new : Link}
    (hnew : ∀ n, new = some n → ¬ outerNode tree q n) : u.Redirected (u.relink c new q) tree q new := by
  have hparent : ∀ y, outerNode tree q y → (u.relink c new q).parentOf y = u.parentOf y := fun y hy => by
    rw [Units.parentOf_relink, if_neg fun h => hnew y h hy]
  -- no other node has q as a child
  have hother : ∀ y, outerNode tree q y → u.parentOf q ≠ some y → u.leftOfD y ≠ some q ∧ u.rightOfD y ≠ some q :=
    fun y hy hne => ⟨fun h => hne (hf.parent_of_child hy.inForest (.inl h)),
      fun h => hne (hf.parent_of_child hy.inForest (.inr h))⟩
  have hkeep : ∀ y, outerNode tree q y → u.parentOf q ≠ some y →
      (u.relink c new q).leftOfD y = Link.redirect q new (u.leftOfD y) ∧
        (u.relink c new q).rightOfD y = Link.redirect q new (u.rightOfD y) := fun y hy hne => by
    obtain ⟨h1, h2⟩ := hother y hy hne
    rw [Link.redirect_of_ne h1, Link.redirect_of_ne h2]
    exact Units.relink_of_not_parent hne
  cases hp : u.parentOf q with
  | none =>
    refine ⟨fun e => ?_, fun y hy => ⟨hparent y hy, hkeep y hy (by simp [hp])⟩⟩
    rw [Units.rootOf_relink_root hp]
    split
    · next he => rw [he, hf.rootOf_of_parent hq hp, Link.redirect_old]
    · next he => rw [Link.redirect_of_ne fun h => he (hf.apart e c q (hf.root h).1 hq)]
  | some a =>
    obtain ⟨ha, hc⟩ := hf.child_of_parent hq hp
    refine ⟨fun e => ?_, fun y hy => ⟨hparent y hy, ?_⟩⟩
    · rw [Units.rootOf_relink_child hp, Link.redirect_of_ne fun h => by rw [(hf.root h).2] at hp; cases hp]
    · by_cases hya : y = a
      · subst hya
        exact Units.relink_parent hp hc (hf.children_ne ha.inForest)
      · exact hkeep y hy fun h => hya (Option.some.inj (h.symm.trans hp))

/-- Relinking depends on the tables at the old node's parent only: other changes inside q's subtree may come first. -/
theorem Units.Forest.redirected_after (hf : u.Forest tree) (hq : q ∈ (tree c).inorder) {new : Link}
    (hnew : ∀ n, new = some n → ¬ outerNode tree q n) (hw : u.SameAround w tree q) :
    u.Redirected (w.relink c new q) tree q new := by
  obtain ⟨hroot, hpar, hlinks⟩ := hw
  refine (hf.redirected hq hnew).congr (fun e => ?_) fun y hy => ?_
  · cases hp : u.parentOf q with
    | none => rw [Units.rootOf_relink_root hp, Units.rootOf_relink_root (hpar.trans hp), hroot]
    | some a => rw [Units.rootOf_relink_child hp, Units.rootOf_relink_child (hpar.trans hp), hroot]
  · obtain ⟨h1, h2, h3⟩ := hlinks y hy
    refine ⟨by simp [h1, hpar], ?_⟩
    by_cases hya : u.parentOf q = some y
    · obtain ⟨ho, hc⟩ := hf.child_of_parent hq hya
      obtain ⟨e1, e2⟩ := Units.relink_parent (c := c) (new := new) hya hc (hf.children_ne ho.inForest)
      obtain ⟨e1', e2'⟩ := Units.relink_parent (c := c) (new := new) (hpar.trans hya) (by rwa [h2, h3])
        (by rw [h2, h3]; exact hf.children_ne ho.inForest)
      exact ⟨by rw [e1, e1', h2], by rw [e2, e2', h3]⟩
    · obtain ⟨e1, e2⟩ := Units.relink_of_not_parent (c := c) (new := new) hya
      obtain ⟨e1', e2'⟩ := Units.relink_of_not_parent (c := c) (new := new) (u := w) (hpar ▸ hya)
      exact ⟨by rw [e1, e1', h2], by rw [e2, e2', h3]⟩

/-- Link on a forest: another tree, spelled from the new node, in the place of q's subtree. -/
theorem Units.Forest.relink (hf : u.Forest tree) (hq : q ∈ (tree c).inorder) {new par : Link} {t' : DTree}
    (hw : u.SameAround w tree q) (hsp : w.spells par new t' = true) (hn : t'.inorder.Nodup)
    (hdis : ∀ y ∈ t'.inorder, ¬ outerNode tree q y) : (w.relink c new q).Forest (exchangeIn tree q t') := by
  have hnew : ∀ n, new = some n → ¬ outerNode tree q n := by
    rintro n rfl
    exact hdis n (Units.spells_root_mem hsp)
  refine hf.exchange hq (hf.redirected_after hq hnew hw) ?_ hn hdis
  have hpar := hw.parent
  refine Units.spells_adopted hsp hn (fun a ha => by simp [ha, hpar]) (fun p _ hp => by simp [hp]) fun p hp =>
    Units.relink_of_not_parent fun h => hdis p hp (hf.child_of_parent hq (hpar ▸ h)).1

/-! ## The forest without a node -/

/-- The forest holds the nodes of the one before, but for p. -/
def Removed (tree tree' : Byte → DTree) (p : Pos) : Prop := ∀ e y, y ∈ (tree' e).inorder ↔ y ∈ (tree e).inorder ∧ y ≠ p

/-- Where an exchange keeps q's subtree but for q, it removes q. -/
theorem Units.NodeAt.mem_removed {l r t' : DTree} (hat : u.NodeAt tree c q l r) {y : Pos}
    (h : y ∈ t'.inorder ↔ y ∈ l.inorder ∨ y ∈ r.inorder) (e : Byte) :
    y ∈ (exchangeIn tree q t' e).inorder ↔ y ∈ (tree e).inorder ∧ y ≠ q := by
  obtain ⟨-, hn, hdis⟩ := List.nodup_append.mp hat.nodup
  have hql : q ∉ l.inorder := fun hm => hdis q hm q List.mem_cons_self rfl
  have hqr : q ∉ r.inorder := (List.nodup_cons.mp hn).1
  have hout : y ∈ (exchangeIn tree q .nil e).inorder → y ≠ q := by
    rintro hy rfl
    exact hat.apart y (by simp) ⟨e, hy⟩
  rw [hat.mem_exchange t' e y, hat.mem_tree e y, h]
  simp only [List.mem_append, List.mem_cons]
  constructor
  · rintro (ho | ⟨he, hl | hr⟩)
    · exact ⟨.inl ho, hout ho⟩
    · exact ⟨.inr ⟨he, .inl hl⟩, fun e => hql (e ▸ hl)⟩
    · exact ⟨.inr ⟨he, .inr (.inr hr)⟩, fun e => hqr (e ▸ hr)⟩
  · rintro ⟨ho | ⟨he, hl | hq | hr⟩, hne⟩
    · exact .inl ho
    · exact .inr ⟨he, .inl hl⟩
    · exact (hne hq).elim
    · exact .inr ⟨he, .inr hr⟩

/-- An exchange that keeps q's subtree but for q removes q from the forest. -/
theorem Units.NodeAt.removed {l r t' : DTree} (hat : u.NodeAt tree c q l r)
    (h : ∀ y, y ∈ t'.inorder ↔ y ∈ l.inorder ∨ y ∈ r.inorder) : Removed tree (exchangeIn tree q t') q :=
  fun e y => hat.mem_removed (h y) e

/-- The subtrees of a node. -/
theorem Units.NodeAt.mem_tree_of_child {l r : DTree} (hat : u.NodeAt tree c q l r) {y : Pos}
    (h : y ∈ l.inorder ∨ y ∈ r.inorder) : y ∈ (tree c).inorder ∧ ¬ outerNode tree q y := by
  have hm : y ∈ l.inorder ++ q :: r.inorder := by
    rcases h with h | h <;> simp [h]
  exact ⟨(hat.mem_tree c y).mpr (.inr ⟨rfl, hm⟩), hat.apart y hm⟩

/-- A node with at most one child leaves its place to it (43_lzss_dictionary.md R291). -/
theorem Units.Forest.unlink_single (hf : u.Forest tree) (hq : q ∈ (tree c).inorder) {ch : Link}
    (hch : (u.leftOfD q = ch ∧ u.rightOfD q = none) ∨ (u.leftOfD q = none ∧ u.rightOfD q = ch)) :
    ∃ t', (u.relink c ch q).Forest (exchangeIn tree q t') ∧ Removed tree (exchangeIn tree q t') q ∧
      u.SameBut (u.relink c ch q) (inForest tree) := by
  obtain ⟨l, r, hat⟩ := hf.nodeAt hq
  obtain ⟨hnl, hnr, -⟩ := List.nodup_append.mp hat.nodup
  obtain ⟨-, hnr⟩ := List.nodup_cons.mp hnr
  have hl := hat.left
  have hr := hat.right
  -- the child's tree is all of the subtree below q
  obtain ⟨t', hsp, hn, hmem⟩ : ∃ t', u.spells (some q) ch t' = true ∧ t'.inorder.Nodup ∧
      ∀ y, y ∈ t'.inorder ↔ y ∈ l.inorder ∨ y ∈ r.inorder := by
    rcases hch with ⟨hc, h0⟩ | ⟨h0, hc⟩
    · rw [h0] at hr
      obtain rfl := (u.spells_nil_iff _ _).mp hr
      exact ⟨l, hc ▸ hl, hnl, fun y => by simp [DTree.inorder]⟩
    · rw [h0] at hl
      obtain rfl := (u.spells_nil_iff _ _).mp hl
      exact ⟨r, hc ▸ hr, hnr, fun y => by simp [DTree.inorder]⟩
  have hsub : ∀ y ∈ t'.inorder, y ∈ (tree c).inorder ∧ ¬ outerNode tree q y := fun y hy =>
    hat.mem_tree_of_child ((hmem y).mp hy)
  refine ⟨t', hf.relink hq .refl hsp hn
    fun y hy => (hsub y hy).2, hat.removed hmem, Units.sameBut_relink (fun a ha => ?_) fun n hn => ?_⟩
  · exact (hf.child_of_parent hq ha).1.inForest
  · subst hn
    exact ⟨c, (hsub n (Units.spells_root_mem hsp)).1⟩

end

end Sys2Proof.Machine
end

section
/-! SUPPORT. Remove: the dictionary's forest without the removed member, and the dictionary invariant after it. -/

namespace Sys2Proof.Machine

/-! ## The dictionary invariant by its forest -/

/-- The dictionary with its trees named (10_state.md R46, R47). -/
structure Units.Dict (u : Units) (tree : Byte → DTree) : Prop where
  forest : u.Forest tree
  bytes : ∀ c p, p ∈ (tree c).inorder → Memory.get u.window p.toNat = some c
  members : ∀ p, u.isMember p = true ↔ inForest tree p
  bare : ∀ p, u.isMember p = false → u.parentOf p = none ∧ u.leftOfD p = none ∧ u.rightOfD p = none

theorem Units.dictOk_iff {u : Units} : u.dictOk ↔ ∃ tree, u.Dict tree := by
  constructor
  · rintro ⟨tree, htree, hbytes, hmem, hbare⟩
    refine ⟨tree, ⟨fun c => (htree c).1, fun c => (htree c).2, fun c d p hc hd => ?_⟩, hbytes, hmem, hbare⟩
    exact Option.some.inj ((hbytes c p hc).symm.trans (hbytes d p hd))
  · rintro ⟨tree, h⟩
    exact ⟨tree, fun c => ⟨h.forest.spelled c, h.forest.nodup c⟩, h.bytes, h.members, h.bare⟩

section
variable {u w : Units} {tree : Byte → DTree} {c : Byte} {q : Pos}

/-- A position outside the forest is no member. -/
theorem Units.Dict.not_member (h : u.Dict tree) {p : Pos} (hp : ¬ inForest tree p) : u.isMember p = false :=
  Bool.eq_false_iff.mpr fun hm => hp ((h.members p).mp hm)

/-- A non-member stands in no tree. -/
theorem Units.Dict.not_inForest (h : u.Dict tree) {p : Pos} (hp : u.isMember p = false) : ¬ inForest tree p :=
  fun hin => by
    rw [(h.members p).mpr hin] at hp
    cases hp

/-! ## Two children -/

/-- The node x takes q's place, with its own left tree and q's right child (43_lzss_dictionary.md R291). -/
theorem Units.Forest.promote (hf : u.Forest tree) (hq : q ∈ (tree c).inorder) {lt rt : DTree} {x ri : Pos}
    (hw : u.SameAround w tree q) (hlt : w.spells (some x) (w.leftOfD x) lt = true)
    (hrt : w.spells (some q) (some ri) rt = true) (hn : (DTree.node lt x rt).inorder.Nodup)
    (hdis : ∀ y ∈ (DTree.node lt x rt).inorder, ¬ outerNode tree q y) (hqr : q ≠ ri) :
    (((w.setRightD x (some ri)).setParent ri (some x)).relink c (some x) q).Forest
      (exchangeIn tree q (.node lt x rt)) := by
  simp only [DTree.inorder] at hn hdis
  obtain ⟨-, hnr, hne⟩ := List.nodup_append.mp hn
  obtain ⟨hxr, hnr⟩ := List.nodup_cons.mp hnr
  have hri : ri ∈ rt.inorder := Units.spells_root_mem hrt
  have hxl : x ∉ lt.inorder := fun h => hne x h x List.mem_cons_self rfl
  have hout : ∀ y, outerNode tree q y → y ≠ x ∧ y ≠ ri := fun y hy =>
    ⟨fun e => hdis y (by simp [e]) hy, fun e => hdis y (by simp [e, hri]) hy⟩
  refine hf.relink hq (par := w.parentOf x) (hw.trans ⟨fun _ => rfl, by simp [hqr], fun y hy => ?_⟩) ?_ hn hdis
  · obtain ⟨h1, h2⟩ := hout y hy
    simp [h1, h2]
  · have hxri : x ≠ ri := fun e => hxr (e ▸ hri)
    refine (Units.spells_node_iff _ _ _ _).mpr ⟨lt, rt, rfl, by simp [hxri], ?_, ?_⟩
    · rw [← hlt]
      refine (congrArg (fun lk => Units.spells _ (some x) lk lt) (by simp)).trans (Units.spells_congr _ _ _ fun p hp => ?_)
      have h1 : p ≠ x := fun e => hxl (e ▸ hp)
      have h2 : p ≠ ri := hne p hp ri (List.mem_cons_of_mem _ hri)
      simp [h1, h2]
    · rw [Units.rightOfD_setParent, Units.rightOfD_setRightD, if_pos rfl]
      refine Units.spells_adopted hrt hnr (fun a ha => by simp [Option.some.inj ha]) (fun p _ hne => ?_) fun p hp => ?_
      · have : p ≠ ri := fun e => hne (congrArg some e.symm)
        simp [this]
      · have : p ≠ x := fun e => hxr (e ▸ hp)
        simp [this]

/-- The last node of a tree in order is a node of it. -/
theorem mem_of_getLast? {l : List Pos} {x : Pos} (h : l.getLast? = some x) : x ∈ l := by
  obtain ⟨ys, rfl⟩ := List.getLast?_eq_some_iff.mp h
  simp

/-- The forest after the predecessor x, q's left child, took q's place (43_lzss_dictionary.md R291). -/
theorem Units.Forest.remove_by_child (hf : u.Forest tree) (hq : q ∈ (tree c).inorder) {x ri : Pos}
    (hl : u.leftOfD q = some x) (hr : u.rightOfD q = some ri) (hx : u.rightOfD x = none) :
    ∃ t', (((u.setRightD x (some ri)).setParent ri (some x)).relink c (some x) q).Forest (exchangeIn tree q t') ∧
      Removed tree (exchangeIn tree q t') q := by
  obtain ⟨l, r, hat⟩ := hf.nodeAt hq
  have hsl := hat.left
  have hsr := hat.right
  have hn := hat.nodup
  rw [hl] at hsl
  rw [hr] at hsr
  obtain ⟨lt, r0, rfl, -, hlt, h0⟩ := (Units.spells_node_iff _ _ _ _).mp hsl
  rw [hx] at h0
  obtain rfl := (Units.spells_nil_iff _ _ _).mp h0
  simp only [DTree.inorder, List.append_assoc, List.cons_append, List.nil_append] at hn
  have hmem : ∀ y, y ∈ (DTree.node lt x r).inorder ↔ y ∈ (DTree.node lt x .nil).inorder ∨ y ∈ r.inorder := fun y => by
    simp [DTree.inorder]
    tauto
  have hqr : q ≠ ri := by
    rintro rfl
    exact (List.nodup_cons.mp (List.nodup_append.mp hat.nodup).2.1).1 (Units.spells_root_mem hsr)
  refine ⟨.node lt x r, hf.promote hq .refl hlt hsr ?_
    (fun y hy => (hat.mem_tree_of_child ((hmem y).mp hy)).2) hqr, hat.removed hmem⟩
  exact hn.sublist (by simp [DTree.inorder])

/-- The tables after the predecessor x of q was lifted out of its own place (43_lzss_dictionary.md R291). -/
def Units.lift (c : Byte) (l x : Pos) (u : Units) : Units :=
  ((u.relink c (u.leftOfD x) x).setLeftD x (some l)).setParent l (some x)

/-- A node x further down in q's left subtree relinked to its left child: q's own entries stay. -/
theorem Units.Forest.links_after_lower (hf : u.Forest tree) (hq : q ∈ (tree c).inorder) {l r : DTree} {x : Pos}
    (hat : u.NodeAt tree c q l r) (hxl : x ∈ l.inorder) (hx : u.leftOfD q ≠ some x) :
    (u.relink c (u.leftOfD x) x).parentOf q = u.parentOf q ∧ (u.relink c (u.leftOfD x) x).leftOfD q = u.leftOfD q ∧
      (u.relink c (u.leftOfD x) x).rightOfD q = u.rightOfD q := by
  obtain ⟨hxt, hxo⟩ := hat.mem_tree_of_child (.inl hxl)
  refine ⟨?_, Units.relink_of_not_parent fun h => ?_⟩
  · rw [Units.parentOf_relink, if_neg fun h => hxo (hf.child_of_parent hq (hf.parent_of_child ⟨c, hxt⟩ (.inl h))).1]
  · refine (hf.child_of_parent hxt h).2.elim hx fun h => ?_
    have hxr : x ∈ r.inorder := Units.spells_root_mem (h ▸ hat.right)
    exact (List.nodup_append.mp hat.nodup).2.2 x hxl x (List.mem_cons_of_mem _ hxr) rfl

/-- The forest after the predecessor x, further down in q's left subtree, took q's place (43_lzss_dictionary.md R291). -/
theorem Units.Forest.remove_by_lift (hf : u.Forest tree) (hq : q ∈ (tree c).inorder) {l r : DTree} {x li ri : Pos}
    (hat : u.NodeAt tree c q l r) (hl : u.leftOfD q = some li) (hr : u.rightOfD q = some ri) (hxl : x ∈ l.inorder)
    (hxli : x ≠ li) (hx : u.rightOfD x = none) :
    (u.lift c li x).parentOf q = u.parentOf q ∧
    ∃ tree', ((((u.lift c li x).setRightD x (some ri)).setParent ri (some x)).relink c (some x) q).Forest tree' ∧
      Removed tree tree' q := by
  obtain ⟨hxt, -⟩ := hat.mem_tree_of_child (.inl hxl)
  obtain ⟨-, hnr, hne⟩ := List.nodup_append.mp hat.nodup
  have hqx : q ≠ x := fun e => hne x hxl q List.mem_cons_self e.symm
  have hri : ri ∈ r.inorder := Units.spells_root_mem (hr ▸ hat.right)
  have hli : li ∈ l.inorder := Units.spells_root_mem (hl ▸ hat.left)
  have hqri : q ≠ ri := fun e => (List.nodup_cons.mp hnr).1 (e ▸ hri)
  have hqli : q ≠ li := fun e => hne li hli q List.mem_cons_self e.symm
  -- first x leaves the forest
  obtain ⟨t1, hf1, hrem1, -⟩ := hf.unlink_single hxt (.inl ⟨rfl, hx⟩)
  have hq1 : q ∈ (exchangeIn tree x t1 c).inorder := (hrem1 c q).mpr ⟨hq, hqx⟩
  have hnot : ¬ inForest (exchangeIn tree x t1) x := fun ⟨e, he⟩ => ((hrem1 e x).mp he).2 rfl
  obtain ⟨hpq, hl1, hr1⟩ := hf.links_after_lower hq hat hxl (fun h => hxli (Option.some.inj (h.symm.trans hl)))
  -- then it takes q's place
  obtain ⟨lt, rt, hat1⟩ := hf1.nodeAt hq1
  have hslt := hat1.left
  have hsrt := hat1.right
  rw [hl1, hl] at hslt
  rw [hr1, hr] at hsrt
  have hin1 : ∀ y, y ∈ lt.inorder ∨ y ∈ rt.inorder → y ≠ x := by
    rintro y hy rfl
    exact hnot ⟨c, (hat1.mem_tree_of_child hy).1⟩
  obtain ⟨hnlt, hnrt, hne1⟩ := List.nodup_append.mp hat1.nodup
  have hmem1 : ∀ y, y ∈ (DTree.node lt x rt).inorder ↔ y ∈ lt.inorder ∨ y = x ∨ y ∈ rt.inorder := fun y => by
    simp [DTree.inorder]
  have hdis : ∀ y ∈ (DTree.node lt x rt).inorder, ¬ outerNode (exchangeIn tree x t1) q y := fun y hy => by
    rcases (hmem1 y).mp hy with h | rfl | h
    · exact (hat1.mem_tree_of_child (.inl h)).2
    · exact fun h => hnot h.inForest
    · exact (hat1.mem_tree_of_child (.inr h)).2
  have hli1 : li ∈ lt.inorder := Units.spells_root_mem hslt
  refine ⟨by simp [Units.lift, hqli, hpq], exchangeIn (exchangeIn tree x t1) q (.node lt x rt),
    hf1.promote hq1 ⟨fun _ => rfl, by simp [Units.lift, hqli], fun y hy => ?_⟩ ?_ ?_ ?_ hdis hqri,
    fun e y => ?_⟩
  · have h1 : y ≠ x := fun e => hnot (e ▸ hy.inForest)
    have h2 : y ≠ li := fun e => hdis li ((hmem1 li).mpr (.inl hli1)) (e ▸ hy)
    simp [Units.lift, h1, h2]
  · rw [Units.lift, Units.leftOfD_setParent, Units.leftOfD_setLeftD, if_pos rfl]
    refine Units.spells_adopted hslt hnlt (fun a ha => by simp [Option.some.inj ha]) (fun p _ hp => ?_) fun p hp => ?_
    · have : p ≠ li := fun e => hp (congrArg some e.symm)
      simp [this]
    · simp [hin1 p (.inl hp)]
  · rw [← hsrt]
    refine Units.spells_congr _ _ _ fun p hp => ?_
    have h1 : p ≠ li := fun e => hne1 li hli1 p (List.mem_cons_of_mem _ hp) e.symm
    simp [Units.lift, h1, hin1 p (.inr hp)]
  · refine List.nodup_append.mpr ⟨hnlt, List.nodup_cons.mpr ⟨fun h => hin1 x (.inr h) rfl,
      (List.nodup_cons.mp hnrt).2⟩, fun a ha b hb => ?_⟩
    rcases List.mem_cons.mp hb with rfl | hb
    · exact hin1 a (.inl ha)
    · exact hne1 a ha b (List.mem_cons_of_mem _ hb)
  · by_cases hyx : y = x
    · subst hyx
      rw [hat1.mem_exchange, hmem1]
      have hno : y ∉ (exchangeIn (exchangeIn tree y t1) q .nil e).inorder := fun h =>
        hnot ⟨e, (DTree.mem_of_mem_exchange_nil h).1⟩
      constructor
      · rintro (h | ⟨rfl, -⟩)
        · exact (hno h).elim
        · exact ⟨hxt, hqx.symm⟩
      · rintro ⟨h, -⟩
        exact .inr ⟨hf.apart e c y h hxt, .inr (.inl rfl)⟩
    · rw [hat1.mem_removed (by rw [hmem1]; simp [hyx]), hrem1 e y]
      tauto

end

end Sys2Proof.Machine
end

section
/-! SUPPORT. Remove as an operation: it always ends, without the member, and keeps the dictionary invariant. -/

namespace Sys2Proof.Machine

section
variable {u v : Units} {tree : Byte → DTree} {c : Byte} {S : Pos → Prop} {p : Pos}

theorem Units.SameBut.setLeftD (h : u.SameBut v S) (hp : S p) (x : Link) : u.SameBut (v.setLeftD p x) S :=
  h.trans ⟨rfl, fun _ => rfl, fun y hy => by simp [show y ≠ p from fun e => hy (e ▸ hp)]⟩

theorem Units.SameBut.setRightD (h : u.SameBut v S) (hp : S p) (x : Link) : u.SameBut (v.setRightD p x) S :=
  h.trans ⟨rfl, fun _ => rfl, fun y hy => by simp [show y ≠ p from fun e => hy (e ▸ hp)]⟩

theorem Units.SameBut.setParent (h : u.SameBut v S) (hp : S p) (x : Link) : u.SameBut (v.setParent p x) S :=
  h.trans ⟨rfl, fun _ => rfl, fun y hy => by simp [show y ≠ p from fun e => hy (e ▸ hp)]⟩

theorem Units.SameBut.refl : u.SameBut u S := ⟨rfl, fun _ => rfl, fun _ _ => ⟨rfl, rfl, rfl⟩⟩

/-- A parent in a forest is a node of the forest. -/
theorem Units.Forest.parent_inForest (hf : u.Forest tree) (hp : inForest tree p) {a : Pos} (h : u.parentOf p = some a) :
    inForest tree a :=
  let ⟨_, hp⟩ := hp
  (hf.child_of_parent hp h).1.inForest

/-- A child in a forest is a node of the forest. -/
theorem Units.Forest.child_inForest (hf : u.Forest tree) (hp : inForest tree p) {x : Pos}
    (h : u.leftOfD p = some x ∨ u.rightOfD p = some x) : inForest tree x :=
  let ⟨c, hp⟩ := hp
  ⟨c, (Units.spells_child (hf.spelled c) hp h).1⟩

/-- What the removal of a member from its tree leaves: the forest without it, and nothing changed outside the forest. -/
def Units.Unlinked (u v : Units) (tree : Byte → DTree) (p : Pos) : Prop :=
  (∃ tree', v.Forest tree' ∧ Removed tree tree' p) ∧ u.SameBut v (inForest tree)

end

section
variable {s : State} {tree : Byte → DTree} {c : Byte} {p : Pos}

/-- Link of a member's only child to its parent takes the member out (43_lzss_dictionary.md R291). -/
theorem linkNode_unlinks (hd : s.u.Dict tree) (hp : p ∈ (tree c).inorder) {ch : Link}
    (hch : (s.u.leftOfD p = ch ∧ s.u.rightOfD p = none) ∨ (s.u.leftOfD p = none ∧ s.u.rightOfD p = ch)) :
    ∃ v, linkNode (s.u.parentOf p) ch p s = .ok () { s with u := v } ∧ s.u.Unlinked v tree p :=
  let ⟨_, hf, hrem, hsame⟩ := hd.forest.unlink_single hp hch
  ⟨_, linkNode_ok (hd.bytes c p hp), ⟨_, hf, hrem⟩, hsame⟩

/-- The lift of the predecessor on the tables (43_lzss_dictionary.md R291). -/
theorem liftPredecessor_ok {l x : Pos} (hx : x ≠ l) (hw : Memory.get s.u.window x.toNat = some c) :
    liftPredecessor l x s = .ok () { s with u := s.u.lift c l x } := by
  unfold liftPredecessor
  rw [Op.units_bind, if_neg hx, Op.bind_ok (linkNode_ok hw)]
  rfl

/-- The predecessor in p's place: the end of the removal of a member with two children (43_lzss_dictionary.md R291). -/
theorem promote_ok {w : Units} {x r : Pos} {par : Link} (hpar : w.parentOf p = par) (hpr : p ≠ r)
    (hw : Memory.get w.window p.toNat = some c) :
    (do
      setUnits fun u => Units.setParent r (some x) (Units.setRightD x (some r) u)
      linkNode par (some x) p : Op Unit) { s with u := w } =
    .ok () { s with u := ((w.setRightD x (some r)).setParent r (some x)).relink c (some x) p } := by
  have := linkNode_ok (s := { s with u := (w.setRightD x (some r)).setParent r (some x) }) (new := some x) (old := p)
    (c := c) hw
  rw [show ((w.setRightD x (some r)).setParent r (some x)).parentOf p = par by simp [hpr, hpar]] at this
  exact this

/-- The removal of a member from its tree ends, with the forest without the member (43_lzss_dictionary.md R291). -/
theorem unlinkMember_ok (hd : s.u.Dict tree) (hp : p ∈ (tree c).inorder) :
    ∃ v, unlinkMember p s = .ok () { s with u := v } ∧ s.u.Unlinked v tree p := by
  have hf := hd.forest
  have hpin : inForest tree p := ⟨c, hp⟩
  unfold unlinkMember
  simp only [Op.units_bind]
  cases hl : s.u.leftOfD p with
  | none => exact linkNode_unlinks hd hp (.inr ⟨hl, rfl⟩)
  | some l =>
    cases hr : s.u.rightOfD p with
    | none => exact linkNode_unlinks hd hp (.inl ⟨hl, hr⟩)
    | some r =>
      obtain ⟨lt, rt, hat⟩ := hf.nodeAt hp
      obtain ⟨hn, hnr, hne⟩ := List.nodup_append.mp hat.nodup
      obtain ⟨x, hwalk, hx, hlast⟩ := rightmost_ok Config.W (hl ▸ hat.left) (DTree.length_inorder_le hn)
      have hxl : x ∈ lt.inorder := mem_of_getLast? hlast
      have hxt : x ∈ (tree c).inorder := (hat.mem_tree_of_child (.inl hxl)).1
      have hxin : inForest tree x := ⟨c, hxt⟩
      have hlin : inForest tree l := hf.child_inForest hpin (.inl hl)
      have hrin : inForest tree r := hf.child_inForest hpin (.inr hr)
      have hpr : p ≠ r := fun e => (List.nodup_cons.mp hnr).1 (e ▸ Units.spells_root_mem (hr ▸ hat.right))
      -- both ways nothing outside the forest changes
      have hsame : ∀ w : Units, s.u.SameBut w (inForest tree) → w.parentOf p = s.u.parentOf p →
          s.u.SameBut (((w.setRightD x (some r)).setParent r (some x)).relink c (some x) p) (inForest tree) := by
        intro w hw hpar
        refine ((hw.setRightD hxin _).setParent hrin _).trans (Units.sameBut_relink (fun a ha => ?_) fun n hn =>
          Option.some.inj hn ▸ hxin)
        rw [Units.parentOf_setParent, if_neg hpr, Units.parentOf_setRightD, hpar] at ha
        exact hf.parent_inForest hpin ha
      dsimp only
      rw [Op.bind_ok hwalk]
      by_cases hxe : x = l
      · have hlift : liftPredecessor l x s = .ok () s := by
          unfold liftPredecessor
          rw [Op.units_bind, if_pos hxe]
          rfl
        obtain ⟨t', hf', hrem⟩ := hf.remove_by_child hp (hxe ▸ hl) hr hx
        rw [Op.bind_ok hlift]
        exact ⟨_, promote_ok (w := s.u) rfl hpr (hd.bytes c p hp), ⟨_, hf', hrem⟩, hsame s.u .refl rfl⟩
      · obtain ⟨hpar, tree', hf', hrem⟩ := hf.remove_by_lift hp hat hl hr hxl hxe hx
        have hw : s.u.SameBut (s.u.lift c l x) (inForest tree) := by
          refine ((Units.sameBut_relink (fun a ha => hf.parent_inForest hxin ha) fun n hn => ?_).setLeftD hxin _).setParent
            hlin _
          exact hf.child_inForest hxin (.inl hn)
        rw [Op.bind_ok (liftPredecessor_ok hxe (hd.bytes c x hxt))]
        exact ⟨_, promote_ok hpar hpr (by rw [hw.window]; exact hd.bytes c p hp), ⟨_, hf', hrem⟩, hsame _ hw hpar⟩

end

/-! ## The dictionary without a member -/

/-- v is u's dictionary without p: p is no member, the others stay, and the window too. -/
structure Units.Without (u v : Units) (p : Pos) : Prop where
  dictOk : v.dictOk
  window : v.window = u.window
  member : ∀ y, v.isMember y = if y = p then false else u.isMember y

/-- Detach after the removal from the tree keeps the invariant. -/
theorem Units.Dict.detach {u v : Units} {tree : Byte → DTree} {p : Pos} (hd : u.Dict tree) (hv : u.Unlinked v tree p) :
    u.Without (v.detach p) p := by
  obtain ⟨⟨tree', hf, hrem⟩, hsame⟩ := hv
  have hin : ∀ y, inForest tree' y ↔ inForest tree y ∧ y ≠ p := fun y => by
    unfold inForest
    exact (exists_congr fun e => hrem e y).trans exists_and_right
  have hmem : ∀ y, (v.detach p).isMember y = if y = p then false else u.isMember y := fun y => by
    rw [Units.isMember_detach, hsame.member]
  refine ⟨Units.dictOk_iff.mpr ⟨tree', hf.congr (fun _ => rfl) fun y hy => ?_, fun c y hy => ?_, fun y => ?_, fun y hy => ?_⟩,
    hsame.window, hmem⟩
  · simp [((hin y).mp hy).2]
  · exact (congrArg (Memory.get · y.toNat) hsame.window).trans (hd.bytes c y ((hrem c y).mp hy).1)
  · rw [hmem, hin, ← hd.members]
    split <;> simp [*]
  · by_cases hyp : y = p
    · simp [hyp]
    · rw [hmem, if_neg hyp] at hy
      obtain ⟨h1, h2, h3⟩ := hsame.links y (hd.not_inForest hy)
      obtain ⟨h4, h5, h6⟩ := hd.bare y hy
      simp [hyp, h1, h2, h3, h4, h5, h6]

/-- Remove always ends; it leaves the dictionary without the position (43_lzss_dictionary.md R291). -/
theorem removeNode_ok {s : State} (p : Pos) (h : s.u.dictOk) :
    ∃ v, removeNode p s = .ok () { s with u := v } ∧ s.u.Without v p := by
  unfold removeNode
  rw [Op.units_bind]
  by_cases hm : s.u.isMember p = true
  · obtain ⟨tree, hd⟩ := Units.dictOk_iff.mp h
    obtain ⟨c, hp⟩ := (hd.members p).mp hm
    obtain ⟨v, hrun, hv⟩ := unlinkMember_ok hd hp
    rw [if_pos hm, Op.bind_ok hrun]
    exact ⟨_, rfl, hd.detach hv⟩
  · rw [if_neg hm]
    exact ⟨s.u, rfl, h, rfl, fun y => by
      split
      · next e => exact e ▸ Bool.eq_false_iff.mpr hm
      · rfl⟩

end Sys2Proof.Machine
end

section
/-! SUPPORT. MatchAdd: the dictionary with the new position, in another node's place or as a new leaf. -/

namespace Sys2Proof.Machine

/-- v is a dictionary whose members are p and members of u, over the same window. -/
structure Units.With (u v : Units) (p : Pos) : Prop where
  dictOk : v.dictOk
  window : v.window = u.window
  member : ∀ y, v.isMember y = true → y = p ∨ u.isMember y = true

section
variable {u v : Units} {tree tree' : Byte → DTree} {c : Byte} {p q : Pos}

/-- A forest of p and of old nodes, with the members to match, is a dictionary with p. -/
theorem Units.Dict.with (hd : u.Dict tree) (hp : Memory.get u.window p.toNat = some c) (hf : v.Forest tree')
    (hw : v.window = u.window) (hin : ∀ e y, y ∈ (tree' e).inorder → y ∈ (tree e).inorder ∨ (e = c ∧ y = p))
    (hm : ∀ y, v.isMember y = true ↔ inForest tree' y)
    (hbare : ∀ y, ¬ inForest tree' y → v.parentOf y = none ∧ v.leftOfD y = none ∧ v.rightOfD y = none) : u.With v p := by
  refine ⟨Units.dictOk_iff.mpr ⟨tree', hf, fun e y hy => ?_, hm, fun y hy => hbare y fun h => ?_⟩, hw, fun y hy => ?_⟩
  · rw [hw]
    rcases hin e y hy with h | ⟨rfl, rfl⟩
    · exact hd.bytes e y h
    · exact hp
  · rw [(hm y).mpr h] at hy
    cases hy
  · obtain ⟨e, he⟩ := (hm y).mp hy
    rcases hin e y he with h | ⟨-, h⟩
    · exact .inr ((hd.members y).mpr ⟨e, h⟩)
    · exact .inl h

/-- A position other than the node at q and outside its subtrees. -/
theorem Units.NodeAt.ne_of_not_inForest {l r : DTree} (hat : u.NodeAt tree c q l r) (hp : ¬ inForest tree p) :
    p ∉ l.inorder ∧ p ≠ q ∧ p ∉ r.inorder := by
  have h : p ∉ l.inorder ++ q :: r.inorder := fun hm => hp ⟨c, (hat.mem_tree c p).mpr (.inr ⟨rfl, hm⟩)⟩
  simpa using h

/-! ## Another node's place -/

theorem Units.adopt_eq (child : Link) (p : Pos) (u : Units) : u.adopt child p = u.setParentOf child (some p) := by
  cases child <;> rfl

/-- Replace(q, p) on the tables; c is the byte at q (43_lzss_dictionary.md R301). -/
def Units.replaced (c : Byte) (q p : Pos) (u : Units) : Units :=
  ((((u.takePlace q p).relink c (some p) q).setParentOf (u.leftOfD q) (some p)).setParentOf (u.rightOfD q)
    (some p)).detach q

/-- Replace is the replacement on the tables, q a node of the dictionary and p none (43_lzss_dictionary.md R301). -/
theorem replaceNode_ok {s : State} (hd : s.u.Dict tree) (hq : q ∈ (tree c).inorder) (hp : ¬ inForest tree p) :
    replaceNode q p s = .ok () { s with u := s.u.replaced c q p } := by
  have hpq : p ≠ q := fun e => hp (e ▸ ⟨c, hq⟩)
  have hpar : s.u.parentOf q ≠ some q := fun h => by
    obtain ⟨l, r, hat⟩ := hd.forest.nodeAt hq
    exact hat.apart q (by simp) (hd.forest.child_of_parent hq h).1
  have hpar' : (s.u.takePlace q p).parentOf q ≠ some q := by simpa [hpq.symm] using hpar
  have hlink := linkNode_ok (s := { s with u := s.u.takePlace q p }) (new := some p) (hd.bytes c q hq)
  obtain ⟨hl, hr⟩ := Units.relink_of_not_parent (c := c) (new := some p) hpar'
  rw [Units.leftOfD_takePlace, if_neg hpq.symm] at hl
  rw [Units.rightOfD_takePlace, if_neg hpq.symm] at hr
  unfold replaceNode
  rw [Op.setUnits_bind, Op.units_bind, Op.bind_ok hlink]
  simp only [Op.setUnits_bind, Op.setUnits_run, Units.adopt_eq, Units.rightOfD_setParentOf, hl, hr]
  rfl

/-- The children after a replacement, but for q's parent. -/
theorem Units.children_replaced {y : Pos} (hpq : p ≠ q) (hy : u.parentOf q ≠ some y) :
    (u.replaced c q p).leftOfD y = (if y = q then none else if y = p then u.leftOfD q else u.leftOfD y) ∧
      (u.replaced c q p).rightOfD y = if y = q then none else if y = p then u.rightOfD q else u.rightOfD y := by
  have htp : (u.takePlace q p).parentOf q = u.parentOf q := by simp [hpq.symm]
  obtain ⟨h1, h2⟩ := Units.relink_of_not_parent (c := c) (new := some p) (htp.symm ▸ hy)
  simp [Units.replaced, h1, h2]

/-- The parents after a replacement. -/
theorem Units.parentOf_replaced (hpq : p ≠ q) (y : Pos) : (u.replaced c q p).parentOf y = if y = q then none else
    if u.rightOfD q = some y ∨ u.leftOfD q = some y then some p else if y = p then u.parentOf q else u.parentOf y := by
  simp only [Units.replaced, Units.parentOf_detach, Units.parentOf_setParentOf, Units.parentOf_relink,
    Units.parentOf_takePlace, if_neg hpq.symm, Option.some.injEq, eq_comm (a := p)]
  by_cases hy : y = p <;> simp [hy, ite_or]

theorem Units.isMember_replaced (y : Pos) :
    (u.replaced c q p).isMember y = if y = q then false else if y = p then true else u.isMember y := by
  simp [Units.replaced]

/-- The forest with p in q's place (43_lzss_dictionary.md R301). -/
theorem Units.Forest.replaced (hf : u.Forest tree) (hq : q ∈ (tree c).inorder) (hp : ¬ inForest tree p) {l r : DTree}
    (hat : u.NodeAt tree c q l r) : (u.replaced c q p).Forest (exchangeIn tree q (.node l p r)) := by
  obtain ⟨hpl, hpq, hpr⟩ := hat.ne_of_not_inForest hp
  obtain ⟨hnl, hnr, hne⟩ := List.nodup_append.mp hat.nodup
  obtain ⟨hqr, hnr⟩ := List.nodup_cons.mp hnr
  have hl := hat.left
  have hr := hat.right
  have hinner : ∀ y, y ∈ l.inorder ∨ y ∈ r.inorder → y ≠ q ∧ y ≠ p ∧ ¬ outerNode tree q y := by
    refine fun y hy => ⟨?_, ?_, (hat.mem_tree_of_child hy).2⟩
    · rcases hy with hy | hy
      · exact hne y hy q List.mem_cons_self
      · exact fun e => hqr (e ▸ hy)
    · rcases hy with hy | hy
      · exact fun e => hpl (e ▸ hy)
      · exact fun e => hpr (e ▸ hy)
  have hpo : ¬ outerNode tree q p := fun h => hp h.inForest
  have hchild : ∀ y, ¬ outerNode tree q y → u.parentOf q ≠ some y := fun y hy h => hy (hf.child_of_parent hq h).1
  have hroot : ∀ y, u.leftOfD q = some y → y ∈ l.inorder := fun y e => Units.spells_root_mem (e ▸ hl)
  have hroot' : ∀ y, u.rightOfD q = some y → y ∈ r.inorder := fun y e => Units.spells_root_mem (e ▸ hr)
  have hpch : ¬ (u.rightOfD q = some p ∨ u.leftOfD q = some p) := fun h =>
    h.elim (fun h => hpr (hroot' p h)) fun h => hpl (hroot p h)
  -- a subtree of q hangs from p now
  have hsub : ∀ {ch : Link} {t : DTree}, u.spells (some q) ch t = true → t.inorder.Nodup →
      (∀ y ∈ t.inorder, y ∈ l.inorder ∨ y ∈ r.inorder) → (∀ a, ch = some a → u.rightOfD q = some a ∨ u.leftOfD q = some a) →
      (∀ y ∈ t.inorder, ch ≠ some y → ¬ (u.rightOfD q = some y ∨ u.leftOfD q = some y)) →
      (u.replaced c q p).spells (some p) ch t = true := by
    intro ch t hsp hn hm hch hno
    refine Units.spells_adopted hsp hn (fun a ha => ?_) (fun y hy hne => ?_) fun y hy => ?_
    · obtain ⟨h1, -⟩ := hinner a (hm a (by subst ha; exact Units.spells_root_mem hsp))
      rw [Units.parentOf_replaced hpq, if_neg h1, if_pos (hch a ha)]
    · obtain ⟨h1, h2, -⟩ := hinner y (hm y hy)
      rw [Units.parentOf_replaced hpq, if_neg h1, if_neg (hno y hy hne), if_neg h2]
    · obtain ⟨h1, h2, h3⟩ := hinner y (hm y hy)
      obtain ⟨e1, e2⟩ := Units.children_replaced (c := c) hpq (hchild y h3)
      simp [e1, e2, h1, h2]
  refine hf.exchange hq (new := some p) ((hf.redirected_after hq (w := u.takePlace q p)
    (fun n hn => Option.some.inj hn ▸ hpo) ⟨fun _ => rfl, by simp [hpq.symm], fun y hy => ?_⟩).congr
    (fun e => by simp [Units.replaced]) fun y hy => ?_) ?_ ?_ fun y hy => ?_
  · have : y ≠ p := fun e => hpo (e ▸ hy)
    simp [this]
  · have h1 : y ≠ q := fun e => hat.apart q (by simp) (e ▸ hy)
    have h2 : u.leftOfD q ≠ some y := fun e => (hinner y (.inl (hroot y e))).2.2 hy
    have h3 : u.rightOfD q ≠ some y := fun e => (hinner y (.inr (hroot' y e))).2.2 hy
    simp [Units.replaced, h1, h2, h3]
  · obtain ⟨e1, e2⟩ := Units.children_replaced (c := c) hpq (hchild p hpo)
    rw [if_neg hpq, if_pos rfl] at e1 e2
    refine (Units.spells_node_iff _ _ _ _).mpr ⟨l, r, rfl, ?_, ?_, ?_⟩
    · rw [Units.parentOf_replaced hpq, if_neg hpq, if_neg hpch, if_pos rfl]
    · rw [e1]
      refine hsub hl hnl (fun y => .inl) (fun a => .inr) fun y hy hne' h => ?_
      exact h.elim (fun h => hne y hy y (List.mem_cons_of_mem _ (hroot' y h)) rfl) hne'
    · rw [e2]
      refine hsub hr hnr (fun y => .inr) (fun a => .inl) fun y hy hne' h => ?_
      exact h.elim hne' fun h => hne y (hroot y h) y (List.mem_cons_of_mem _ hy) rfl
  · refine List.nodup_append.mpr ⟨hnl, List.nodup_cons.mpr ⟨hpr, hnr⟩, fun a ha b hb => ?_⟩
    rcases List.mem_cons.mp hb with rfl | hb
    · exact fun e => hpl (e ▸ ha)
    · exact hne a ha b (List.mem_cons_of_mem _ hb)
  · rcases List.mem_append.mp hy with hy | hy
    · exact (hinner y (.inl hy)).2.2
    · rcases List.mem_cons.mp hy with rfl | hy
      · exact hpo
      · exact (hinner y (.inr hy)).2.2

/-- The dictionary with p in q's place (43_lzss_dictionary.md R301). -/
theorem Units.Dict.replaced (hd : u.Dict tree) (hq : q ∈ (tree c).inorder) (hp : ¬ inForest tree p)
    (hb : Memory.get u.window p.toNat = some c) : u.With (u.replaced c q p) p := by
  have hf := hd.forest
  obtain ⟨l, r, hat⟩ := hf.nodeAt hq
  obtain ⟨-, hpq, -⟩ := hat.ne_of_not_inForest hp
  -- the nodes are the old ones but q, and p
  have hmem : ∀ e y, y ∈ (exchangeIn tree q (.node l p r) e).inorder ↔
      (e = c ∧ y = p) ∨ (y ∈ (tree e).inorder ∧ y ≠ q) := by
    intro e y
    by_cases hyp : y = p
    · subst hyp
      have hno : y ∉ (exchangeIn tree q .nil e).inorder := fun h => hp (outerNode.inForest ⟨e, h⟩)
      have hno' : y ∉ (tree e).inorder := fun h => hp ⟨e, h⟩
      rw [hat.mem_exchange]
      simp [hno, hno', DTree.inorder]
    · rw [hat.mem_removed (by simp [DTree.inorder, hyp])]
      simp [hyp]
  refine hd.with hb (hf.replaced hq hp hat) (by simp [Units.replaced]) (fun e y hy => ?_) (fun y => ?_) fun y hy => ?_
  · rcases (hmem e y).mp hy with h | ⟨h, -⟩
    · exact .inr h
    · exact .inl h
  · rw [Units.isMember_replaced]
    have := hd.members y
    simp only [inForest, hmem] at this ⊢
    by_cases hyp : y = p
    · subst hyp
      simp [hpq]
    · by_cases hyq : y = q <;> simp [hyp, hyq, hpq.symm, this]
  · by_cases hyq : y = q
    · subst hyq
      rw [Units.parentOf_replaced hpq, if_pos rfl]
      simp [Units.replaced]
    · have hyp : y ≠ p := fun e => hy ⟨c, (hmem c y).mpr (.inl ⟨rfl, e⟩)⟩
      have hyn : ¬ inForest tree y := fun ⟨e, h⟩ => hy ⟨e, (hmem e y).mpr (.inr ⟨h, hyq⟩)⟩
      have hqin : inForest tree q := ⟨c, hq⟩
      obtain ⟨e1, e2⟩ := Units.children_replaced (c := c) hpq fun h => hyn (hf.parent_inForest hqin h)
      have hch : ¬ (u.rightOfD q = some y ∨ u.leftOfD q = some y) := fun h => hyn (hf.child_inForest hqin h.symm)
      obtain ⟨h1, h2, h3⟩ := hd.bare y (hd.not_member hyn)
      rw [e1, e2, Units.parentOf_replaced hpq]
      simp [hyq, hyp, hch, h1, h2, h3]

/-! ## A new leaf -/

/-- The dictionary with p as a new leaf below q: the tables, but for the side of q it hangs from. -/
structure Units.LeafAt (u v : Units) (p q : Pos) : Prop where
  window : v.window = u.window
  member : ∀ y, v.isMember y = if y = p then true else u.isMember y
  roots : ∀ e, v.rootOf e = u.rootOf e
  parent : ∀ y, v.parentOf y = if y = p then some q else u.parentOf y
  links : ∀ y, y ≠ q → v.leftOfD y = u.leftOfD y ∧ v.rightOfD y = u.rightOfD y

theorem Units.leafAt_insertLeft (u : Units) (p q : Pos) : u.LeafAt (u.insertLeft p q) p q :=
  ⟨rfl, by simp, fun _ => rfl, by simp, fun y hy => by simp [hy]⟩

theorem Units.leafAt_insertRight (u : Units) (p q : Pos) : u.LeafAt (u.insertRight p q) p q :=
  ⟨rfl, by simp, fun _ => rfl, by simp, fun y hy => by simp [hy]⟩

/-- A subtree of q without p is spelled as before a leaf p was hung below q. -/
theorem Units.LeafAt.spells (h : u.LeafAt v p q) {par link : Link} {t : DTree} (hs : u.spells par link t = true)
    (hp : p ∉ t.inorder) (hq : q ∉ t.inorder) : v.spells par link t = true := by
  rw [Units.spells_congr par link t fun y hy => ?_]
  · exact hs
  · have h1 : y ≠ p := fun e => hp (e ▸ hy)
    exact ⟨by rw [h.parent, if_neg h1], h.links y fun e => hq (e ▸ hy)⟩

/-- A bare position is spelled as a leaf once it hangs below q. -/
theorem Units.LeafAt.spells_leaf (h : u.LeafAt v p q) (hpq : p ≠ q) (hl : u.leftOfD p = none) (hr : u.rightOfD p = none) :
    v.spells (some q) (some p) (.node .nil p .nil) = true := by
  obtain ⟨h1, h2⟩ := h.links p hpq
  exact (Units.spells_node_iff _ _ _ _).mpr ⟨.nil, .nil, rfl, by rw [h.parent, if_pos rfl], by rw [h1, hl]; rfl,
    by rw [h2, hr]; rfl⟩

/-- The dictionary with p as a new leaf below q (43_lzss_dictionary.md R302). -/
theorem Units.Dict.leaf (hd : u.Dict tree) (hq : q ∈ (tree c).inorder) (hp : ¬ inForest tree p)
    (hb : Memory.get u.window p.toNat = some c) (hv : u.LeafAt v p q) {l r l' r' : DTree} (hat : u.NodeAt tree c q l r)
    (hl : v.spells (some q) (v.leftOfD q) l' = true) (hr : v.spells (some q) (v.rightOfD q) r' = true)
    (hperm : (DTree.node l' q r').inorder.Perm (p :: (l.inorder ++ q :: r.inorder))) : u.With v p := by
  have hf := hd.forest
  obtain ⟨hpl, hpq, hpr⟩ := hat.ne_of_not_inForest hp
  have hpo : ¬ outerNode tree q p := fun h => hp h.inForest
  have hpsub : p ∉ l.inorder ++ q :: r.inorder := by simp [hpl, hpq, hpr]
  have hin : ∀ y, y ∈ (DTree.node l' q r').inorder ↔ y = p ∨ y ∈ l.inorder ++ q :: r.inorder := fun y => by
    rw [hperm.mem_iff, List.mem_cons]
  have hforest : v.Forest (exchangeIn tree q (.node l' q r')) := by
    refine hf.exchange hq (new := some q) ⟨fun e => ?_, fun y hy => ?_⟩ ?_ ?_ fun y hy => ?_
    · rw [hv.roots, Link.redirect_self]
    · have h1 : y ≠ p := fun e => hpo (e ▸ hy)
      obtain ⟨h2, h3⟩ := hv.links y fun e => hat.apart q (by simp) (e ▸ hy)
      rw [Link.redirect_self, Link.redirect_self, hv.parent, if_neg h1]
      exact ⟨rfl, h2, h3⟩
    · exact (Units.spells_node_iff _ _ _ _).mpr ⟨l', r', rfl, by rw [hv.parent, if_neg hpq.symm], hl, hr⟩
    · exact hperm.nodup_iff.mpr (List.nodup_cons.mpr ⟨hpsub, hat.nodup⟩)
    · rcases (hin y).mp hy with rfl | h
      · exact hpo
      · exact hat.apart y h
  have hmem : ∀ e y, y ∈ (exchangeIn tree q (.node l' q r') e).inorder ↔ (e = c ∧ y = p) ∨ y ∈ (tree e).inorder := by
    intro e y
    rw [hat.mem_exchange, hin, hat.mem_tree e y]
    tauto
  refine hd.with hb hforest hv.window (fun e y hy => ((hmem e y).mp hy).symm) (fun y => ?_) fun y hy => ?_
  · have := hd.members y
    rw [hv.member]
    simp only [inForest, hmem] at this ⊢
    by_cases hyp : y = p <;> simp [hyp, this]
  · have hyp : y ≠ p := fun e => hy ⟨c, (hmem c y).mpr (.inl ⟨rfl, e⟩)⟩
    have hyn : ¬ inForest tree y := fun ⟨e, h⟩ => hy ⟨e, (hmem e y).mpr (.inr h)⟩
    obtain ⟨h1, h2⟩ := hv.links y fun e => hyn (e ▸ ⟨c, hq⟩)
    rw [hv.parent, if_neg hyp, h1, h2]
    exact hd.bare y (hd.not_member hyn)

/-- The dictionary with p as q's left child (43_lzss_dictionary.md R302). -/
theorem Units.Dict.insertLeft (hd : u.Dict tree) (hq : q ∈ (tree c).inorder) (hp : ¬ inForest tree p)
    (hb : Memory.get u.window p.toNat = some c) (hl : u.leftOfD q = none) : u.With (u.insertLeft p q) p := by
  obtain ⟨l, r, hat⟩ := hd.forest.nodeAt hq
  obtain ⟨-, hpq, hpr⟩ := hat.ne_of_not_inForest hp
  obtain ⟨-, h1, h2⟩ := hd.bare p (hd.not_member hp)
  have hv := u.leafAt_insertLeft p q
  have hnil := hat.left
  rw [hl] at hnil
  obtain rfl := (Units.spells_nil_iff _ _ _).mp hnil
  have hqr : q ∉ r.inorder := (List.nodup_cons.mp hat.nodup).1
  refine hd.leaf hq hp hb hv hat (l' := .node .nil p .nil) (r' := r) ?_ ?_ (.refl _)
  · rw [Units.leftOfD_insertLeft, if_pos rfl]
    exact hv.spells_leaf hpq h1 h2
  · exact hv.spells hat.right hpr hqr

/-- The dictionary with p as q's right child (43_lzss_dictionary.md R302). -/
theorem Units.Dict.insertRight (hd : u.Dict tree) (hq : q ∈ (tree c).inorder) (hp : ¬ inForest tree p)
    (hb : Memory.get u.window p.toNat = some c) (hr : u.rightOfD q = none) : u.With (u.insertRight p q) p := by
  obtain ⟨l, r, hat⟩ := hd.forest.nodeAt hq
  obtain ⟨hpl, hpq, -⟩ := hat.ne_of_not_inForest hp
  obtain ⟨-, h1, h2⟩ := hd.bare p (hd.not_member hp)
  have hv := u.leafAt_insertRight p q
  have hnil := hat.right
  rw [hr] at hnil
  obtain rfl := (Units.spells_nil_iff _ _ _).mp hnil
  have hql : q ∉ l.inorder := fun h => (List.nodup_append.mp hat.nodup).2.2 q h q List.mem_cons_self rfl
  refine hd.leaf hq hp hb hv hat (l' := l) (r' := .node .nil p .nil) ?_ ?_ ?_
  · exact hv.spells hat.left hpl hql
  · rw [Units.rightOfD_insertRight, if_pos rfl]
    exact hv.spells_leaf hpq h1 h2
  · simpa [DTree.inorder] using List.perm_append_singleton p (l.inorder ++ [q])

/-- The dictionary with p as the only node of its tree (43_lzss_dictionary.md R300). -/
theorem Units.Dict.setRoot (hd : u.Dict tree) (hp : ¬ inForest tree p) (hb : Memory.get u.window p.toNat = some c)
    (hr : u.rootOf c = none) : u.With ((u.setRoot c (some p)).setMember p true) p := by
  have hf := hd.forest
  obtain ⟨h1, h2, h3⟩ := hd.bare p (hd.not_member hp)
  have hnil : tree c = .nil := (u.spells_nil_iff none _).mp (hr ▸ hf.spelled c)
  have hc : Function.update tree c (.node .nil p .nil) c = .node .nil p .nil := Function.update_self ..
  have hother : ∀ e, e ≠ c → Function.update tree c (.node .nil p .nil) e = tree e := fun e he =>
    Function.update_of_ne he ..
  have hmem : ∀ e y, y ∈ (Function.update tree c (.node .nil p .nil) e).inorder ↔
      (e = c ∧ y = p) ∨ y ∈ (tree e).inorder := fun e y => by
    by_cases he : e = c
    · subst he
      rw [hc, hnil]
      simp [DTree.inorder]
    · rw [hother e he]
      simp [he]
  refine hd.with (tree' := Function.update tree c (.node .nil p .nil)) hb ⟨fun e => ?_, fun e => ?_, fun e d y he hd' => ?_⟩
    rfl (fun e y hy => ((hmem e y).mp hy).symm) (fun y => ?_) fun y hy => ?_
  · rw [Units.rootOf_setMember, Units.rootOf_setRoot]
    by_cases he : e = c
    · subst he
      rw [hc, if_pos rfl]
      exact (Units.spells_node_iff _ _ _ _).mpr ⟨.nil, .nil, rfl, h1, h2 ▸ rfl, h3 ▸ rfl⟩
    · rw [hother e he, if_neg he]
      exact (Units.spells_congr (u := u) (v := (u.setRoot c (some p)).setMember p true) _ _ _
        fun y _ => ⟨rfl, rfl, rfl⟩).trans (hf.spelled e)
  · by_cases he : e = c
    · subst he
      rw [hc]
      simp [DTree.inorder]
    · rw [hother e he]
      exact hf.nodup e
  · rcases (hmem e y).mp he with ⟨rfl, rfl⟩ | he'
    · exact ((hmem d y).mp hd').elim (fun h => h.1.symm) fun h => (hp ⟨d, h⟩).elim
    · rcases (hmem d y).mp hd' with ⟨-, rfl⟩ | hd''
      · exact (hp ⟨e, he'⟩).elim
      · exact hf.apart e d y he' hd''
  · have := hd.members y
    rw [Units.isMember_setMember, Units.isMember_setRoot]
    simp only [inForest, hmem] at this ⊢
    by_cases hyp : y = p <;> simp [hyp, this]
  · exact hd.bare y (hd.not_member fun ⟨e, h⟩ => hy ⟨e, (hmem e y).mpr (.inr h)⟩)

end

end Sys2Proof.Machine
end

section
/-! SUPPORT. MatchAdd as an operation, and the dictionary invariant under window writes. -/

namespace Sys2Proof.Machine

/-- A proposition of the precondition as a hypothesis. -/
theorem Op.Runs.assume {α : Type} {P : Prop} {I : State → Prop} {Q : α → State → Prop} {x : Op α}
    (h : P → Op.Runs I x Q) : Op.Runs (fun s => I s ∧ P) x Q := fun s hs => h hs.2 s hs.1

/-- A window read changes nothing and gives the byte written. -/
theorem runs_winRd (k : Nat) (s : State) :
    Op.Runs (· = s) (winRd k) fun b t => t = s ∧ Memory.get s.u.window k = some b := .intro fun t ht => by
  subst ht
  rcases winRd_cases k t with ⟨b, hb, h⟩ | ⟨-, h⟩
  · exact .inl ⟨_, _, h, rfl, hb⟩
  · exact .inr ⟨_, _, h⟩

/-- Common changes nothing. -/
theorem runs_common (p q : Pos) (len : Nat) (s : State) : Op.Runs (· = s) (common p q len) fun _ t => t = s := by
  have key : ∀ more k, Op.Runs (· = s) (commonFrom p q more k) fun _ t => t = s := by
    intro more
    induction more with
    | zero => exact fun k => .pure fun _ h => h
    | succ more ih =>
      intro k
      refine (runs_winRd _ s).bind fun a => .assume fun _ => (runs_winRd _ s).bind fun b => .assume fun _ => ?_
      exact .ite (fun _ => ih _) fun _ => .pure fun _ h => h
  exact key len 0

section
variable {s : State} {tree : Byte → DTree} {c : Byte} {p : Pos}

/-- The walk of MatchAdd down a tree ends with p in the dictionary, within as many nodes as the tree has
(43_lzss_dictionary.md R300 to R302, 70_reset_and_hazards.md R432). -/
theorem runs_matchWalk (hd : s.u.Dict tree) (hp : ¬ inForest tree p) (hb : Memory.get s.u.window p.toNat = some c)
    (len fuel : Nat) {q : Pos} {par : Link} {t : DTree} (best : Link × Nat) (ht : s.u.spells par (some q) t = true)
    (hin : ∀ y ∈ t.inorder, y ∈ (tree c).inorder) (hf : t.inorder.length ≤ fuel) :
    Op.Runs (· = s) (matchWalk p len fuel q best) fun _ v => s.u.With v.u p := by
  induction fuel generalizing q par t best with
  | zero =>
    have := List.length_pos_of_mem (Units.spells_root_mem ht)
    omega
  | succ fuel ih =>
    have hq : q ∈ (tree c).inorder := hin q (Units.spells_root_mem ht)
    obtain ⟨l, r, rfl, -, hl, hr⟩ := (Units.spells_node_iff _ _ _ _).mp ht
    simp only [DTree.inorder, List.mem_append, List.mem_cons, List.length_append, List.length_cons] at hin hf
    refine (runs_common p q len s).bind fun k => .ite (fun _ => ?_) fun _ => ?_
    · have hrep : Op.Runs (· = s) (replaceNode q p) fun _ v => s.u.With v.u p := .intro fun v hv => by
        subst hv
        exact .inl ⟨_, _, replaceNode_ok hd hq hp, hd.replaced hq hp hb⟩
      exact hrep.bind fun _ => .pure fun _ h => h
    · refine (runs_winRd _ s).bind fun a => .assume fun _ => (runs_winRd _ s).bind fun b => .assume fun _ =>
        .withUnits fun u => ?_
      have hsu : ∀ {β : Type} {x : Op β} {Q : β → State → Prop}, (u = s.u → Op.Runs (· = s) x Q) →
          Op.Runs (fun v => v = s ∧ v.u = u) x Q := fun h v ⟨h1, h2⟩ => h (by rw [← h2, h1]) v h1
      refine .ite (fun _ => hsu fun hu => ?_) fun _ => hsu fun hu => ?_
      · subst hu
        cases hql : s.u.leftOfD q with
        | none =>
          exact (Op.Runs.setUnits fun v hv => hv ▸ hd.insertLeft hq hp hb hql).bind fun _ => .pure fun _ h => h
        | some x =>
          exact ih _ (hql ▸ hl) (fun y hy => hin y (.inl hy)) (by omega)
      · subst hu
        cases hqr : s.u.rightOfD q with
        | none =>
          exact (Op.Runs.setUnits fun v hv => hv ▸ hd.insertRight hq hp hb hqr).bind fun _ => .pure fun _ h => h
        | some x =>
          exact ih _ (hqr ▸ hr) (fun y hy => hin y (.inr (.inr hy))) (by omega)

/-- MatchAdd of a non-member ends with it in the dictionary (43_lzss_dictionary.md R300). -/
theorem runs_matchAdd (len : Nat) (hd : s.u.dictOk) (hp : s.u.isMember p = false) :
    Op.Runs (· = s) (matchAdd p len) fun _ v => s.u.With v.u p := by
  obtain ⟨tree, hd⟩ := Units.dictOk_iff.mp hd
  have hpf := hd.not_inForest hp
  refine (runs_winRd _ s).bind fun c => .assume fun hb => ?_
  intro v hv
  subst hv
  rw [Op.units_bind]
  have hroot := hd.forest.spelled c
  cases hr : v.u.rootOf c with
  | none => exact hd.setRoot hpf hb hr
  | some q =>
    rw [hr] at hroot
    exact runs_matchWalk hd hpf hb len Config.W _ hroot (fun _ => id) (DTree.length_inorder_le (hd.forest.nodup c)) v rfl

end

/-! ## The invariant under other writes -/

/-- The groups the dictionary invariant reads. -/
def dictionaryGroups : List Group := [.window, .dictionary]

/-- u and v have the same window and dictionary tables. -/
def Units.SameDictionary (u v : Units) : Prop :=
  v.window = u.window ∧ v.roots = u.roots ∧ v.parent = u.parent ∧ v.leftD = u.leftD ∧ v.rightD = u.rightD ∧
    v.member = u.member

theorem Units.dictOk.congr {u v : Units} (h : u.dictOk) (hv : u.SameDictionary v) : v.dictOk := by
  obtain ⟨h1, h2, h3, h4, h5, h6⟩ := hv
  obtain ⟨tree, hd⟩ := Units.dictOk_iff.mp h
  have hroot : ∀ c, v.rootOf c = u.rootOf c := fun c => by unfold Units.rootOf; rw [h2]
  have hlinks : ∀ p, v.parentOf p = u.parentOf p ∧ v.leftOfD p = u.leftOfD p ∧ v.rightOfD p = u.rightOfD p := fun p => by
    unfold Units.parentOf Units.leftOfD Units.rightOfD
    rw [h3, h4, h5]
    exact ⟨rfl, rfl, rfl⟩
  have hmem : ∀ p, v.isMember p = u.isMember p := fun p => by unfold Units.isMember; rw [h6]
  refine Units.dictOk_iff.mpr ⟨tree, hd.forest.congr hroot fun p _ => hlinks p, fun c p hp => ?_, fun p => ?_, fun p hp => ?_⟩
  · rw [h1]
    exact hd.bytes c p hp
  · rw [hmem]
    exact hd.members p
  · obtain ⟨e1, e2, e3⟩ := hlinks p
    rw [e1, e2, e3]
    exact hd.bare p (hmem p ▸ hp)

/-- A byte written to a slot that is no member keeps the invariant (43_lzss_dictionary.md R281). -/
theorem Units.dictOk.winWr {u : Units} (h : u.dictOk) (P : Config.Params) {k : Pos} (b : Byte) (hk : u.isMember k = false) :
    (u.winWr P k b).dictOk := by
  obtain ⟨tree, hd⟩ := Units.dictOk_iff.mp h
  refine Units.dictOk_iff.mpr ⟨tree, hd.forest.congr (fun _ => rfl) fun _ _ => ⟨rfl, rfl, rfl⟩, fun c p hp => ?_,
    fun p => hd.members p, fun p hp => hd.bare p hp⟩
  have hne : p.toNat ≠ k.toNat := fun e => hd.not_inForest hk ⟨c, pos_toNat_eq.mp e ▸ hp⟩
  have hlt := Pos.lt p
  rw [Units.get_winWr, if_neg (by simp only [Config.W]; omega)]
  exact hd.bytes c p hp

end Sys2Proof.Machine
end

section
/-! SUPPORT. The dictionary invariant through the LZSS coder, which never stops the model. -/

namespace Sys2Proof.Machine

theorem reads_dictOk : State.Reads dictionaryGroups fun s => s.u.dictOk := fun _ _ h hs =>
  let ⟨h2, h3, h4, h5, h6⟩ := h .dictionary (by decide)
  hs.congr ⟨h .window (by decide), h2, h3, h4, h5, h6⟩

theorem Units.dictOk_dictClear (u : Units) : u.dictClear.dictOk :=
  Units.dictOk_of_empty (by simp) (by simp) (by simp) (by simp) (by simp)

/-! ## Window writes -/

/-- WinPut keeps the dictionary invariant (43_lzss_dictionary.md R281). -/
theorem runs_winPut (k : Pos) (b : Byte) : Op.Runs (fun s => s.u.dictOk) (winPut k b) fun _ t => t.u.dictOk :=
  .withUnits fun _ => .ite (fun _ => .raise) fun hk => .withParams fun P => .setUnits fun _ ⟨⟨hs, hu⟩, _⟩ =>
    hs.winWr P b (Bool.eq_false_iff.mpr (hu ▸ hk))

/-- One output byte keeps the dictionary invariant (44_lzss_coder.md R351). -/
theorem runs_outputByte (b : Byte) : Op.Runs (fun s => s.u.dictOk) (outputByte b) fun _ t => t.u.dictOk :=
  ((safe_sinkWrite b).keep (writes_sinkWrite b) reads_dictOk (by decide)).bind fun _ => .withUnits fun u =>
    ((runs_winPut u.dcur b).pre fun _ h => h.1).bind fun _ => .setUnits fun _ hs =>
      hs.congr ⟨rfl, rfl, rfl, rfl, rfl, rfl⟩

theorem runs_copyLoop (n : Nat) (p : Pos) : Op.Runs (fun s => s.u.dictOk) (copyLoop n p) fun _ t => t.u.dictOk := by
  induction n generalizing p with
  | zero => exact .pure fun _ h => h
  | succ n ih =>
    exact ((safe_winRd _).keep (writes_winRd _) reads_dictOk (by decide)).bind fun b =>
      (runs_outputByte b).bind fun _ => ih _

/-- A token carried out keeps the dictionary invariant (44_lzss_coder.md R351). -/
theorem runs_doToken (t : LzToken) : Op.Runs (fun s => s.u.dictOk) (doToken t) fun _ v => v.u.dictOk := by
  have hend : Op.Runs (fun s => s.u.dictOk) (do doEnd; Pure.pure (2, 0) : Op (Nat × Nat)) fun _ v => v.u.dictOk :=
    Op.Runs.bind (Q := fun _ v => v.u.dictOk) (.setUnits fun _ hs => hs.congr ⟨rfl, rfl, rfl, rfl, rfl, rfl⟩)
      fun _ => .pure fun _ h => h
  refine .withUnits fun u => .withParams fun P => Op.Runs.pre ?_ fun _ h => h.1.1
  cases t with
  | literal b => exact (runs_outputByte b).bind fun _ => .pure fun _ h => h
  | reference p e => exact .ite (fun _ => hend) fun _ => (runs_copyLoop _ _).bind fun _ => .pure fun _ h => h
  | endToken p => exact .ite (fun _ => hend) fun _ => .raise

/-! ## The decoder -/

/-- Every token takes a bit off the stream (30_encoding.md R136). -/
theorem runs_fetchToken (n : Nat) : Op.Runs (fun s => s.bitsLeft ≤ n ∧ s.u.dictOk) fetchToken
    fun _ t => t.bitsLeft + 1 ≤ n ∧ t.u.dictOk := by
  have hneed : ∀ c, Op.Runs (fun s => s.bitsLeft + 1 ≤ n ∧ s.u.dictOk) (need c)
      fun _ t => t.bitsLeft + 1 ≤ n ∧ t.u.dictOk := fun c => by
    cases n with
    | zero => exact .absurd fun _ h => absurd h.1 (by omega)
    | succ n =>
      exact (runs_need_keep c n reads_dictOk (by decide)).imp (fun _ h => ⟨by omega, h.2⟩)
        fun _ _ h => ⟨by omega, h.2⟩
  refine (runs_need_keep 1 n reads_dictOk (by decide)).bind fun f => .ite
    (fun _ => (hneed 8).bind fun b => .pure fun _ h => h)
    fun _ => (hneed _).bind fun p => .withUnits fun u => Op.Runs.pre (.ite (fun _ => .pure fun _ h => h) fun _ =>
      .withParams fun P => ((hneed P.lzN).pre fun _ h => h.1).bind fun e => .pure fun _ h => h) fun _ h => h.1

/-- A decoded token takes a bit off the stream and keeps the dictionary invariant. -/
theorem runs_decodeLzToken (n : Nat) : Op.Runs (fun s => s.bitsLeft ≤ n ∧ s.u.dictOk) decodeLzToken
    fun _ t => t.bitsLeft + 1 ≤ n ∧ t.u.dictOk :=
  (runs_fetchToken n).bind fun t => ((runs_doToken t).keep (writes_doToken t) (reads_bitsLeft fun k => k + 1 ≤ n)
    (by decide)).imp (fun _ h => ⟨h.2, h.1⟩) fun _ _ h => ⟨h.2, h.1⟩

/-- The loop of LDEC.DECODE ends within the bits left (44_lzss_coder.md R352). -/
theorem runs_decodeTokens (fuel n : Nat) : Op.Runs (fun s => s.bitsLeft + 1 ≤ fuel ∧ s.u.dictOk) (decodeTokens fuel n)
    fun _ t => t.u.dictOk := by
  induction fuel generalizing n with
  | zero => exact .absurd fun _ h => absurd h.1 (by omega)
  | succ fuel ih =>
    exact ((runs_decodeLzToken fuel).pre fun _ h => ⟨by omega, h.2⟩).bind fun kc =>
      .ite (fun _ => .pure fun _ h => h.2) fun _ => ih _

theorem Units.dictOk_ldecInit (u : Units) : u.ldecInit.dictOk := Units.dictOk_dictClear _

/-- LDEC.DECODE leaves a legal dictionary (44_lzss_coder.md R352). -/
theorem runs_lzssDecode : Op.Runs (fun _ => True) lzssDecode fun _ t => t.u.dictOk :=
  Op.Runs.bind (Q := fun _ _ => True) safe_streamInit fun _ => Op.Runs.bind (Q := fun _ t => t.u.dictOk)
    (.setUnits fun s _ => s.u.dictOk_ldecInit) fun _ => .withBound fun n =>
    Op.Runs.bind (Q := fun _ t => t.u.dictOk)
      ((runs_decodeTokens n 0).pre fun s (h : s.u.dictOk ∧ s.bitsLeft + 1 = n) => ⟨h.2 ▸ Nat.le_refl _, h.1⟩) fun _ =>
    (safe_setRes0 _).keep (writes_setRes0 _) reads_dictOk (by decide)

/-! ## The encoder -/

/-- A running encoder: the positions of the lookahead from the k-th on are no members, the lookahead is at most M, and
the source and the lookahead together are below a bound (44_lzss_coder.md R340, R341). -/
structure State.Encoding (M k bound : Nat) (s : State) : Prop where
  dictOk : s.u.dictOk
  free : ∀ j, k ≤ j → j < s.u.llook → s.u.isMember (s.u.lcur + BitVec.ofNat 12 j) = false
  look : s.u.llook ≤ M
  bounded : s.slen.toNat - s.ipos.toNat + s.u.llook < bound

/-- The groups a running encoder depends on. -/
def encodingGroups : List Group := [.host, .sourcePos, .window, .dictionary, .encoder]

theorem State.Encoding.congr {M k bound bound' : Nat} {s t : State} (h : s.Encoding M k bound)
    (hd : s.u.SameDictionary t.u) (hcur : t.u.lcur = s.u.lcur) (hlook : t.u.llook = s.u.llook)
    (hb : t.slen.toNat - t.ipos.toNat + s.u.llook < bound') : t.Encoding M k bound' where
  dictOk := h.dictOk.congr hd
  free := fun j h1 h2 => by
    have := h.free j h1 (hlook ▸ h2)
    unfold Units.isMember at this ⊢
    simpa only [hcur, hd.2.2.2.2.2] using this
  look := hlook ▸ h.look
  bounded := hlook ▸ hb

theorem reads_encoding (M k bound : Nat) : State.Reads encodingGroups (State.Encoding M k bound) := by
  intro s t h hs
  obtain ⟨-, -, -, hslen⟩ := h .host (by decide)
  obtain ⟨hcur, hlook, -⟩ := h .encoder (by decide)
  obtain ⟨h2, h3, h4, h5, h6⟩ := h .dictionary (by decide)
  have hipos : t.ipos = s.ipos := h .sourcePos (by decide)
  exact hs.congr ⟨h .window (by decide), h2, h3, h4, h5, h6⟩ hcur hlook (by rw [hslen, hipos]; exact hs.bounded)

section
variable {M : Nat}

/-- The initial fill only widens the lookahead, while the dictionary is empty (44_lzss_coder.md R340). -/
theorem runs_fillLoop (room n : Nat) :
    Op.Runs (fun s => s.u.dictOk ∧ (∀ p, s.u.isMember p = false) ∧ s.u.llook + room ≤ M) (fillLoop room n)
      fun _ t => t.u.dictOk ∧ (∀ p, t.u.isMember p = false) ∧ t.u.llook ≤ M := by
  have hreads : ∀ room, State.Reads [.window, .dictionary, .encoder] fun s =>
      s.u.dictOk ∧ (∀ p, s.u.isMember p = false) ∧ s.u.llook + room ≤ M := by
    intro room s t h ⟨hd, hm, hl⟩
    obtain ⟨h2, h3, h4, h5, h6⟩ := h .dictionary (by decide)
    obtain ⟨-, hlook, -⟩ := h .encoder (by decide)
    refine ⟨hd.congr ⟨h .window (by decide), h2, h3, h4, h5, h6⟩, fun p => ?_, hlook ▸ hl⟩
    unfold Units.isMember at hm ⊢
    rw [h6]
    exact hm p
  induction room generalizing n with
  | zero => exact .pure fun _ h => h
  | succ room ih =>
    refine (safe_srcRead.keep writes_srcRead (hreads _) (by decide)).bind fun r => ?_
    cases r with
    | none =>
      refine Op.Runs.bind (.setUnits fun s ⟨hd, hm, hl⟩ => ?_) fun _ => .pure fun _ h => h
      exact ⟨hd.congr ⟨rfl, rfl, rfl, rfl, rfl, rfl⟩, hm, by show s.u.llook ≤ M; omega⟩
    | some b =>
      refine .withUnits fun u =>
        Op.Runs.bind (Q := fun _ t => t.u.dictOk ∧ (∀ p, t.u.isMember p = false) ∧ t.u.llook + (room + 1) ≤ M)
          (.withParams fun P => .setUnits ?_) fun _ => Op.Runs.bind (.setUnits ?_) fun _ => ih _
      · rintro s ⟨⟨⟨hd, hm, hl⟩, -⟩, -⟩
        exact ⟨hd.winWr _ b (hm _), fun p => hm p, hl⟩
      · rintro s ⟨hd, hm, hl⟩
        exact ⟨hd.congr ⟨rfl, rfl, rfl, rfl, rfl, rfl⟩, hm, by show s.u.llook + 1 + room ≤ M; omega⟩

/-- Two different offsets below W name two different positions. -/
theorem cursor_add_ne {p : Pos} {i j : Nat} (hi : i < Config.W) (hj : j < Config.W) (hij : i ≠ j) :
    p + BitVec.ofNat 12 i ≠ p + BitVec.ofNat 12 j := by
  intro h
  have h' : BitVec.ofNat 12 i = BitVec.ofNat 12 j := by
    have := congrArg (· - p) h
    simpa [BitVec.add_comm p] using this
  have := congrArg BitVec.toNat h'
  simp only [BitVec.toNat_ofNat, Config.W] at this hi hj
  omega

theorem cursor_next (p : Pos) (j : Nat) : p + 1 + BitVec.ofNat 12 j = p + BitVec.ofNat 12 (j + 1) := by
  rw [BitVec.add_assoc, Nat.add_comm j 1, BitVec.ofNat_add]
  rfl

/-- MatchAdd puts the cursor into the dictionary; the rest of the lookahead stays outside (44_lzss_coder.md R340). -/
theorem runs_matchAdd_cursor (hM : M < Config.W) (bound : Nat) (u : Units) :
    Op.Runs (fun s => (s.Encoding M 0 bound ∧ s.u = u) ∧ 0 < u.llook) (matchAdd u.lcur u.llook)
      fun _ t => t.Encoding M 1 bound ∧ 0 < t.u.llook := by
  rintro s ⟨⟨hs, rfl⟩, hpos⟩
  have hfree := hs.free 0 (Nat.le_refl 0) hpos
  rw [show s.u.lcur + BitVec.ofNat 12 0 = s.u.lcur by simp] at hfree
  have hrun := (runs_matchAdd s.u.llook hs.dictOk hfree).keep (writes_matchAdd _ _)
    (K := fun t => t.u.lcur = s.u.lcur ∧ t.u.llook = s.u.llook ∧ t.slen = s.slen ∧ t.ipos = s.ipos)
    (gs := [.encoder, .host, .sourcePos]) (fun a b h ⟨h1, h2, h3, h4⟩ => by
      obtain ⟨e1, e2, -⟩ := h .encoder (by decide)
      obtain ⟨-, -, -, e3⟩ := h .host (by decide)
      have e4 : b.ipos = a.ipos := h .sourcePos (by decide)
      exact ⟨e1.trans h1, e2.trans h2, e3.trans h3, e4.trans h4⟩) (by decide)
  refine hrun.imp (fun t ht => ⟨ht, ht ▸ ⟨rfl, rfl, rfl, rfl⟩⟩) (fun _ t ht => ?_) s rfl
  obtain ⟨hwith, hcur, hlook, hslen, hipos⟩ := ht
  refine ⟨⟨hwith.dictOk, fun j h1 h2 => ?_, hlook ▸ hs.look, by rw [hslen, hipos, hlook]; exact hs.bounded⟩, hlook ▸ hpos⟩
  rw [hlook] at h2
  rw [hcur]
  refine Bool.eq_false_iff.mpr fun hm => ?_
  have hlt : j < Config.W := Nat.lt_of_lt_of_le h2 (Nat.le_of_lt (Nat.lt_of_le_of_lt hs.look hM))
  rcases hwith.member _ hm with he | he
  · refine cursor_add_ne (p := s.u.lcur) (i := j) (j := 0) hlt (by decide) (by omega) ?_
    simpa using he
  · rw [hs.free j (Nat.zero_le j) h2] at he
    cases he

theorem safe_emitLiteral (b : Byte) : Op.Safe (emitLiteral b) := (safe_writeBits _ _ _).bind fun _ => safe_writeBits _ _ _

theorem safe_emitReference (p n : Nat) : Op.Safe (emitReference p n) :=
  .withParams fun _ => (safe_writeBits _ _ _).bind fun _ => (safe_writeBits _ _ _).bind fun _ => safe_writeBits _ _ _

theorem safe_emitSentinel (p : Nat) : Op.Safe (emitSentinel p) :=
  (safe_writeBits _ _ _).bind fun _ => safe_writeBits _ _ _

/-- The use of the match leaves the window, the dictionary and the lookahead alone (44_lzss_coder.md R340). -/
theorem runs_useMatch (k bound : Nat) (m : Link × Nat) :
    Op.Runs (fun s => s.Encoding M k bound ∧ 0 < s.u.llook) (useMatch m) fun _ t => t.Encoding M k bound ∧ 0 < t.u.llook := by
  have hreads : State.Reads (encodingGroups ++ [.encoder]) fun s => s.Encoding M k bound ∧ 0 < s.u.llook :=
    (reads_encoding M k bound).and fun s t h hs => by
      obtain ⟨-, hlook, -⟩ := h .encoder (by decide)
      exact hlook ▸ hs
  have hset : ∀ n : Units → Nat, Op.Runs (fun s => s.Encoding M k bound ∧ 0 < s.u.llook) (setUnits fun u => { u with lskip := n u })
      fun _ t => t.Encoding M k bound ∧ 0 < t.u.llook := fun n =>
    .setUnits fun s hs => ⟨hs.1.congr ⟨rfl, rfl, rfl, rfl, rfl, rfl⟩ rfl rfl hs.1.bounded, hs.2⟩
  refine .withParams fun P => .withUnits fun u => Op.Runs.pre (.ite (fun _ => hset _) fun _ => .ite (fun _ => ?_)
    fun _ => ?_) fun _ h => h.1.1
  · exact ((safe_winRd _).keep (writes_winRd _) hreads (by decide)).bind fun b =>
      (safe_emitLiteral b).keep (writes_emitLiteral b) hreads (by decide)
  · exact Op.Runs.bind ((safe_emitReference _ _).keep (writes_emitReference _ _) hreads (by decide)) fun _ =>
      hset fun _ => m.2 - 1

/-- An input byte leaves the source, or nothing happens to it; the lookahead stays (44_lzss_coder.md R340). -/
theorem runs_nextInput (k bound : Nat) (p : Pos) (n : Nat) :
    Op.Runs (fun s => s.Encoding M k (bound + 1) ∧ s.u.lcur = p ∧ s.u.llook = n) nextInput fun r t =>
      t.Encoding M k (if r.isSome then bound else bound + 1) ∧ t.u.lcur = p ∧ t.u.llook = n := by
  refine .withUnits fun u => .ite (fun _ => .pure fun _ h => h.1) fun _ => ?_
  refine Op.Runs.bind (Q := fun r t => t.Encoding M k (if r.isSome then bound else bound + 1) ∧ t.u.lcur = p ∧ t.u.llook = n)
    (.intro fun s hs => ?_) fun r => ?_
  · obtain ⟨⟨hs, hcur⟩, -⟩ := hs
    rcases srcRead_cases s with h | ⟨-, h⟩ | ⟨hlt, h⟩
    · exact .inr ⟨_, _, h⟩
    · exact .inl ⟨_, _, h, hs.congr ⟨rfl, rfl, rfl, rfl, rfl, rfl⟩ rfl rfl hs.bounded, hcur⟩
    · refine .inl ⟨_, _, h, hs.congr ⟨rfl, rfl, rfl, rfl, rfl, rfl⟩ rfl rfl ?_, hcur⟩
      have h1 : (s.ipos + 1).toNat = s.ipos.toNat + 1 := word_succ_toNat hlt s.slen.isLt
      have hb := hs.bounded
      show s.slen.toNat - (s.ipos + 1).toNat + s.u.llook < bound
      omega
  · cases r with
    | none =>
      exact Op.Runs.bind (Q := fun _ t => t.Encoding M k (bound + 1) ∧ t.u.lcur = p ∧ t.u.llook = n)
        (.setUnits fun s hs => ⟨hs.1.congr ⟨rfl, rfl, rfl, rfl, rfl, rfl⟩ rfl rfl hs.1.bounded, hs.2⟩)
        fun _ => .pure fun _ h => h
    | some b => exact .pure fun _ h => h

/-- The slot ahead of the lookahead leaves the dictionary and takes the new byte (44_lzss_coder.md R340). -/
theorem State.Encoding.refill {bound : Nat} {s : State} {v : Units} (h : s.Encoding M 1 bound) (b : Byte)
    (hv : s.u.Without v (s.u.lcur + BitVec.ofNat 12 s.u.llook)) (hcur : v.lcur = s.u.lcur) (hlook : v.llook = s.u.llook)
    (P : Config.Params) : State.Encoding M 0 bound { s with
      u := { v.winWr P (s.u.lcur + BitVec.ofNat 12 s.u.llook) b with lcur := v.lcur + 1 } } where
  dictOk := (hv.dictOk.winWr P b (by rw [hv.member, if_pos rfl])).congr ⟨rfl, rfl, rfl, rfl, rfl, rfl⟩
  free := fun j _ h2 => by
    have h2 : j < v.llook := h2
    show v.isMember (v.lcur + 1 + BitVec.ofNat 12 j) = false
    rw [cursor_next, hcur, hv.member]
    split
    · rfl
    · next hne =>
      refine h.free (j + 1) (by omega) (Nat.lt_of_le_of_ne (by omega) fun e => hne ?_)
      rw [e]
  look := hlook ▸ h.look
  bounded := hlook ▸ h.bounded

/-- Without a new byte the lookahead gets shorter (44_lzss_coder.md R340). -/
theorem State.Encoding.shorten {bound : Nat} {s : State} (h : s.Encoding M 1 (bound + 1)) (hpos : 0 < s.u.llook) :
    State.Encoding M 0 bound { s with u := { s.u with llook := s.u.llook - 1, lcur := s.u.lcur + 1 } } where
  dictOk := h.dictOk.congr ⟨rfl, rfl, rfl, rfl, rfl, rfl⟩
  free := fun j _ h2 => by
    have h2 : j < s.u.llook - 1 := h2
    show s.u.isMember (s.u.lcur + 1 + BitVec.ofNat 12 j) = false
    rw [cursor_next]
    exact h.free (j + 1) (by omega) (by omega)
  look := Nat.le_trans (Nat.sub_le _ _) h.look
  bounded := by
    have := h.bounded
    show s.slen.toNat - s.ipos.toNat + (s.u.llook - 1) < bound
    omega

/-- Remove leaves the encoder's registers alone. -/
theorem removeNode_encoder {s : State} {p : Pos} {v : Units} (h : removeNode p s = .ok () { s with u := v }) :
    v.lcur = s.u.lcur ∧ v.llook = s.u.llook := by
  have hw := writes_removeNode p s .encoder (by decide)
  rw [h] at hw
  exact ⟨hw.1, hw.2.1⟩

/-- The slide of the window frees the slot ahead of the lookahead, or shortens the lookahead (44_lzss_coder.md R340). -/
theorem runs_slideWindow (bound n : Nat) :
    Op.Runs (fun s => s.Encoding M 1 (bound + 1) ∧ 0 < s.u.llook) (slideWindow n) fun _ t => t.Encoding M 0 bound := by
  rintro s ⟨hs, hpos⟩
  refine Op.Runs.bind (runs_nextInput 1 bound s.u.lcur s.u.llook) (fun r => ?_) s ⟨hs, rfl, rfl⟩
  rintro t ⟨ht, hcur, hlook⟩
  rw [← hcur, ← hlook]
  cases r with
  | none => exact ht.shorten (hlook ▸ hpos)
  | some b =>
    obtain ⟨v, hrun, hv⟩ := removeNode_ok (t.u.lcur + BitVec.ofNat 12 t.u.llook) ht.dictOk
    obtain ⟨h1, h2⟩ := removeNode_encoder hrun
    dsimp only
    rw [Op.bind_ok hrun]
    exact ht.refill b hv h1 h2 t.params

/-- The encode loop ends within the source bytes and the lookahead (44_lzss_coder.md R340). -/
theorem runs_encodeLoop (hM : M < Config.W) (fuel n : Nat) :
    Op.Runs (fun s => s.Encoding M 0 fuel) (encodeLoop fuel n) fun _ t => t.u.dictOk := by
  induction fuel generalizing n with
  | zero => exact .absurd fun s h => absurd h.bounded (by omega)
  | succ fuel ih =>
    refine .withUnits fun u => .ite (fun hpos => ?_) fun _ => .pure fun _ h => h.1.dictOk
    exact Op.Runs.bind ((runs_matchAdd_cursor hM (fuel + 1) u).pre fun _ h => ⟨h, hpos⟩) fun m =>
      (runs_useMatch 1 (fuel + 1) m).bind fun _ => (runs_slideWindow fuel n).bind fun n' => ih n'

end

/-- LENC.ENCODE leaves a legal dictionary (44_lzss_coder.md R340, R341). -/
theorem runs_lzssEncode : Op.Runs (fun s => s.params.wf) lzssEncode fun _ t => t.u.dictOk := by
  refine Op.Runs.bind (Q := fun _ t => t.params.wf) (fun s hs => hs) fun _ =>
    Op.Runs.bind (Q := fun _ t => t.params.wf ∧ t.u.dictOk ∧ (∀ p, t.u.isMember p = false) ∧ t.u.llook = 0 ∧ t.u.lcur = 0)
      (.setUnits fun s hs => ⟨hs, (Units.dictOk_dictClear { s.u with window := [] }).congr ⟨rfl, rfl, rfl, rfl, rfl, rfl⟩,
        fun p => Units.isMember_dictClear p s.u, rfl, rfl⟩) fun _ => ?_
  rintro s ⟨hwf, hd, hm, hlook, hcur⟩
  refine Op.Runs.bind ((runs_fillLoop (M := s.params.maxLen) s.params.maxLen 0).pre fun t (ht : t = s) => ?_) (fun n0 => ?_) s rfl
  · subst ht
    exact ⟨hd, hm, by omega⟩
  · refine .withBound fun b => Op.Runs.bind (Q := fun _ t => t.u.dictOk) ((runs_encodeLoop (maxLen_lt hwf) b n0).pre ?_)
      fun n => .withUnits fun u => ?_
    · rintro t ⟨⟨h1, h2, h3⟩, rfl⟩
      exact ⟨h1, fun _ _ _ => h2 _, h3, Nat.lt_succ_self _⟩
    · exact (((safe_emitSentinel _).keep (writes_emitSentinel _) reads_dictOk (by decide)).bind fun _ =>
        ((safe_writeBits _ _ _).keep (writes_writeBits _ _ _) reads_dictOk (by decide)).bind fun _ =>
        (safe_setRes0 n).keep (writes_setRes0 _) reads_dictOk (by decide)).pre fun _ h => h.1

end Sys2Proof.Machine
end

section
/-! SUPPORT. The dictionary invariant along a step, and every command's pseudocode run without stopping the model. -/

namespace Sys2Proof.Machine

/-- The commands that write the window or the dictionary. -/
def usesDictionary : Instr → Bool
  | .winClear | .winWrite _ _ | .dictClear | .dictRemove _ | .mfMatchAdd _ _ => true
  | .lencEncode | .ldecDecode | .ldecDecodeToken | .ldecInit => true
  | _ => false

theorem runs_removeNode (p : Pos) : Op.Runs (fun s => s.u.dictOk) (removeNode p) fun _ t => t.u.dictOk :=
  .intro fun _ hs =>
    let ⟨_, hrun, hv⟩ := removeNode_ok p hs
    .inl ⟨_, _, hrun, hv.dictOk⟩

/-- Every command of the window, the dictionary and the LZSS coder ends with a legal dictionary or raises a fault
(10_state.md R46, R47). -/
theorem runs_dictionary_bodyOf {i : Instr} (hi : usesDictionary i = true) :
    Op.Runs (fun s => s.params.wf ∧ s.u.dictOk ∧ checkOf s i = none) (bodyOf i) fun _ t => t.u.dictOk := by
  have hset : ∀ a b, Op.Runs (fun s => s.u.dictOk) (setRes a b) fun _ t => t.u.dictOk := fun a b =>
    (safe_setRes a b).keep (writes_setRes a b) reads_dictOk (by decide)
  cases i
  case winClear => exact .setUnits fun s _ => Units.dictOk_dictClear _
  case winWrite k b => exact (runs_winPut _ _).pre fun _ h => h.2.1
  case dictClear => exact .setUnits fun s _ => Units.dictOk_dictClear _
  case dictRemove p => exact (runs_removeNode _).pre fun _ h => h.2.1
  case mfMatchAdd p n =>
    refine Op.Runs.bind (Q := fun _ t => t.u.dictOk) (fun s hs => ?_) fun m => hset _ _
    obtain ⟨-, hd, hc⟩ := hs
    have hp : s.u.isMember (lowPos p) = false := by simpa using (checkFault_none.mp hc).2
    exact (runs_matchAdd n.toNat hd hp).imp (fun _ h => h) (fun _ _ h => h.dictOk) s rfl
  case lencEncode => exact runs_lzssEncode.pre fun _ h => h.1
  case ldecDecode => exact runs_lzssDecode.pre fun _ _ => trivial
  case ldecDecodeToken =>
    refine Op.Runs.bind (Q := fun _ t => t.u.dictOk) (fun s hs => ?_) fun kc => hset _ _
    exact (runs_decodeLzToken s.bitsLeft).imp (fun _ h => h) (fun _ _ h => h.2) s ⟨Nat.le_refl _, hs.2.1⟩
  case ldecInit => exact .setUnits fun s _ => Units.dictOk_ldecInit _
  all_goals cases hi

/-- The other commands write neither the window nor the dictionary (10_state.md R72). -/
theorem dictionaryGroups_not_written {P : Config.Params} {i : Instr} {v : Word} (hi : commandWord P i = some v)
    (hu : usesDictionary i = false) : ∀ g ∈ dictionaryGroups, g ∉ (writeGroups i).erase .control := by
  cases i
  case winClear | winWrite | dictClear | dictRemove | mfMatchAdd => cases hu
  case lencEncode | ldecDecode | ldecDecodeToken | ldecInit => cases hu
  case hufTreeLeaf | hufTreeInternal | hufCountGroup | hufCode | lzLiteral | lzReference | lzEnd => cases hi
  all_goals simp [dictionaryGroups, writeGroups]

theorem CmdEffect.dictOk {v : Word} {s t : State} (h : CmdEffect v s t) (hwf : s.params.wf)
    (hs : s.status.fault = false → s.u.dictOk) (ht : t.status.fault = false) : t.u.dictOk := by
  cases h with
  | ignored hf => exact absurd (hf.symm.trans ht) (by decide)
  | reset _ => exact (resetUnits_ok s.freeIdx).1
  | check c _ => cases ht
  | faulted i c q _ _ _ => exact absurd ((q.faultEntry_fault .execution c).symm.trans ht) (by decide)
  | completed i q hh hi _ hc hb =>
    show q.u.dictOk
    cases hu : usesDictionary i with
    | true =>
      exact (runs_dictionary_bodyOf hu).of_ok (s := s.begin v) ⟨hwf, hs hh, by rw [checkOf_begin, hc]⟩ hb
    | false =>
      refine reads_dictOk (s.begin v) q (fun g hg => ?_) (hs hh)
      have hw := writes_bodyOf i (s.begin v) g (dictionaryGroups_not_written hi hu g hg)
      rwa [hb] at hw

/-- Settles O21: every change of the links exchanges one subtree of the forest for another one, LENC.ENCODE keeps its
lookahead out of the dictionary because MAX is below W, and nothing else touches the window or the dictionary. -/
theorem stepKeepsDictionary : Obligations.StepKeepsDictionary := by
  intro s t hwf hs h ht
  cases step_effect h with
  | idle => exact hs ht
  | operands rest a b c => exact hs ht
  | sourceLength rest v => exact hs ht
  | sourceByte rest k b hk => exact hs ht
  | command rest v t h => exact h.dictOk hwf hs ht

/-! ## No step stops the model -/

/-- The commands that neither walk a tree nor touch the dictionary run from every state. -/
theorem safe_bodyOf {P : Config.Params} {i : Instr} {v : Word} (hi : commandWord P i = some v)
    (hh : usesHuffman i = false) (hd : usesDictionary i = false) : Op.Safe (bodyOf i) := by
  cases i
  case blkNop => exact .pure _
  case blkReset => exact .pure _
  case blkStreamInit => exact safe_streamInit
  case bswWriteBits v c f => exact safe_writeBits _ _ _
  case bswFlush => exact safe_writeBits _ _ _
  case bsrReadBits c r => exact (safe_readBits _ _).bind fun _ => safe_setRes _ _
  case htbClearWeights => exact fun _ _ => trivial
  case htbCountByte b => exact .withUnits fun _ => .ite (.raise _) (.setUnits _)
  case hencEmitCount n => exact safe_emitCount _
  case hencEmitCode b => exact safe_emitCode _
  case winRead k => exact (safe_winRd _).bind fun _ => safe_setRes0 _
  case lencEmitLiteral b => exact safe_emitLiteral _
  case lencEmitReference p n => exact safe_emitReference _ _
  case lencEmitSentinel p => exact safe_emitSentinel _
  case htbBuildTree | htbDeriveCodes | hencEncode | hencEmitTree => cases hh
  case hdecDecode | hdecParseTree | hdecParseCount | hdecDecodeSymbol => cases hh
  case winClear | winWrite | dictClear | dictRemove | mfMatchAdd => cases hd
  case lencEncode | ldecDecode | ldecDecodeToken | ldecInit => cases hd
  case hufTreeLeaf | hufTreeInternal | hufCountGroup | hufCode | lzLiteral | lzReference | lzEnd => cases hi

/-- What the commands need of a healthy state (R71: the invariants of a run). -/
def State.Ready (s : State) : Prop := s.params.wf ∧ s.u.dictOk ∧ s.u.HuffInv

/-- Every command's pseudocode runs from a state that meets the invariants (10_state.md R71). -/
theorem runs_bodyOf {P : Config.Params} {i : Instr} {v : Word} (hi : commandWord P i = some v) :
    Op.Runs (fun s => s.Ready ∧ checkOf s i = none) (bodyOf i) fun _ _ => True := by
  cases hh : usesHuffman i with
  | true => exact (runs_huffman_bodyOf hh).imp (fun _ h => ⟨h.1.2.2, h.2⟩) fun _ _ _ => trivial
  | false =>
    cases hd : usesDictionary i with
    | true => exact (runs_dictionary_bodyOf hd).imp (fun _ h => ⟨h.1.1, h.1.2.1, h.2⟩) fun _ _ _ => trivial
    | false => exact (safe_bodyOf hi hh hd).pre fun _ _ => trivial

/-- A command that runs answers a next state (40_block_control.md R160). -/
theorem finish_next {I : State → Prop} {Q : Unit → State → Prop} {x : Op Unit} {s : State} (h : Op.Runs I x Q)
    (hs : I s) : ∃ t, finish (x s) = .next t := by
  cases hx : x s with
  | ok a t => exact ⟨_, rfl⟩
  | error e t =>
    cases e with
    | raised c => exact ⟨_, rfl⟩
    | stuck f => exact (h.not_stuck hs hx).elim

/-- A command answers a next state from a state that meets the invariants, or has a fault pending. -/
theorem exec_next {s : State} {i : Instr} {v : Word} (hi : commandWord s.params i = some v)
    (hs : s.status.fault = false → s.Ready) : ∃ t, exec i s = .next t := by
  by_cases hr : i = .blkReset
  · subst hr
    exact ⟨_, rfl⟩
  rw [exec_command hi hr]
  unfold runCommand
  rcases s.healthy_or_fault with hh | hf
  · rw [if_neg (by rw [show s.status.fault = false from hh]; decide)]
    cases hc : checkOf s i with
    | some c => exact ⟨_, rfl⟩
    | none => exact finish_next (runs_bodyOf hi) (s := s.begin v) ⟨hs hh, by rw [checkOf_begin, hc]⟩
  · rw [if_pos hf]
    exact ⟨_, rfl⟩

/-- A write to CMD answers a next state (40_block_control.md R160). -/
theorem onCmdWrite_next {s : State} (v : Word) (hs : s.status.fault = false → s.Ready) :
    ∃ t, onCmdWrite v s = .next t := by
  unfold onCmdWrite
  split
  · next i hd => exact exec_next (commandWord_of_decode s.params hd) hs
  · obtain ⟨t, ht, -⟩ := illegalCommand_effect v s
    exact ⟨t, ht⟩

/-- A host move answers a next state, or is not in the host table (60_exceptions.md R400, log 9). -/
theorem hostMove_next {s : State} (m : HostMove) (hs : s.status.fault = false → s.Ready) :
    (∃ t, hostMove m s = .next t) ∨ hostMove m s = .refused .hostMoveNotInTable := by
  cases m with
  | writeSrc k b =>
    unfold hostMove
    dsimp only
    split
    · exact .inl ⟨_, rfl⟩
    · exact .inr rfl
  | writeReg n v =>
    unfold hostMove
    dsimp only
    split
    · exact .inl (onCmdWrite_next v hs)
    · exact .inl ⟨_, rfl⟩
    · exact .inl ⟨_, rfl⟩
    · exact .inl ⟨_, rfl⟩
    · exact .inl ⟨_, rfl⟩
    · exact .inl ⟨_, rfl⟩
    · split
      · exact .inl ⟨_, rfl⟩
      · exact .inr rfl

/-- Settles O23: from a state that meets the invariants every loop ends within its bound, so that a command ends well or
raises a fault of the spec. -/
theorem stepNeverStops : Obligations.StepNeverStops := by
  intro s ⟨hstream, hunits⟩
  have hs : s.status.fault = false → s.Ready := fun h => ⟨hstream.params, hunits h⟩
  have hstep : (∃ t, step s = .next t) ∨ step s = .refused .hostMoveNotInTable := by
    unfold step
    split
    · exact .inl ⟨_, rfl⟩
    · next m rest _ => exact hostMove_next (s := { s with moves := rest }) m hs
  rcases hstep with ⟨t, h⟩ | h
  · rw [h]
    exact ⟨fun f => nofun, fun r => nofun⟩
  · rw [h]
    exact ⟨fun f => nofun, fun r hr => (Host.Outcome.refused.inj hr).symm⟩

end Sys2Proof.Machine
end

section
/-! SUPPORT. What a piece of pseudocode can do to the sink: it stores from OPOS on and below the OLEN it leaves, and
moves neither of them back (20_memory.md R84, R85, R87). -/

namespace Sys2Proof.Machine

/-! ## The sink between two states -/

/-- From s to t the sink was only extended: neither OPOS nor OLEN moved back, and every byte of OUT below the OPOS of s
and every byte at or beyond the OLEN of t is as it was. -/
structure State.SinkExtends (s t : State) : Prop where
  params : t.params = s.params
  opos : s.opos.toNat ≤ t.opos.toNat
  olen : s.olen.toNat ≤ t.olen.toNat
  kept : ∀ k, k < s.opos.toNat ∨ t.olen.toNat ≤ k → t.outByte k = s.outByte k

/-- The groups that `State.SinkExtends` reads. -/
def sinkGroups : List Group := [.sink, .outside]

/-- OUT's bytes are a matter of the sink alone. -/
theorem State.agree_outByte {s t : State} (h : s.agree t .sink) (k : Nat) : t.outByte k = s.outByte k := by
  obtain ⟨-, -, hout⟩ := h
  unfold State.outByte
  rw [hout]

theorem State.SinkExtends.of_agree {s t : State} (h : ∀ g ∈ sinkGroups, s.agree t g) : s.SinkExtends t := by
  obtain ⟨hopos, holen, -⟩ := h .sink (by decide)
  obtain ⟨-, hparams, -⟩ := h .outside (by decide)
  exact ⟨hparams, by rw [hopos], by rw [holen], fun k _ => State.agree_outByte (h .sink (by decide)) k⟩

theorem State.SinkExtends.refl (s : State) : s.SinkExtends s := .of_agree fun g _ => s.agree_refl g

theorem State.SinkExtends.draw (s : State) (n : Nat) : s.SinkExtends (s.draw n) :=
  ⟨rfl, le_rfl, le_rfl, fun _ _ => rfl⟩

theorem State.SinkExtends.trans {s q t : State} (h : s.SinkExtends q) (h' : q.SinkExtends t) : s.SinkExtends t where
  params := h'.params.trans h.params
  opos := h.opos.trans h'.opos
  olen := h.olen.trans h'.olen
  kept k hk := by
    have hq : t.outByte k = q.outByte k := h'.kept k (hk.imp_left fun hk => hk.trans_le h.opos)
    exact hq.trans (h.kept k (hk.imp_right fun hk => h'.olen.trans hk))

/-- A byte stored at OPOS, which moves on and takes OLEN along (20_memory.md R84). -/
theorem State.SinkExtends.putByte {s : State} (hP : s.params.outSize < 2 ^ 64) (hr : s.opos.toNat < s.params.outSize)
    (b : Byte) : s.SinkExtends (s.putByte b) := by
  have hopos : (s.putByte b).opos.toNat = s.opos.toNat + 1 := word_succ_toNat hr hP
  have holen : (s.putByte b).olen.toNat = max s.olen.toNat (s.opos.toNat + 1) := s.putByte_olen b ⟨hP, hr⟩
  refine ⟨rfl, by omega, by omega, fun k hk => ?_⟩
  rw [State.putByte_outByte, if_neg (by omega)]

/-! ## Pieces of pseudocode -/

section
variable {α β : Type}

/-- The piece only extends the sink, whichever way it ends. -/
def Op.Extends (x : Op α) : Prop := ∀ s : State, s.params.outSize < 2 ^ 64 → s.SinkExtends (Op.final (x s))

theorem Op.Extends.pure (a : α) : Op.Extends (Pure.pure a : Op α) := fun s _ => .refl s

theorem Op.Extends.raise (c : FaultCode) : Op.Extends (Machine.raise c : Op α) := fun s _ => .refl s

theorem Op.Extends.stuck (f : Fault) : Op.Extends (Machine.stuck f : Op α) := fun s _ => .refl s

/-- Reading a number off the state changes nothing. -/
theorem Op.Extends.bound (f : State → Nat) : Op.Extends (fun s => .ok (f s) s : Op Nat) := fun s _ => .refl s

/-- A piece that does not write the sink leaves it as it is. -/
theorem Op.Writes.extends_sink {gs : List Group} {x : Op α} (hw : Op.Writes gs x) (hd : ∀ g ∈ sinkGroups, g ∉ gs) :
    Op.Extends x := fun s _ => .of_agree fun g hg => hw s g (hd g hg)

/-- The unit state holds nothing of the sink. -/
theorem Op.Extends.setUnits (f : Units → Units) : Op.Extends (Machine.setUnits f) :=
  fun _ _ => ⟨rfl, le_rfl, le_rfl, fun _ _ => rfl⟩

theorem Op.Extends.bind {x : Op α} {f : α → Op β} (hx : Op.Extends x) (hf : ∀ a, Op.Extends (f a)) :
    Op.Extends (x >>= f) := by
  intro s hP
  have h := hx s hP
  rw [Op.bind_eq]
  cases hxs : x s with
  | error e t =>
    rw [hxs] at h
    exact h
  | ok a t =>
    rw [hxs] at h
    exact h.trans (hf a t (show t.params.outSize < 2 ^ 64 by rw [show t.params = s.params from h.params]; exact hP))

theorem Op.Extends.ite {p : Prop} [Decidable p] {x y : Op α} (hx : Op.Extends x) (hy : Op.Extends y) :
    Op.Extends (if p then x else y) := by
  split
  · exact hx
  · exact hy

theorem Op.Extends.withUnits {f : Units → Op β} (h : ∀ u, Op.Extends (f u)) : Op.Extends (Machine.units >>= f) :=
  fun s hP => h s.u s hP

theorem Op.Extends.withParams {f : Config.Params → Op β} (h : ∀ P, Op.Extends (f P)) :
    Op.Extends (Machine.params >>= f) := fun s hP => h s.params s hP

theorem Op.Extends.repeatOp (n : Nat) {x : Op Unit} (hx : Op.Extends x) : Op.Extends (Machine.repeatOp n x) := by
  induction n with
  | zero => exact .pure ()
  | succ n ih => exact hx.bind fun _ => ih

end

/-! ## The writer -/

theorem extends_sinkWrite (b : Byte) : Op.Extends (sinkWrite b) := by
  intro s hP
  rcases sinkWrite_cases b s with h | ⟨hr, h⟩ <;> rw [h]
  · exact .draw s 1
  · exact .putByte hP hr b

/-- The seek of a flush steps back onto the byte just written, no further than OPOS was (41_bit_stream.md R182). -/
theorem extends_sinkWrite_seekBack (b : Byte) : Op.Extends (sinkWrite b >>= fun _ => sinkSeek (-1)) := by
  intro s hP
  rcases sinkWrite_cases b s with h | ⟨hr, h⟩
  · rw [Op.bind_error h]
    exact .draw s 1
  · rw [Op.bind_ok h]
    have hput := State.SinkExtends.putByte hP hr b
    have hopos : (s.putByte b).opos.toNat = s.opos.toNat + 1 := word_succ_toNat hr hP
    rcases sinkSeek_back_cases (s.putByte b) with h' | ⟨-, h'⟩ <;> rw [h']
    · exact hput.trans (.draw _ 1)
    · have hback : (BitVec.ofNat 64 ((s.putByte b).opos.toNat - 1)).toNat = s.opos.toNat := by
        rw [hopos, Nat.add_sub_cancel, BitVec.ofNat_toNat, BitVec.setWidth_eq]
      exact ⟨hput.params, hback.ge, hput.olen, hput.kept⟩

theorem extends_emitFullByte : Op.Extends emitFullByte :=
  .withUnits fun _ => .ite ((extends_sinkWrite _).bind fun _ => .setUnits _) (.pure _)

theorem extends_writeLoop (fuel v c : Nat) : Op.Extends (writeLoop fuel v c) := by
  induction fuel generalizing v c with
  | zero => exact .pure _
  | succ fuel ih =>
    exact .ite (.pure _) (.withUnits fun _ => .bind (.setUnits _) fun _ => extends_emitFullByte.bind fun _ => ih _ _)

theorem extends_flushPartial : Op.Extends flushPartial :=
  .withUnits fun _ => .ite (extends_sinkWrite_seekBack _) (.pure _)

theorem extends_writeBits (v c : Nat) (f : Bool) : Op.Extends (writeBits v c f) :=
  (extends_writeLoop _ _ _).bind fun _ => .ite extends_flushPartial (.pure _)

theorem extends_writeWideLoop (fuel v c : Nat) : Op.Extends (writeWideLoop fuel v c) := by
  induction fuel generalizing v c with
  | zero => exact .pure _
  | succ fuel ih => exact .ite (.pure _) ((extends_writeBits _ _ _).bind fun _ => ih _ _)

/-! ## The Huffman coder -/

theorem extends_emitNode (levels : Nat) (id : HId) : Op.Extends (emitNode levels id) := by
  have leaf (id : HId) : Op.Extends (writeBits 1 1 false >>= fun _ => writeBits id.toNat 8 false) :=
    (extends_writeBits _ _ _).bind fun _ => extends_writeBits _ _ _
  induction levels generalizing id with
  | zero =>
    unfold emitNode
    exact .ite (leaf id) (.stuck _)
  | succ levels ih =>
    unfold emitNode
    exact .ite (leaf id) ((extends_writeBits _ _ _).bind fun _ =>
      ((writes_children _).extends_sink (by decide)).bind fun _ => (ih _).bind fun _ => ih _)

theorem extends_emitTree : Op.Extends emitTree := .withUnits fun _ => extends_emitNode _ _

theorem extends_emitGroups (fuel n : Nat) : Op.Extends (emitGroups fuel n) := by
  induction fuel generalizing n with
  | zero => exact .pure _
  | succ fuel ih =>
    exact (extends_writeBits _ _ _).bind fun _ => (extends_writeBits _ _ _).bind fun _ => .ite (.pure _) (ih _)

theorem extends_emitCode (b : Byte) : Op.Extends (emitCode b) := .withUnits fun _ => extends_writeWideLoop _ _ _

theorem extends_encodeByte : Op.Extends encodeByte := by
  refine (writes_srcRead.extends_sink (by decide)).bind fun r => ?_
  cases r with
  | none => exact .raise _
  | some b => exact extends_emitCode b

theorem extends_decodeSymbol : Op.Extends decodeSymbol :=
  .withUnits fun _ => .bind (.bound _) fun _ => ((writes_walkSymbol _ _).extends_sink (by decide)).bind fun _ =>
    (extends_sinkWrite _).bind fun _ => .pure _

theorem extends_doCode (bits : List Bool) : Op.Extends (doCode bits) :=
  .withUnits fun _ => .ite (.raise _)
    (((writes_walkBits _ _).extends_sink (by decide)).bind fun _ => extends_sinkWrite _)

/-! ## The LZSS coder -/

theorem extends_emitLiteral (b : Byte) : Op.Extends (emitLiteral b) :=
  (extends_writeBits _ _ _).bind fun _ => extends_writeBits _ _ _

theorem extends_emitReference (p len : Nat) : Op.Extends (emitReference p len) :=
  .withParams fun _ => (extends_writeBits _ _ _).bind fun _ => (extends_writeBits _ _ _).bind fun _ =>
    extends_writeBits _ _ _

theorem extends_emitSentinel (p : Nat) : Op.Extends (emitSentinel p) :=
  (extends_writeBits _ _ _).bind fun _ => extends_writeBits _ _ _

theorem extends_useMatch (m : Link × Nat) : Op.Extends (useMatch m) :=
  .withParams fun _ => .withUnits fun _ => .ite (.setUnits _)
    (.ite (((writes_winRd _).extends_sink (by decide)).bind fun _ => extends_emitLiteral _)
      ((extends_emitReference _ _).bind fun _ => .setUnits _))

theorem extends_encodeLoop (fuel n : Nat) : Op.Extends (encodeLoop fuel n) := by
  induction fuel generalizing n with
  | zero => exact .stuck _
  | succ fuel ih =>
    exact .withUnits fun _ => .ite (((writes_matchAdd _ _).extends_sink (by decide)).bind fun _ =>
      (extends_useMatch _).bind fun _ => ((writes_slideWindow _).extends_sink (by decide)).bind fun _ => ih _) (.pure _)

theorem extends_outputByte (b : Byte) : Op.Extends (outputByte b) :=
  (extends_sinkWrite b).bind fun _ => .withUnits fun _ => ((writes_winPut _ _).extends_sink (by decide)).bind fun _ =>
    .setUnits _

theorem extends_copyLoop (more : Nat) (p : Pos) : Op.Extends (copyLoop more p) := by
  induction more generalizing p with
  | zero => exact .pure _
  | succ more ih =>
    exact ((writes_winRd _).extends_sink (by decide)).bind fun _ => (extends_outputByte _).bind fun _ => ih _

theorem extends_doToken (t : LzToken) : Op.Extends (doToken t) := by
  have atEnd : Op.Extends (doEnd >>= fun _ => (pure (2, 0) : Op (Nat × Nat))) := .bind (.setUnits _) fun _ => .pure _
  refine .withUnits fun _ => .withParams fun _ => ?_
  cases t with
  | literal b => exact (extends_outputByte b).bind fun _ => .pure _
  | reference p e => exact .ite atEnd ((extends_copyLoop _ _).bind fun _ => .pure _)
  | endToken p => exact .ite atEnd (.raise _)

theorem extends_decodeLzToken : Op.Extends decodeLzToken :=
  (writes_fetchToken.extends_sink (by decide)).bind fun t => extends_doToken t

theorem extends_decodeTokens (fuel n : Nat) : Op.Extends (decodeTokens fuel n) := by
  induction fuel generalizing n with
  | zero => exact .stuck _
  | succ fuel ih => exact extends_decodeLzToken.bind fun _ => .ite (.pure _) (ih _)

end Sys2Proof.Machine
end

section
/-! SUPPORT. The frame of OUT: every instruction only extends the sink, from where its first write finds it. -/

namespace Sys2Proof.Machine

/-- The pseudocode of an instruction that does not restart the streams only extends the sink. -/
theorem extends_bodyOf {i : Instr} (hi : startsStreams i = false) : Op.Extends (bodyOf i) := by
  by_cases hs : Group.sink ∈ writeGroups i
  · cases i with
    | bswWriteBits v c f => exact extends_writeBits _ _ _
    | bswFlush => exact extends_writeBits _ _ _
    | hencEmitTree => exact extends_emitTree
    | hencEmitCount n => exact extends_emitGroups _ _
    | hencEmitCode b => exact extends_emitCode _
    | hdecDecodeSymbol => exact extends_decodeSymbol.bind fun _ => (writes_setRes0 _).extends_sink (by decide)
    | lencEmitLiteral b => exact extends_emitLiteral _
    | lencEmitReference p n => exact extends_emitReference _ _
    | lencEmitSentinel p => exact extends_emitSentinel _
    | ldecDecodeToken => exact extends_decodeLzToken.bind fun _ => (writes_setRes _ _).extends_sink (by decide)
    | hufCode bits => exact extends_doCode bits
    | lzLiteral b => exact (extends_doToken _).bind fun _ => .pure _
    | lzReference p e => exact (extends_doToken _).bind fun _ => .pure _
    | blkStreamInit | hencEncode | hdecDecode | lencEncode | ldecDecode => cases hi
    | _ => simp [writeGroups] at hs
  · refine (writes_bodyOf i).extends_sink fun g hg hm => ?_
    rcases List.mem_pair.mp hg with rfl | rfl
    · exact hs (List.mem_of_mem_erase hm)
    · cases i <;> simp [writeGroups] at hm

/-- Pseudocode that starts with the STREAM_INIT actions only extends the sink these leave empty. -/
theorem extends_afterStreamInit {f : Unit → Op Unit} (h : Op.Extends (f ())) {s : State}
    (hP : s.params.outSize < 2 ^ 64) : s.streamInit.SinkExtends (Op.final ((streamInit >>= f) s)) := h s.streamInit hP

/-- The pseudocode of an instruction that restarts the streams only extends the sink the STREAM_INIT actions leave
(40_block_control.md R164). -/
theorem bodyOf_sinkExtends_streamInit {i : Instr} (hi : startsStreams i = true) (hr : i ≠ .blkReset) {s : State}
    (hP : s.params.outSize < 2 ^ 64) : s.streamInit.SinkExtends (Op.final (bodyOf i s)) := by
  have res0 (n : Nat) : Op.Extends (setRes0 n) := (writes_setRes0 n).extends_sink (by decide)
  cases i with
  | blkReset => exact absurd rfl hr
  | blkStreamInit => exact .refl _
  | hencEncode =>
    refine extends_afterStreamInit ?_ hP
    exact .bind (.setUnits _) fun _ => .bind (.bound _) fun _ =>
      ((writes_countLoop _ _).extends_sink (by decide)).bind fun _ =>
      (writes_buildTree.extends_sink (by decide)).bind fun _ =>
      (writes_deriveCodes.extends_sink (by decide)).bind fun _ => extends_emitTree.bind fun _ =>
      (extends_emitGroups _ _).bind fun _ => ((writes_srcSeek _).extends_sink (by decide)).bind fun _ =>
      (Op.Extends.repeatOp _ extends_encodeByte).bind fun _ => (extends_writeBits _ _ _).bind fun _ => res0 _
  | hdecDecode =>
    refine extends_afterStreamInit ?_ hP
    exact (writes_parseTree.extends_sink (by decide)).bind fun _ =>
      (writes_parseCount.extends_sink (by decide)).bind fun _ =>
      (Op.Extends.repeatOp _ (extends_decodeSymbol.bind fun _ => .pure _)).bind fun _ => res0 _
  | lencEncode =>
    refine extends_afterStreamInit ?_ hP
    exact .bind (.setUnits _) fun _ => .withParams fun _ =>
      ((writes_fillLoop _ _).extends_sink (by decide)).bind fun _ => .bind (.bound _) fun _ =>
      (extends_encodeLoop _ _).bind fun _ => .withUnits fun _ =>
      (extends_emitSentinel _).bind fun _ => (extends_writeBits _ _ _).bind fun _ => res0 _
  | ldecDecode =>
    refine extends_afterStreamInit ?_ hP
    exact .bind (.setUnits _) fun _ => .bind (.bound _) fun _ => (extends_decodeTokens _ _).bind fun _ => res0 _
  | _ => cases hi

/-! ## How the sink leaves an instruction -/

/-- The end of a command or of a token, by completion or by fault entry, keeps the sink as the pseudocode left it
(60_exceptions.md R382). -/
theorem final_agree_sink {r : EStateM.Result Stop State Unit} {t : State}
    (h : finish r = .next t ∨ finishToken r = .next t) : (Op.final r).agree t .sink := by
  cases r with
  | ok a q => rcases h with h | h <;> cases h <;> exact ⟨rfl, rfl, rfl⟩
  | error e q =>
    cases e with
    | raised c => rcases h with h | h <;> cases h <;> exact (q.faultEntry_agree _ _).1
    | stuck f => rcases h with h | h <;> cases h

/-- An instruction keeps the sink (a fault is pending, or a check faults), or leaves it as its pseudocode does from a
state with the same sink. -/
theorem exec_sink {s t : State} {i : Instr} (hr : i ≠ .blkReset) (h : exec i s = .next t) :
    s.agree t .sink ∨ ∃ q, (∀ g ∈ sinkGroups, s.agree q g) ∧ (Op.final (bodyOf i q)).agree t .sink := by
  cases hi : commandWord s.params i with
  | none =>
    rw [exec_token hi] at h
    rcases s.healthy_or_fault with hs | hs
    · rw [runToken_runs hs] at h
      exact .inr ⟨s, fun g _ => s.agree_refl g, final_agree_sink (.inr h)⟩
    · rw [runToken_ignored hs] at h
      cases h
      exact .inl (s.agree_refl _)
  | some v =>
    rw [exec_command hi hr] at h
    rcases s.healthy_or_fault with hs | hs
    · cases hc : checkOf s i with
      | some c =>
        rw [hc, runCommand_check hs] at h
        cases h
        exact .inl ⟨rfl, rfl, rfl⟩
      | none =>
        rw [hc, runCommand_runs hs] at h
        refine .inr ⟨s.begin v, fun g hg => ?_, final_agree_sink (.inl h)⟩
        rcases List.mem_pair.mp hg with rfl | rfl <;> exact ⟨rfl, rfl, rfl⟩
    · rw [runCommand_ignored hs] at h
      cases h
      exact .inl ⟨rfl, rfl, rfl⟩

/-- Settles O25: the pseudocode only extends the sink, from the state the instruction starts in or from the one the
STREAM_INIT actions leave, which hold the same bytes of OUT. -/
theorem outBytesBelowTheStartKept : Obligations.OutBytesBelowTheStartKept := by
  intro s t i k hP h hk
  by_cases hr : i = .blkReset
  · subst hr
    cases h
    rfl
  rcases exec_sink hr h with hsink | ⟨q, hq, hfinal⟩
  · exact State.agree_outByte hsink k
  obtain ⟨hopos, -, -⟩ := hq .sink (by decide)
  obtain ⟨-, hparams, -⟩ := hq .outside (by decide)
  have holen : t.olen = (Op.final (bodyOf i q)).olen := hfinal.2.1
  have hPq : q.params.outSize < 2 ^ 64 := hparams ▸ hP
  rw [State.agree_outByte hfinal, ← State.agree_outByte (hq .sink (by decide))]
  rw [holen, ← hopos] at hk
  cases hi : startsStreams i with
  | false => exact (extends_bodyOf hi q hPq).kept k (hk.imp_left And.right)
  | true =>
    have hbeyond := hk.resolve_left fun hstart => absurd (hi.symm.trans hstart.1) (by decide)
    exact (bodyOf_sinkExtends_streamInit hi hr hPq).kept k (.inr hbeyond)

end Sys2Proof.Machine
end

section
/-! SUPPORT. The byte accesses behind their draw, and the window's slots with their mirrors
(20_memory.md R81 to R85). -/

namespace Sys2Proof.Machine

/-! ## The source and the sink -/

/-- A false draw (20_memory.md R86). -/
theorem ioCheck_false {s : State} {rest : List Bool} (h : s.io = false :: rest) :
    ioCheck s = .error (.raised .ioError) { s with io := rest } := by
  unfold ioCheck
  rw [h]

theorem srcSeek_below {s : State} (h : s.ioFine) {d : Int} (hd : (s.ipos.toNat : Int) + d < 0) :
    srcSeek d s = .error (.raised .ioError) (s.draw 1) := by
  rw [srcSeek, Op.bind_ok (ioCheck_ok h)]
  exact if_pos hd

theorem sinkSeek_below {s : State} (h : s.ioFine) {d : Int} (hd : (s.opos.toNat : Int) + d < 0) :
    sinkSeek d s = .error (.raised .ioError) (s.draw 1) := by
  rw [sinkSeek, Op.bind_ok (ioCheck_ok h)]
  exact if_pos hd

/-- Settles O17: each access is its draw, then the range condition of its rule, then the move. -/
theorem byteAccesses : Obligations.ByteAccesses := by
  intro s
  refine ⟨fun rest hio => ?_, fun hio => ⟨srcRead_some hio, srcRead_none hio, fun d => srcSeek_below hio,
    fun d n => srcSeek_ok hio, fun b hfull => sinkWrite_full hio hfull b, fun b hroom hP => ?_,
    fun d => sinkSeek_below hio, fun d n => sinkSeek_ok hio⟩⟩
  · have hdraw := ioCheck_false hio
    exact ⟨Op.bind_error hdraw, fun _ => Op.bind_error hdraw, fun _ => Op.bind_error hdraw,
      fun _ => Op.bind_error hdraw⟩
  · have hopos : (s.putByte b).opos.toNat = s.opos.toNat + 1 := word_succ_toNat hroom hP
    refine ⟨s.putByte b, sinkWrite_ok hio hroom b, s.putByte_outByte b, hopos, ?_, rfl⟩
    rw [hopos]
    exact s.putByte_olen b ⟨hP, hroom⟩

/-! ## The window -/

/-- WinWr keeps every mirror slot equal to its slot: MAX is below W, so no slot it writes is the mirror of another one
(20_memory.md R82). -/
theorem Units.winWr_mirror {P : Config.Params} (hP : P.wf) (k : Pos) (b : Byte) {u : Units}
    (h : ∀ j < P.maxLen, Memory.get u.window (Config.W + j) = Memory.get u.window j) :
    ∀ j < P.maxLen, Memory.get (u.winWr P k b).window (Config.W + j) = Memory.get (u.winWr P k b).window j := by
  intro j hj
  have hmax := maxLen_lt hP
  have hk : k.toNat < Config.W := k.lt
  rw [Units.get_winWr, Units.get_winWr, h j hj]
  by_cases hjk : j = k.toNat
  · rw [if_pos (.inr ⟨by omega, by omega⟩), if_pos (.inl hjk)]
  · rw [if_neg (by omega), if_neg (by omega)]

/-- Settles O18: WinWr said by reads, and WinRd by whether the slot is listed. -/
theorem windowMirrorsItsHead : Obligations.WindowMirrorsItsHead := by
  intro s k b hP
  refine ⟨⟨{ s with u := s.u.winWr s.params k b }, rfl, rfl, Units.get_winWr s.params k b s.u, ?_⟩, fun j => ?_⟩
  · exact Units.winWr_mirror hP k b
  · exact ⟨fun _ => winRd_ok, winRd_unwritten⟩

end Sys2Proof.Machine
end

section
/-! SUPPORT. Command words: what decodes, from which row of the opcode map, and the statements about command words. -/

namespace Sys2Proof.Machine

/-! ## Decoding by the opcode map (30_encoding.md R120, R121, R123) -/

/-- No two rows of the opcode map share an opcode. -/
theorem opcodeMap_nodup : (opcodeMap.map OpRow.opcode).Nodup := by decide

/-- Every opcode lies in CMD[7:0]. -/
theorem opcodeMap_reserved : ∀ r ∈ opcodeMap, r.opcode >>> 8 = 0 := by decide

/-- The row found for a word is a row with that opcode. -/
theorem of_find_opcode {v : Word} {r : OpRow} (h : opcodeMap.find? (fun q => q.opcode == v) = some r) :
    r ∈ opcodeMap ∧ r.opcode = v :=
  ⟨List.mem_of_find?_eq_some h, beq_iff_eq.mp (List.find?_some (p := fun q : OpRow => q.opcode == v) h)⟩

/-- A row of the opcode map is the one found for its opcode. -/
theorem find_opcode {r : OpRow} (hr : r ∈ opcodeMap) :
    opcodeMap.find? (fun q => q.opcode == r.opcode) = some r := by
  obtain ⟨q, hq⟩ := Option.isSome_iff_exists.mp
    (List.find?_isSome (p := fun q : OpRow => q.opcode == r.opcode) |>.mpr ⟨r, hr, beq_self_eq_true _⟩)
  obtain ⟨hmem, hop⟩ := of_find_opcode hq
  rw [hq, List.inj_on_of_nodup_map opcodeMap_nodup hmem hr hop]

/-- Exactly the words of a row of the opcode map decode, whatever the operands, to what that row makes of them. -/
theorem decodeCommand_eq_ok {w : CmdWords} {i : Instr} :
    decodeCommand w = .ok i ↔ ∃ r ∈ opcodeMap, r.opcode = w.cmd ∧ r.make w.arg0 w.arg1 w.arg2 = i := by
  unfold decodeCommand
  constructor
  · intro h
    split at h
    · cases h
    · split at h
      · next r hr =>
        obtain ⟨hmem, hop⟩ := of_find_opcode hr
        cases h
        exact ⟨r, hmem, hop, rfl⟩
      · cases h
  · rintro ⟨r, hr, hop, rfl⟩
    rw [← hop, if_neg (not_not.mpr (opcodeMap_reserved r hr)), find_opcode hr]

/-- Decoding a word whose row has been found. -/
theorem decodeCommand_of_find {v a b c : Word} {i : Instr} {r : OpRow}
    (hr : opcodeMap.find? (fun q => q.opcode == v) = some r) (hi : r.make a b c = i) :
    decodeCommand ⟨v, a, b, c⟩ = .ok i := by
  obtain ⟨hmem, hop⟩ := of_find_opcode hr
  exact decodeCommand_eq_ok.mpr ⟨r, hmem, hop, hi⟩

/-- The opcodes of the map are exactly the words that R123 does not list. -/
theorem exists_opcode_iff {v : Word} : (∃ r ∈ opcodeMap, r.opcode = v) ↔ illegalWord v = false := by
  simp only [opcodeMap, BitVec.ofNat_eq_ofNat, List.cons_append, List.nil_append, List.mem_cons,
    List.not_mem_nil, or_false, ← BitVec.toNat_inj, exists_eq_or_imp, BitVec.toNat_ofNat, Nat.reducePow, Nat.zero_mod,
    Nat.one_mod, Nat.reduceMod, ↓existsAndEq, true_and, illegalWord, illegalRanges, List.any_cons, List.any_nil,
    Bool.or_false, Bool.or_eq_false_iff, decide_eq_false_iff_not, not_le, Bool.and_eq_false_imp, decide_eq_true_eq]
  omega

/-- BSW.WRITE_BITS but for the operands of BSW.FLUSH (30_encoding.md R151). -/
theorem writeBitsOf_of_wellFormed {P : Config.Params} {v c f : Word} (h : wellFormed P (.bswWriteBits v c f) = true) :
    writeBitsOf v c f = .bswWriteBits v c f := by
  refine if_neg ?_
  rintro ⟨rfl, rfl, rfl⟩
  cases h

/-- Settles O2: the CMD word of a command finds the command's own row of the opcode map, whatever the operands; row
0x10 also makes BSW.FLUSH, whose operands a well-formed BSW.WRITE_BITS does not have. -/
theorem encodedCommandsDecode : Obligations.EncodedCommandsDecode := by
  intro P i hw ht
  cases i
  case hufTreeLeaf | hufTreeInternal | hufCountGroup | hufCode | lzLiteral | lzReference | lzEnd => cases ht
  case bswWriteBits => exact ⟨_, rfl, decodeCommand_of_find rfl (writeBitsOf_of_wellFormed hw)⟩
  all_goals
    refine ⟨_, rfl, ?_⟩
    apply decodeCommand_of_find
    · rfl
    · rfl

/-! ## Words that are no command (30_encoding.md R123) -/

/-- A host's write to CMD, at the next step. -/
theorem step_writeCmd {s : State} {v : Word} {rest : List HostMove} (h : s.moves = .writeReg 0 v :: rest) :
    step s = onCmdWrite v { s with moves := rest } := by
  unfold step
  rw [h]
  rfl

/-- A word of R123 runs no command. -/
theorem onCmdWrite_illegal {v : Word} (h : illegalWord v = true) (s : State) :
    onCmdWrite v s = illegalCommand v s := by
  unfold onCmdWrite
  split
  · next i hd =>
    obtain ⟨r, hr, hop, -⟩ := decodeCommand_eq_ok.mp hd
    rw [exists_opcode_iff.mp ⟨r, hr, hop⟩] at h
    cases h
  · rfl

theorem illegalCommand_healthy {s : State} (h : s.healthy) (v : Word) :
    illegalCommand v s = .next (s.checkFaulted v .illegalCommand) := by
  unfold illegalCommand
  rw [if_neg (by rw [show s.status.fault = false from h]; decide)]
  rfl

/-- Settles O4: the opcodes of the map are the words R123 does not list, and any other word enters a check fault. -/
theorem illegalCommandWordsFault : Obligations.IllegalCommandWordsFault := by
  constructor
  · intro v a b c hv
    obtain ⟨r, hr, hop⟩ := exists_opcode_iff.mpr hv
    exact ⟨r.make a b c, decodeCommand_eq_ok.mpr ⟨r, hr, hop, rfl⟩⟩
  · intro s v rest hv hs hm
    rw [step_writeCmd hm, onCmdWrite_illegal hv]
    exact illegalCommand_healthy (s := { s with moves := rest }) hs v

/-! ## Operands out of range (30_encoding.md R121, 60_exceptions.md R379 to R381) -/

theorem isByte_eq (w : Word) : isByte w = decide (w.toNat ≤ 255) := decide_eq_decide.mpr Nat.lt_succ_iff

theorem isPosition_eq (w : Word) : isPosition w = decide (w.toNat ≤ 4095) := decide_eq_decide.mpr Nat.lt_succ_iff

theorem isSlot_eq (P : Config.Params) (w : Word) : isSlot P w = decide (w.toNat ≤ 4095 + P.maxLen) := by
  refine decide_eq_decide.mpr ?_
  rw [Config.Params.slots, Config.W]
  omega

/-- The check before execution: first the operand ranges of the opcode map, then the precondition. -/
theorem checkOf_eq (s : State) (i : Instr) :
    checkOf s i = checkFault (operandsInRange s.params i) (preconditionMet s i) := by
  cases i
  case htbCountByte b | hencEmitCode b | lencEmitLiteral b => exact congrArg (checkFault · _) (isByte_eq b)
  case dictRemove p | lencEmitSentinel p => exact congrArg (checkFault · _) (isPosition_eq p)
  case winRead k => exact congrArg (checkFault · _) (isSlot_eq s.params k)
  case winWrite k b => exact congrArg₂ (fun x y => checkFault (x && y) _) (isPosition_eq k) (isByte_eq b)
  case mfMatchAdd p n | lencEmitReference p n =>
    exact congrArg (checkFault · _) ((congrArg (· && _) (isPosition_eq p)).trans (Bool.and_assoc ..).symm)
  all_goals rfl

/-- Settles O13: the check before execution looks at the operands first; BLK.RESET, which has no check, has no
operands. -/
theorem operandsOutOfRangeFault : Obligations.OperandsOutOfRangeFault := by
  intro s i v hs hi hr
  have hreset : i ≠ .blkReset := by
    rintro rfl
    cases hr
  rw [exec_command hi hreset, checkOf_eq, hr, checkFault_operand, runCommand_check hs]

end Sys2Proof.Machine
end

section
/-! SUPPORT. Stream tokens: the fields of a token behind its bits, and the statement about encoded tokens. -/

namespace Sys2Proof.Machine

/-- A number that fits a field is read back from the field's bits (00_scope.md R21). -/
theorem takeField_wordBits {n w : Nat} (h : w < 2 ^ n) (rest : List Bool) :
    takeField n (wordBits n w ++ rest) = some (w, rest) := by
  have hl := length_wordBits n w
  rw [takeField_ok (by rw [List.length_append]; omega), List.take_left' hl, List.drop_left' hl, bitsValue_wordBits,
    Nat.mod_eq_of_lt h]

/-- A bit vector is read back from its bits. -/
theorem takeField_toNat {n : Nat} (x : BitVec n) (rest : List Bool) :
    takeField n (wordBits n x.toNat ++ rest) = some (x.toNat, rest) := takeField_wordBits x.isLt rest

/-- Settles O3: each token a context admits, by the fields its decoder takes; the flag, and the position against the
cursor, choose the token (30_encoding.md R137). -/
theorem encodedTokensDecode : Obligations.EncodedTokensDecode := by
  intro P ctx i rest hw ha
  unfold Ctx.admits at ha
  split at ha
  · next v => exact ⟨_, rfl, by simp [decodeToken, takeField_toNat]⟩
  · exact ⟨_, rfl, rfl⟩
  · next d last => exact ⟨_, rfl, by simp [decodeToken, takeField_toNat]⟩
  · next n bits =>
    have hlen : bits.length ≤ Config.maxCode := of_decide_eq_true hw
    obtain rfl : n = bits.length := eq_of_beq ha
    refine ⟨bits, rfl, ?_⟩
    rw [decodeToken, if_neg (by omega), if_neg (by simp), List.take_left, List.drop_left]
  · next n cursor b => exact ⟨_, rfl, by simp [decodeToken, takeField_toNat]⟩
  · next n cursor p e =>
    rw [Bool.and_eq_true] at ha
    obtain ⟨hn, hp⟩ := ha
    obtain rfl : n = P.lzN := eq_of_beq hn
    have he : e < 2 ^ P.lzN := of_decide_eq_true hw
    have hc : p ≠ cursor := bne_iff_ne.mp hp
    refine ⟨_, rfl, ?_⟩
    simp [decodeToken, Config.M, takeField_toNat, takeField_wordBits he, hc]
  · next n cursor p =>
    rw [Bool.and_eq_true] at ha
    obtain rfl : p = cursor := eq_of_beq ha.2
    exact ⟨_, rfl, by simp [decodeToken, Config.M, takeField_toNat]⟩
  · cases ha

/-- Settles O1: both decoders evaluated on the ten samples. -/
theorem sampleWordsDecode : Obligations.SampleWordsDecode :=
  ⟨rfl, rfl, rfl, rfl, rfl, rfl, rfl, rfl, rfl, rfl⟩

end Sys2Proof.Machine
end

section
/-! SUPPORT. The node tokens of a tree carried out one after another, and the statement about them. -/

namespace Sys2Proof.Machine

/-- Two unit states differ in the tables of the tree parser only (42_huffman.md R240). -/
def Units.SameButParsed (u v : Units) : Prop :=
  v = { u with
    leftH := v.leftH, rightH := v.rightH, rootH := v.rootH, nextH := v.nextH, parseStack := v.parseStack }

theorem Units.SameButParsed.trans {u v w : Units} (h : u.SameButParsed v) (h' : v.SameButParsed w) :
    u.SameButParsed w := by
  unfold Units.SameButParsed at *
  rw [h] at h'
  exact h'

theorem attachNode_sameButParsed (x : HId) (fs : List ParseFrame) (u : Units) :
    u.SameButParsed (attachNode x fs u) := by
  induction fs generalizing x u with
  | nil => rfl
  | cons f rest ih =>
    cases f with
    | left t => rfl
    | right t => exact Units.SameButParsed.trans (v := u.setRightH t x) rfl (ih t _)

/-! ## One token -/

theorem exec_hufTreeLeaf {s : State} (hs : s.healthy) (v : Byte) :
    exec (.hufTreeLeaf v) s = .next { s with u := attachNode (v.setWidth 9) s.u.parseStack s.u } :=
  runToken_ok hs rfl

/-- The parser's state once the node with the next id is open (42_huffman.md R240). -/
def Units.openNode (u : Units) : Units :=
  { u with nextH := u.nextH + 1, parseStack := .left (u.nextH.setWidth 9) :: u.parseStack }

theorem exec_hufTreeInternal {s : State} (hs : s.healthy) (hn : s.u.nextH ≠ 511) :
    exec .hufTreeInternal s = .next { s with u := s.u.openNode } := by
  refine runToken_ok hs ?_
  unfold doTreeInternal
  rw [Op.units_bind, if_neg hn]
  rfl

theorem exec_hufTreeInternal_overflow {s : State} (hs : s.healthy) (hn : s.u.nextH = 511) :
    exec .hufTreeInternal s = .next (s.faultEntry .execution .treeOverflow) := by
  refine runToken_raised hs ?_
  unfold doTreeInternal
  rw [Op.units_bind, if_pos hn]
  rfl

/-! ## The tokens of a subtree -/

/-- The entries of internal node 256 + i are the same. -/
def Units.SameEntry (u v : Units) (i : Nat) : Prop :=
  v.leftOf (BitVec.ofNat 9 (256 + i)) = u.leftOf (BitVec.ofNat 9 (256 + i)) ∧
  v.rightOf (BitVec.ofNat 9 (256 + i)) = u.rightOf (BitVec.ofNat 9 (256 + i))

theorem Units.SameEntry.trans {u v w : Units} {i : Nat} (h : u.SameEntry v i) (h' : v.SameEntry w i) :
    u.SameEntry w i := ⟨h'.1.trans h.1, h'.2.trans h.2⟩

/-- What the parser has done when only attaching a subtree is left: v holds the subtree with pre-order ids from
256 + k, and differs from u in the parser's tables only, not in the entries of the ids before. -/
structure Units.ParsedBelow (u v : Units) (k : Nat) (h : Shape) : Prop where
  tree : v.holdsFrom k h = true
  nextId : v.nextH.toNat = 256 + k + h.nodes
  before : ∀ i < k, u.SameEntry v i
  frame : u.SameButParsed v

/-- The subtrees l and r, parsed one after the other below the node with id 256 + k, make the subtree of that node. -/
theorem Units.ParsedBelow.node {u v w : Units} {k : Nat} {l r : Shape} {fs : List ParseFrame}
    (hl : u.openNode.ParsedBelow v (k + 1) l)
    (hr : (attachNode (l.idFrom (k + 1)) (.left (BitVec.ofNat 9 (256 + k)) :: fs) v).ParsedBelow w (k + 1 + l.nodes) r)
    (hk : k + (Shape.node l r).nodes ≤ 255) :
    u.ParsedBelow (w.setRightH (BitVec.ofNat 9 (256 + k)) (r.idFrom (k + 1 + l.nodes))) k (.node l r) := by
  simp only [Shape.nodes] at hk
  have hid := nodeId_toNat (show k < 255 by omega)
  have hleft : ∀ i, i < k + 1 + l.nodes → i ≠ k →
      v.SameEntry (w.setRightH (BitVec.ofNat 9 (256 + k)) (r.idFrom (k + 1 + l.nodes))) i := fun i hi hne =>
    Units.SameEntry.trans (Units.entries_setLeftH (by omega) (by omega) hne _)
      ((hr.before i hi).trans (Units.entries_setRightH (by omega) (by omega) hne _))
  have hright : ∀ i, i < 255 → i ≠ k →
      w.SameEntry (w.setRightH (BitVec.ofNat 9 (256 + k)) (r.idFrom (k + 1 + l.nodes))) i := fun i hi hne =>
    Units.entries_setRightH (by omega) hi hne _
  constructor
  case tree =>
    simp only [Units.holdsFrom, Bool.and_eq_true, beq_iff_eq]
    refine ⟨⟨⟨?_, ?_⟩, ?_⟩, ?_⟩
    · exact (hr.before k (by omega)).1.trans ((Units.leftOf_setLeftH (by omega) (by omega)).trans (if_pos rfl))
    · exact (Units.rightOf_setRightH (by omega) (by omega)).trans (if_pos rfl)
    · exact (Units.holdsFrom_congr l fun i hi hi' => hleft i (by omega) (by omega)).trans hl.tree
    · exact (Units.holdsFrom_congr r fun i hi hi' => hright i (by omega) (by omega)).trans hr.tree
  case nextId =>
    have hn := hr.nextId
    simp only [Shape.nodes]
    show w.nextH.toNat = _
    omega
  case before => exact fun i hi => (hl.before i (by omega)).trans (hleft i (by omega) (by omega))
  case frame =>
    have hattach := attachNode_sameButParsed (l.idFrom (k + 1)) (.left (BitVec.ofNat 9 (256 + k)) :: fs) v
    exact (Units.SameButParsed.trans (u := u) (v := u.openNode) rfl hl.frame).trans
      ((hattach.trans hr.frame).trans rfl)

theorem Units.openNode_nextH {u : Units} {k : Nat} (hn : u.nextH.toNat = 256 + k) (hk : k < 255) :
    u.openNode.nextH.toNat = 256 + (k + 1) := by
  show (u.nextH + 1).toNat = _
  rw [BitVec.toNat_add, hn]
  exact Nat.mod_eq_of_lt (by show 256 + k + 1 < 1024; omega)

theorem Units.openNode_parseStack {u : Units} {k : Nat} (hn : u.nextH.toNat = 256 + k) :
    u.openNode.parseStack = .left (BitVec.ofNat 9 (256 + k)) :: u.parseStack := by
  rw [← hn]
  rfl

/-- The tokens of a subtree, carried out in order, do what parses it and attach it where the innermost open node wants
it; f is any way to carry on with the next token. -/
theorem foldl_tokens {f : Host.Outcome State Fault Refusal → Instr → Host.Outcome State Fault Refusal}
    (hf : ∀ q i, f (.next q) i = exec i q) (h : Shape) {k : Nat} {s : State} {fs : List ParseFrame} (hs : s.healthy)
    (hp : s.u.parseStack = fs) (hn : s.u.nextH.toNat = 256 + k) (hk : k + h.nodes ≤ 255) :
    ∃ v, h.tokens.foldl f (.next s) = .next { s with u := attachNode (h.idFrom k) fs v } ∧
      s.u.ParsedBelow v k h := by
  subst hp
  induction h generalizing k s with
  | leaf v => exact ⟨s.u, (hf s _).trans (exec_hufTreeLeaf hs v), rfl, hn, fun _ _ => ⟨rfl, rfl⟩, rfl⟩
  | node l r ihl ihr =>
    have hnodes : k + (l.nodes + r.nodes + 1) ≤ 255 := hk
    have hfree : s.u.nextH ≠ 511 := fun h => by
      have h511 : s.u.nextH.toNat = 511 := congrArg BitVec.toNat h
      omega
    have hstack := Units.openNode_parseStack hn
    have hopen := Units.openNode_nextH hn (by omega)
    obtain ⟨v, hfl, hl⟩ := ihl (s := { s with u := s.u.openNode }) hs hopen (by omega)
    have hnext := hl.nextId
    obtain ⟨w, hfr, hr⟩ := ihr (s := { s with u := attachNode (l.idFrom (k + 1)) s.u.openNode.parseStack v })
      (k := k + 1 + l.nodes) hs (by rw [hstack]; show v.nextH.toNat = _; omega) (by omega)
    dsimp only at hr
    rw [hstack] at hr
    refine ⟨_, ?_, hl.node hr hk⟩
    rw [Shape.tokens, List.foldl_cons, hf, exec_hufTreeInternal hs hfree, List.foldl_append, hfl, hfr]
    dsimp only
    rw [hstack]
    rfl

/-- The tokens of a whole tree, carried out from an idle parser, build it. -/
theorem foldl_tokens_tree {f : Host.Outcome State Fault Refusal → Instr → Host.Outcome State Fault Refusal}
    (hf : ∀ q i, f (.next q) i = exec i q) {h : Shape} {s : State} (hs : s.healthy) (hp : s.u.parseStack = [])
    (hn : s.u.nextH = 256) (hk : h.nodes ≤ 255) :
    ∃ t, h.tokens.foldl f (.next s) = .next t ∧ t.u.rootH = h.idFrom 0 ∧ t.u.holdsFrom 0 h = true ∧
      t.u.parseStack = [] ∧ t.u.nextH.toNat = 256 + h.nodes ∧
      t = { s with u := { s.u with
        leftH := t.u.leftH, rightH := t.u.rightH, rootH := t.u.rootH, nextH := t.u.nextH, parseStack := [] } } := by
  obtain ⟨v, hfold, hv⟩ := foldl_tokens hf h (k := 0) hs hp (by rw [hn]; rfl) (by omega)
  refine ⟨_, hfold, rfl, ?_, rfl, hv.nextId, ?_⟩
  · have hsame : (attachNode (h.idFrom 0) [] v).holdsFrom 0 h = v.holdsFrom 0 h :=
      Units.holdsFrom_congr h fun _ _ _ => ⟨rfl, rfl⟩
    exact hsame.trans hv.tree
  · have hframe : s.u.SameButParsed (attachNode (h.idFrom 0) [] v) := hv.frame.trans rfl
    exact congrArg (fun u => ({ s with u := u } : State)) hframe

/-- An id with entries in the node table (10_state.md R41). -/
theorem toNat_lt_of_ne_nilH {w : HId} (h : w ≠ nilH) : w.toNat < 511 := by
  have hne : w.toNat ≠ 511 := fun he => h (BitVec.eq_of_toNat_eq he)
  omega

/-- Settles O47: the fold by induction over the tree, each token alone by the one entry it sets. -/
theorem treeTokensBuildTheTree : Obligations.TreeTokensBuildTheTree := by
  refine ⟨fun s h hs hp hn hk => foldl_tokens_tree (fun _ _ => rfl) hs hp hn hk,
    fun s v hs => ⟨fun hp => ?_, fun w fs hp hw hw' => ?_, fun w hp hw hw' => ?_⟩,
    fun s hs => ⟨exec_hufTreeInternal hs, fun hn => ?_⟩⟩
  · rw [exec_hufTreeLeaf hs, hp]
    have hidle : attachNode (v.setWidth 9) [] s.u = { s.u with rootH := v.setWidth 9, parseStack := [] } := rfl
    rw [hidle, ← hp]
  · have hset := fun x => Units.leftOf_setLeftH (u := s.u) (r := x) (x := v.setWidth 9) hw (toNat_lt_of_ne_nilH hw')
    refine ⟨_, exec_hufTreeLeaf hs v, ?_, ?_, ?_⟩
    all_goals rw [hp]
    · exact (hset w).trans (if_pos rfl)
    · exact fun x _ hx => (hset x).trans (if_neg hx)
    · rfl
  · have hset := fun x => Units.rightOf_setRightH (u := s.u) (r := x) (x := v.setWidth 9) hw (toNat_lt_of_ne_nilH hw')
    refine ⟨_, exec_hufTreeLeaf hs v, ?_, ?_, ?_⟩
    all_goals rw [hp]
    · exact (hset w).trans (if_pos rfl)
    · exact fun x _ hx => (hset x).trans (if_neg hx)
    · rfl
  · exact ⟨_, exec_hufTreeInternal_overflow hs hn, State.faultEntry_fcode _ _ _, State.faultEntry_fcmd _ _ _,
      State.faultEntry_fault _ _ _, State.faultEntry_done _ _ _⟩

end Sys2Proof.Machine
end

section
/-! SUPPORT. Block control: what BLK.RESET leaves in the tables, the two other BLK commands, and how any command leaves
STATUS. -/

namespace Sys2Proof.Machine

/-! ## The tables after BLK.RESET (10_state.md R70) -/

@[simp] theorem resetUnits_weightAt (n : Nat) (b : Byte) : (resetUnits n).weightAt b = 0 := Vector.getElem_replicate _

@[simp] theorem resetUnits_codeValid (n : Nat) (b : Byte) : (resetUnits n).codeValid b = false :=
  Vector.getElem_replicate _

@[simp] theorem resetUnits_rootOf (n : Nat) (c : Byte) : (resetUnits n).rootOf c = none := Vector.getElem_replicate _

@[simp] theorem resetUnits_written (n k : Nat) : (resetUnits n).written k = false := rfl

@[simp] theorem resetUnits_parentOf (n : Nat) (p : Pos) : (resetUnits n).parentOf p = none := Vector.getElem_replicate _

@[simp] theorem resetUnits_leftOfD (n : Nat) (p : Pos) : (resetUnits n).leftOfD p = none := Vector.getElem_replicate _

@[simp] theorem resetUnits_rightOfD (n : Nat) (p : Pos) : (resetUnits n).rightOfD p = none := Vector.getElem_replicate _

@[simp] theorem resetUnits_isMember (n : Nat) (p : Pos) : (resetUnits n).isMember p = false :=
  Vector.getElem_replicate _

/-- BLK.RESET looks at no state, a pending fault included (40_block_control.md R161). -/
theorem exec_blkReset (s : State) : exec .blkReset s = .next s.blockReset := rfl

/-- Settles O11: the next state is `State.blockReset` whatever the state; its registers hold their values by definition,
its tables by the lemmas above. -/
theorem blkResetRestoresResetState : Obligations.BlkResetRestoresResetState := by
  intro s
  refine ⟨s.blockReset, exec_blkReset s, s.blockReset_cmd, rfl, s.blockReset_arg0, s.blockReset_arg1, s.blockReset_arg2,
    s.blockReset_res0, s.blockReset_res1, s.blockReset_slen, s.blockReset_ipos, s.blockReset_opos, s.blockReset_olen,
    rfl, rfl, rfl, rfl, rfl, rfl, rfl, rfl, rfl, rfl, rfl, rfl, rfl, ?bytes, ?window, ?positions,
    s.blockReset_src, s.blockReset_out, s.blockReset_params, s.blockReset_moves⟩
  case bytes => exact fun b => ⟨resetUnits_weightAt _ b, resetUnits_codeValid _ b, resetUnits_rootOf _ b⟩
  case window => exact resetUnits_written _
  case positions =>
    exact fun p =>
      ⟨resetUnits_parentOf _ p, resetUnits_leftOfD _ p, resetUnits_rightOfD _ p, resetUnits_isMember _ p⟩

/-! ## How a command leaves STATUS (40_block_control.md R160) -/

/-- A write to CMD to a block without a pending fault ends with DONE or with FAULT (60_exceptions.md R382). -/
theorem CmdEffect.done_eq {v : Word} {s t : State} (h : CmdEffect v s t) (hs : s.healthy) :
    t.status.done = !t.status.fault := by
  cases h with
  | ignored hf => exact absurd (hs.symm.trans hf) (by decide)
  | reset => rfl
  | check => rfl
  | faulted i c q => rw [State.faultEntry_done, State.faultEntry_fault, Bool.not_true]
  | completed i q _ _ _ _ hb =>
    obtain ⟨-, hst⟩ := bodyOf_control_ok hb
    have hfault : q.completed.status.fault = false := (congrArg Status.fault hst).trans hs
    rw [hfault]
    rfl

/-- A command that completes changes STATUS in DONE only, BLK.RESET apart. -/
theorem exec_status_complete {s t : State} {i : Instr} {v : Word} (hs : s.healthy)
    (hi : commandWord s.params i = some v) (hr : i ≠ .blkReset) (h : exec i s = .next t)
    (ht : t.status.fault = false) : t.status = s.status.complete := by
  rw [exec_command hi hr] at h
  rcases runCommand_cases hs h with ⟨c, -, rfl⟩ | ⟨-, ⟨q, hb, rfl⟩ | ⟨c, q, -, rfl⟩⟩
  · cases ht
  · obtain ⟨-, hst⟩ := bodyOf_control_ok hb
    exact (congrArg Status.complete hst).trans s.status.begin_complete
  · rw [State.faultEntry_fault] at ht
    cases ht

/-- Settles O16: no pseudocode touches STATUS, so only the command's end does: completion sets DONE, fault entry sets
FAULT and clears DONE. -/
theorem commandsEndDoneOrFaulted : Obligations.CommandsEndDoneOrFaulted := by
  intro s t i v hs hi h
  have heffect := exec_effect hi h
  refine ⟨heffect.cmd_eq, heffect.done_eq hs, fun ht hr => ?_⟩
  rw [exec_status_complete hs hi hr h ht]
  exact ⟨rfl, rfl⟩

/-! ## A write to CMD that decodes (40_block_control.md R160) -/

theorem onCmdWrite_decoded {s : State} {v : Word} {i : Instr}
    (h : decodeCommand ⟨v, s.arg0, s.arg1, s.arg2⟩ = .ok i) : onCmdWrite v s = exec i s := by
  unfold onCmdWrite
  rw [h]

/-- Settles O5: the move is carried out on the state without it, whose operand registers are the same. -/
theorem stepRunsTheDecodedCommand : Obligations.StepRunsTheDecodedCommand := by
  intro s v rest i hm hd
  rw [step_writeCmd hm]
  exact onCmdWrite_decoded (s := { s with moves := rest }) hd

/-! ## BLK.NOP and BLK.STREAM_INIT (40_block_control.md R162, R163) -/

theorem exec_blkNop (s : State) : exec .blkNop s = runCommand 0 none (pure ()) s := rfl

theorem exec_blkStreamInit (s : State) : exec .blkStreamInit s = runCommand 2 none streamInit s := rfl

/-- Settles O26: neither command has a check and neither pseudocode can fault; a pending fault stops both before it. -/
theorem nopAndStreamInit : Obligations.NopAndStreamInit := by
  intro s
  rw [exec_blkNop, exec_blkStreamInit]
  exact ⟨fun hs => ⟨runCommand_ok hs rfl, runCommand_ok (body := streamInit) hs rfl⟩,
    fun hf => ⟨runCommand_ignored hf, runCommand_ignored hf⟩⟩

end Sys2Proof.Machine
end

section
/-! SUPPORT. The bit stream writer: WRITE_BITS and FLUSH when every access goes well. -/

namespace Sys2Proof.Machine

/-! ## WRITE_BITS and FLUSH with true draws and room (41_bit_stream.md R180) -/

/-- A bit count up to 32 with a flag passes the check (30_encoding.md R121). -/
theorem checkFault_count_flag {c f : Word} (hc : c.toNat ≤ 32) (hf : f.toNat ≤ 1) :
    checkFault (isCount c && isFlag f) true = none :=
  checkFault_none.mpr ⟨Bool.and_eq_true_iff.mpr ⟨decide_eq_true hc, decide_eq_true hf⟩, rfl⟩

theorem exec_bswWriteBits (v c f : Word) (s : State) : exec (.bswWriteBits v c f) s =
    runCommand 0x10 (checkFault (isCount c && isFlag f) true) (writeBits v.toNat c.toNat (f == 1)) s := rfl

/-- With operands in range the command runs its pseudocode. -/
theorem exec_bswWriteBits_runs {v c f : Word} {s : State} (hs : s.healthy) (hc : c.toNat ≤ 32) (hf : f.toNat ≤ 1) :
    exec (.bswWriteBits v c f) s = finish (writeBits v.toNat c.toNat (f == 1) (s.begin 0x10)) := by
  rw [exec_bswWriteBits, checkFault_count_flag hc hf, runCommand_runs hs]

/-- Settles O28: the check passes, and WriteBits appends the bits, with a flush behind them when asked. -/
theorem writeBitsPacksBits : Obligations.WriteBitsPacksBits := by
  intro s v c hs hio hw hc
  constructor
  · intro hr
    rw [exec_bswWriteBits_runs hs hc (by decide)]
    exact congrArg finish (writeBits_ok _ _ (s := s.begin 0x10) hio hw hr)
  · intro hr
    rw [exec_bswWriteBits_runs hs hc (by decide)]
    exact congrArg finish (writeBits_flush_ok _ _ (s := s.begin 0x10) hio hw hr)

/-! ## A flush (41_bit_stream.md R182, R183) -/

theorem exec_bswFlush_eq_writeBits (s : State) : exec .bswFlush s = exec (.bswWriteBits 0 0 1) s := rfl

@[simp] theorem State.flushed_u (s : State) : s.flushed.u = s.u := by unfold State.flushed; split <;> rfl

@[simp] theorem State.flushed_opos (s : State) : s.flushed.opos = s.opos := by unfold State.flushed; split <;> rfl

@[simp] theorem State.flushed_params (s : State) : s.flushed.params = s.params := by
  unfold State.flushed; split <;> rfl

@[simp] theorem State.flushed_status (s : State) : s.flushed.status = s.status := by
  unfold State.flushed; split <;> rfl

theorem State.flushed_ioFine {s : State} (h : s.ioFine) : s.flushed.ioFine := by
  unfold State.flushed
  split
  · exact State.ioFine_draw h 2
  · exact h

/-- With no partial byte there is nothing to flush (41_bit_stream.md R183). -/
theorem State.flushed_of_empty {s : State} (h : ¬ s.u.wfree.toNat < 8) : s.flushed = s := if_neg h

theorem State.flushed_of_partial {s : State} (h : s.u.wfree.toNat < 8) :
    s.flushed = { s.putByte s.u.wpb with opos := s.opos, io := s.io.drop 2 } := if_pos h

/-- BSW.FLUSH is a flush of the buffered bits as they stand (41_bit_stream.md R183). -/
theorem exec_bswFlush {s : State} (hs : s.healthy) (hio : s.ioFine) (hw : s.u.writerOk) (hr : s.room 1) :
    exec .bswFlush s = .next (s.begin 0x10).flushed.completed := by
  have hr' : s.room (s.u.bytesFor ((0 : Word).toNat + 7)) := by
    obtain ⟨hsize, hfit⟩ := hr
    have h1 := hw.1
    have h0 : (0 : Word).toNat = 0 := rfl
    exact ⟨hsize, by simp only [Units.bytesFor]; omega⟩
  rw [exec_bswFlush_eq_writeBits, (writeBitsPacksBits s 0 0 hs hio hw (by decide)).2 hr']
  exact congrArg (fun q : State => Host.Outcome.next q.flushed.completed) (State.emit_nil (s := s.begin 0x10) hw)

/-- A second flush finds the byte in place (41_bit_stream.md R183). -/
theorem State.flushed_flushed_out (s : State) : s.flushed.flushed.out = s.flushed.out := by
  by_cases h : s.u.wfree.toNat < 8
  · rw [State.flushed_of_partial (s := s.flushed) (by rwa [State.flushed_u]), State.flushed_of_partial h]
    exact Memory.write_write _ _ _ _
  · rw [State.flushed_of_empty h, State.flushed_of_empty h]

/-- The next flush starts from the state the last one's command left, DONE cleared again. -/
theorem State.begin_completed_flushed (v : Word) (s : State) :
    (s.begin v).flushed.completed.begin v = (s.begin v).flushed := by
  unfold State.flushed
  split <;> rfl

/-- A flushed partial byte lies at OPOS (41_bit_stream.md R182). -/
theorem State.flushed_partial_byte {s : State} (h : s.u.wfree.toNat < 8) (hr : s.room 1) :
    s.flushed.outByte s.opos.toNat = s.u.wpb ∧ s.flushed.olen.toNat = max s.olen.toNat (s.opos.toNat + 1) := by
  rw [State.flushed_of_partial h]
  exact ⟨(s.putByte_outByte s.u.wpb s.opos.toNat).trans (if_pos rfl), State.putByte_olen s.u.wpb hr⟩

/-- Settles O29: both commands are flushes from states with the same writer and OPOS, so that the second writes the byte
the first wrote. -/
theorem flushTwiceWritesTheSameByte : Obligations.FlushTwiceWritesTheSameByte := by
  intro s hs hio hw hr
  have hu : (s.begin 0x10).flushed.u = s.u := (s.begin 0x10).flushed_u
  have hopos : (s.begin 0x10).flushed.opos = s.opos := (s.begin 0x10).flushed_opos
  have hparams : (s.begin 0x10).flushed.params = s.params := (s.begin 0x10).flushed_params
  have hfault : (s.begin 0x10).flushed.status.fault = false := (congrArg Status.fault (State.flushed_status _)).trans hs
  have hio' : (s.begin 0x10).flushed.ioFine := State.flushed_ioFine (s := s.begin 0x10) hio
  have hsecond : exec .bswFlush (s.begin 0x10).flushed.completed = .next (s.begin 0x10).flushed.flushed.completed := by
    rw [exec_bswFlush (s := (s.begin 0x10).flushed.completed) hfault hio' (by rw [← hu] at hw; exact hw)
      (by rw [State.room, ← hparams, ← hopos] at hr; exact hr), State.begin_completed_flushed]
  refine ⟨_, _, exec_bswFlush hs hio hw hr, hsecond, State.flushed_flushed_out _,
    (State.flushed_opos _).trans hopos, hopos, hu, (State.flushed_u _).trans hu,
    fun h => State.flushed_partial_byte (s := s.begin 0x10) h hr, fun h => ?_⟩
  have hempty : ¬ (s.begin 0x10).u.wfree.toNat < 8 := by
    rw [State.begin_u, h]
    decide
  rw [State.flushed_of_empty hempty, State.flushed_of_empty hempty]
  exact ⟨rfl, rfl⟩

end Sys2Proof.Machine
end

section
/-! SUPPORT. The output read as one bit string: what WriteBits appends to it, whatever the draws of io_ok. -/

namespace Sys2Proof.Machine

/-! ## The output law (41_bit_stream.md R185) -/

/-- The output so far is B, and the writer has at least lo free bits and nothing above the buffered ones. Between
commands lo = 1 (10_state.md R32); inside WriteBits a full byte, lo = 0, occurs. -/
structure State.Written (lo : Nat) (B : List Bool) (s : State) : Prop where
  size : s.params.outSize < 2 ^ 64
  writer : lo ≤ s.u.wfree.toNat ∧ s.u.wfree.toNat ≤ 8 ∧ s.u.wpb.toNat < 2 ^ (8 - s.u.wfree.toNat)
  bits : s.outBits = B

/-- Buffered bits join the ones buffered before (41_bit_stream.md R180). -/
theorem Units.pendingBits_bufferBits {u : Units} (v : Nat) {k : Nat} (hk : k ≤ u.wfree.toNat) (h8 : u.wfree.toNat ≤ 8)
    (hw : u.wpb.toNat < 2 ^ (8 - u.wfree.toNat)) :
    (u.bufferBits v k).pendingBits = u.pendingBits ++ wordBits k v := by
  obtain ⟨hfree, -⟩ := Units.bufferBits_writer v hk h8 hw
  have hfit : (v % 2 ^ k) <<< (8 - u.wfree.toNat) < 2 ^ 8 := by
    rw [Nat.shiftLeft_eq]
    calc v % 2 ^ k * 2 ^ (8 - u.wfree.toNat) < 2 ^ k * 2 ^ (8 - u.wfree.toNat) :=
          Nat.mul_lt_mul_of_pos_right (Nat.mod_lt _ (Nat.two_pow_pos k)) (Nat.two_pow_pos _)
      _ = 2 ^ (k + (8 - u.wfree.toNat)) := (Nat.pow_add 2 _ _).symm
      _ ≤ 2 ^ 8 := Nat.pow_le_pow_right (by omega) (by omega)
  have hwpb : (u.bufferBits v k).wpb.toNat = u.wpb.toNat + 2 ^ (8 - u.wfree.toNat) * (v % 2 ^ k) := by
    show (u.wpb ||| BitVec.ofNat 8 ((v % 2 ^ k) <<< (8 - u.wfree.toNat))).toNat = _
    rw [BitVec.toNat_or, BitVec.toNat_ofNat, Nat.mod_eq_of_lt hfit, Nat.or_comm, ← Nat.shiftLeft_add_eq_or_of_lt hw,
      Nat.shiftLeft_eq, Nat.mul_comm, Nat.add_comm]
  have hdiv : (u.wpb.toNat + 2 ^ (8 - u.wfree.toNat) * (v % 2 ^ k)) / 2 ^ (8 - u.wfree.toNat) = v % 2 ^ k := by
    rw [Nat.add_mul_div_left _ _ (Nat.two_pow_pos _), Nat.div_eq_of_lt hw, Nat.zero_add]
  have hmod : (u.wpb.toNat + 2 ^ (8 - u.wfree.toNat) * (v % 2 ^ k)) % 2 ^ (8 - u.wfree.toNat) = u.wpb.toNat := by
    rw [Nat.add_mul_mod_self_left, Nat.mod_eq_of_lt hw]
  rw [Units.pendingBits, hfree, hwpb, show 8 - (u.wfree.toNat - k) = (8 - u.wfree.toNat) + k by omega, wordBits_add,
    hdiv, wordBits_mod k k v (Nat.le_refl k), ← wordBits_mod _ _ (_ + _) (Nat.le_refl _), hmod, Units.pendingBits]

theorem State.Written.bufferBits {B : List Bool} {s : State} (h : s.Written 1 B) (v : Nat) {k : Nat}
    (hk : k ≤ s.u.wfree.toNat) : ({ s with u := s.u.bufferBits v k } : State).Written 0 (B ++ wordBits k v) := by
  obtain ⟨hsize, ⟨-, h8, hw⟩, rfl⟩ := h
  obtain ⟨hfree, hlt⟩ := Units.bufferBits_writer v hk h8 hw
  refine ⟨hsize, ⟨Nat.zero_le _, hfree.le.trans (by omega), hlt⟩, ?_⟩
  show _ ++ (s.u.bufferBits v k).pendingBits = (_ ++ s.u.pendingBits) ++ wordBits k v
  rw [Units.pendingBits_bufferBits v hk h8 hw, List.append_assoc]
  rfl

/-- The bytes below OPOS after a byte is written there. -/
theorem State.outByte_putByte_below (s : State) (b : Byte) :
    (List.range s.opos.toNat).map (s.putByte b).outByte = (List.range s.opos.toNat).map s.outByte :=
  List.map_congr_left fun k hk => by
    rw [State.putByte_outByte, if_neg (Nat.ne_of_lt (List.mem_range.mp hk))]

/-- A full byte goes out: the same bits, now below OPOS (41_bit_stream.md R181). -/
theorem State.outBits_putByte {s : State} (h : s.opos.toNat < s.params.outSize) (hP : s.params.outSize < 2 ^ 64)
    (h0 : s.u.wfree = 0) (u : Units) (hu : u.wfree = 8) :
    ({ s.putByte s.u.wpb with u := u } : State).outBits = s.outBits := by
  have hpos : (s.putByte s.u.wpb).opos.toNat = s.opos.toNat + 1 := word_succ_toNat h hP
  have hnone : u.pendingBits = [] := by
    rw [Units.pendingBits, hu]
    rfl
  have hall : s.u.pendingBits = wordBits 8 s.u.wpb.toNat := by
    rw [Units.pendingBits, h0]
    rfl
  have hbelow := s.outByte_putByte_below s.u.wpb
  have hat : (s.putByte s.u.wpb).outByte s.opos.toNat = s.u.wpb := (s.putByte_outByte _ _).trans (if_pos rfl)
  show bytesBits ((List.range (s.putByte s.u.wpb).opos.toNat).map (s.putByte s.u.wpb).outByte) ++ u.pendingBits =
    bytesBits ((List.range s.opos.toNat).map s.outByte) ++ s.u.pendingBits
  rw [hpos, List.range_succ, List.map_append, hbelow, List.map_singleton, hat, bytesBits_append, bytesBits_cons,
    bytesBits_nil, hnone, hall, List.append_nil, List.append_nil]

theorem runs_emitFullByte (B : List Bool) :
    Op.Runs (State.Written 0 B) emitFullByte fun _ => State.Written 1 B := .intro fun s hs => by
  obtain ⟨hsize, ⟨-, h8, hw⟩, rfl⟩ := hs
  unfold emitFullByte
  rw [Op.units_bind]
  by_cases h0 : s.u.wfree = 0
  · rw [if_pos h0]
    rcases sinkWrite_cases s.u.wpb s with h | ⟨hr, h⟩
    · exact .inr ⟨_, _, Op.bind_error h⟩
    · exact .inl ⟨_, _, Op.bind_ok h, hsize, emptied_writer, State.outBits_putByte hr hsize h0 _ rfl⟩
  · have hne : s.u.wfree.toNat ≠ 0 := fun h => h0 (BitVec.eq_of_toNat_eq h)
    rw [if_neg h0]
    exact .inl ⟨_, _, rfl, hsize, ⟨by omega, h8, hw⟩, rfl⟩

/-- Each round appends its chunk of the value, lowest bits first (41_bit_stream.md R180). -/
theorem runs_writeLoop (fuel v c : Nat) (B : List Bool) (hf : c < fuel) :
    Op.Runs (State.Written 1 B) (writeLoop fuel v c) fun _ => State.Written 1 (B ++ wordBits c v) := by
  induction fuel generalizing v c B with
  | zero => exact absurd hf (Nat.not_lt_zero c)
  | succ fuel ih =>
    refine .ite (fun h0 => .pure fun s hs => ?_) fun h0 => .withUnits fun u => ?_
    · rw [h0, wordBits, List.append_nil]
      exact hs
    · by_cases hu : 1 ≤ u.wfree.toNat
      swap
      · exact .absurd fun s hs => hu (hs.2 ▸ hs.1.writer.1)
      have hk : min c u.wfree.toNat + (c - min c u.wfree.toNat) = c := by omega
      have hsplit : wordBits c v = wordBits (min c u.wfree.toNat) v ++
          wordBits (c - min c u.wfree.toNat) (v >>> min c u.wfree.toNat) := by
        rw [Nat.shiftRight_eq_div_pow, ← wordBits_add, hk]
      rw [hsplit, ← List.append_assoc]
      refine (Op.Runs.setUnits fun s hs => ?_).bind fun _ => (runs_emitFullByte _).bind fun _ => ih _ _ _ (by omega)
      obtain ⟨hs, rfl⟩ := hs
      exact hs.bufferBits v (Nat.min_le_right _ _)

/-- A flush writes at OPOS, not below it, and comes back (41_bit_stream.md R182). -/
theorem runs_flushPartial (B : List Bool) :
    Op.Runs (State.Written 1 B) flushPartial fun _ => State.Written 1 B := .intro fun s hs => by
  obtain ⟨hsize, hw, rfl⟩ := hs
  unfold flushPartial
  rw [Op.units_bind]
  by_cases h8 : s.u.wfree.toNat < 8
  swap
  · rw [if_neg h8]
    exact .inl ⟨_, _, rfl, hsize, hw, rfl⟩
  rw [if_pos h8]
  rcases sinkWrite_cases s.u.wpb s with h | ⟨hr, h⟩
  · exact .inr ⟨_, _, Op.bind_error h⟩
  rw [Op.bind_ok h]
  rcases sinkSeek_back_cases (s.putByte s.u.wpb) with h' | ⟨-, h'⟩
  · exact .inr ⟨_, _, h'⟩
  have hback : (BitVec.ofNat 64 ((s.putByte s.u.wpb).opos.toNat - 1)).toNat = s.opos.toNat := by
    have hpos : (s.putByte s.u.wpb).opos.toNat = s.opos.toNat + 1 := word_succ_toNat hr hsize
    rw [BitVec.toNat_ofNat, hpos]
    exact Nat.mod_eq_of_lt s.opos.isLt
  refine .inl ⟨_, _, h', hsize, hw, ?_⟩
  show bytesBits ((List.range (BitVec.ofNat 64 ((s.putByte s.u.wpb).opos.toNat - 1)).toNat).map
    (s.putByte s.u.wpb).outByte) ++ s.u.pendingBits = s.outBits
  rw [hback, State.outByte_putByte_below]
  rfl

theorem runs_writeBits (v c : Nat) (f : Bool) (B : List Bool) :
    Op.Runs (State.Written 1 B) (writeBits v c f) fun _ => State.Written 1 (B ++ wordBits c v) := by
  refine Op.Runs.bind (Q := fun _ => State.Written 1 (B ++ wordBits c v)) ?_ fun _ =>
    .ite (fun _ => runs_flushPartial _) fun _ => .pure fun _ h => h
  rw [← wordBits_mod c c v (Nat.le_refl c)]
  exact runs_writeLoop _ _ _ _ (Nat.lt_succ_self c)

/-- Settles O30: a command that ends without a fault has run WriteBits to its end, every chunk of which appends its bits
to the output. -/
theorem writtenBitsAreAppended : Obligations.WrittenBitsAreAppended := by
  intro s t v c f hs hw hP h ht
  rw [exec_bswWriteBits] at h
  rcases runCommand_cases hs h with ⟨e, -, rfl⟩ | ⟨-, ⟨q, hb, rfl⟩ | ⟨e, q, -, rfl⟩⟩
  · cases ht
  · obtain ⟨-, hwriter, hbits⟩ := (runs_writeBits v.toNat c.toNat (f == 1) s.outBits).of_ok
      (s := s.begin 0x10) ⟨hP, hw, rfl⟩ hb
    exact ⟨hbits, hwriter⟩
  · rw [State.faultEntry_fault] at ht
    cases ht

end Sys2Proof.Machine
end

section
/-! SUPPORT. The bit stream reader: what READ_BITS leaves of the stream, and what a refresh does before the read. -/

namespace Sys2Proof.Machine

/-! ## READ_BITS without refresh (41_bit_stream.md R190, R192) -/

theorem exec_bsrReadBits (c r : Word) (s : State) : exec (.bsrReadBits c r) s =
    runCommand 0x20 (checkFault (isCount c && isFlag r) true)
      (readBits c.toNat (r == 1) >>= fun va => setRes va.1 va.2) s := rfl

/-- With operands in range the command runs its pseudocode. -/
theorem exec_bsrReadBits_runs {c r : Word} {s : State} (hs : s.healthy) (hc : c.toNat ≤ 32) (hr : r.toNat ≤ 1) :
    exec (.bsrReadBits c r) s = finish ((readBits c.toNat (r == 1) >>= fun va => setRes va.1 va.2) (s.begin 0x20)) := by
  rw [exec_bsrReadBits, checkFault_count_flag hc hr, runCommand_runs hs]

/-- A read takes its bits off the front of the stream; a short one takes all there are (41_bit_stream.md R192, R194). -/
theorem State.read_inBits {s : State} (h : s.u.readerOk) (c : Nat) : (s.read c).inBits = s.inBits.drop c := by
  by_cases hc : c ≤ s.inBits.length
  · rw [State.read_of_le hc, State.consume_inBits h hc]
  · have hread : s.read c = (s.consume s.inBits.length).draw 1 := if_neg hc
    rw [hread, List.drop_of_length_le (by omega)]
    exact (State.consume_inBits h (Nat.le_refl _)).trans List.drop_length

theorem State.read_readerOk {s : State} (h : s.u.readerOk) (c : Nat) : (s.read c).u.readerOk := by
  unfold State.read
  split
  · exact State.consume_readerOk h c
  · exact State.consume_readerOk h s.inBits.length

/-- Settles O31: the check passes, ReadBits answers the next bits and their number, and the results are set to them. -/
theorem readBitsTakesTheNextBits : Obligations.ReadBitsTakesTheNextBits := by
  intro s c hs hio hr hc
  refine ⟨?_, s.length_inBits hr, State.read_inBits hr _, State.read_readerOk hr _⟩
  rw [exec_bsrReadBits_runs hs hc (by decide)]
  exact congrArg finish (Op.bind_ok (readBits_ok c.toNat (s := s.begin 0x20) hio hr))

/-! ## Refresh (41_bit_stream.md R191) -/

theorem word_pred_toNat {w : Word} (h : 1 ≤ w.toNat) : (w - 1).toNat = w.toNat - 1 :=
  BitVec.toNat_sub_of_le h

/-- With no parked byte a refresh does nothing. -/
theorem refresh_empty {s : State} (h : s.u.rcnt.toNat = 0) : refresh s = .ok () s := by
  unfold refresh
  rw [Op.units_bind, if_pos h]
  rfl

/-- A refresh of a parked byte steps back onto it. -/
theorem srcSeek_one_back {s : State} (hio : s.ioFine) (hi : 1 ≤ s.ipos.toNat) :
    srcSeek (-1) s = .ok () { s with ipos := s.ipos - 1, io := s.io.drop 1 } :=
  srcSeek_ok hio (by rw [word_pred_toNat hi]; omega)

/-- The byte before IPOS, read after that step, brings IPOS back. -/
theorem srcRead_stepped_back {s : State} (hio : s.ioFine) (hi : 1 ≤ s.ipos.toNat) (hl : s.ipos.toNat ≤ s.slen.toNat) :
    srcRead { s with ipos := s.ipos - 1, io := s.io.drop 1 } =
      .ok (some (s.srcByte (s.ipos.toNat - 1))) { s with io := s.io.drop 2 } := by
  have hpred := word_pred_toNat hi
  rw [srcRead_some (s := { s with ipos := s.ipos - 1, io := s.io.drop 1 }) (State.ioFine_draw hio 1)
    (by dsimp only; omega), List.drop_drop, BitVec.sub_add_cancel, hpred]
  rfl

/-- The parked byte is read again where it was, and the source position is back. -/
theorem refresh_parked {s : State} (hio : s.ioFine) (hp : 1 ≤ s.u.rcnt.toNat) (hi : 1 ≤ s.ipos.toNat)
    (hl : s.ipos.toNat ≤ s.slen.toNat) :
    refresh s = .ok () { s with io := s.io.drop 2, u := { s.u with rpb := s.srcByte (s.ipos.toNat - 1) } } := by
  unfold refresh
  rw [Op.units_bind, if_neg (by omega), Op.bind_ok (srcSeek_one_back hio hi),
    Op.bind_ok (srcRead_stepped_back hio hi hl)]
  rfl

/-- With the byte no longer in the source the refresh is lost, one byte back. -/
theorem refresh_lost {s : State} (hio : s.ioFine) (hp : 1 ≤ s.u.rcnt.toNat) (hi : 1 ≤ s.ipos.toNat)
    (hl : s.slen.toNat < s.ipos.toNat) :
    refresh s = .error (.raised .refreshLost) (({ s with ipos := s.ipos - 1 } : State).draw 2) := by
  have hpred := word_pred_toNat hi
  have hread := srcRead_none (s := { s with ipos := s.ipos - 1, io := s.io.drop 1 }) (State.ioFine_draw hio 1)
    (by dsimp only; omega)
  unfold refresh
  rw [Op.units_bind, if_neg (by omega), Op.bind_ok (srcSeek_one_back hio hi), Op.bind_ok hread]
  exact congrArg (EStateM.Result.error _) (State.draw_draw { s with ipos := s.ipos - 1 } 1 1)

/-- With refresh ReadBits is a refresh, then the read. -/
theorem readBits_refresh (c : Nat) : readBits c true = refresh >>= fun _ => readBits c false := rfl

/-- READ_BITS with refresh is READ_BITS on the state the refresh leaves. -/
theorem exec_bsrReadBits_refreshed {s s' : State} {c : Word} (hs : s.healthy) (hs' : s'.healthy) (hc : c.toNat ≤ 32)
    (h : refresh (s.begin 0x20) = .ok () (s'.begin 0x20)) : exec (.bsrReadBits c 1) s = exec (.bsrReadBits c 0) s' := by
  have hread : readBits c.toNat true (s.begin 0x20) = readBits c.toNat false (s'.begin 0x20) := by
    rw [readBits_refresh, Op.bind_ok h]
  rw [exec_bsrReadBits_runs hs hc (by decide), exec_bsrReadBits_runs hs' hc (by decide), Op.bind_eq, Op.bind_eq,
    show ((1 : Word) == 1) = true from rfl, show ((0 : Word) == 1) = false from rfl, hread]

/-- Settles O32: a refresh does nothing, or reads the parked byte again, or is lost; then the read goes on or the
command faults. -/
theorem refreshReadsTheParkedByteAgain : Obligations.RefreshReadsTheParkedByteAgain := by
  intro s c hs hio hc
  refine ⟨fun h0 => exec_bsrReadBits_refreshed hs hs hc (refresh_empty (s := s.begin 0x20) h0),
    fun hp hi hl => exec_bsrReadBits_refreshed hs hs hc (refresh_parked (s := s.begin 0x20) hio hp hi hl),
    fun hp hi hl => ?_⟩
  have hlost := refresh_lost (s := s.begin 0x20) hio hp hi hl
  refine ⟨(({ s.begin 0x20 with ipos := s.ipos - 1 } : State).draw 2).faultEntry .execution .refreshLost,
    ?exec, ?status, word_pred_toNat hi⟩
  case exec =>
    rw [exec_bsrReadBits_runs hs hc (by decide)]
    exact congrArg finish (Op.bind_error (Op.bind_error hlost))
  case status => exact show Status.word ⟨false, true, 5, 0x20⟩ = 0x2052 by decide

end Sys2Proof.Machine
end

section
/-! SUPPORT. How a command ends whose pseudocode is known to complete or to fault, and the Huffman commands that are one
shared operation. -/

namespace Sys2Proof.Machine

/-! ## Commands whose pseudocode has a known end (40_block_control.md R160) -/

section
variable {s q : State} {v : Word} (i : Instr)

/-- A command whose check passes and whose pseudocode ends well completes. -/
theorem exec_completes (hs : s.healthy) (hi : commandWord s.params i = some v) (hr : i ≠ .blkReset)
    (hc : checkOf s i = none) (hb : bodyOf i (s.begin v) = .ok () q) : exec i s = .next q.completed := by
  rw [exec_command hi hr, hc]
  exact runCommand_ok hs hb

/-- A command whose check passes and whose pseudocode raises a fault reads that fault and its own opcode in STATUS
(60_exceptions.md R371). -/
theorem exec_raises {c : FaultCode} (hs : s.healthy) (hi : commandWord s.params i = some v) (hr : i ≠ .blkReset)
    (hc : checkOf s i = none) (hb : bodyOf i (s.begin v) = .error (.raised c) q) :
    ∃ t, exec i s = .next t ∧ t.readReg 6 = Status.word ⟨false, true, c.code, v.setWidth 8⟩ := by
  have hcmd : q.cmd = v := (bodyOf_control_error hb).1
  refine ⟨q.faultEntry .execution c, ?_, ?_⟩
  · rw [exec_command hi hr, hc]
    exact runCommand_raised hs hb
  · rw [← hcmd]
    rfl

end

theorem lowByte_setWidth (b : Byte) : lowByte (b.setWidth 64) = b := by
  unfold lowByte
  ext i
  simp

theorem isByte_setWidth (b : Byte) : isByte (b.setWidth 64) = true := by
  have hb := b.isLt
  refine decide_eq_true ?_
  rw [BitVec.toNat_setWidth]
  omega

/-! ## Clearing (42_huffman.md R220, 43_lzss_dictionary.md R280, R290, 44_lzss_coder.md R350) -/

/-- Settles O27: each command is one update of the unit state. -/
theorem clearingCommands : Obligations.ClearingCommands := by
  intro s hs
  have hdict (u : Units) (p : Pos) : u.dictClear.isMember p = false ∧ u.dictClear.parentOf p = none ∧
      u.dictClear.leftOfD p = none ∧ u.dictClear.rightOfD p = none := by simp
  have hroot (u : Units) (c : Byte) : u.dictClear.rootOf c = none := Units.rootOf_dictClear c u
  refine ⟨⟨_, exec_completes .htbClearWeights hs rfl (by simp) rfl rfl, fun b => ?_, rfl⟩,
    ⟨_, exec_completes .winClear hs rfl (by simp) rfl rfl, fun _ => rfl, hroot _, hdict _, rfl⟩,
    ⟨_, exec_completes .dictClear hs rfl (by simp) rfl rfl, hroot _, hdict _, rfl⟩,
    ⟨_, exec_completes .ldecInit hs rfl (by simp) rfl rfl, rfl, rfl, fun _ => rfl, hroot _, hdict _, rfl⟩⟩
  simp [State.completed, Units.weightAt]

/-! ## Counting (42_huffman.md R221) -/

/-- Below the largest value the byte's weight grows by one. -/
theorem countByte_ok {s : State} {b : Byte} (h : s.u.weightAt b ≠ BitVec.allOnes 64) :
    countByte b s = .ok () { s with u := s.u.addWeight b } := by
  unfold countByte
  rw [Op.units_bind, if_neg h]
  rfl

theorem countByte_overflow {s : State} {b : Byte} (h : s.u.weightAt b = BitVec.allOnes 64) :
    countByte b s = .error (.raised .countOverflow) s := by
  unfold countByte
  rw [Op.units_bind, if_pos h]
  rfl

/-- Settles O33: the weight is at its largest value, which faults, or it grows by one. -/
theorem countByteAddsOne : Obligations.CountByteAddsOne := by
  intro s b hs
  have hcheck : checkOf s (.htbCountByte (b.setWidth 64)) = none := checkFault_none.mpr ⟨isByte_setWidth b, rfl⟩
  have hmax : s.u.weightAt b = BitVec.allOnes 64 ↔ (s.u.weightAt b).toNat + 1 = 2 ^ 64 := by
    rw [← BitVec.toNat_inj, BitVec.toNat_allOnes]
    omega
  have hbody : bodyOf (.htbCountByte (b.setWidth 64)) = countByte b := congrArg countByte (lowByte_setWidth b)
  constructor
  · intro hlt
    have hok := countByte_ok (s := s.begin 0x31) (b := b) (by rw [State.begin_u, ne_eq, hmax]; omega)
    rw [← hbody] at hok
    refine ⟨_, exec_completes _ hs rfl (by simp) hcheck hok, ?_, fun c hc => ?_, rfl⟩
    · show ((s.u.addWeight b).weightAt b).toNat = _
      rw [Units.weightAt_addWeight, if_pos rfl, BitVec.toNat_add]
      exact Nat.mod_eq_of_lt hlt
    · show (s.u.addWeight b).weightAt c = _
      rw [Units.weightAt_addWeight, if_neg hc]
  · intro h64
    have hover := countByte_overflow (s := s.begin 0x31) (hmax.mpr h64)
    rw [← hbody] at hover
    obtain ⟨t, ht, hstatus⟩ := exec_raises _ hs rfl (by simp) hcheck hover
    exact ⟨t, ht, hstatus.trans (by decide)⟩

/-! ## The priority structure (42_huffman.md R223) -/

/-- Settles O34: no entry is ahead of the one taken out, and no other one has its id. -/
theorem popMinTakesTheLeastKey : Obligations.PopMinTakesTheLeastKey := by
  intro s hne _
  obtain ⟨y, rest, hpq⟩ := List.exists_cons_of_ne_nil hne
  refine ⟨s.u.leastOf y rest, popMin_cons hpq, by rw [hpq]; exact s.u.leastOf_mem y rest, fun z hz hzx => ?_⟩
  have hnot := s.u.leastOf_le y rest z (by rwa [hpq] at hz)
  rw [Bool.eq_false_iff, ne_eq, Units.keyLt_iff] at hnot
  have hid : z.toNat ≠ (s.u.leastOf y rest).toNat := fun h => hzx (BitVec.eq_of_toNat_eq h)
  omega

/-! ## Commands on a tree or a code there is (42_huffman.md R224, R230 to R232, R242) -/

theorem State.checkOf_tree {s : State} {h : Shape} (hh : s.u.holds s.u.rootH h = true) :
    checkFault true s.hasTree = none :=
  checkFault_none.mpr ⟨rfl, bne_iff_ne.mpr (Units.holds_ne_nilH hh)⟩

/-- Settles O36. -/
theorem deriveCodesGivesEachLeafItsPath : Obligations.DeriveCodesGivesEachLeafItsPath := by
  intro s h hs hh hd
  exact exec_completes .htbDeriveCodes hs rfl (by simp) (State.checkOf_tree hh) (deriveCodes_ok h (s := s.begin 0x33) hh hd)

/-- EmitTree writes the serialized tree (42_huffman.md R230). -/
theorem emitTree_ok {s : State} {h : Shape} (hh : s.u.holds s.u.rootH h = true) (hd : h.depth ≤ 255) (hio : s.ioFine)
    (hw : s.u.writerOk) (hr : s.room (s.u.bytesFor h.bits.length)) : emitTree s = .ok () (s.emit h.bits) := by
  unfold emitTree
  rw [Op.units_bind]
  exact emitNode_ok Config.maxCode s.u.rootH h hh hd hio hw hr

/-- Settles O37. -/
theorem emitTreeWritesTheSerializedTree : Obligations.EmitTreeWritesTheSerializedTree := by
  intro s h hs hio hw hh hd hr
  exact exec_completes .hencEmitTree hs rfl (by simp) (State.checkOf_tree hh)
    (emitTree_ok (s := s.begin 0x41) hh hd hio hw hr)

/-- Settles O38. -/
theorem emitCountWritesMinimalGroups : Obligations.EmitCountWritesMinimalGroups := by
  intro s n hs hio hw hr
  exact exec_completes (.hencEmitCount n) hs rfl (by simp) rfl (emitCount_ok (s := s.begin 0x42) n.isLt hio hw hr)

/-- Settles O39. -/
theorem emitCodeWritesTheCode : Obligations.EmitCodeWritesTheCode := by
  intro s b hs hio hw hv hr
  have hcheck : checkOf s (.hencEmitCode (b.setWidth 64)) = none :=
    checkFault_none.mpr ⟨isByte_setWidth b, by rw [lowByte_setWidth, hv]⟩
  refine exec_completes _ hs rfl (by simp) hcheck ?_
  show emitCode (lowByte (b.setWidth 64)) (s.begin 0x43) = _
  rw [lowByte_setWidth]
  exact emitCode_ok b (s := s.begin 0x43) hio hw hr

/-- Settles O44: DecodeSymbol, then its byte as RES0. -/
theorem decodeSymbolFollowsThePath : Obligations.DecodeSymbolFollowsThePath := by
  intro s h path rest b hs hio hrd hh hf hb hr
  refine exec_completes .hdecDecodeSymbol hs rfl (by simp) (State.checkOf_tree hh) ?_
  exact Op.bind_ok (decodeSymbol_ok h path rest b (s := s.begin 0x53) hh hf hb hio hrd hr)

/-! ## Count groups and codes as tokens (log 12) -/

/-- A count group whose data the count has room for, or that has none (42_huffman.md R241). -/
theorem doCountGroup_ok {s : State} {d : Byte} (last : Bool) (h : 8 ≤ s.u.cntIdx → d = 0) :
    doCountGroup d last s = .ok () { s with u := { s.u with
      cntAcc := if s.u.cntIdx < 8 then s.u.cntAcc ||| BitVec.ofNat 64 (d.toNat <<< (8 * s.u.cntIdx)) else s.u.cntAcc
      cntIdx := s.u.cntIdx + 1, cntDone := last } } := by
  unfold doCountGroup
  rw [Op.units_bind, if_neg (by rintro ⟨h8, hd⟩; exact hd (h h8))]
  rfl

/-- Non-zero data from index 8 on overflow the count (42_huffman.md R241). -/
theorem doCountGroup_overflow {s : State} {d : Byte} (last : Bool) (h : 8 ≤ s.u.cntIdx ∧ d ≠ 0) :
    doCountGroup d last s = .error (.raised .countOverflow) s := by
  unfold doCountGroup
  rw [Op.units_bind, if_pos h]
  rfl

/-- The shift by 8 g bits of a group at index g is the multiplication by 256^g. -/
theorem shiftLeft_eight_mul (d g : Nat) : d <<< (8 * g) = d * 256 ^ g := by
  rw [Nat.shiftLeft_eq, Nat.pow_mul]

/-- Settles O48: each token is one shared operation; a group is split by its index and its data. -/
theorem countAndCodeTokens : Obligations.CountAndCodeTokens := by
  refine ⟨fun s d last hs => ⟨fun h8 => ?_, fun h8 hd => ?_, fun h8 hd => ?_⟩, fun s h path b hs hio hh hf hr => ?_⟩
  · have hgroup := doCountGroup_ok (s := s) (d := d) last (fun h => absurd h8 (Nat.not_lt.mpr h))
    rw [if_pos h8, shiftLeft_eight_mul] at hgroup
    exact runToken_ok hs hgroup
  · have hgroup := doCountGroup_ok (s := s) (d := d) last (fun _ => hd)
    rw [if_neg (Nat.not_lt.mpr h8)] at hgroup
    exact runToken_ok hs hgroup
  · exact ⟨_, runToken_raised hs (doCountGroup_overflow last ⟨h8, hd⟩), State.faultEntry_fcode _ _ _,
      State.faultEntry_fault _ _ _⟩
  · exact runToken_ok hs (doCode_ok h path b hh hf hio hr)

end Sys2Proof.Machine
end

section
/-! SUPPORT. The tree parser on the bits of a tree: the whole tree read, the bits cut off, and one internal node too many
(42_huffman.md R240, R243). -/

namespace Sys2Proof.Machine

/-! ## The loop of ParseNode -/

/-- What follows a node token: the parse goes on as long as a node is open. -/
def parseOn (fuel : Nat) : Op Unit := do
  let u ← units
  if u.parseStack.isEmpty then pure () else parseNodes fuel

theorem parseNodes_succ (fuel : Nat) : parseNodes (fuel + 1) = parseNodeToken >>= fun _ => parseOn fuel := rfl

theorem parseOn_done {s : State} (h : s.u.parseStack = []) (fuel : Nat) : parseOn fuel s = .ok () s := by
  unfold parseOn
  rw [Op.units_bind, h]
  rfl

theorem parseOn_open {s : State} (h : s.u.parseStack ≠ []) (fuel : Nat) : parseOn fuel s = parseNodes fuel s := by
  unfold parseOn
  rw [Op.units_bind, if_neg fun he => h (List.isEmpty_iff.mp he)]

/-! ## Reading apart from parsing -/

/-- Attaching a node does not touch the reader. -/
theorem attachNode_reader (x : HId) (fs : List ParseFrame) (u : Units) (p : Byte) (c : BitVec 4) :
    attachNode x fs { u with rpb := p, rcnt := c } = { attachNode x fs u with rpb := p, rcnt := c } := by
  induction fs generalizing x u with
  | nil => rfl
  | cons f rest ih =>
    cases f with
    | left t => rfl
    | right t => exact ih t (u.setRightH t x)

/-- Bits are read the same way whatever the tree parser's tables are. -/
theorem State.consume_parsed {s : State} {v : Units} (h : s.u.SameButParsed v) (n : Nat) :
    ({ s with u := v } : State).consume n = { s.consume n with
      u := { v with rpb := (s.consume n).u.rpb, rcnt := (s.consume n).u.rcnt } } := by
  rw [h]
  rfl

theorem State.inBits_parsed {s : State} {v : Units} (h : s.u.SameButParsed v) :
    ({ s with u := v } : State).inBits = s.inBits := by
  rw [h]
  rfl

theorem Units.SameButParsed.readerOk {u v : Units} (h : u.SameButParsed v) (hr : u.readerOk) : v.readerOk := by
  rw [h]
  exact hr

/-! ## One token -/

/-- An internal-node token with an id left opens its node. -/
theorem parseNodeToken_opens {s : State} {rest : List Bool} {k : Nat} (hio : s.ioFine) (hr : s.u.readerOk)
    (hb : s.inBits = false :: rest) (hn : s.u.nextH.toNat = 256 + k) (hk : k < 255) :
    parseNodeToken s = .ok () (({ s with u := s.u.openNode } : State).consume 1) := by
  refine (parseNodeToken_internal rest hio hr hb fun h => ?_).trans rfl
  have h511 : s.u.nextH.toNat = 511 := congrArg BitVec.toNat h
  omega

/-- An internal-node token with no id left faults (60_exceptions.md R375). -/
theorem parseNodeToken_overflow {s : State} {rest : List Bool} (hio : s.ioFine) (hr : s.u.readerOk)
    (hb : s.inBits = false :: rest) (hn : s.u.nextH.toNat = 511) :
    parseNodeToken s = .error (.raised .treeOverflow) (s.consume 1) := by
  have h511 : (s.consume 1).u.nextH = 511 := BitVec.eq_of_toNat_eq hn
  unfold parseNodeToken
  rw [Op.bind_ok (need_bit hio hr hb)]
  show doTreeInternal (s.consume 1) = _
  unfold doTreeInternal
  rw [Op.units_bind, if_pos h511]
  rfl

/-- With no bit left there is no node token. -/
theorem parseNodeToken_empty {s : State} (hio : s.ioFine) (hr : s.u.readerOk) (hb : s.inBits = []) :
    parseNodeToken s = .error (.raised .truncated) (s.read 1) := by
  unfold parseNodeToken
  exact Op.bind_error (need_short hio hr (by rw [hb]; decide))

/-- A leaf token cut inside its value. -/
theorem parseNodeToken_cut {s : State} {rest : List Bool} (hio : s.ioFine) (hr : s.u.readerOk)
    (hb : s.inBits = true :: rest) (hl : rest.length < 8) :
    parseNodeToken s = .error (.raised .truncated) ((s.consume 1).read 8) := by
  have hrest : (s.consume 1).inBits = rest := State.inBits_after (bs := [true]) hr hb
  unfold parseNodeToken
  rw [Op.bind_ok (need_bit hio hr hb)]
  exact Op.bind_error (need_short (State.consume_ioFine hio 1) (State.consume_readerOk hr 1) (by rwa [hrest]))

/-! ## A whole subtree -/

/-- The reader behind the first bits left. -/
theorem State.consume_prefix {s : State} {pre rest : List Bool} (hio : s.ioFine) (hr : s.u.readerOk)
    (hb : s.inBits = pre ++ rest) : pre.length ≤ s.inBits.length ∧ (s.consume pre.length).ioFine ∧
      (s.consume pre.length).u.readerOk ∧ (s.consume pre.length).inBits = rest := by
  refine ⟨?_, State.consume_ioFine hio _, State.consume_readerOk hr _, State.inBits_after hr hb⟩
  rw [hb, List.length_append]
  exact Nat.le_add_right _ _

/-- Parsing a subtree whose bits come next, a bits into the stream, does what parses it, attaches it where the innermost
open node wants it, and goes on behind it. -/
theorem parseNodes_subtree (h : Shape) {k a fuel : Nat} {s : State} {pre rest : List Bool} (hio : s.ioFine)
    (hr : s.u.readerOk) (hb : s.inBits = pre ++ (h.bits ++ rest)) (ha : pre.length = a)
    (hn : s.u.nextH.toNat = 256 + k) (hk : k + h.nodes ≤ 255) :
    ∃ v, s.u.ParsedBelow v k h ∧ parseNodes (h.tokens.length + fuel) (s.consume a) =
      parseOn fuel (({ s with u := attachNode (h.idFrom k) s.u.parseStack v } : State).consume (a + h.bits.length)) := by
  subst ha
  induction h generalizing k pre s rest fuel with
  | leaf v =>
    obtain ⟨hle, hio', hr', hafter⟩ := State.consume_prefix hio hr hb
    refine ⟨s.u, ⟨rfl, hn, fun _ _ => ⟨rfl, rfl⟩, rfl⟩, ?_⟩
    rw [Shape.tokens, List.length_singleton, Nat.add_comm, parseNodes_succ,
      Op.bind_ok (parseNodeToken_leaf v rest hio' hr' hafter), State.consume_consume hr hle,
      State.consume_parsed (attachNode_sameButParsed _ _ _), ← attachNode_reader, Shape.bits, List.length_cons,
      length_wordBits]
    rfl
  | node l r ihl ihr =>
    obtain ⟨hle, hio', hr', hafter⟩ := State.consume_prefix hio hr hb
    have hnodes : k + (l.nodes + r.nodes + 1) ≤ 255 := hk
    have hflag : (s.consume pre.length).inBits = false :: (l.bits ++ (r.bits ++ rest)) := by
      rw [hafter, Shape.bits, List.cons_append, List.append_assoc]
    have hopen := parseNodeToken_opens hio' hr' hflag hn (by omega)
    have hnext := Units.openNode_nextH hn (by omega)
    have hstack := Units.openNode_parseStack hn
    have hl : s.inBits = (pre ++ [false]) ++ (l.bits ++ (r.bits ++ rest)) := by
      rw [hb, Shape.bits]
      simp
    have hr0 : s.inBits = (pre ++ [false] ++ l.bits) ++ (r.bits ++ rest) := by
      rw [hl, List.append_assoc _ l.bits]
    have hfirst : ({ s.consume pre.length with u := (s.consume pre.length).u.openNode } : State).consume 1 =
        ({ s with u := s.u.openNode } : State).consume (pre.length + 1) := by
      have hc := State.consume_consume hr hle 1
      exact congrArg (fun q : State => { q with u := q.u.openNode }) hc
    obtain ⟨v, hv, hpl⟩ := ihl (k := k + 1) (fuel := r.tokens.length + fuel) (s := { s with u := s.u.openNode })
      (pre := pre ++ [false]) hio hr hl hnext (by omega)
    have hsame : s.u.SameButParsed (attachNode (l.idFrom (k + 1)) s.u.openNode.parseStack v) :=
      (Units.SameButParsed.trans (v := s.u.openNode) rfl hv.frame).trans (attachNode_sameButParsed _ _ _)
    have hin2 := State.inBits_parsed hsame
    rw [hstack] at hsame hin2 hpl
    have hr2 := hsame.readerOk hr
    have hb2 := hin2.trans hr0
    have hleft : parseNodes (l.tokens.length + (r.tokens.length + fuel))
        (({ s with u := s.u.openNode } : State).consume (pre.length + 1)) = parseNodes (r.tokens.length + fuel)
        (({ s with u := attachNode (l.idFrom (k + 1)) (.left (BitVec.ofNat 9 (256 + k)) :: s.u.parseStack) v } :
          State).consume (pre ++ [false] ++ l.bits).length) := by
      have hlen : (pre ++ [false] ++ l.bits).length = (pre ++ [false]).length + l.bits.length := List.length_append
      have hone : pre.length + 1 = (pre ++ [false]).length := by rw [List.length_append, List.length_singleton]
      rw [hlen, hone]
      exact hpl.trans (parseOn_open (List.cons_ne_nil _ _) _)
    obtain ⟨w, hw, hpr⟩ := ihr (k := k + 1 + l.nodes) (fuel := fuel) (pre := pre ++ [false] ++ l.bits) (rest := rest)
      (s := { s with u := attachNode (l.idFrom (k + 1)) (.left (BitVec.ofNat 9 (256 + k)) :: s.u.parseStack) v })
      hio hr2 hb2 (by show v.nextH.toNat = _; have := hv.nextId; omega) (by omega)
    refine ⟨_, hv.node hw hk, ?_⟩
    have htokens : (Shape.node l r).tokens.length + fuel = l.tokens.length + (r.tokens.length + fuel) + 1 := by
      simp [Shape.tokens]
      omega
    have hbits : pre.length + (Shape.node l r).bits.length = (pre ++ [false] ++ l.bits).length + r.bits.length := by
      simp [Shape.bits]
      omega
    rw [htokens, parseNodes_succ, Op.bind_ok hopen, hfirst, parseOn_open (List.cons_ne_nil _ _), hleft, hpr, hbits]
    rfl

/-! ## ParseTree (42_huffman.md R240) -/

/-- The tables when the parse of a tree begins. -/
def Units.parseStart (u : Units) : Units :=
  { u with cvalid := Vector.replicate 256 false, nextH := 256, rootH := nilH, parseStack := [] }

theorem streamBound_ok {s : State} (hr : s.u.readerOk) : streamBound s = .ok (s.inBits.length + 1) s := by
  rw [s.length_inBits hr]
  rfl

/-- ParseTree clears the tables, then parses nodes; the bits left bound the loop. -/
theorem parseTree_eq {s : State} (hr : s.u.readerOk) :
    parseTree s = parseNodes (s.inBits.length + 1) { s with u := s.u.parseStart } := by
  unfold parseTree
  rw [Op.setUnits_bind]
  exact Op.bind_ok (streamBound_ok (s := { s with u := s.u.parseStart }) hr)

/-- Every token takes at least one bit. -/
theorem Shape.length_tokens_le (h : Shape) : h.tokens.length ≤ h.bits.length := by
  induction h with
  | leaf v => simp [Shape.tokens, Shape.bits]
  | node l r ihl ihr =>
    simp only [Shape.tokens, Shape.bits, List.length_cons, List.length_append]
    omega

/-- ParseTree on a stream that begins with a tree. -/
theorem parseTree_ok {s : State} {h : Shape} {rest : List Bool} (hio : s.ioFine) (hr : s.u.readerOk)
    (hb : s.inBits = h.bits ++ rest) (hk : h.nodes ≤ 255) :
    ∃ t, parseTree s = .ok () t ∧ t.inBits = rest ∧ t.u.rootH = h.idFrom 0 ∧ t.u.holdsFrom 0 h = true ∧
      (∀ b, t.u.codeValid b = false) ∧ t = { s.consume h.bits.length with u := { (s.consume h.bits.length).u with
        leftH := t.u.leftH, rightH := t.u.rightH, nextH := BitVec.ofNat 10 (256 + h.nodes), rootH := t.u.rootH
        cvalid := t.u.cvalid, parseStack := [] } } := by
  obtain ⟨v, hv, hparse⟩ := parseNodes_subtree h (k := 0) (a := 0) (s := { s with u := s.u.parseStart }) (pre := [])
    (rest := rest) (fuel := s.inBits.length + 1 - h.tokens.length) hio hr hb rfl rfl (by omega)
  have hfuel : h.tokens.length + (s.inBits.length + 1 - h.tokens.length) = s.inBits.length + 1 := by
    have := h.length_tokens_le
    rw [hb, List.length_append]
    omega
  have hend : ({ s with u := attachNode (h.idFrom 0) s.u.parseStart.parseStack v } : State).consume h.bits.length =
      { s.consume h.bits.length with u := { v with
        rpb := (s.consume h.bits.length).u.rpb, rcnt := (s.consume h.bits.length).u.rcnt, rootH := h.idFrom 0
        parseStack := [] } } :=
    State.consume_parsed (s := { s with u := s.u.parseStart }) (hv.frame.trans (attachNode_sameButParsed _ _ _)) _
  have hcvalid : v.cvalid = Vector.replicate 256 false := congrArg Units.cvalid hv.frame
  have hnext : v.nextH = BitVec.ofNat 10 (256 + h.nodes) := by
    refine BitVec.eq_of_toNat_eq ?_
    rw [hv.nextId, BitVec.toNat_ofNat]
    omega
  have hframe := hv.frame
  rw [hfuel, Nat.zero_add, State.consume_zero, hend, parseOn_done rfl] at hparse
  refine ⟨_, (parseTree_eq hr).trans hparse, ?_, rfl, ?_, fun b => ?_, ?_⟩
  · exact State.inBits_after (s := s) hr hb
  · refine Eq.trans (Units.holdsFrom_congr (u := v) h fun _ _ _ => ?_) hv.tree
    exact ⟨rfl, rfl⟩
  · simp [Units.codeValid, hcvalid]
  · dsimp only
    rw [hframe, hnext]
    rfl

/-- Settles O41: ParseTree, then its root as RES0. -/
theorem parseTreeReadsTheSerializedTree : Obligations.ParseTreeReadsTheSerializedTree := by
  intro s h rest hs hio hr hb hk
  obtain ⟨t, hparse, hin, hroot, htree, hcodes, ht⟩ := parseTree_ok (s := s.begin 0x51) hio hr hb hk
  have hbody : bodyOf .hdecParseTree (s.begin 0x51) = .ok () { t with res0 := t.u.rootH.setWidth 64 } := by
    show (parseTree >>= fun _ => _) _ = _
    rw [Op.bind_ok hparse, Op.units_bind, ← BitVec.ofNat_toNat]
    rfl
  refine ⟨_, exec_completes _ hs rfl (by simp) rfl hbody, hin, hroot, htree, ?_, hcodes, ?_⟩
  · show t.u.holds t.u.rootH h = true
    rw [hroot]
    exact Units.holds_of_holdsFrom htree (by omega)
  · conv_lhs => rw [ht]
    rfl

/-! ## Trees cut off or too large (42_huffman.md R243) -/

/-- An internal-node token with an id left: the parse goes on with the bits behind it. -/
theorem parseNodes_opens {s : State} {rest : List Bool} {k : Nat} (hio : s.ioFine) (hr : s.u.readerOk)
    (hb : s.inBits = false :: rest) (hn : s.u.nextH.toNat = 256 + k) (hk : k < 255) (fuel : Nat) :
    ∃ t, parseNodes (fuel + 1) s = parseNodes fuel t ∧ t.ioFine ∧ t.u.readerOk ∧ t.inBits = rest ∧
      t.u.nextH.toNat = 256 + (k + 1) ∧ ∃ w, t.u.parseStack = .left w :: s.u.parseStack := by
  obtain ⟨-, hio', hr', hin'⟩ := State.consume_prefix (s := { s with u := s.u.openNode }) (pre := [false]) hio hr hb
  refine ⟨({ s with u := s.u.openNode } : State).consume 1, ?_, hio', hr', hin', Units.openNode_nextH hn (by omega),
    _, rfl⟩
  rw [parseNodes_succ, Op.bind_ok (parseNodeToken_opens hio hr hb hn hk)]
  exact parseOn_open (List.cons_ne_nil _ _) _

/-- A whole left child: the parse goes on with the bits behind it. -/
theorem parseNodes_left {s : State} {l : Shape} {rest : List Bool} {k : Nat} {w : HId} {fs : List ParseFrame}
    (hio : s.ioFine) (hr : s.u.readerOk) (hb : s.inBits = l.bits ++ rest) (hn : s.u.nextH.toNat = 256 + k)
    (hk : k + l.nodes ≤ 255) (hp : s.u.parseStack = .left w :: fs) (fuel : Nat) :
    ∃ t, parseNodes (l.tokens.length + fuel) s = parseNodes fuel t ∧ t.ioFine ∧ t.u.readerOk ∧ t.inBits = rest ∧
      t.u.nextH.toNat = 256 + (k + l.nodes) := by
  obtain ⟨v, hv, hparse⟩ := parseNodes_subtree l (a := 0) (pre := []) (fuel := fuel) hio hr hb rfl hn hk
  have hsame := hv.frame.trans (attachNode_sameButParsed (l.idFrom k) s.u.parseStack v)
  have hin := (State.inBits_parsed hsame).trans hb
  rw [hp] at hparse hsame hin
  obtain ⟨-, hio', hr', hin'⟩ := State.consume_prefix
    (s := { s with u := attachNode (l.idFrom k) (.left w :: fs) v }) hio (hsame.readerOk hr) hin
  refine ⟨_, ?_, hio', hr', hin', ?_⟩
  · rw [State.consume_zero, parseOn_open (List.cons_ne_nil _ _), Nat.zero_add] at hparse
    exact hparse
  · exact hv.nextId.trans (Nat.add_assoc ..)

/-- The bits of a tree cut off fault TRUNCATED (60_exceptions.md R373). -/
theorem parseNodes_cut (h : Shape) {k fuel : Nat} {s : State} {more : List Bool} (hio : s.ioFine) (hr : s.u.readerOk)
    (hb : h.bits = s.inBits ++ more) (hm : more ≠ []) (hn : s.u.nextH.toNat = 256 + k) (hk : k + h.nodes ≤ 255)
    (hf : s.inBits.length < fuel) : ∃ t, parseNodes fuel s = .error (.raised .truncated) t := by
  induction h generalizing k fuel s more with
  | leaf v =>
    obtain ⟨fuel, rfl⟩ := Nat.exists_eq_add_one_of_ne_zero (show fuel ≠ 0 by omega)
    have hlen : s.inBits.length + more.length = 9 := by rw [← List.length_append, ← hb]; simp [Shape.bits]
    have hpos := List.length_pos_iff.mpr hm
    cases hin : s.inBits with
    | nil => exact ⟨_, Op.bind_error (parseNodeToken_empty hio hr hin)⟩
    | cons b rest =>
      rw [hin] at hb hlen
      obtain ⟨rfl, -⟩ := List.cons.inj hb
      rw [List.length_cons] at hlen
      exact ⟨_, Op.bind_error (parseNodeToken_cut hio hr hin (by omega))⟩
  | node l r ihl ihr =>
    obtain ⟨fuel, rfl⟩ := Nat.exists_eq_add_one_of_ne_zero (show fuel ≠ 0 by omega)
    cases hin : s.inBits with
    | nil => exact ⟨_, Op.bind_error (parseNodeToken_empty hio hr hin)⟩
    | cons b rest =>
      rw [hin] at hb hf
      obtain ⟨rfl, hrest⟩ : false = b ∧ l.bits ++ r.bits = rest ++ more := List.cons.inj hb
      have hnodes : k + (l.nodes + r.nodes + 1) ≤ 255 := hk
      obtain ⟨t, ht, hio', hr', hin', hn', w, hp⟩ := parseNodes_opens hio hr hin hn (by omega) fuel
      rw [ht]
      rw [List.length_cons] at hf
      by_cases hcut : rest.length < l.bits.length
      · obtain ⟨c, hc⟩ := List.prefix_of_prefix_length_le (List.prefix_append rest more)
          (hrest ▸ List.prefix_append l.bits r.bits) hcut.le
        refine ihl hio' hr' (by rw [hin', hc]) ?_ hn' (by omega) (by rw [hin']; omega)
        rintro rfl
        rw [List.append_nil] at hc
        rw [hc] at hcut
        exact Nat.lt_irrefl _ hcut
      · obtain ⟨c, hc⟩ := List.prefix_of_prefix_length_le (List.prefix_append l.bits r.bits)
          (hrest ▸ List.prefix_append rest more) (by omega)
        have htokens := l.length_tokens_le
        have hlen : l.bits.length + c.length = rest.length := by rw [← hc, List.length_append]
        obtain ⟨q, hq, hio'', hr'', hin'', hn''⟩ := parseNodes_left (l := l) hio' hr' (hin'.trans hc.symm) hn' (by omega)
          hp (fuel - l.tokens.length)
        rw [Nat.add_sub_cancel' (by omega)] at hq
        rw [hq]
        refine ihr hio'' hr'' ?_ hm hn'' (by omega) (by rw [hin'']; omega)
        rw [← hc, List.append_assoc] at hrest
        rw [hin'']
        exact List.append_cancel_left hrest

/-- The bits of a tree with more internal nodes than there are ids left fault TREE_OVERFLOW (60_exceptions.md R375). -/
theorem parseNodes_overflow (h : Shape) {k fuel : Nat} {s : State} {rest : List Bool} (hio : s.ioFine)
    (hr : s.u.readerOk) (hb : s.inBits = h.bits ++ rest) (hn : s.u.nextH.toNat = 256 + k) (hk : k ≤ 255)
    (hover : 256 ≤ k + h.nodes) (hf : h.tokens.length ≤ fuel) :
    ∃ t, parseNodes fuel s = .error (.raised .treeOverflow) t := by
  induction h generalizing k fuel s rest with
  | leaf v =>
    rw [Shape.nodes] at hover
    omega
  | node l r ihl ihr =>
    simp only [Shape.nodes, Shape.tokens, List.length_cons, List.length_append] at hover hf
    obtain ⟨fuel, rfl⟩ := Nat.exists_eq_add_one_of_ne_zero (show fuel ≠ 0 by omega)
    have hflag : s.inBits = false :: (l.bits ++ (r.bits ++ rest)) := by
      rw [hb, Shape.bits, List.cons_append, List.append_assoc]
    rcases Nat.lt_or_eq_of_le hk with hlt | rfl
    · obtain ⟨t, ht, hio', hr', hin', hn', w, hp⟩ := parseNodes_opens hio hr hflag hn hlt fuel
      rw [ht]
      by_cases hleft : 256 ≤ k + 1 + l.nodes
      · exact ihl hio' hr' hin' hn' hlt hleft (by omega)
      · obtain ⟨q, hq, hio'', hr'', hin'', hn''⟩ := parseNodes_left hio' hr' hin' hn' (by omega) hp
          (fuel - l.tokens.length)
        rw [Nat.add_sub_cancel' (by omega)] at hq
        rw [hq]
        exact ihr hio'' hr'' hin'' hn'' (by omega) (by omega) (by omega)
    · exact ⟨_, Op.bind_error (parseNodeToken_overflow hio hr hflag hn)⟩

/-- One internal-node flag more than there are ids left, whatever follows, faults TREE_OVERFLOW. -/
theorem parseNodes_flags {j k fuel : Nat} {s : State} {rest : List Bool} (hio : s.ioFine) (hr : s.u.readerOk)
    (hb : s.inBits = List.replicate (j + 1) false ++ rest) (hn : s.u.nextH.toNat = 256 + k) (hk : k + j = 255)
    (hf : j < fuel) : ∃ t, parseNodes fuel s = .error (.raised .treeOverflow) t := by
  obtain ⟨fuel, rfl⟩ := Nat.exists_eq_add_one_of_ne_zero (show fuel ≠ 0 by omega)
  induction j generalizing k fuel s with
  | zero => exact ⟨_, Op.bind_error (parseNodeToken_overflow hio hr hb (by omega))⟩
  | succ j ih =>
    obtain ⟨fuel, rfl⟩ := Nat.exists_eq_add_one_of_ne_zero (show fuel ≠ 0 by omega)
    obtain ⟨t, ht, hio', hr', hin', hn', -⟩ := parseNodes_opens hio hr hb hn (by omega) (fuel + 1)
    rw [ht]
    exact ih hio' hr' hin' hn' (by omega) fuel (by omega)

/-! ## Count groups (42_huffman.md R241) -/

theorem groupsBits_cons (d : Byte) {rest : List Byte} (h : rest ≠ []) :
    groupsBits (d :: rest) = wordBits 8 d.toNat ++ false :: groupsBits rest := by
  rw [groupsBits]
  exact fun he => h he

/-- What follows a count group: the parse goes on up to a group with the stop bit. -/
def countOn (fuel : Nat) : Op Unit := do
  let u ← units
  if u.cntDone then pure () else parseGroups fuel

theorem parseGroups_succ (fuel : Nat) : parseGroups (fuel + 1) = parseCountToken >>= fun _ => countOn fuel := rfl

theorem countOn_done {s : State} (h : s.u.cntDone = true) (fuel : Nat) : countOn fuel s = .ok () s := by
  unfold countOn
  rw [Op.units_bind, if_pos h]
  rfl

theorem countOn_more {s : State} (h : s.u.cntDone = false) (fuel : Nat) : countOn fuel s = parseGroups fuel s := by
  unfold countOn
  rw [Op.units_bind, if_neg (by rw [h]; decide)]

/-- A group's data, put into the count at the group's index, add to it what they stand for. -/
theorem toNat_or_group {acc : Word} {d : Byte} {g : Nat} (hg : g < 8) (hacc : acc.toNat < 256 ^ g) :
    (acc ||| BitVec.ofNat 64 (d.toNat <<< (8 * g))).toNat = acc.toNat + 256 ^ g * d.toNat := by
  have hpow : 256 ^ g = 2 ^ (8 * g) := by rw [Nat.pow_mul]
  have hshift : d.toNat <<< (8 * g) < 2 ^ 64 := by
    have hle : 256 ^ (g + 1) ≤ 256 ^ 8 := Nat.pow_le_pow_right (by decide) hg
    rw [shiftLeft_eight_mul]
    calc d.toNat * 256 ^ g < 256 * 256 ^ g := Nat.mul_lt_mul_of_pos_right d.isLt (by positivity)
      _ = 256 ^ (g + 1) := by ring
      _ ≤ 2 ^ 64 := hle
  rw [BitVec.toNat_or, BitVec.toNat_ofNat, Nat.mod_eq_of_lt hshift, shiftLeft_eight_mul, Nat.or_comm, Nat.mul_comm, hpow,
    ← Nat.two_pow_add_eq_or_of_lt (hpow ▸ hacc), Nat.add_comm]

/-- The count after one group. -/
theorem countAcc_group {acc : Word} {d : Byte} {g : Nat} (hacc : g < 8 → acc.toNat < 256 ^ g) (hz : 8 ≤ g → d = 0) :
    (if g < 8 then acc ||| BitVec.ofNat 64 (d.toNat <<< (8 * g)) else acc).toNat = acc.toNat + 256 ^ g * d.toNat := by
  by_cases hg : g < 8
  · rw [if_pos hg, toNat_or_group hg (hacc hg)]
  · rw [if_neg hg, hz (by omega)]
    rfl

/-- One group is read: its data are added to the count at the group's index. -/
structure State.CountsByte (s : State) (d : Byte) (last : Bool) (t : State) : Prop where
  count : t.u.cntAcc.toNat = s.u.cntAcc.toNat + 256 ^ s.u.cntIdx * d.toNat
  index : t.u.cntIdx = s.u.cntIdx + 1
  done : t.u.cntDone = last
  frame : t = { s.consume 9 with u := { (s.consume 9).u with
    cntAcc := t.u.cntAcc, cntIdx := t.u.cntIdx, cntDone := t.u.cntDone } }

theorem parseCountToken_counts {s : State} {d : Byte} {last : Bool} {rest : List Bool} (hio : s.ioFine)
    (hr : s.u.readerOk) (hb : s.inBits = wordBits 8 d.toNat ++ last :: rest)
    (hacc : s.u.cntIdx < 8 → s.u.cntAcc.toNat < 256 ^ s.u.cntIdx) (hz : 8 ≤ s.u.cntIdx → d = 0) :
    ∃ t, parseCountToken s = .ok () t ∧ s.CountsByte d last t ∧ t.ioFine ∧ t.u.readerOk ∧ t.inBits = rest := by
  have hb' : s.inBits = (wordBits 8 d.toNat ++ [last]) ++ rest := by rw [hb]; simp
  obtain ⟨-, hio', hr', hin'⟩ := State.consume_prefix hio hr hb'
  have hnine : (wordBits 8 d.toNat ++ [last]).length = 9 := by rw [List.length_append, length_wordBits]; rfl
  rw [hnine] at hio' hr' hin'
  exact ⟨_, parseCountToken_ok d last rest hio hr hb hz, ⟨countAcc_group hacc hz, rfl, rfl, rfl⟩, hio', hr', hin'⟩

/-- From s to t count groups of the data ds are read: their count, each group at its index, is added to the count. -/
structure State.CountsTo (s : State) (ds : List Byte) (t : State) : Prop where
  count : t.u.cntAcc.toNat = s.u.cntAcc.toNat + 256 ^ s.u.cntIdx * groupsValue ds
  frame : t = { s.consume (groupsBits ds).length with u := { (s.consume (groupsBits ds).length).u with
    cntAcc := t.u.cntAcc, cntIdx := t.u.cntIdx, cntDone := t.u.cntDone } }

/-- The count of g groups is below 256^g. -/
theorem State.CountsByte.acc_lt {s t : State} {d : Byte} {last : Bool} (h : s.CountsByte d last t)
    (hacc : s.u.cntIdx < 8 → s.u.cntAcc.toNat < 256 ^ s.u.cntIdx) :
    t.u.cntIdx < 8 → t.u.cntAcc.toNat < 256 ^ t.u.cntIdx := by
  rw [h.index, h.count, Nat.pow_succ]
  intro h8
  have hbelow := hacc (by omega)
  have hbyte : 256 ^ s.u.cntIdx * d.toNat ≤ 256 ^ s.u.cntIdx * 255 :=
    Nat.mul_le_mul_left _ (Nat.le_of_lt_succ d.isLt)
  omega

theorem State.CountsByte.countsTo_last {s t : State} {d : Byte} (h : s.CountsByte d true t) : s.CountsTo [d] t := by
  have hlen : (groupsBits [d]).length = 9 := by rw [groupsBits, List.length_append, length_wordBits]; rfl
  refine ⟨h.count, ?_⟩
  rw [hlen]
  exact h.frame

/-- A group and the groups behind it. -/
theorem State.CountsByte.countsTo_cons {s t q : State} {d : Byte} {ds : List Byte} (h : s.CountsByte d false t)
    (hq : t.CountsTo ds q) (hne : ds ≠ []) (hr : s.u.readerOk) (hle : 9 ≤ s.inBits.length) : s.CountsTo (d :: ds) q := by
  have hlen : (groupsBits (d :: ds)).length = 9 + (groupsBits ds).length := by
    rw [groupsBits_cons d hne, List.length_append, length_wordBits, List.length_cons]
    omega
  constructor
  case count =>
    rw [hq.count, h.count, h.index, groupsValue]
    ring
  case frame =>
    have hframe := hq.frame
    rw [h.frame] at hframe
    rw [hlen, ← State.consume_consume hr hle]
    exact hframe

/-- The parse of count groups whose data from index 8 on are 0. -/
theorem parseGroups_ok (ds : List Byte) {fuel : Nat} {s : State} {rest : List Bool} (hio : s.ioFine)
    (hr : s.u.readerOk) (hne : ds ≠ []) (hb : s.inBits = groupsBits ds ++ rest)
    (hacc : s.u.cntIdx < 8 → s.u.cntAcc.toNat < 256 ^ s.u.cntIdx)
    (hz : ∀ g d, 8 ≤ s.u.cntIdx + g → ds[g]? = some d → d = 0) (hf : ds.length ≤ fuel) :
    ∃ t, parseGroups fuel s = .ok () t ∧ s.CountsTo ds t := by
  induction ds generalizing s fuel with
  | nil => exact absurd rfl hne
  | cons d ds ih =>
    obtain ⟨fuel, rfl⟩ := Nat.exists_eq_add_one_of_ne_zero (show fuel ≠ 0 by rw [List.length_cons] at hf; omega)
    have hd : 8 ≤ s.u.cntIdx → d = 0 := fun h8 => hz 0 d h8 rfl
    by_cases hds : ds = []
    · subst hds
      obtain ⟨t, ht, hcounts, -⟩ := parseCountToken_counts (last := true) (rest := rest) hio hr
        (by rw [hb, groupsBits, List.append_assoc]; rfl) hacc hd
      exact ⟨t, by rw [parseGroups_succ, Op.bind_ok ht, countOn_done hcounts.done], hcounts.countsTo_last⟩
    · have hb' : s.inBits = wordBits 8 d.toNat ++ false :: (groupsBits ds ++ rest) := by
        rw [hb, groupsBits_cons d hds, List.append_assoc, List.cons_append]
      obtain ⟨t, ht, hcounts, hio', hr', hin'⟩ := parseCountToken_counts hio hr hb' hacc hd
      obtain ⟨q, hq, hrest⟩ := ih hio' hr' hds hin' (hcounts.acc_lt hacc)
        (fun g e h8 he => hz (g + 1) e (by rw [hcounts.index] at h8; omega) he)
        (Nat.le_of_succ_le_succ hf)
      refine ⟨q, ?_, hcounts.countsTo_cons hrest hds hr ?_⟩
      · rw [parseGroups_succ, Op.bind_ok ht, countOn_more hcounts.done, hq]
      · rw [hb', List.length_append, length_wordBits, List.length_cons]
        omega

/-- A count group cut off (60_exceptions.md R373). -/
theorem parseCountToken_cut {s : State} (hio : s.ioFine) (hr : s.u.readerOk) (hl : s.inBits.length < 9) :
    ∃ t, parseCountToken s = .error (.raised .truncated) t := by
  unfold parseCountToken
  by_cases h8 : s.inBits.length < 8
  · exact ⟨_, Op.bind_error (need_short hio hr h8)⟩
  · rw [Op.bind_ok (need_ok hio hr (Nat.le_of_not_lt h8))]
    refine ⟨_, Op.bind_error (need_short (State.consume_ioFine hio 8) (State.consume_readerOk hr 8) ?_)⟩
    rw [State.consume_inBits hr (Nat.le_of_not_lt h8), List.length_drop]
    omega

/-- The bits of count groups cut off fault TRUNCATED. -/
theorem parseGroups_cut (ds : List Byte) {fuel : Nat} {s : State} {more : List Bool} (hio : s.ioFine)
    (hr : s.u.readerOk) (hb : groupsBits ds = s.inBits ++ more) (hm : more ≠ [])
    (hacc : s.u.cntIdx < 8 → s.u.cntAcc.toNat < 256 ^ s.u.cntIdx)
    (hz : ∀ g d, 8 ≤ s.u.cntIdx + g → ds[g]? = some d → d = 0) (hf : s.inBits.length < fuel) :
    ∃ t, parseGroups fuel s = .error (.raised .truncated) t := by
  induction ds generalizing s fuel with
  | nil => exact absurd (List.append_eq_nil_iff.mp hb.symm).2 hm
  | cons d ds ih =>
    obtain ⟨fuel, rfl⟩ := Nat.exists_eq_add_one_of_ne_zero (show fuel ≠ 0 by omega)
    rw [parseGroups_succ]
    by_cases hl : s.inBits.length < 9
    · obtain ⟨t, ht⟩ := parseCountToken_cut hio hr hl
      exact ⟨t, Op.bind_error ht⟩
    · have hds : ds ≠ [] := by
        rintro rfl
        have hlen := congrArg List.length hb
        rw [groupsBits, List.length_append, length_wordBits, List.length_append, List.length_singleton] at hlen
        exact hm (List.length_eq_zero_iff.mp (by omega))
      have hgroup : groupsBits (d :: ds) = (wordBits 8 d.toNat ++ [false]) ++ groupsBits ds := by
        rw [groupsBits_cons d hds, List.append_assoc]
        rfl
      obtain ⟨c, hc⟩ := List.prefix_of_prefix_length_le (hgroup ▸ List.prefix_append _ _)
        (hb ▸ List.prefix_append _ _)
        (by rw [List.length_append, length_wordBits, List.length_singleton]; omega)
      obtain ⟨t, ht, hcounts, hio', hr', hin'⟩ := parseCountToken_counts (d := d) (last := false) (rest := c) hio hr
        (by rw [← hc, List.append_assoc]; rfl) hacc fun h8 => hz 0 d h8 rfl
      rw [Op.bind_ok ht, countOn_more hcounts.done]
      refine ih hio' hr' ?_ (hcounts.acc_lt hacc)
        (fun g e h8 he => hz (g + 1) e (by rw [hcounts.index] at h8; omega) he) ?_
      · rw [hgroup, ← hc, List.append_assoc _ c] at hb
        rw [hin']
        exact List.append_cancel_left hb
      · have hlen := congrArg List.length hc
        rw [List.length_append, List.length_append, length_wordBits, List.length_singleton] at hlen
        rw [hin']
        omega

/-! ## ParseCount -/

/-- The parser's count when the parse of a count begins. -/
def Units.countStart (u : Units) : Units := { u with cntAcc := 0, cntIdx := 0, cntDone := false }

theorem Units.countStart_acc_lt (u : Units) :
    u.countStart.cntIdx < 8 → u.countStart.cntAcc.toNat < 256 ^ u.countStart.cntIdx := fun _ => Nat.one_pos

/-- ParseCount clears the count, then parses groups; the bits left bound the loop. -/
theorem parseCount_eq {s : State} (hr : s.u.readerOk) :
    parseCount s = (parseGroups (s.inBits.length + 1) >>= fun _ => units >>= fun u => pure u.cntAcc.toNat)
      { s with u := s.u.countStart } := by
  unfold parseCount
  rw [Op.setUnits_bind]
  exact Op.bind_ok (streamBound_ok (s := { s with u := s.u.countStart }) hr)

theorem length_le_groupsBits (ds : List Byte) : ds.length ≤ (groupsBits ds).length := by
  induction ds with
  | nil => exact Nat.le_refl _
  | cons d ds ih =>
    by_cases hds : ds = []
    · subst hds
      simp [groupsBits]
    · rw [groupsBits_cons d hds, List.length_append, List.length_cons, List.length_cons]
      omega

/-- ParseCount on a stream that begins with count groups. -/
theorem parseCount_ok {s : State} {ds : List Byte} {rest : List Bool} (hio : s.ioFine) (hr : s.u.readerOk)
    (hne : ds ≠ []) (hb : s.inBits = groupsBits ds ++ rest) (hz : ∀ g d, 8 ≤ g → ds[g]? = some d → d = 0) :
    ∃ t, parseCount s = .ok (groupsValue ds) t ∧ groupsValue ds < 2 ^ 64 ∧ t.inBits = rest ∧
      t = { s.consume (groupsBits ds).length with u := { (s.consume (groupsBits ds).length).u with
        cntAcc := t.u.cntAcc, cntIdx := t.u.cntIdx, cntDone := t.u.cntDone } } := by
  obtain ⟨t, ht, hcount, hframe⟩ := parseGroups_ok ds (fuel := s.inBits.length + 1)
    (s := { s with u := s.u.countStart }) hio hr hne hb s.u.countStart_acc_lt
    (fun g d h8 => hz g d (by simpa [Units.countStart] using h8))
    (by have := length_le_groupsBits ds; rw [hb, List.length_append]; omega)
  have hvalue : t.u.cntAcc.toNat = groupsValue ds := by rw [hcount]; simp [Units.countStart]
  have hin : t.inBits = rest := by
    rw [hframe]
    exact State.inBits_after (s := s) hr hb
  refine ⟨t, ?_, hvalue ▸ t.u.cntAcc.isLt, hin, hframe⟩
  rw [parseCount_eq hr, Op.bind_ok ht, Op.units_bind, hvalue]
  rfl

/-- Settles O43: ParseCount, then its count as RES0. -/
theorem parseCountReadsTheGroups : Obligations.ParseCountReadsTheGroups := by
  intro s ds rest hs hio hr hne hb hz
  obtain ⟨t, hparse, hlt, hin, ht⟩ := parseCount_ok (s := s.begin 0x52) hio hr hne hb hz
  have hbody : bodyOf .hdecParseCount (s.begin 0x52) = .ok () (t.withResult (groupsValue ds)) := Op.bind_ok hparse
  refine ⟨_, exec_completes _ hs rfl (by simp) rfl hbody, hin, ?_, ?_⟩
  · exact (BitVec.toNat_ofNat ..).trans (Nat.mod_eq_of_lt hlt)
  · conv_lhs => rw [ht]
    rfl

/-! ## Streams that fault -/

/-- A parse of a tree that faults. -/
theorem exec_hdecParseTree_raises {s t : State} {c : FaultCode} (hs : s.healthy) (hr : s.u.readerOk)
    (h : parseNodes ((s.begin 0x51).inBits.length + 1) { s.begin 0x51 with u := (s.begin 0x51).u.parseStart } =
      .error (.raised c) t) :
    ∃ t, exec .hdecParseTree s = .next t ∧
      t.readReg 6 = Status.word ⟨false, true, c.code, (0x51 : Word).setWidth 8⟩ := by
  have hbody : bodyOf .hdecParseTree (s.begin 0x51) = .error (.raised c) t :=
    Op.bind_error ((parseTree_eq (s := s.begin 0x51) hr).trans h)
  exact exec_raises _ hs rfl (by simp) rfl hbody

/-- Settles O42: the parse of a cut or too large tree from an idle parser, and of cut count groups from 0. -/
theorem cutTreesAndCountsFault : Obligations.CutTreesAndCountsFault := by
  intro s hs hio hr
  refine ⟨fun h more hk hm hb => ?_, fun h rest hk hb => ?_, fun rest hb => ?_, fun ds more hz hm hb => ?_⟩
  · obtain ⟨t, ht⟩ := parseNodes_cut h (k := 0) (s := { s.begin 0x51 with u := s.u.parseStart }) hio hr hb hm rfl
      (by omega) (Nat.lt_succ_self _)
    obtain ⟨t, hexec, hstatus⟩ := exec_hdecParseTree_raises hs hr ht
    exact ⟨t, hexec, hstatus.trans (by decide)⟩
  · obtain ⟨t, ht⟩ := parseNodes_overflow h (k := 0) (s := { s.begin 0x51 with u := s.u.parseStart })
      (fuel := s.inBits.length + 1) hio hr hb rfl (by omega) (by omega)
      (by have := h.length_tokens_le; rw [hb, List.length_append]; omega)
    obtain ⟨t, hexec, hstatus⟩ := exec_hdecParseTree_raises hs hr ht
    exact ⟨t, hexec, hstatus.trans (by decide)⟩
  · obtain ⟨t, ht⟩ := parseNodes_flags (j := 255) (k := 0) (s := { s.begin 0x51 with u := s.u.parseStart })
      (fuel := s.inBits.length + 1) hio hr hb rfl rfl
      (by rw [hb, List.length_append, List.length_replicate]; omega)
    obtain ⟨t, hexec, hstatus⟩ := exec_hdecParseTree_raises hs hr ht
    exact ⟨t, hexec, hstatus.trans (by decide)⟩
  · obtain ⟨t, ht⟩ := parseGroups_cut ds (s := { s.begin 0x52 with u := s.u.countStart }) hio hr hb hm
      s.u.countStart_acc_lt
      (fun g d h8 => hz g d (by simpa [Units.countStart] using h8)) (Nat.lt_succ_self _)
    have hbody : bodyOf .hdecParseCount (s.begin 0x52) = .error (.raised .truncated) t :=
      Op.bind_error ((parseCount_eq (s := s.begin 0x52) hr).trans (Op.bind_error ht))
    obtain ⟨t, hexec, hstatus⟩ := exec_raises _ hs rfl (by simp) rfl hbody
    exact ⟨t, hexec, hstatus.trans (by decide)⟩

end Sys2Proof.Machine
end

section
/-! SUPPORT. HDEC.DECODE: the streams initialized, the tree and the count read, then as many codes as the count says
(42_huffman.md R244). -/

namespace Sys2Proof.Machine

/-! ## One byte behind the output -/

theorem State.putByte_ioFine {s : State} (h : s.ioFine) (b : Byte) : (s.putByte b).ioFine :=
  fun d hd => h d (List.mem_of_mem_drop hd)

/-- A byte written at the end of the output is appended to it. -/
theorem State.putByte_appends {s : State} (b : Byte) (he : s.opos = s.olen) (hr : s.room 1) :
    (s.putByte b).outBytes = s.outBytes ++ [b] ∧ (s.putByte b).opos = (s.putByte b).olen ∧
      (s.putByte b).olen.toNat = s.olen.toNat + 1 := by
  have hopos : (s.putByte b).opos.toNat = s.opos.toNat + 1 := word_succ_toNat hr.2 hr.1
  have holen : (s.putByte b).olen.toNat = s.olen.toNat + 1 := by
    rw [State.putByte_olen b hr, he]
    omega
  refine ⟨?_, BitVec.eq_of_toNat_eq ?_, holen⟩
  · have hbelow := s.outByte_putByte_below b
    rw [he] at hbelow
    rw [State.outBytes, holen, List.range_succ, List.map_append, hbelow, List.map_singleton, State.putByte_outByte,
      if_pos (congrArg BitVec.toNat he.symm)]
    rfl
  · rw [hopos, holen, he]

/-! ## The codes -/

/-- What a run of DecodeSymbol has done when it has written the bytes bs. -/
structure State.Decoded (s : State) (bs : List Byte) (t : State) : Prop where
  outBytes : t.outBytes = s.outBytes ++ bs
  olen : t.olen.toNat = s.olen.toNat + bs.length
  res1 : t.res1 = s.res1
  tree : t.u.leftH = s.u.leftH ∧ t.u.rightH = s.u.rightH ∧ t.u.rootH = s.u.rootH

theorem State.Decoded.trans {s t q : State} {as bs : List Byte} (h : s.Decoded as t) (h' : t.Decoded bs q) :
    s.Decoded (as ++ bs) q := by
  obtain ⟨hl, hr, hroot⟩ := h.tree
  obtain ⟨hl', hr', hroot'⟩ := h'.tree
  refine ⟨?_, ?_, h'.res1.trans h.res1, hl'.trans hl, hr'.trans hr, hroot'.trans hroot⟩
  · rw [h'.outBytes, h.outBytes, List.append_assoc]
  · rw [h'.olen, h.olen, List.length_append, Nat.add_assoc]

theorem State.Decoded.holds {s t : State} {bs : List Byte} (h : s.Decoded bs t) (t' : Shape) :
    t.u.holds t.u.rootH t' = s.u.holds s.u.rootH t' := by
  obtain ⟨hl, hr, hroot⟩ := h.tree
  rw [hroot]
  exact Units.holds_congr hl hr _ _

/-- As many codes as there are bytes, read one after another at the end of the output. -/
theorem repeat_decodeSymbol_ok {h : Shape} {bs : List Byte} {codes : List (List Bool)}
    (hcodes : List.Forall₂ (fun b path => h.follow path = some b) bs codes) {s : State} {rest : List Bool}
    (hh : s.u.holds s.u.rootH h = true) (hio : s.ioFine) (hr : s.u.readerOk) (hb : s.inBits = codes.flatten ++ rest)
    (he : s.opos = s.olen) (hroom : s.room bs.length) :
    ∃ t, repeatOp bs.length (do let _ ← decodeSymbol; pure ()) s = .ok () t ∧ s.Decoded bs t := by
  induction hcodes generalizing s with
  | nil => exact ⟨s, rfl, by simp, rfl, rfl, rfl, rfl, rfl⟩
  | @cons b path bs codes hpath hcodes ih =>
    rw [List.flatten_cons, List.append_assoc] at hb
    have hroom1 : s.room 1 := ⟨hroom.1, by have := hroom.2; rw [List.length_cons] at this; omega⟩
    obtain ⟨-, hio', hr', hin'⟩ := State.consume_prefix hio hr hb
    have hstep := decodeSymbol_ok h path _ b hh hpath hb hio hr hroom1
    obtain ⟨hout, hend, hlen⟩ := State.putByte_appends (s := s.consume path.length) b he hroom1
    have hdec : s.Decoded [b] ((s.consume path.length).putByte b) := ⟨hout, hlen, rfl, rfl, rfl, rfl⟩
    have hroom' : ((s.consume path.length).putByte b).room bs.length := by
      refine ⟨hroom.1, ?_⟩
      have hle := hroom.2
      rw [hend, hlen]
      rw [he, List.length_cons] at hle
      show s.olen.toNat + 1 + bs.length ≤ s.params.outSize
      omega
    obtain ⟨t, ht, hrest⟩ := ih (s := (s.consume path.length).putByte b) ((hdec.holds h).trans hh)
      (State.putByte_ioFine hio' b) hr' hin' hend hroom'
    refine ⟨t, ?_, hdec.trans hrest⟩
    have hbody : (do let _ ← decodeSymbol; pure () : Op Unit) s = .ok () ((s.consume path.length).putByte b) :=
      Op.bind_ok hstep
    rw [List.length_cons, repeatOp, Op.bind_ok hbody]
    exact ht

/-! ## The whole command -/

/-- After STREAM_INIT the bits of the whole source are to be read. -/
theorem State.streamInit_inBits (s : State) : s.streamInit.inBits = bytesBits s.srcBytes := by
  rw [State.inBits_eq]
  rfl

/-- HDEC.DECODE's pseudocode on a tree, a count and that many codes. -/
theorem huffmanDecode_ok {s : State} {h : Shape} {ds bs : List Byte} {codes : List (List Bool)} {rest : List Bool}
    (hio : s.ioFine) (hk : h.nodes ≤ 255) (hne : ds ≠ []) (hz : ∀ g d, 8 ≤ g → ds[g]? = some d → d = 0)
    (hn : groupsValue ds = bs.length) (hcodes : List.Forall₂ (fun b path => h.follow path = some b) bs codes)
    (hb : bytesBits s.srcBytes = h.bits ++ groupsBits ds ++ codes.flatten ++ rest)
    (hfit : bs.length ≤ s.params.outSize) (hP : s.params.outSize < 2 ^ 64) :
    ∃ t, huffmanDecode s = .ok () t ∧ t.outBytes = bs ∧ t.olen.toNat = bs.length ∧ t.res0.toNat = bs.length ∧
      t.res1 = s.res1 ∧ t.u.holds t.u.rootH h = true := by
  have hin : s.streamInit.inBits = h.bits ++ (groupsBits ds ++ (codes.flatten ++ rest)) := by
    rw [s.streamInit_inBits, hb]
    simp only [List.append_assoc]
  obtain ⟨t, ht, hin1, hroot, htree, -, ht1⟩ := parseTree_ok (s := s.streamInit) hio (Nat.zero_le _) hin hk
  have hio1 : t.ioFine := by
    rw [ht1]
    exact State.consume_ioFine (s := s.streamInit) hio _
  have hr1 : t.u.readerOk := by
    rw [ht1]
    exact State.consume_readerOk (s := s.streamInit) (Nat.zero_le _) _
  obtain ⟨q, hq, -, hin2, hq2⟩ := parseCount_ok hio1 hr1 hne hin1 hz
  have hio2 : q.ioFine := by
    rw [hq2]
    exact State.consume_ioFine hio1 _
  have hr2 : q.u.readerOk := by
    rw [hq2]
    exact State.consume_readerOk hr1 _
  obtain ⟨hopos1, holen1, hparams1, hres1⟩ : t.opos = 0 ∧ t.olen = 0 ∧ t.params = s.params ∧ t.res1 = s.res1 := by
    rw [ht1]
    exact ⟨rfl, rfl, rfl, rfl⟩
  obtain ⟨hopos, holen, hparams, hres⟩ : q.opos = 0 ∧ q.olen = 0 ∧ q.params = s.params ∧ q.res1 = s.res1 := by
    rw [hq2]
    exact ⟨hopos1, holen1, hparams1, hres1⟩
  obtain ⟨hl, hrt, hroot2⟩ : q.u.leftH = t.u.leftH ∧ q.u.rightH = t.u.rightH ∧ q.u.rootH = t.u.rootH := by
    rw [hq2]
    exact ⟨rfl, rfl, rfl⟩
  have hh : q.u.holds q.u.rootH h = true := by
    rw [Units.holds_congr hl hrt, hroot2, hroot]
    exact Units.holds_of_holdsFrom htree (by omega)
  obtain ⟨p, hp, hdec⟩ := repeat_decodeSymbol_ok hcodes hh hio2 hr2 hin2 (hopos.trans holen.symm)
    ⟨by rw [hparams]; exact hP, by rw [hparams, hopos]; simpa using hfit⟩
  refine ⟨p.withResult bs.length, ?_, ?_, ?_, ?_, hdec.res1.trans hres, (hdec.holds h).trans hh⟩
  · unfold huffmanDecode
    rw [Op.bind_ok (Op.streamInit_run s), Op.bind_ok ht, Op.bind_ok hq, hn, Op.bind_ok hp]
    rfl
  · refine hdec.outBytes.trans ?_
    rw [State.outBytes, holen]
    rfl
  · refine hdec.olen.trans ?_
    rw [holen]
    simp
  · refine (BitVec.toNat_ofNat ..).trans (Nat.mod_eq_of_lt ?_)
    omega

/-- Settles O45. -/
theorem huffmanDecodeWritesTheCodedBytes : Obligations.HuffmanDecodeWritesTheCodedBytes := by
  intro s h ds bs codes rest hs hio hk hne hz hn hcodes hb hfit hP
  obtain ⟨t, ht, hout, holen, hres0, hres1, hh⟩ :=
    huffmanDecode_ok (s := s.begin 0x50) hio hk hne hz hn hcodes hb hfit hP
  have hstatus := (bodyOf_control_ok (i := .hdecDecode) ht).2
  refine ⟨_, exec_completes .hdecDecode hs rfl (by simp) rfl ht, ?_, hout, hres0, hres1, holen, hh⟩
  show t.status.fault = false
  rw [hstatus]
  exact hs

end Sys2Proof.Machine
end

section
/-! SUPPORT. The tree builder: the present bytes, the entries waiting, and what a join does to them (42_huffman.md R222,
R223). -/

namespace Sys2Proof.Machine

/-! ## The present bytes -/

theorem Units.mem_present {u : Units} {b : Byte} : b ∈ u.present ↔ u.weightAt b ≠ 0 := by
  have hb : b ∈ (List.range 256).map (BitVec.ofNat 8) :=
    List.mem_map.mpr ⟨b.toNat, List.mem_range.mpr b.isLt, BitVec.ofNat_toNat ..⟩
  rw [Units.present, List.mem_filter, and_iff_right hb, bne_iff_ne]

theorem Units.nodup_present (u : Units) : u.present.Nodup := by
  refine List.Nodup.filter _ (List.nodup_range.map_on fun i hi j hj he => ?_)
  have hij := congrArg BitVec.toNat he
  rw [BitVec.toNat_ofNat, BitVec.toNat_ofNat, Nat.mod_eq_of_lt (List.mem_range.mp hi),
    Nat.mod_eq_of_lt (List.mem_range.mp hj)] at hij
  exact hij

theorem presentFrom_range' (w : Nat → Word) (b n : Nat) :
    presentFrom b ((List.range' b n).map w) = ((List.range' b n).filter (w · != 0)).map (BitVec.ofNat 9) := by
  induction n generalizing b with
  | zero => rfl
  | succ n ih =>
    rw [List.range'_succ, List.map_cons, presentFrom, ih, List.filter_cons]
    by_cases hw : w b = 0
    · rw [if_pos hw, if_neg (by rw [hw]; decide)]
    · rw [if_neg hw, if_pos (bne_iff_ne.mpr hw), List.map_cons]

theorem Units.toList_weight (u : Units) :
    u.weight.toList = (List.range' 0 256).map fun i => u.weightAt (BitVec.ofNat 8 i) := by
  refine List.ext_getElem (by simp) fun i hi _ => ?_
  have hi' : i < 256 := by simpa using hi
  simp [Units.weightAt, Nat.mod_eq_of_lt hi']

/-- BuildTree's first entries are the present bytes, in order. -/
theorem Units.presentBytes_eq (u : Units) : u.presentBytes = u.present.map (·.setWidth 9) := by
  rw [Units.presentBytes, u.toList_weight, presentFrom_range', Units.present, List.filter_map, List.map_map,
    List.range_eq_range']
  refine List.map_congr_left fun i hi => ?_
  have hi' : i < 256 := by simpa using (List.mem_filter.mp hi).1
  apply BitVec.eq_of_toNat_eq
  rw [Function.comp_apply, toNat_leaf, BitVec.toNat_ofNat, BitVec.toNat_ofNat]
  omega

theorem Units.weightOf_leaf (u : Units) (b : Byte) : u.weightOf (b.setWidth 9) = (u.weightAt b).toNat := by
  have hb := b.isLt
  rw [Units.weightOf, toNat_leaf, if_neg (by omega), Vector.getElem?_eq_getElem hb]
  rfl

/-- A weight is a 64-bit number. -/
theorem Units.weightOf_lt (u : Units) (x : HId) : u.weightOf x < 2 ^ 64 := by
  unfold Units.weightOf
  split <;> exact BitVec.isLt _

/-- An id below 256 is a byte's. -/
theorem leaf_of_lt {x : HId} (h : x.toNat < 256) : (x.setWidth 8).setWidth 9 = x := by
  apply BitVec.eq_of_toNat_eq
  rw [toNat_leaf, BitVec.toNat_setWidth]
  exact Nat.mod_eq_of_lt h

theorem setWidth_leaf (b : Byte) : (b.setWidth 9).setWidth 8 = b := by
  ext i
  simp

theorem Units.mem_presentBytes {u : Units} {x : HId} : x ∈ u.presentBytes ↔ x.toNat < 256 ∧ u.weightOf x ≠ 0 := by
  have hzero (b : Byte) : u.weightAt b ≠ 0 ↔ u.weightOf (b.setWidth 9) ≠ 0 := by
    rw [Units.weightOf_leaf, ne_eq, ne_eq, ← BitVec.toNat_inj]
    rfl
  rw [Units.presentBytes_eq, List.mem_map]
  constructor
  · rintro ⟨b, hb, rfl⟩
    exact ⟨(toNat_leaf b).trans_lt b.isLt, (hzero b).mp (Units.mem_present.mp hb)⟩
  · rintro ⟨hx, hw⟩
    refine ⟨x.setWidth 8, Units.mem_present.mpr ((hzero _).mpr ?_), leaf_of_lt hx⟩
    rwa [leaf_of_lt hx]

/-! ## Entries that agree -/

/-- Two node tables have the same entries and weights for the ids below m. -/
structure Units.AgreeBelow (m : Nat) (u v : Units) : Prop where
  left : ∀ x : HId, x.toNat < m → v.leftOf x = u.leftOf x
  right : ∀ x : HId, x.toNat < m → v.rightOf x = u.rightOf x
  weight : ∀ x : HId, x.toNat < m → v.weightOf x = u.weightOf x

theorem Units.AgreeBelow.symm {m : Nat} {u v : Units} (h : u.AgreeBelow m v) : v.AgreeBelow m u :=
  ⟨fun x hx => (h.left x hx).symm, fun x hx => (h.right x hx).symm, fun x hx => (h.weight x hx).symm⟩

/-- An entry that waits when node 256 + k is made has an id below that node's. -/
theorem Units.waiting.lt {u : Units} {k : Nat} {x : HId} (h : u.waiting k x) : x.toNat < 256 + k := by
  rcases h.1 with ⟨hx, -⟩ | ⟨-, hx⟩ <;> omega

/-- What waits depends on the entries below only. -/
theorem Units.AgreeBelow.waiting {u v : Units} {k : Nat} (h : u.AgreeBelow (256 + k) v) (hk : k ≤ 255) (x : HId) :
    v.waiting k x ↔ u.waiting k x := by
  have hchildren : ∀ j < k, v.leftOf (BitVec.ofNat 9 (256 + j)) = u.leftOf (BitVec.ofNat 9 (256 + j)) ∧
      v.rightOf (BitVec.ofNat 9 (256 + j)) = u.rightOf (BitVec.ofNat 9 (256 + j)) := fun j hj => by
    have hid := nodeId_toNat (show j < 255 by omega)
    exact ⟨h.left _ (by omega), h.right _ (by omega)⟩
  have hweight : x.toNat < 256 → v.weightOf x = u.weightOf x := fun hx => h.weight x (by omega)
  unfold Units.waiting
  refine and_congr (or_congr (and_congr_right fun hx => by rw [hweight hx]) Iff.rfl) ?_
  exact forall_congr' fun j => forall_congr' fun hj => by rw [(hchildren j hj).1, (hchildren j hj).2]

theorem Units.AgreeBelow.mono {m m' : Nat} {u v : Units} (h : u.AgreeBelow m v) (hm : m' ≤ m) : u.AgreeBelow m' v :=
  ⟨fun x hx => h.left x (hx.trans_le hm), fun x hx => h.right x (hx.trans_le hm),
    fun x hx => h.weight x (hx.trans_le hm)⟩

theorem Units.AgreeBelow.ahead {m : Nat} {u v : Units} (h : u.AgreeBelow m v) {x y : HId} (hx : x.toNat < m)
    (hy : y.toNat < m) : v.ahead x y ↔ u.ahead x y := by
  unfold Units.ahead
  rw [h.weight x hx, h.weight y hy]

/-- Node 256 + k has its children's weights added up. -/
def Units.sumsChildren (u : Units) (k : Nat) : Prop :=
  ∀ a b, u.leftOf (BitVec.ofNat 9 (256 + k)) = some a → u.rightOf (BitVec.ofNat 9 (256 + k)) = some b →
    u.weightOf (BitVec.ofNat 9 (256 + k)) = u.weightOf a + u.weightOf b

/-- Node 256 + k is as BuildTree makes it. -/
def Units.made (u : Units) (k : Nat) : Prop := u.joinsTheLeast k ∧ u.sumsChildren k

theorem Units.AgreeBelow.made {u v : Units} {k : Nat} (h : u.AgreeBelow (256 + (k + 1)) v) (hk : k < 255)
    (hm : u.made k) : v.made k := by
  obtain ⟨⟨a, b, ha, hb, hwa, hwb, hab, hrest⟩, hsum⟩ := hm
  have hid := nodeId_toNat hk
  have hlow := h.mono (show 256 + k ≤ 256 + (k + 1) by omega)
  have hwait := hlow.waiting (by omega)
  have ha' := (h.left _ (by omega)).trans ha
  have hb' := (h.right _ (by omega)).trans hb
  have hla := hwa.lt
  have hlb := hwb.lt
  refine ⟨⟨a, b, ha', hb', (hwait a).mpr hwa, (hwait b).mpr hwb, (hlow.ahead hla hlb).mpr hab, fun x hx hxa hxb => ?_⟩,
    fun a' b' ha'' hb'' => ?_⟩
  · have hxu := (hwait x).mp hx
    exact (hlow.ahead hlb hxu.lt).mpr (hrest x hxu hxa hxb)
  · obtain rfl : a = a' := Option.some.inj (ha'.symm.trans ha'')
    obtain rfl : b = b' := Option.some.inj (hb'.symm.trans hb'')
    rw [h.weight _ (by omega), h.weight a (by omega), h.weight b (by omega)]
    exact hsum a b ha hb

/-! ## Joining two entries -/

/-- An id below a node's is not the node's. -/
theorem ne_nodeId {k : Nat} (hk : k < 255) {z : HId} (hz : z.toNat < 256 + k) : z ≠ BitVec.ofNat 9 (256 + k) := by
  have hid := nodeId_toNat hk
  rintro rfl
  omega

section
variable {u : Units} {k w : Nat} {x y : HId} {q : List HId} (hn : u.nextH.toNat = 256 + k) (hk : k < 255)
include hn hk

theorem Units.nextH_setWidth : u.nextH.setWidth 9 = BitVec.ofNat 9 (256 + k) := by
  apply BitVec.eq_of_toNat_eq
  rw [BitVec.toNat_setWidth, hn, nodeId_toNat hk]
  omega

theorem joinNodes_leftOf (z : HId) : (Units.joinNodes x y w { u with pq := q }).leftOf z =
    if z = BitVec.ofNat 9 (256 + k) then some x else u.leftOf z := by
  have hid := nodeId_toNat hk
  rw [← Units.nextH_setWidth hn hk] at hid ⊢
  exact Units.leftOf_setLeftH (u := u) (t := u.nextH.setWidth 9) (by omega) (by omega)

theorem joinNodes_rightOf (z : HId) : (Units.joinNodes x y w { u with pq := q }).rightOf z =
    if z = BitVec.ofNat 9 (256 + k) then some y else u.rightOf z := by
  have hid := nodeId_toNat hk
  rw [← Units.nextH_setWidth hn hk] at hid ⊢
  exact Units.rightOf_setRightH (u := u) (t := u.nextH.setWidth 9) (by omega) (by omega)

theorem joinNodes_weightOf (hw : w < 2 ^ 64) (z : HId) : (Units.joinNodes x y w { u with pq := q }).weightOf z =
    if z = BitVec.ofNat 9 (256 + k) then w else u.weightOf z := by
  have hid := nodeId_toNat hk
  rw [← Units.nextH_setWidth hn hk] at hid ⊢
  unfold Units.weightOf
  by_cases hz : 256 ≤ z.toNat
  · have he : z = u.nextH.setWidth 9 ↔ (u.nextH.setWidth 9).toNat - 256 = z.toNat - 256 := by
      rw [← BitVec.toNat_inj]
      omega
    rw [if_pos hz, if_pos hz, Units.joinNodes, Vector.getElem?_setIfInBounds]
    simp only [he]
    split
    · rw [if_pos (by omega), Option.getD_some, BitVec.toNat_ofNat, Nat.mod_eq_of_lt hw]
    · rfl
  · have hne : z ≠ u.nextH.setWidth 9 := by
      rintro rfl
      omega
    rw [if_neg hz, if_neg hz, if_neg hne]
    rfl

/-- A join leaves the entries of the nodes before as they are. -/
theorem joinNodes_agreeBelow (hw : w < 2 ^ 64) :
    u.AgreeBelow (256 + k) (Units.joinNodes x y w { u with pq := q }) := by
  refine ⟨fun z hz => ?_, fun z hz => ?_, fun z hz => ?_⟩
  · rw [joinNodes_leftOf hn hk, if_neg (ne_nodeId hk hz)]
  · rw [joinNodes_rightOf hn hk, if_neg (ne_nodeId hk hz)]
  · rw [joinNodes_weightOf hn hk hw, if_neg (ne_nodeId hk hz)]

end

/-- The children of a node as BuildTree makes it have ids below the node's. -/
theorem Units.made.children_lt {u : Units} {k : Nat} (h : u.made k) {z : HId}
    (hz : u.leftOf (BitVec.ofNat 9 (256 + k)) = some z ∨ u.rightOf (BitVec.ofNat 9 (256 + k)) = some z) :
    z.toNat < 256 + k := by
  obtain ⟨⟨a, b, ha, hb, hwa, hwb, -⟩, -⟩ := h
  rcases hz with hz | hz
  · obtain rfl : a = z := Option.some.inj (ha.symm.trans hz)
    exact hwa.lt
  · obtain rfl : b = z := Option.some.inj (hb.symm.trans hz)
    exact hwb.lt

/-- Once node 256 + k is made it waits, and its children do not. -/
theorem Units.waiting_succ {u : Units} {k : Nat} (hk : k < 255) (hm : ∀ j < k, u.made j) (z : HId) :
    u.waiting (k + 1) z ↔ (z = BitVec.ofNat 9 (256 + k) ∨ u.waiting k z) ∧
      u.leftOf (BitVec.ofNat 9 (256 + k)) ≠ some z ∧ u.rightOf (BitVec.ofNat 9 (256 + k)) ≠ some z := by
  have hid := nodeId_toNat hk
  constructor
  · rintro ⟨hrange, hchild⟩
    refine ⟨?_, hchild k (Nat.lt_succ_self k)⟩
    by_cases hz : z = BitVec.ofNat 9 (256 + k)
    · exact .inl hz
    · have hne : z.toNat ≠ 256 + k := fun he => hz (BitVec.eq_of_toNat_eq (he.trans hid.symm))
      refine .inr ⟨hrange.imp_right fun h => ⟨h.1, by omega⟩, fun j hj => hchild j (by omega)⟩
  · rintro ⟨hz, hl, hr⟩
    have hlast (j : Nat) (hj : j < k + 1) (hbelow : j < k → u.leftOf (BitVec.ofNat 9 (256 + j)) ≠ some z ∧
        u.rightOf (BitVec.ofNat 9 (256 + j)) ≠ some z) :
        u.leftOf (BitVec.ofNat 9 (256 + j)) ≠ some z ∧ u.rightOf (BitVec.ofNat 9 (256 + j)) ≠ some z := by
      rcases Nat.lt_or_eq_of_le (Nat.le_of_lt_succ hj) with hj' | rfl
      · exact hbelow hj'
      · exact ⟨hl, hr⟩
    rcases hz with rfl | hz
    · refine ⟨.inr (by omega), fun j hj => hlast j hj fun hj' => ⟨fun hc => ?_, fun hc => ?_⟩⟩
      · have := (hm j hj').children_lt (.inl hc)
        omega
      · have := (hm j hj').children_lt (.inr hc)
        omega
    · exact ⟨hz.1.imp_right fun h => ⟨h.1, by omega⟩, fun j hj => hlast j hj (hz.2 j)⟩

/-! ## The loop of BuildTree -/

/-- BuildTree when k nodes are made: PQ has what waits, each entry the root of a tree over ids below NEXT_H, and these
trees have the present bytes as leaves, each once. -/
structure Units.Merging (k : Nat) (u : Units) : Prop where
  nextId : u.nextH.toNat = 256 + k
  count : u.pq.length + k = u.present.length
  nodup : u.pq.Nodup
  waiting : ∀ x, x ∈ u.pq ↔ u.waiting k x
  made : ∀ j < k, u.made j
  total : (u.pq.map u.weightOf).sum = u.weightSum u.present
  trees : ∃ f : HId → Shape, (∀ x ∈ u.pq, u.holdsBelow (256 + k) x (f x)) ∧
    (u.pq.flatMap fun x => (f x).leaves).Perm u.present

/-- There are 256 bytes. -/
theorem length_le_of_nodup {bs : List Byte} (h : bs.Nodup) : bs.length ≤ 256 := by
  have hsub : bs.map BitVec.toNat ⊆ List.range 256 := fun i hi => by
    obtain ⟨b, -, rfl⟩ := List.mem_map.mp hi
    exact List.mem_range.mpr b.isLt
  have hle := ((h.map fun _ _ => BitVec.eq_of_toNat_eq).subperm hsub).length_le
  rwa [List.length_map, List.length_range] at hle

theorem Units.length_present_le (u : Units) : u.present.length ≤ 256 := length_le_of_nodup u.nodup_present

/-- The state in which the loop of BuildTree begins. -/
def Units.buildStart (u : Units) : Units :=
  { u with cvalid := Vector.replicate 256 false, nextH := 256, rootH := nilH, pq := u.presentBytes }

theorem Units.merging_start (u : Units) : u.buildStart.Merging 0 := by
  have hpq : u.buildStart.pq = u.present.map (·.setWidth 9) := u.presentBytes_eq
  constructor
  case nextId => rfl
  case count =>
    rw [hpq, List.length_map]
    rfl
  case nodup =>
    rw [hpq]
    refine u.nodup_present.map_on fun b _ c _ h => ?_
    rw [← setWidth_leaf b, h, setWidth_leaf]
  case waiting =>
    intro x
    refine (Units.mem_presentBytes (u := u)).trans ?_
    unfold Units.waiting
    refine ⟨fun h => ⟨.inl h, fun j hj => absurd hj (Nat.not_lt_zero j)⟩, fun h => ?_⟩
    rcases h.1 with h | h
    · exact h
    · omega
  case made => exact fun j hj => absurd hj (Nat.not_lt_zero j)
  case total =>
    rw [hpq, List.map_map]
    exact congrArg List.sum (List.map_congr_left fun b _ => Units.weightOf_leaf u b)
  case trees =>
    refine ⟨fun x => .leaf (x.setWidth 8), fun x hx => Units.leaf_of_presentBytes hx, ?_⟩
    rw [hpq, List.flatMap_map]
    simp only [Shape.leaves, setWidth_leaf, List.flatMap_singleton']
    exact .refl _

/-- Taking two entries out of PQ. -/
theorem perm_erase_two {l : List HId} {x y : HId} (hx : x ∈ l) (hy : y ∈ l.erase x) :
    l.Perm (x :: y :: (l.erase x).erase y) :=
  (List.perm_cons_erase hx).trans ((List.perm_cons_erase hy).cons x)

/-- With two entries left there is an id left for their node. -/
theorem Units.Merging.lt_of_two {k : Nat} {u : Units} (hu : u.Merging k) (h2 : 2 ≤ u.pq.length) : k < 255 := by
  have hcount := hu.count
  have hle := u.length_present_le
  omega

theorem Units.Merging.id_lt {k : Nat} {u : Units} (hu : u.Merging k) {z : HId} (hz : z ∈ u.pq) : z.toNat < 256 + k :=
  ((hu.waiting z).mp hz).lt

/-- What a join of x and y under the id 256 + k makes of u. -/
structure Units.Joined (k : Nat) (x y : HId) (u v : Units) : Prop where
  left : v.leftOf (BitVec.ofNat 9 (256 + k)) = some x
  right : v.rightOf (BitVec.ofNat 9 (256 + k)) = some y
  weight : v.weightOf (BitVec.ofNat 9 (256 + k)) = u.weightOf x + u.weightOf y
  agree : u.AgreeBelow (256 + k) v
  entries : v.pq = (u.pq.erase x).erase y ++ [BitVec.ofNat 9 (256 + k)]
  nextId : v.nextH.toNat = 256 + (k + 1)
  present : v.present = u.present ∧ v.weightSum = u.weightSum

theorem joinNodes_joined {u : Units} {k : Nat} {x y : HId} (hn : u.nextH.toNat = 256 + k) (hk : k < 255)
    (hw : u.weightOf x + u.weightOf y < 2 ^ 64) :
    u.Joined k x y (Units.joinNodes x y (u.weightOf x + u.weightOf y) { u with pq := (u.pq.erase x).erase y }) where
  left := (joinNodes_leftOf hn hk _).trans (if_pos rfl)
  right := (joinNodes_rightOf hn hk _).trans (if_pos rfl)
  weight := (joinNodes_weightOf hn hk hw _).trans (if_pos rfl)
  agree := joinNodes_agreeBelow hn hk hw
  entries := by
    rw [← Units.nextH_setWidth hn hk]
    rfl
  nextId := Units.openNode_nextH hn hk
  present := ⟨rfl, rfl⟩

section
variable {k : Nat} {u v : Units} {x y : HId} (hu : u.Merging k) (hj : u.Joined k x y v) (hk : k < 255) (hx : x ∈ u.pq)
  (hy : y ∈ u.pq.erase x)
include hu

theorem Units.Merging.mem_erase_two (z : HId) : z ∈ (u.pq.erase x).erase y ↔ z ∈ u.pq ∧ z ≠ x ∧ z ≠ y := by
  rw [(hu.nodup.erase x).mem_erase_iff, hu.nodup.mem_erase_iff]
  tauto

include hk

/-- An entry that stays in PQ is not the new node. -/
theorem Units.Merging.ne_of_mem_erase {z : HId} (hz : z ∈ (u.pq.erase x).erase y) : z ≠ BitVec.ofNat 9 (256 + k) :=
  ne_nodeId hk (hu.id_lt ((hu.mem_erase_two z).mp hz).1)

include hj

theorem Units.Joined.made_before : ∀ j < k, v.made j :=
  fun j hjk => (hj.agree.mono (by omega)).made (by omega) (hu.made j hjk)

include hx hy

/-- The joined entries no longer wait, and the new node does. -/
theorem Units.Joined.waiting (z : HId) : z ∈ v.pq ↔ v.waiting (k + 1) z := by
  rw [hj.entries, List.mem_append, List.mem_singleton, hu.mem_erase_two,
    Units.waiting_succ hk (Units.Joined.made_before hu hj hk), hj.left, hj.right, hj.agree.waiting hk.le, ← hu.waiting,
    Option.some_inj.ne, Option.some_inj.ne]
  constructor
  · rintro (⟨hz, hzx, hzy⟩ | rfl)
    · exact ⟨.inr hz, hzx.symm, hzy.symm⟩
    · exact ⟨.inl rfl, ne_nodeId hk (hu.id_lt hx), ne_nodeId hk (hu.id_lt (List.mem_of_mem_erase hy))⟩
  · rintro ⟨rfl | hz, hzx, hzy⟩
    · exact .inr rfl
    · exact .inl ⟨hz, Ne.symm hzx, Ne.symm hzy⟩

/-- If the joined entries are the two least, the new node is as BuildTree makes it. -/
theorem Units.Joined.made_last (hleast : ∀ z ∈ u.pq, z ≠ x → u.ahead x z)
    (hnext : ∀ z ∈ u.pq.erase x, z ≠ y → u.ahead y z) : v.made k := by
  obtain ⟨hyx, hyq⟩ := hu.nodup.mem_erase_iff.mp hy
  have hwait := hj.agree.waiting hk.le
  refine ⟨⟨x, y, hj.left, hj.right, (hwait x).mpr ((hu.waiting x).mp hx), (hwait y).mpr ((hu.waiting y).mp hyq),
    (hj.agree.ahead (hu.id_lt hx) (hu.id_lt hyq)).mpr (hleast y hyq hyx), fun z hz hzx hzy => ?_⟩, fun a b ha hb => ?_⟩
  · have hzq := (hu.waiting z).mpr ((hwait z).mp hz)
    exact (hj.agree.ahead (hu.id_lt hyq) (hu.id_lt hzq)).mpr (hnext z (hu.nodup.mem_erase_iff.mpr ⟨hzx, hzq⟩) hzy)
  · obtain rfl : x = a := Option.some.inj (hj.left.symm.trans ha)
    obtain rfl : y = b := Option.some.inj (hj.right.symm.trans hb)
    rw [hj.weight, hj.agree.weight x (hu.id_lt hx), hj.agree.weight y (hu.id_lt hyq)]

omit hk in
/-- The weights in PQ still add up to the total. -/
theorem Units.Joined.total : (v.pq.map v.weightOf).sum = v.weightSum v.present := by
  have hkeep : ((u.pq.erase x).erase y).map v.weightOf = ((u.pq.erase x).erase y).map u.weightOf :=
    List.map_congr_left fun z hz => hj.agree.weight z (hu.id_lt ((hu.mem_erase_two z).mp hz).1)
  rw [hj.entries, hj.present.1, hj.present.2, ← hu.total, ((perm_erase_two hx hy).map _).sum_eq, List.map_append,
    List.sum_append, hkeep]
  simp only [List.map_cons, List.map_nil, List.sum_cons, List.sum_nil, hj.weight]
  omega

/-- The trees in PQ still have the present bytes as leaves. -/
theorem Units.Joined.trees : ∃ f : HId → Shape, (∀ z ∈ v.pq, v.holdsBelow (256 + (k + 1)) z (f z)) ∧
    (v.pq.flatMap fun z => (f z).leaves).Perm v.present := by
  obtain ⟨f, hf, hleaves⟩ := hu.trees
  have hid := nodeId_toNat hk
  have hbelow (z : HId) (hz : z ∈ u.pq) : v.holdsBelow (256 + (k + 1)) z (f z) :=
    (hf z hz).congr (by omega) hj.agree.left hj.agree.right
  refine ⟨Function.update f (BitVec.ofNat 9 (256 + k)) (.node (f x) (f y)), fun z hz => ?_, ?_⟩
  · rw [hj.entries] at hz
    rcases List.mem_append.mp hz with hz | hz
    · rw [Function.update_of_ne (hu.ne_of_mem_erase hk hz)]
      exact hbelow z ((hu.mem_erase_two z).mp hz).1
    · obtain rfl := List.mem_singleton.mp hz
      rw [Function.update_self]
      exact ⟨by omega, by omega, x, y, hj.left, hj.right, hbelow x hx, hbelow y (List.mem_of_mem_erase hy)⟩
  · have hsame : ((u.pq.erase x).erase y).flatMap
          (fun z => (Function.update f (BitVec.ofNat 9 (256 + k)) (.node (f x) (f y)) z).leaves) =
        ((u.pq.erase x).erase y).flatMap fun z => (f z).leaves :=
      List.flatMap_congr fun z hz => by rw [Function.update_of_ne (hu.ne_of_mem_erase hk hz)]
    have hperm := (perm_erase_two hx hy).flatMap_right fun z => (f z).leaves
    rw [hj.entries, hj.present.1, List.flatMap_append, hsame, List.flatMap_singleton, Function.update_self]
    refine List.Perm.trans ?_ (hperm.symm.trans hleaves)
    rw [List.flatMap_cons, List.flatMap_cons, Shape.leaves, ← List.append_assoc (f x).leaves]
    exact List.perm_append_comm

end

/-- The two least entries joined: one more node is made. -/
theorem Units.Merging.join {k : Nat} {u : Units} (hu : u.Merging k) {x y : HId} (hx : x ∈ u.pq) (hy : y ∈ u.pq.erase x)
    (hleast : ∀ z ∈ u.pq, z ≠ x → u.ahead x z) (hnext : ∀ z ∈ u.pq.erase x, z ≠ y → u.ahead y z)
    (hw : u.weightOf x + u.weightOf y < 2 ^ 64) :
    (Units.joinNodes x y (u.weightOf x + u.weightOf y) { u with pq := (u.pq.erase x).erase y }).Merging (k + 1) := by
  have hlen := (perm_erase_two hx hy).length_eq
  simp only [List.length_cons] at hlen
  have hk := hu.lt_of_two (by omega)
  have hj := joinNodes_joined hu.nextId hk hw
  constructor
  case nextId => exact hj.nextId
  case count =>
    have hcount := hu.count
    rw [hj.entries, hj.present.1, List.length_append, List.length_singleton]
    omega
  case nodup =>
    rw [hj.entries]
    refine ((hu.nodup.erase x).erase y).append (List.nodup_singleton _) fun z hz hz' => ?_
    exact hu.ne_of_mem_erase hk hz (List.mem_singleton.mp hz')
  case waiting => exact Units.Joined.waiting hu hj hk hx hy
  case made =>
    intro j hjk
    rcases Nat.lt_or_eq_of_le (Nat.le_of_lt_succ hjk) with hlt | rfl
    · exact Units.Joined.made_before hu hj hk j hlt
    · exact Units.Joined.made_last hu hj hk hx hy hleast hnext
  case total => exact Units.Joined.total hu hj hx hy
  case trees => exact Units.Joined.trees hu hj hk hx hy

/-- Two unit states differ in the tables BuildTree's loop writes only. -/
def Units.SameButBuilt (u v : Units) : Prop :=
  v = { u with leftH := v.leftH, rightH := v.rightH, nweight := v.nweight, nextH := v.nextH, pq := v.pq }

theorem Units.SameButBuilt.trans {u v w : Units} (h : u.SameButBuilt v) (h' : v.SameButBuilt w) : u.SameButBuilt w := by
  unfold Units.SameButBuilt at *
  rw [h] at h'
  exact h'

theorem Units.SameButBuilt.present {u v : Units} (h : u.SameButBuilt v) :
    v.present = u.present ∧ v.weightSum = u.weightSum := by
  rw [h]
  exact ⟨rfl, rfl⟩

/-- How a piece of BuildTree's loop ends: with more nodes made, or COUNT_OVERFLOW, which the total weight gives. -/
def State.Builds {α : Type} (s : State) (r : EStateM.Result Stop State α) (Q : α → Units → Prop) : Prop :=
  (∃ a v k, r = .ok a { s with u := v } ∧ v.Merging k ∧ s.u.SameButBuilt v ∧ Q a v) ∨
    ∃ t, r = .error (.raised .countOverflow) t ∧ 2 ^ 64 ≤ s.u.weightSum s.u.present

/-- With two or more entries a round joins two, or their weights overflow (60_exceptions.md R376). -/
theorem buildRound_builds {s : State} {k : Nat} (hu : s.u.Merging k) (h2 : 2 ≤ s.u.pq.length) :
    s.Builds (buildRound s) fun more v => more = true ∧ v.pq.length + 1 = s.u.pq.length := by
  unfold buildRound
  rw [Op.units_bind, if_neg (by omega)]
  obtain ⟨x, hpx, hx, hleast⟩ := popMinTakesTheLeastKey s (List.ne_nil_of_length_pos (by omega)) hu.nodup
  have hlx := List.length_erase_of_mem hx
  obtain ⟨y, hpy, hy, hnext⟩ := popMinTakesTheLeastKey { s with u := { s.u with pq := s.u.pq.erase x } }
    (List.ne_nil_of_length_pos (by show 0 < (s.u.pq.erase x).length; omega)) (hu.nodup.erase x)
  have hly := List.length_erase_of_mem hy
  rw [Op.bind_ok hpx, Op.bind_ok hpy]
  dsimp only [Option.getD_some] at hly ⊢
  by_cases hw : 2 ^ 64 ≤ s.u.weightOf x + s.u.weightOf y
  · rw [if_pos hw]
    refine .inr ⟨_, rfl, hw.trans ?_⟩
    rw [← hu.total, ((perm_erase_two hx hy).map _).sum_eq, List.map_cons, List.map_cons, List.sum_cons, List.sum_cons]
    omega
  · rw [if_neg hw]
    refine .inl ⟨true, _, k + 1, rfl, hu.join hx hy hleast hnext (by omega), rfl, rfl, ?_⟩
    show ((s.u.pq.erase x).erase y ++ [_]).length + 1 = s.u.pq.length
    rw [List.length_append, List.length_singleton]
    omega

theorem buildRound_last {s : State} (h : s.u.pq.length < 2) : buildRound s = .ok false s := by
  unfold buildRound
  rw [Op.units_bind, if_pos h]
  rfl

/-- The loop joins entries until one is left. -/
theorem buildLoop_builds {fuel k : Nat} {s : State} (hu : s.u.Merging k) (h1 : 1 ≤ s.u.pq.length)
    (hf : s.u.pq.length ≤ fuel + 1) : s.Builds (buildLoop fuel s) fun _ v => v.pq.length = 1 := by
  induction fuel generalizing k s with
  | zero => exact .inl ⟨(), s.u, k, rfl, hu, rfl, by omega⟩
  | succ fuel ih =>
    rw [buildLoop]
    by_cases h2 : s.u.pq.length < 2
    · rw [Op.bind_ok (buildRound_last h2)]
      exact .inl ⟨(), s.u, k, rfl, hu, rfl, by omega⟩
    · rcases buildRound_builds hu (by omega) with ⟨_, v, j, hround, hv, hsame, rfl, hlen⟩ | ⟨t, ht, htotal⟩
      · rw [Op.bind_ok hround, if_pos rfl]
        rcases ih (s := { s with u := v }) hv (by show 1 ≤ v.pq.length; omega)
          (by show v.pq.length ≤ fuel + 1; omega) with ⟨a, w, i, hloop, hw, hsame', hone⟩ | ⟨t, ht, htotal⟩
        · exact .inl ⟨a, w, i, hloop, hw, hsame.trans hsame', hone⟩
        · obtain ⟨hpresent, hsum⟩ := hsame.present
          rw [hpresent, hsum] at htotal
          exact .inr ⟨t, ht, htotal⟩
      · exact .inr ⟨t, Op.bind_error ht, htotal⟩

/-! ## BuildTree (42_huffman.md R222) -/

/-- With no byte present the tree is the leaf 0. -/
theorem buildTree_none {s : State} (h : s.u.present = []) :
    buildTree s = .ok () { s with u := { s.u.buildStart with rootH := 0 } } := by
  have hpq : s.u.presentBytes.isEmpty = true := by rw [Units.presentBytes_eq, h]; rfl
  unfold buildTree
  rw [Op.setUnits_bind, Op.units_bind, if_pos hpq]
  rfl

/-- With bytes present BuildTree joins them into one tree, or the total weight overflows. -/
theorem buildTree_some {s : State} (h : s.u.present ≠ []) :
    (∃ v k x, buildTree s = .ok () { s with u := { v with pq := [], rootH := x } } ∧ v.Merging k ∧
      s.u.buildStart.SameButBuilt v ∧ v.pq = [x]) ∨
    ∃ t, buildTree s = .error (.raised .countOverflow) t ∧ 2 ^ 64 ≤ s.u.weightSum s.u.present := by
  have hne : s.u.presentBytes ≠ [] := by
    rw [Units.presentBytes_eq, ne_eq, List.map_eq_nil_iff]
    exact h
  have hpos := List.length_pos_of_ne_nil hne
  unfold buildTree
  rw [Op.setUnits_bind, Op.units_bind, if_neg fun he => hne (List.isEmpty_iff.mp he)]
  rcases buildLoop_builds (fuel := s.u.presentBytes.length) (s := { s with u := s.u.buildStart }) s.u.merging_start hpos
    (Nat.le_succ _) with ⟨_, v, k, hloop, hv, hsame, hone⟩ | ⟨t, ht, htotal⟩
  · obtain ⟨x, hx⟩ := List.length_eq_one_iff.mp hone
    have hpop := popMin_cons (s := { s with u := v }) hx
    refine .inl ⟨v, k, x, ?_, hv, hsame, hx⟩
    refine (Op.bind_ok hloop).trans ((Op.bind_ok hpop).trans ?_)
    rw [Units.leastOf]
    show EStateM.Result.ok () _ = _
    rw [hx, List.erase_cons_head]
    rfl
  · exact .inr ⟨t, Op.bind_error ht, htotal⟩

/-! ## The tree that is made -/

theorem Shape.length_leaves (h : Shape) : h.leaves.length = h.nodes + 1 := by
  induction h with
  | leaf v => rfl
  | node l r ihl ihr =>
    rw [Shape.leaves, Shape.nodes, List.length_append, ihl, ihr]
    omega

/-- What the one entry left is the root of. -/
theorem Units.Merging.tree {k : Nat} {u : Units} {x : HId} (hu : u.Merging k) (hx : u.pq = [x]) :
    ∃ h : Shape, u.holdsBelow (256 + k) x h ∧ h.leaves.Perm u.present ∧ h.nodes = k := by
  obtain ⟨f, hf, hleaves⟩ := hu.trees
  have hcount := hu.count
  rw [hx] at hf hleaves hcount
  rw [List.flatMap_singleton] at hleaves
  refine ⟨f x, hf x (List.mem_singleton_self x), hleaves, ?_⟩
  have hlen := hleaves.length_eq
  rw [Shape.length_leaves] at hlen
  rw [List.length_singleton] at hcount
  omega

/-- A node's weight is the sum of the weights of the leaves below it. -/
theorem Units.holdsBelow.weighed {u : Units} {k : Nat} {x : HId} {h : Shape} (hh : u.holdsBelow (256 + k) x h)
    (hm : ∀ j < k, u.made j) : u.weightOf x = u.weightSum h.leaves ∧ u.weighed x h = true := by
  induction h generalizing x with
  | leaf b =>
    obtain rfl : x = b.setWidth 9 := hh
    refine ⟨?_, rfl⟩
    rw [Units.weightOf_leaf]
    simp [Units.weightSum, Shape.leaves]
  | node l r ihl ihr =>
    obtain ⟨hx, hlt, a, b, ha, hb, hl, hr⟩ := hh
    obtain ⟨j, hj⟩ := Nat.exists_eq_add_of_le hx
    have hid : x = BitVec.ofNat 9 (256 + j) := by
      rw [← hj, BitVec.ofNat_toNat, BitVec.setWidth_eq]
    obtain ⟨hwa, hla⟩ := ihl hl
    obtain ⟨hwb, hlb⟩ := ihr hr
    have hw : u.weightOf x = u.weightSum (Shape.node l r).leaves := by
      have hsum := (hm j (by omega)).2 a b (hid ▸ ha) (hid ▸ hb)
      rw [hid, hsum, hwa, hwb, Shape.leaves, Units.weightSum, Units.weightSum, Units.weightSum, List.map_append,
        List.sum_append]
    refine ⟨hw, ?_⟩
    simp [Units.weighed, ha, hb, hw, hla, hlb]

/-- The last node made is the root. -/
theorem Units.Merging.root {k : Nat} {u : Units} {x : HId} (hu : u.Merging k) (hx : u.pq = [x]) (hk : 1 ≤ k) :
    x.toNat = 255 + k := by
  obtain ⟨k, rfl⟩ := Nat.exists_eq_add_of_le' hk
  have hcount := hu.count
  have hle := u.length_present_le
  rw [hx, List.length_singleton] at hcount
  have hk' : k < 255 := by omega
  have hid := nodeId_toNat hk'
  have hmade := hu.made k (by omega)
  have hself : u.waiting (k + 1) (BitVec.ofNat 9 (256 + k)) := by
    refine (Units.waiting_succ hk' (fun j hj => hu.made j (by omega)) _).mpr ⟨.inl rfl, fun hc => ?_, fun hc => ?_⟩
    · have := hmade.children_lt (.inl hc)
      omega
    · have := hmade.children_lt (.inr hc)
      omega
  have hmem := (hu.waiting _).mpr hself
  rw [hx] at hmem
  rw [← List.mem_singleton.mp hmem, hid]
  omega

/-- The tables BuildTree leaves hold the whole tree. -/
theorem Units.Merging.done {k : Nat} {v : Units} {x : HId} (hv : v.Merging k) (hx : v.pq = [x]) :
    ∃ h : Shape, Units.holds { v with pq := [], rootH := x } x h = true ∧ h.leaves.Perm v.present ∧ h.depth ≤ 255 ∧
      Units.weighed { v with pq := [], rootH := x } x h = true ∧ h.nodes = k ∧
      ∀ j < k, Units.joinsTheLeast { v with pq := [], rootH := x } j := by
  obtain ⟨h, hh, hleaves, hnodes⟩ := hv.tree hx
  have hagree : Units.AgreeBelow 512 v { v with pq := [], rootH := x } :=
    ⟨fun _ _ => rfl, fun _ _ => rfl, fun _ _ => rfl⟩
  have hk : k ≤ 255 := by
    have hle := v.length_present_le
    have hcount := hv.count
    rw [hx, List.length_singleton] at hcount
    omega
  have hh' := hh.congr (Nat.le_refl _) (v := { v with pq := [], rootH := x }) (fun _ _ => rfl) fun _ _ => rfl
  have hmade : ∀ j < k, Units.made { v with pq := [], rootH := x } j := fun j hj =>
    (hagree.mono (by omega)).made (by omega) (hv.made j hj)
  exact ⟨h, hh'.holds, hleaves, h.depth_le_nodes.trans (hnodes.trans_le hk), (hh'.weighed hmade).2, hnodes,
    fun j hj => (hmade j hj).1⟩

/-- The weight of at most one byte is a 64-bit number. -/
theorem Units.weightSum_lt {u : Units} {bs : List Byte} (h : bs.length ≤ 1) : u.weightSum bs < 2 ^ 64 := by
  match bs with
  | [] => exact Nat.two_pow_pos 64
  | [b] => simpa [Units.weightSum] using (u.weightAt b).isLt
  | _ :: _ :: _ => simp at h

/-- HTB.BUILD_TREE's pseudocode, once BuildTree is known to end well. -/
theorem bodyOf_htbBuildTree {s t : State} (h : buildTree s = .ok () t) :
    bodyOf .htbBuildTree s = .ok () { t with res0 := t.u.rootH.setWidth 64 } := by
  show (buildTree >>= fun _ => _) _ = _
  rw [Op.bind_ok h, Op.units_bind, ← BitVec.ofNat_toNat]
  rfl

/-- Settles O35: no byte, which gives the leaf 0, or the loop on the present bytes. -/
theorem buildTreeJoinsThePresentBytes : Obligations.BuildTreeJoinsThePresentBytes := by
  intro s hs
  refine ⟨fun htotal => ?_, fun h2 htotal => ?_⟩
  · by_cases hp : s.u.present = []
    · have hbody := bodyOf_htbBuildTree (buildTree_none (s := s.begin 0x32) hp)
      have hpq : s.u.presentBytes = [] := by rw [Units.presentBytes_eq, hp]; rfl
      refine ⟨_, .leaf 0, exec_completes .htbBuildTree hs rfl (by simp) rfl hbody, rfl, ?_, Nat.zero_le _, rfl, rfl,
        fun h => absurd h (by decide), fun k hk => absurd hk (Nat.not_lt_zero k), fun b => ?_, ?_⟩
      · rw [if_pos hp]
        exact .refl _
      · simp [State.completed, Units.codeValid, Units.buildStart]
      · rw [← hpq]
        rfl
    · rcases buildTree_some (s := s.begin 0x32) hp with ⟨v, k, x, hbuild, hv, hsame, hx⟩ | ⟨t, -, hover⟩
      · obtain ⟨h, hh, hleaves, hdepth, hweighed, hnodes, hjoins⟩ := hv.done hx
        refine ⟨_, h, exec_completes .htbBuildTree hs rfl (by simp) rfl (bodyOf_htbBuildTree hbuild), hh, ?_, hdepth,
          hweighed, ?_, ?_, fun j hj => hjoins j (hnodes ▸ hj), fun b => ?_, ?_⟩
        · rw [if_neg hp]
          exact hsame.present.1 ▸ hleaves
        · rw [hnodes]
          exact hv.nextId
        · rw [hnodes]
          exact hv.root hx
        · have hc : v.cvalid = Vector.replicate 256 false := by rw [hsame]; rfl
          simp [State.completed, Units.codeValid, hc]
        · unfold State.completed
          dsimp only
          rw [hsame]
          rfl
      · rcases htotal with hlt | hone
        · exact absurd hover (Nat.not_le.mpr hlt)
        · exact absurd hover (Nat.not_le.mpr (Units.weightSum_lt hone))
  · have hp : s.u.present ≠ [] := List.ne_nil_of_length_pos (by omega)
    rcases buildTree_some (s := s.begin 0x32) hp with ⟨v, k, x, -, hv, hsame, hx⟩ | ⟨t, ht, -⟩
    · obtain ⟨hpresent, hsum⟩ := hsame.present
      have hweight := hv.total
      rw [hpresent, hsum, hx, List.map_singleton, List.sum_singleton] at hweight
      exact absurd (hweight.symm ▸ htotal) (Nat.not_le.mpr (v.weightOf_lt x))
    · obtain ⟨t, hexec, hstatus⟩ := exec_raises .htbBuildTree hs rfl (by simp) rfl (Op.bind_error ht)
      exact ⟨t, hexec, hstatus.trans (by decide)⟩

end Sys2Proof.Machine
end

section
/-! SUPPORT. The tree BuildTree makes depends on the weights alone; the tree of a string's counts, and the codes it gives
(42_huffman.md R222 to R225, R234). -/

namespace Sys2Proof.Machine

/-! ## The weights determine the tree -/

theorem Units.ahead.asymm {u : Units} {x y : HId} (h : u.ahead x y) : ¬ u.ahead y x := by
  unfold Units.ahead at *
  omega

theorem Units.ahead.trans {u : Units} {x y z : HId} (h : u.ahead x y) (h' : u.ahead y z) : u.ahead x z := by
  unfold Units.ahead at *
  omega

/-- Whatever waits besides the two joined comes after the left child too. -/
theorem Units.joinsTheLeast.children_eq {u v : Units} {k : Nat} (hu : u.joinsTheLeast k) (hv : v.joinsTheLeast k)
    (h : u.AgreeBelow (256 + k) v) (hk : k ≤ 255) :
    v.leftOf (BitVec.ofNat 9 (256 + k)) = u.leftOf (BitVec.ofNat 9 (256 + k)) ∧
      v.rightOf (BitVec.ofNat 9 (256 + k)) = u.rightOf (BitVec.ofNat 9 (256 + k)) := by
  obtain ⟨a, b, ha, hb, hwa, hwb, hab, hrest⟩ := hu
  obtain ⟨a', b', ha', hb', hwa', hwb', hab', hrest'⟩ := hv
  have hwait := h.waiting hk
  have hua := (hwait a').mp hwa'
  have hub := (hwait b').mp hwb'
  rw [h.ahead hua.lt hub.lt] at hab'
  have hrest'' (x : HId) (hx : u.waiting k x) (hxa : x ≠ a') (hxb : x ≠ b') : u.ahead b' x :=
    (h.ahead hub.lt hx.lt).mp (hrest' x ((hwait x).mpr hx) hxa hxb)
  have hfirst (x : HId) (hx : u.waiting k x) (hxa : x ≠ a) : u.ahead a x := by
    by_cases hxb : x = b
    · exact hxb ▸ hab
    · exact hab.trans (hrest x hx hxa hxb)
  have hfirst' (x : HId) (hx : u.waiting k x) (hxa : x ≠ a') : u.ahead a' x := by
    by_cases hxb : x = b'
    · exact hxb ▸ hab'
    · exact hab'.trans (hrest'' x hx hxa hxb)
  obtain rfl : a' = a := by
    by_contra hne
    exact (hfirst a' hua hne).asymm (hfirst' a hwa (Ne.symm hne))
  obtain rfl : b' = b := by
    by_contra hne
    have hba : b ≠ a' := fun he => hab.asymm (he ▸ hab)
    have hba' : b' ≠ a' := fun he => hab'.asymm (he ▸ hab')
    exact (hrest b' hub hba' hne).asymm (hrest'' b hwb hba (Ne.symm hne))
  exact ⟨ha'.trans ha.symm, hb'.trans hb.symm⟩

/-- Two builds from the same weights have the same nodes. -/
theorem Units.agreeBelow_of_made {u v : Units} {k : Nat} (hu : ∀ j < k, u.made j) (hv : ∀ j < k, v.made j)
    (hw : ∀ b, v.weightAt b = u.weightAt b) (hk : k ≤ 255) : u.AgreeBelow (256 + k) v := by
  induction k with
  | zero =>
    have hnone (w : Units) (x : HId) (hx : x.toNat < 256) : w.leftOf x = none ∧ w.rightOf x = none :=
      ⟨if_neg (by omega), if_neg (by omega)⟩
    refine ⟨fun x hx => (hnone v x hx).1.trans (hnone u x hx).1.symm, fun x hx => (hnone v x hx).2.trans
      (hnone u x hx).2.symm, fun x hx => ?_⟩
    rw [← leaf_of_lt hx, Units.weightOf_leaf, Units.weightOf_leaf, hw]
  | succ k ih =>
    have hlow := ih (fun j hj => hu j (by omega)) (fun j hj => hv j (by omega)) (by omega)
    obtain ⟨hju, hsu⟩ := hu k (by omega)
    obtain ⟨hjv, hsv⟩ := hv k (by omega)
    obtain ⟨hl, hr⟩ := hju.children_eq hjv hlow (by omega)
    obtain ⟨a, b, ha, hb, hwa, hwb, -⟩ := hju
    have hid := nodeId_toNat (show k < 255 by omega)
    have hcase (x : HId) (hx : x.toNat < 256 + (k + 1)) : x.toNat < 256 + k ∨ x = BitVec.ofNat 9 (256 + k) := by
      by_cases hlt : x.toNat < 256 + k
      · exact .inl hlt
      · exact .inr (BitVec.eq_of_toNat_eq (by omega))
    refine ⟨fun x hx => ?_, fun x hx => ?_, fun x hx => ?_⟩
    · rcases hcase x hx with hlt | rfl
      · exact hlow.left x hlt
      · exact hl
    · rcases hcase x hx with hlt | rfl
      · exact hlow.right x hlt
      · exact hr
    · rcases hcase x hx with hlt | rfl
      · exact hlow.weight x hlt
      · rw [hsu a b ha hb, hsv a b (hl.trans ha) (hr.trans hb), hlow.weight a hwa.lt, hlow.weight b hwb.lt]

/-- A node table holds at most one tree at an id. -/
theorem Units.holdsBelow.unique {u : Units} {m m' : Nat} {x : HId} {h h' : Shape} (hh : u.holdsBelow m x h)
    (hh' : u.holdsBelow m' x h') : h = h' := by
  induction h generalizing x h' with
  | leaf b =>
    obtain rfl : x = b.setWidth 9 := hh
    have hb := b.isLt
    have hx := toNat_leaf b
    cases h' with
    | leaf c =>
      have hc : b.setWidth 9 = c.setWidth 9 := hh'
      rw [← setWidth_leaf b, hc, setWidth_leaf]
    | node l r =>
      have := hh'.1
      omega
  | node l r ihl ihr =>
    obtain ⟨hx, -, a, b, ha, hb, hl, hr⟩ := hh
    cases h' with
    | leaf c =>
      obtain rfl : x = c.setWidth 9 := hh'
      have hc := c.isLt
      have := toNat_leaf c
      omega
    | node l' r' =>
      obtain ⟨-, -, a', b', ha', hb', hl', hr'⟩ := hh'
      obtain rfl : a = a' := Option.some.inj (ha.symm.trans ha')
      obtain rfl : b = b' := Option.some.inj (hb.symm.trans hb')
      rw [ihl hl hl', ihr hr hr']

theorem Units.present_congr {u v : Units} (h : ∀ b, v.weightAt b = u.weightAt b) : v.present = u.present := by
  unfold Units.present
  simp only [h]

/-- Two builds from the same weights end with the same tree. -/
theorem Units.Merging.tree_unique {u v : Units} {k k' : Nat} {x x' : HId} {h h' : Shape} (hu : u.Merging k)
    (hv : v.Merging k') (hw : ∀ b, v.weightAt b = u.weightAt b) (hx : u.pq = [x]) (hx' : v.pq = [x'])
    (hh : u.holdsBelow (256 + k) x h) (hh' : v.holdsBelow (256 + k') x' h') : h = h' := by
  have hcount := hu.count
  have hcount' := hv.count
  have hle := u.length_present_le
  rw [Units.present_congr hw] at hcount'
  rw [hx, List.length_singleton] at hcount
  rw [hx', List.length_singleton] at hcount'
  obtain rfl : k = k' := by omega
  have hagree := Units.agreeBelow_of_made hu.made hv.made hw (by omega)
  have hwaits := (hv.waiting x').mp (hx' ▸ List.mem_singleton_self x')
  have hmem := (hu.waiting x').mpr ((hagree.waiting (by omega) x').mp hwaits)
  rw [hx, List.mem_singleton] at hmem
  rw [hmem] at hh'
  exact (hh.congr (Nat.le_refl _) hagree.left hagree.right).unique hh'

/-! ## The tree of a string's counts -/

/-- The weights count the bytes of bs. -/
def Units.counts (u : Units) (bs : List Byte) : Prop := ∀ b, (u.weightAt b).toNat = bs.count b

theorem Units.counts.weightAt_eq {u v : Units} {bs : List Byte} (hu : u.counts bs) (hv : v.counts bs) (b : Byte) :
    v.weightAt b = u.weightAt b := BitVec.eq_of_toNat_eq ((hv b).trans (hu b).symm)

theorem Units.counts.mem_present {u : Units} {bs : List Byte} (h : u.counts bs) (b : Byte) :
    b ∈ u.present ↔ b ∈ bs := by
  rw [Units.mem_present, ← List.count_pos_iff, ← h b, Nat.pos_iff_ne_zero, ne_eq, ← BitVec.toNat_inj]
  rfl

theorem Units.counts.weightSum {u : Units} {bs : List Byte} (h : u.counts bs) : u.weightSum u.present = bs.length := by
  have hperm : u.present.Perm bs.dedup :=
    (List.perm_ext_iff_of_nodup u.nodup_present bs.nodup_dedup).mpr fun b => by rw [h.mem_present, List.mem_dedup]
  rw [Units.weightSum, List.map_congr_left fun b _ => h b, (hperm.map _).sum_eq]
  exact List.sum_map_count_dedup_eq_length bs

/-- A unit state whose weights count the bytes of bs. -/
def Units.countsOf (bs : List Byte) : Units :=
  { resetUnits 0 with weight := Vector.ofFn fun i : Fin 256 => BitVec.ofNat 64 (bs.count (BitVec.ofNat 8 i)) }

theorem Units.counts_countsOf {bs : List Byte} (h : bs.length < 2 ^ 64) : (Units.countsOf bs).counts bs := by
  intro b
  have hle : bs.count b ≤ bs.length := List.count_le_length
  simp only [Units.weightAt, Units.countsOf, Vector.getElem_ofFn, BitVec.toNat_ofNat, BitVec.ofNat_toNat,
    BitVec.setWidth_eq]
  exact Nat.mod_eq_of_lt (by omega)

/-- Two unit states differ in the tables BuildTree writes only. -/
def Units.SameButTree (u v : Units) : Prop :=
  v = { u with
    leftH := v.leftH, rightH := v.rightH, nweight := v.nweight, nextH := v.nextH, rootH := v.rootH, pq := v.pq
    cvalid := v.cvalid }

/-- BuildTree makes h on every state whose weights count the bytes of bs. -/
def Shape.isTreeOf (bs : List Byte) (h : Shape) : Prop :=
  ∀ s : State, s.u.counts bs →
    ∃ v, buildTree s = .ok () { s with u := v } ∧ v.holds v.rootH h = true ∧ s.u.SameButTree v

theorem isTreeOf_nil : Shape.isTreeOf [] (.leaf 0) := by
  intro s hs
  have hp : s.u.present = [] := List.eq_nil_iff_forall_not_mem.mpr fun b hb => by simpa using (hs.mem_present b).mp hb
  exact ⟨_, buildTree_none hp, rfl, rfl⟩

theorem Units.counts.buildTree_merging {s : State} {bs : List Byte} (hs : s.u.counts bs) (hne : bs ≠ [])
    (hlen : bs.length < 2 ^ 64) : ∃ v k x h, buildTree s = .ok () { s with u := { v with pq := [], rootH := x } } ∧
      v.Merging k ∧ s.u.buildStart.SameButBuilt v ∧ v.pq = [x] ∧ v.holdsBelow (256 + k) x h ∧ v.counts bs ∧
      h.leaves.Perm s.u.present := by
  obtain ⟨b, hb⟩ := List.exists_mem_of_ne_nil bs hne
  have hp : s.u.present ≠ [] := List.ne_nil_of_mem ((hs.mem_present b).mpr hb)
  rcases buildTree_some hp with ⟨v, k, x, hbuild, hv, hsame, hx⟩ | ⟨-, -, hover⟩
  · obtain ⟨h, hh, hleaves, -⟩ := hv.tree hx
    have hcounts : v.counts bs := by rw [hsame]; exact hs
    rw [hsame.present.1] at hleaves
    exact ⟨v, k, x, h, hbuild, hv, hsame, hx, hh, hcounts, hleaves⟩
  · rw [hs.weightSum] at hover
    omega

/-- Every string shorter than 2^64 has a tree, over exactly its bytes. -/
theorem exists_isTreeOf {bs : List Byte} (hlen : bs.length < 2 ^ 64) : ∃ h : Shape, h.isTreeOf bs ∧ h.leaves.Nodup ∧
    ∀ b, b ∈ h.leaves ↔ (b ∈ bs ∨ (bs = [] ∧ b = 0)) := by
  by_cases hne : bs = []
  · subst hne
    exact ⟨.leaf 0, isTreeOf_nil, List.nodup_singleton _, fun b => by simp [Shape.leaves]⟩
  · obtain ⟨u, k, x, h, -, hu, -, hx, hh, hcounts, hleaves⟩ := Units.counts.buildTree_merging
      (s := { State.reset with u := Units.countsOf bs }) (Units.counts_countsOf hlen) hne hlen
    refine ⟨h, fun s hs => ?_, hleaves.nodup_iff.mpr (Units.nodup_present _), fun b => ?_⟩
    · obtain ⟨v, k', x', h', hbuild, hv, hsame, hx', hh', hcounts', -⟩ := hs.buildTree_merging hne hlen
      obtain rfl := hu.tree_unique hv (fun b => hcounts.weightAt_eq hcounts' b) hx hx' hh hh'
      have hhold := Units.holds_congr (u := v) (v := { v with pq := [], rootH := x' }) rfl rfl x' h
      refine ⟨_, hbuild, hhold.trans hh'.holds, ?_⟩
      rw [hsame]
      rfl
    · rw [hleaves.mem_iff, (Units.counts_countsOf hlen).mem_present]
      simp [hne]

/-! ## The codes of a tree (42_huffman.md R225) -/

/-- The path of a leaf. -/
def Shape.pathOf (b : Byte) : Shape → List Bool
  | .leaf _ => []
  | .node l r => if b ∈ l.leaves then false :: l.pathOf b else true :: r.pathOf b

theorem Shape.mem_paths_pathOf {h : Shape} {b : Byte} (hb : b ∈ h.leaves) : (b, h.pathOf b) ∈ h.paths := by
  induction h with
  | leaf v =>
    obtain rfl := List.mem_singleton.mp hb
    exact List.mem_singleton_self _
  | node l r ihl ihr =>
    rw [Shape.pathOf]
    split
    · next hl => exact List.mem_append_left _ (List.mem_map.mpr ⟨_, ihl hl, rfl⟩)
    · next hl =>
      exact List.mem_append_right _ (List.mem_map.mpr ⟨_, ihr ((List.mem_append.mp hb).resolve_left hl), rfl⟩)

theorem Shape.map_fst_paths (h : Shape) : h.paths.map Prod.fst = h.leaves := by
  induction h with
  | leaf v => rfl
  | node l r ihl ihr =>
    rw [Shape.paths, List.map_append, List.map_map, List.map_map, Shape.leaves, ← ihl, ← ihr]
    rfl

/-- Setting codes makes the listed bytes' codes valid. -/
theorem Units.codeValid_setCodes {ps : List (Byte × List Bool)} {u : Units} {b : Byte}
    (h : u.codeValid b = true ∨ b ∈ ps.map Prod.fst) :
    (ps.foldl (fun w vp => w.setCode (vp.1.setWidth 9) (bitsValue vp.2) vp.2.length) u).codeValid b = true := by
  induction ps generalizing u with
  | nil => exact h.resolve_right List.not_mem_nil
  | cons vp ps ih =>
    refine ih ?_
    rw [(u.codeEntry_setCode vp.1 b (bitsValue vp.2) vp.2.length).1]
    rw [List.map_cons, List.mem_cons] at h
    rcases h with h | rfl | h
    · exact .inl (by rw [h, ite_self])
    · exact .inl (if_pos rfl)
    · exact .inr h

/-- The code of a leaf is its path, where the leaves are distinct. -/
theorem Units.withCodes_code {h : Shape} (hn : h.leaves.Nodup) (hd : h.depth ≤ Config.maxCode) (u : Units) {b : Byte}
    (hb : b ∈ h.leaves) : ((u.withCodes h.paths).codeOf b).toNat = bitsValue (h.pathOf b) ∧
      ((u.withCodes h.paths).codeLen b).toNat = (h.pathOf b).length := by
  have hvalid : (u.withCodes h.paths).codeValid b = true :=
    Units.codeValid_setCodes (.inr (by rw [h.map_fst_paths]; exact hb))
  obtain ⟨path, hmem, hcode, hlen⟩ := Units.codesFrom_withCodes hd u b hvalid
  have hpath : (b, path) = (b, h.pathOf b) :=
    List.inj_on_of_nodup_map (h.map_fst_paths ▸ hn) hmem (Shape.mem_paths_pathOf hb) rfl
  rw [← (Prod.mk.inj hpath).2]
  exact ⟨hcode, hlen⟩

/-- The codes of a string follow the tree to its bytes. -/
theorem Shape.forall₂_pathOf {h : Shape} {bs : List Byte} (hb : ∀ b ∈ bs, b ∈ h.leaves) :
    List.Forall₂ (fun b path => h.follow path = some b) bs (bs.map h.pathOf) := by
  rw [List.forall₂_map_right_iff, List.forall₂_same]
  exact fun b hm => (Shape.follow_of_mem_paths (Shape.mem_paths_pathOf (hb b hm))).1

end Sys2Proof.Machine
end

section
/-! SUPPORT. What the encoder writes, as one bit string behind the output: either all of it, or the sink is full before
(41_bit_stream.md R180 to R185; 42_huffman.md R230 to R232). -/

namespace Sys2Proof.Machine

/-! ## Bytes of a bit string -/

theorem packBytes_bytesBits (bs : List Byte) : packBytes bs.length (bytesBits bs) = bs := by
  induction bs with
  | nil => rfl
  | cons b bs ih =>
    have h8 := length_wordBits 8 b.toNat
    rw [List.length_cons, packBytes, bytesBits_cons, List.take_left' h8, List.drop_left' h8, ih, bitsValue_wordBits,
      Nat.mod_eq_of_lt b.isLt, BitVec.ofNat_toNat, BitVec.setWidth_eq]

/-- Whole bytes in front are packed as they are. -/
theorem packPadded_bytesBits_append (bs : List Byte) (bits : List Bool) :
    packPadded (bytesBits bs ++ bits) = bs ++ packPadded bits := by
  have hn : ((bytesBits bs ++ bits).length + 7) / 8 = bs.length + (bits.length + 7) / 8 := by
    rw [List.length_append, length_bytesBits]
    omega
  have hlen := length_bytesBits bs
  rw [packPadded, hn, packBytes_add, packBytes_append _ _ _ (by rw [hlen]), packBytes_bytesBits, List.drop_left' hlen]
  rfl

theorem length_packPadded (bits : List Bool) : (packPadded bits).length = (bits.length + 7) / 8 := length_packBytes _ _

/-- The buffered bits, packed, are the buffer's byte. -/
theorem packPadded_pendingBits {u : Units} (hw : u.writerOk) :
    packPadded u.pendingBits = if u.wfree.toNat < 8 then [u.wpb] else [] := by
  obtain ⟨h1, h8, hlt⟩ := hw
  have hlen := u.length_pendingBits
  split
  · next h =>
    rw [packPadded, hlen, show (8 - u.wfree.toNat + 7) / 8 = 1 by omega, packBytes, packBytes,
      List.take_of_length_le (by omega), Units.pendingBits, bitsValue_wordBits, Nat.mod_eq_of_lt hlt, BitVec.ofNat_toNat,
      BitVec.setWidth_eq]
  · next h =>
    rw [packPadded, hlen, show (8 - u.wfree.toNat + 7) / 8 = 0 by omega]
    rfl

/-! ## Sending bits -/

/-- Two states differ in the output, the writer and the draws only. -/
def State.SameButSent (s t : State) : Prop :=
  t = { s with
    out := t.out, opos := t.opos, olen := t.olen, io := t.io, u := { s.u with wpb := t.u.wpb, wfree := t.u.wfree } }

theorem State.SameButSent.trans {s t q : State} (h : s.SameButSent t) (h' : t.SameButSent q) : s.SameButSent q := by
  unfold State.SameButSent at *
  rw [h] at h'
  exact h'

/-- From q on the output has become B; what lies there ends at OPOS, and every draw is true. -/
structure State.Sent (q : State) (lo : Nat) (B : List Bool) (s : State) : Prop where
  written : s.Written lo B
  fine : s.ioFine
  atEnd : s.opos = s.olen
  frame : q.SameButSent s

/-- The piece sends these bits and changes nothing else; if it faults, L bits do not fit the sink, where L bounds the
length of the output with them. -/
def Op.Sends (q : State) (L : Nat) (x : Op Unit) (bits : List Bool) : Prop :=
  ∀ B : List Bool, (B ++ bits).length ≤ L →
    Op.Holds (q.Sent 1 B) x (fun _ => q.Sent 1 (B ++ bits)) fun _ => 8 * q.params.outSize < L

/-- The CLEN low bits of a byte's CODE (42_huffman.md R232). -/
def Units.codeBits (u : Units) (b : Byte) : List Bool := wordBits (u.codeLen b).toNat (u.codeOf b).toNat

section
variable {q : State} {L : Nat}

theorem Op.Sends.pure : Op.Sends q L (Pure.pure ()) [] := fun B _ => .pure fun _ hs => by rwa [List.append_nil]

theorem Op.Sends.bind {x : Op Unit} {f : Unit → Op Unit} {as bs : List Bool} (hx : Op.Sends q L x as)
    (hf : Op.Sends q L (f ()) bs) : Op.Sends q L (x >>= f) (as ++ bs) := by
  intro B hB
  rw [← List.append_assoc] at hB ⊢
  exact (hx B (by rw [List.length_append] at hB; omega)).bind fun _ => hf _ hB

theorem Op.Sends.withUnits {f : Units → Op Unit} {bits : List Bool}
    (h : ∀ s, q.SameButSent s → Op.Sends q L (f s.u) bits) : Op.Sends q L (units >>= f) bits :=
  fun B hB s hs => h s hs.frame B hB s hs

theorem Op.Sends.withChildren {id a b : HId} {f : HId × HId → Op Unit} {bits : List Bool} (ha : q.u.leftOf id = some a)
    (hb : q.u.rightOf id = some b) (h : Op.Sends q L (f (a, b)) bits) : Op.Sends q L (children id >>= f) bits := by
  intro B hB s hs
  have hframe := hs.frame
  have ha' : s.u.leftOf id = some a := by rw [hframe]; exact ha
  have hb' : s.u.rightOf id = some b := by rw [hframe]; exact hb
  rw [Op.bind_ok (children_ok ha' hb')]
  exact h B hB s hs

/-- A full byte goes out if there is room for it. -/
theorem sends_emitFullByte {B : List Bool} (hB : B.length ≤ L) :
    Op.Holds (q.Sent 0 B) emitFullByte (fun _ => q.Sent 1 B) fun _ => 8 * q.params.outSize < L := by
  rintro s ⟨⟨hsize, ⟨-, h8, hw⟩, hbits⟩, hio, hend, hframe⟩
  unfold emitFullByte
  rw [Op.units_bind]
  by_cases h0 : s.u.wfree = 0
  · rw [if_pos h0]
    by_cases hr : s.opos.toNat < s.params.outSize
    · rw [Op.bind_ok (sinkWrite_ok hio hr _)]
      exact ⟨⟨hsize, emptied_writer, (State.outBits_putByte hr hsize h0 _ rfl).trans hbits⟩,
        State.putByte_ioFine hio s.u.wpb, (State.putByte_appends s.u.wpb hend ⟨hsize, hr⟩).2.1, hframe.trans rfl⟩
    · rw [Op.bind_error (sinkWrite_full hio (by omega) _)]
      show 8 * q.params.outSize < L
      have hparams : s.params = q.params := by rw [hframe]
      have hfree : s.u.wfree.toNat = 0 := by rw [h0]; rfl
      have hlen := congrArg List.length hbits
      rw [State.outBits, List.length_append, length_bytesBits, List.length_map, List.length_range,
        Units.length_pendingBits, hfree] at hlen
      rw [← hparams]
      omega
  · have hne : s.u.wfree.toNat ≠ 0 := fun h => h0 (BitVec.eq_of_toNat_eq h)
    rw [if_neg h0]
    exact ⟨⟨hsize, ⟨by omega, h8, hw⟩, hbits⟩, hio, hend, hframe⟩

/-- Each round sends its chunk of the value, lowest bits first (41_bit_stream.md R180). -/
theorem sends_writeLoop {fuel c : Nat} (v : Nat) (hf : c < fuel) :
    Op.Sends q L (writeLoop fuel v c) (wordBits c v) := by
  induction fuel generalizing v c with
  | zero => exact absurd hf (Nat.not_lt_zero c)
  | succ fuel ih =>
    intro B hB
    refine .ite (fun h0 => ?_) fun h0 => .withUnits fun u => ?_
    · subst h0
      exact Op.Sends.pure B hB
    · rintro s ⟨hs, rfl⟩
      have h1 := hs.written.writer.1
      have hk : min c s.u.wfree.toNat + (c - min c s.u.wfree.toNat) = c := by omega
      have hsplit : wordBits c v = wordBits (min c s.u.wfree.toNat) v ++
          wordBits (c - min c s.u.wfree.toNat) (v >>> min c s.u.wfree.toNat) := by
        rw [Nat.shiftRight_eq_div_pow, ← wordBits_add, hk]
      rw [hsplit, ← List.append_assoc] at hB ⊢
      have hchunk : (B ++ wordBits (min c s.u.wfree.toNat) v).length ≤ L := by
        rw [List.length_append] at hB
        omega
      have hbuffer : q.Sent 0 (B ++ wordBits (min c s.u.wfree.toNat) v)
          { s with u := s.u.bufferBits v (min c s.u.wfree.toNat) } :=
        ⟨hs.written.bufferBits v (Nat.min_le_right _ _), hs.fine, hs.atEnd, hs.frame.trans rfl⟩
      exact ((sends_emitFullByte (q := q) hchunk).bind fun _ => ih _ (by omega) _ hB) _ hbuffer

theorem sends_writeBits (v c : Nat) : Op.Sends q L (writeBits v c false) (wordBits c v) := by
  have hloop := sends_writeLoop (q := q) (L := L) (v % 2 ^ c) (Nat.lt_succ_self c)
  rw [wordBits_mod c c v (Nat.le_refl c)] at hloop
  have hbind := hloop.bind (f := fun _ => if false then flushPartial else Pure.pure ()) Op.Sends.pure
  rwa [List.append_nil] at hbind

theorem sends_writeWideLoop {fuel c : Nat} (v : Nat) (hf : c ≤ fuel) :
    Op.Sends q L (writeWideLoop fuel v c) (wordBits c v) := by
  induction fuel generalizing v c with
  | zero =>
    obtain rfl : c = 0 := by omega
    exact Op.Sends.pure
  | succ fuel ih =>
    rw [writeWideLoop]
    by_cases h0 : c = 0
    · subst h0
      exact Op.Sends.pure
    · have hk : min c Config.VW + (c - min c Config.VW) = c := by omega
      have hpos : 1 ≤ min c Config.VW := by rw [Config.VW]; omega
      have hsplit : wordBits c v = wordBits (min c Config.VW) (v % 2 ^ min c Config.VW) ++
          wordBits (c - min c Config.VW) (v >>> min c Config.VW) := by
        rw [Nat.shiftRight_eq_div_pow, wordBits_mod _ _ v (Nat.le_refl _), ← wordBits_add, hk]
      rw [if_neg h0, hsplit]
      exact (sends_writeBits _ _).bind (ih _ (by omega))

/-! ## Trees, counts and codes -/

/-- EmitTree sends the serialized tree below a node (42_huffman.md R230). -/
theorem sends_emitNode {levels : Nat} {id : HId} {h : Shape} (hh : q.u.holds id h = true) (hd : h.depth ≤ levels) :
    Op.Sends q L (emitNode levels id) h.bits := by
  induction h generalizing levels id with
  | leaf v =>
    obtain rfl := Units.holds_leaf hh
    have hlt : (v.setWidth 9).toNat < 256 := by rw [toNat_leaf]; exact v.isLt
    unfold emitNode
    rw [if_pos hlt, toNat_leaf]
    exact (sends_writeBits 1 1).bind (sends_writeBits v.toNat 8)
  | node l r ihl ihr =>
    obtain ⟨a, b, ha, hb, hl, hr, h256⟩ := Units.holds_node hh
    simp only [Shape.depth] at hd
    obtain ⟨n, rfl⟩ := Nat.exists_eq_add_one_of_ne_zero (show levels ≠ 0 by omega)
    unfold emitNode
    rw [if_neg (by omega)]
    exact (sends_writeBits 0 1).bind (.withChildren ha hb ((ihl hl (by omega)).bind (ihr hr (by omega))))

theorem sends_emitTree {h : Shape} (hh : q.u.holds q.u.rootH h = true) (hd : h.depth ≤ Config.maxCode) :
    Op.Sends q L emitTree h.bits := by
  refine .withUnits fun s hs => ?_
  have hroot : s.u.rootH = q.u.rootH := by rw [hs]
  rw [hroot]
  exact sends_emitNode hh hd

theorem countBytes_ne_nil (n : Nat) : countBytes n ≠ [] := by
  refine List.ne_nil_of_length_pos ?_
  rw [countBytes, List.length_map, List.length_range]
  omega

/-- The bits of a count's first group, and of the groups behind it if there are any. -/
theorem groupsBits_countBytes (n : Nat) : groupsBits (countBytes n) = wordBits 8 (n % 256) ++
    (wordBits 1 (if n / 256 = 0 then 1 else 0) ++ if n / 256 = 0 then [] else groupsBits (countBytes (n / 256))) := by
  have hto : (BitVec.ofNat 8 n).toNat = n % 256 := BitVec.toNat_ofNat ..
  by_cases h0 : n / 256 = 0
  · rw [if_pos h0, if_pos h0, countBytes_small (by omega), groupsBits, hto]
    rfl
  · rw [if_neg h0, if_neg h0, countBytes_large (by omega), groupsBits_cons _ (countBytes_ne_nil _), hto]
    rfl

/-- One round of EmitCount. -/
theorem sends_emitGroups_succ {fuel n : Nat}
    (h : n / 256 ≠ 0 → Op.Sends q L (emitGroups fuel (n / 256)) (groupsBits (countBytes (n / 256)))) :
    Op.Sends q L (emitGroups (fuel + 1) n) (groupsBits (countBytes n)) := by
  rw [groupsBits_countBytes, emitGroups, Nat.shiftRight_eq_div_pow]
  refine (sends_writeBits _ 8).bind ((sends_writeBits _ 1).bind ?_)
  by_cases h0 : n / 256 = 0
  · rw [if_pos h0, if_pos h0]
    exact .pure
  · rw [if_neg h0, if_neg h0]
    exact h h0

/-- EmitCount sends the groups of the count (42_huffman.md R231). -/
theorem sends_emitGroups {fuel n : Nat} (hn : n < 256 ^ (fuel + 1)) :
    Op.Sends q L (emitGroups (fuel + 1) n) (groupsBits (countBytes n)) := by
  induction fuel generalizing n with
  | zero => exact sends_emitGroups_succ fun h0 => by omega
  | succ fuel ih =>
    refine sends_emitGroups_succ fun _ => ih ?_
    rwa [Nat.div_lt_iff_lt_mul (by omega), ← Nat.pow_succ]

/-- EmitCode sends the byte's code (42_huffman.md R232). -/
theorem sends_emitCode (b : Byte) : Op.Sends q L (emitCode b) (q.u.codeBits b) := by
  refine .withUnits fun s hs => ?_
  have hcode : s.u.codeOf b = q.u.codeOf b ∧ s.u.codeLen b = q.u.codeLen b := by
    rw [hs]
    exact ⟨rfl, rfl⟩
  rw [hcode.1, hcode.2]
  exact sends_writeWideLoop _ (Nat.le_refl _)

/-! ## The end of the output -/

/-- With the output at its end, its bytes and the buffered bits are all that was sent. -/
theorem State.Sent.packPadded_eq {B : List Bool} {s : State} (h : q.Sent 1 B s) :
    packPadded B = s.outBytes ++ if s.u.wfree.toNat < 8 then [s.u.wpb] else [] := by
  have hbits := h.written.bits
  rw [State.outBits, h.atEnd] at hbits
  rw [← hbits, packPadded_bytesBits_append, packPadded_pendingBits h.written.writer]
  rfl

/-- A flush writes the partial byte: the output is what was sent, padded to a byte (41_bit_stream.md R182). -/
theorem sends_flush {B : List Bool} (hB : B.length ≤ L) : Op.Holds (q.Sent 1 B) (writeBits 0 0 true)
    (fun _ t => t.outBytes = packPadded B ∧ q.SameButSent t) fun _ => 8 * q.params.outSize < L := by
  intro s hs
  have hrun : writeBits 0 0 true s = flushPartial s := rfl
  have hpack := hs.packPadded_eq
  obtain ⟨⟨hsize, hw, hbits⟩, hio, hend, hframe⟩ := hs
  by_cases h8 : s.u.wfree.toNat < 8
  · rw [if_pos h8] at hpack
    by_cases hr : s.opos.toNat < s.params.outSize
    · rw [hrun, flushPartial_ok hio fun _ => ⟨hsize, hr⟩, State.flushed_of_partial h8]
      exact ⟨(State.putByte_appends s.u.wpb hend ⟨hsize, hr⟩).1.trans hpack.symm,
        State.SameButSent.trans (t := s) hframe rfl⟩
    · rw [hrun, flushPartial, Op.units_bind, if_pos h8, Op.bind_error (sinkWrite_full hio (by omega) _)]
      show 8 * q.params.outSize < L
      have hparams : s.params = q.params := by rw [hframe]
      have hlen := congrArg List.length hbits
      rw [State.outBits, List.length_append, length_bytesBits, List.length_map, List.length_range,
        Units.length_pendingBits] at hlen
      rw [← hparams]
      omega
  · rw [if_neg h8, List.append_nil] at hpack
    rw [hrun, flushPartial, Op.units_bind, if_neg h8]
    exact ⟨hpack.symm, hframe⟩

/-! ## The source bytes -/

/-- A step of the source position. -/
theorem State.Sent.moved {B : List Bool} {s : State} (h : q.Sent 1 B s) (p : Word) (n : Nat) :
    State.Sent { q with ipos := p } 1 B { s with ipos := p, io := s.io.drop n } := by
  obtain ⟨hsize, hw, hbits⟩ := h.written
  refine ⟨⟨hsize, hw, hbits⟩, State.ioFine_draw h.fine n, h.atEnd, ?_⟩
  have hframe := h.frame
  unfold State.SameButSent
  rw [hframe]

/-- The step back to the start of the source (42_huffman.md R234). -/
theorem holds_srcSeek_start {B : List Bool} {n : Nat} {J : State → Prop} (hn : q.ipos.toNat = n) :
    Op.Holds (q.Sent 1 B) (srcSeek (-(n : Int))) (fun _ => State.Sent { q with ipos := 0 } 1 B) J := by
  intro s hs
  have hipos : s.ipos = q.ipos := by rw [hs.frame]
  rw [srcSeek_ok hs.fine (n := 0) (by rw [hipos, hn]; exact Int.add_right_neg _)]
  exact hs.moved 0 1

/-- One round of step 5 of HENC.ENCODE sends the next source byte's code (42_huffman.md R234). -/
theorem holds_encodeByte {B : List Bool} (hi : q.ipos.toNat < q.slen.toNat)
    (hB : (B ++ q.u.codeBits (q.srcByte q.ipos.toNat)).length ≤ L) :
    Op.Holds (q.Sent 1 B) encodeByte
      (fun _ => State.Sent { q with ipos := q.ipos + 1 } 1 (B ++ q.u.codeBits (q.srcByte q.ipos.toNat)))
      fun _ => 8 * q.params.outSize < L := by
  intro s hs
  obtain ⟨hipos, hslen, hsrc⟩ : s.ipos = q.ipos ∧ s.slen = q.slen ∧ s.src = q.src := by
    rw [hs.frame]
    exact ⟨rfl, rfl, rfl⟩
  have hbyte : s.srcByte s.ipos.toNat = q.srcByte q.ipos.toNat := by
    rw [State.srcByte, State.srcByte, hsrc, hipos]
  have hread := srcRead_some hs.fine (by rw [hipos, hslen]; exact hi)
  rw [hbyte, hipos] at hread
  unfold encodeByte
  rw [Op.bind_ok hread]
  exact sends_emitCode (q := { q with ipos := q.ipos + 1 }) _ B hB _ (hs.moved _ 1)

/-- Step 5 of HENC.ENCODE sends the codes of the source bytes not yet read. -/
theorem holds_encodeBytes (bs : List Byte) {q : State} {B : List Bool} (hq : q.unread = bs)
    (hle : q.ipos.toNat ≤ q.slen.toNat) (hB : (B ++ (bs.map q.u.codeBits).flatten).length ≤ L) :
    Op.Holds (q.Sent 1 B) (repeatOp bs.length encodeByte)
      (fun _ => State.Sent { q with ipos := q.slen } 1 (B ++ (bs.map q.u.codeBits).flatten))
      fun _ => 8 * q.params.outSize < L := by
  have hlen := q.length_unread
  rw [hq] at hlen
  induction bs generalizing q B with
  | nil =>
    have hend : q.ipos = q.slen := BitVec.eq_of_toNat_eq (by rw [List.length_nil] at hlen; omega)
    have hq' : q = { q with ipos := q.slen } := congrArg (fun p => ({ q with ipos := p } : State)) hend
    refine .pure fun s hs => ?_
    rw [List.map_nil, List.flatten_nil, List.append_nil, ← hq']
    exact hs
  | cons b bs ih =>
    rw [List.length_cons] at hlen
    have hi : q.ipos.toNat < q.slen.toNat := by omega
    have hcons := State.unread_cons hi
    rw [hq] at hcons
    obtain ⟨rfl, hrest⟩ := List.cons.inj hcons
    have hnext : (q.ipos + 1).toNat = q.ipos.toNat + 1 := word_succ_toNat hi q.slen.isLt
    rw [List.map_cons, List.flatten_cons, ← List.append_assoc] at hB ⊢
    refine (holds_encodeByte hi (by rw [List.length_append] at hB; omega)).bind fun _ => ?_
    exact ih (q := { q with ipos := q.ipos + 1 }) hrest.symm (by show (q.ipos + 1).toNat ≤ q.slen.toNat; omega) hB
      (by show bs.length = q.slen.toNat - (q.ipos + 1).toNat; omega)

end

end Sys2Proof.Machine
end

section
/-! SUPPORT. HENC.ENCODE: the source counted, the tree built, then tree, count and codes sent (42_huffman.md R234), and
the round trip with HDEC.DECODE (42_huffman.md R245). -/

namespace Sys2Proof.Machine

/-! ## Counting the source (42_huffman.md R234) -/

/-- The bytes counted one after another. -/
def Units.countAll (bs : List Byte) (u : Units) : Units := bs.foldl (fun v b => v.addWeight b) u

/-- Counting changes the weights alone. -/
theorem Units.countAll_frame (bs : List Byte) (u : Units) :
    u.countAll bs = { u with weight := (u.countAll bs).weight } := by
  induction bs generalizing u with
  | nil => rfl
  | cons b bs ih =>
    have h := ih (u.addWeight b)
    exact h

/-- The weights after counting, as long as they are 64-bit numbers. -/
theorem Units.weightAt_countAll {bs : List Byte} {u : Units} {c : Byte}
    (h : (u.weightAt c).toNat + bs.length < 2 ^ 64) :
    ((u.countAll bs).weightAt c).toNat = (u.weightAt c).toNat + bs.count c := by
  induction bs generalizing u with
  | nil => rfl
  | cons b bs ih =>
    rw [List.length_cons] at h
    have hstep : ((u.addWeight b).weightAt c).toNat = (u.weightAt c).toNat + if b = c then 1 else 0 := by
      rw [Units.weightAt_addWeight]
      by_cases hc : c = b
      · subst hc
        rw [if_pos rfl, if_pos rfl, BitVec.toNat_add]
        exact Nat.mod_eq_of_lt (by show _ + 1 < 2 ^ 64; omega)
      · rw [if_neg hc, if_neg (Ne.symm hc), Nat.add_zero]
    have hle : (if b = c then 1 else 0) ≤ 1 := by split <;> omega
    have hrest := ih (u := u.addWeight b) (by omega)
    rw [List.count_cons]
    refine hrest.trans ?_
    rw [hstep]
    simp only [beq_iff_eq]
    omega

/-- Step 1 of HENC.ENCODE counts the source to its end. -/
theorem countLoop_ok (bs : List Byte) {fuel n : Nat} {s : State} (hio : s.ioFine) (hs : s.unread = bs)
    (hle : s.ipos.toNat ≤ s.slen.toNat) (hf : bs.length < fuel) :
    ∃ io, (∀ d ∈ io, d = true) ∧
      countLoop fuel n s = .ok (n + bs.length) { s with ipos := s.slen, io := io, u := s.u.countAll bs } := by
  obtain ⟨fuel, rfl⟩ := Nat.exists_eq_add_one_of_ne_zero (show fuel ≠ 0 by omega)
  have hlen := s.length_unread
  rw [hs] at hlen
  induction bs generalizing n s fuel with
  | nil =>
    have hend : s.ipos = s.slen := BitVec.eq_of_toNat_eq (by rw [List.length_nil] at hlen; omega)
    refine ⟨_, State.ioFine_draw hio 1, ?_⟩
    rw [countLoop, Op.bind_ok (srcRead_none hio (by rw [hend]))]
    exact congrArg (fun p => EStateM.Result.ok n ({ s.draw 1 with ipos := p } : State)) hend
  | cons b bs ih =>
    rw [List.length_cons] at hlen hf
    have hi : s.ipos.toNat < s.slen.toNat := by omega
    have hcons := State.unread_cons hi
    rw [hs] at hcons
    obtain ⟨rfl, hrest⟩ := List.cons.inj hcons
    have hnext : (s.ipos + 1).toNat = s.ipos.toNat + 1 := word_succ_toNat hi s.slen.isLt
    obtain ⟨fuel, rfl⟩ := Nat.exists_eq_add_one_of_ne_zero (show fuel ≠ 0 by omega)
    obtain ⟨io, hfine, hloop⟩ := ih (n := n + 1) (fuel := fuel)
      (s := { s with ipos := s.ipos + 1, io := s.io.drop 1, u := s.u.addWeight (s.srcByte s.ipos.toNat) })
      (State.ioFine_draw hio 1) hrest.symm (by show (s.ipos + 1).toNat ≤ s.slen.toNat; omega) (by omega)
      (by show bs.length = s.slen.toNat - (s.ipos + 1).toNat; omega)
    refine ⟨io, hfine, ?_⟩
    rw [countLoop, Op.bind_ok (srcRead_some hio hi)]
    refine (Op.setUnits_bind _ _ _).trans (hloop.trans ?_)
    rw [List.length_cons, Nat.add_assoc, Nat.add_comm 1]
    rfl

/-! ## Ready to send -/

/-- Setting codes changes the code table alone. -/
theorem Units.withCodes_eq (ps : List (Byte × List Bool)) (u : Units) : u.withCodes ps = { u with
    code := (u.withCodes ps).code, clen := (u.withCodes ps).clen, cvalid := (u.withCodes ps).cvalid } := by
  have key : ∀ (ps : List (Byte × List Bool)) (w : Units),
      let v := ps.foldl (fun w vp => w.setCode (vp.1.setWidth 9) (bitsValue vp.2) vp.2.length) w
      v = { w with code := v.code, clen := v.clen, cvalid := v.cvalid } := by
    intro ps
    induction ps with
    | nil => exact fun _ => rfl
    | cons vp ps ih => exact fun w => ih (w.setCode (vp.1.setWidth 9) (bitsValue vp.2) vp.2.length)
  exact key ps { u with cvalid := Vector.replicate 256 false }

/-- Nothing has been sent, and the draws are true. -/
theorem State.sent_nil {q : State} (hio : q.ioFine) (hP : q.params.outSize < 2 ^ 64) (hopos : q.opos = 0)
    (holen : q.olen = 0) (hwpb : q.u.wpb = 0) (hfree : q.u.wfree = 8) : q.Sent 1 [] q := by
  refine ⟨⟨hP, ?_, ?_⟩, hio, hopos.trans holen.symm, rfl⟩
  · rw [hfree, hwpb]
    decide
  · rw [State.outBits, hopos, Units.pendingBits, hfree]
    rfl

/-- The state in which HENC.ENCODE begins to write: the tree and the codes are there, the source is read to its end, and
of the state outside the tables nothing else has changed. -/
structure State.ReadyToSend (s : State) (h : Shape) (q : State) : Prop where
  sent : q.Sent 1 [] q
  tree : q.u.holds q.u.rootH h = true
  codes : ∀ b ∈ s.srcBytes, q.u.codeBits b = h.pathOf b
  source : q.src = s.src ∧ q.slen = s.slen ∧ q.ipos = s.slen
  kept : q.params = s.params ∧ q.res1 = s.res1

/-- The bits of HENC.ENCODE's output (30_encoding.md R130). -/
def Shape.encoding (h : Shape) (bs : List Byte) : List Bool :=
  h.bits ++ groupsBits (countBytes bs.length) ++ (bs.map h.pathOf).flatten

/-- Steps 3 to 6 of HENC.ENCODE's pseudocode (42_huffman.md R234). -/
def sendAll (n : Nat) : Op Unit := do
  emitTree
  emitCount n
  srcSeek (-(n : Int))
  repeatOp n encodeByte
  writeBits 0 0 true
  setRes0 n

theorem Shape.depth_le_of_nodup {h : Shape} (hn : h.leaves.Nodup) : h.depth ≤ 255 ∧ h.nodes ≤ 255 := by
  have hlen := length_le_of_nodup hn
  have hd := h.depth_le_nodes
  rw [h.length_leaves] at hlen
  omega

theorem State.length_srcBytes (s : State) : s.srcBytes.length = s.slen.toNat := by
  rw [State.srcBytes, List.length_map, List.length_range]

/-- What comes before the first write. -/
theorem huffmanEncode_eq {s : State} {h : Shape} (hio : s.ioFine) (hP : s.params.outSize < 2 ^ 64)
    (htree : h.isTreeOf s.srcBytes) (hn : h.leaves.Nodup) (hl : ∀ b ∈ s.srcBytes, b ∈ h.leaves) :
    ∃ q, huffmanEncode s = sendAll s.srcBytes.length q ∧ s.ReadyToSend h q := by
  obtain ⟨hd, -⟩ := Shape.depth_le_of_nodup hn
  obtain ⟨io, hfine, hcount⟩ := countLoop_ok s.srcBytes (n := 0)
    (fuel := 0 + 8 * (s.slen.toNat - 0) + 1)
    (s := { s.streamInit with u := { s.streamInit.u with weight := Vector.replicate 256 0 } })
    hio rfl (Nat.zero_le _) (by rw [s.length_srcBytes]; omega)
  have hcounts : (Units.countAll s.srcBytes { s.streamInit.u with weight := Vector.replicate 256 0 }).counts s.srcBytes := by
    intro b
    have hzero : (({ s.streamInit.u with weight := Vector.replicate 256 0 } : Units).weightAt b).toNat = 0 := by
      simp [Units.weightAt]
    have hlt := s.slen.isLt
    rw [Units.weightAt_countAll (by rw [hzero, s.length_srcBytes]; omega), hzero, Nat.zero_add]
  have hframe := Units.countAll_frame s.srcBytes { s.streamInit.u with weight := Vector.replicate 256 0 }
  generalize Units.countAll s.srcBytes { s.streamInit.u with weight := Vector.replicate 256 0 } = u at *
  obtain ⟨v, hbuild, hh, hv⟩ := htree { s.streamInit with ipos := s.slen, io := io, u := u } hcounts
  have hderive := deriveCodes_ok h (s := { s.streamInit with ipos := s.slen, io := io, u := v }) hh hd
  refine ⟨{ s.streamInit with ipos := s.slen, io := io, u := v.withCodes h.paths }, ?_, ?_⟩
  · unfold huffmanEncode
    rw [Nat.zero_add s.srcBytes.length] at hcount
    refine (Op.bind_ok (f := fun n => buildTree >>= fun _ => deriveCodes >>= fun _ => sendAll n) hcount).trans ?_
    exact (Op.bind_ok hbuild).trans (Op.bind_ok hderive)
  · have hcodes := v.withCodes_eq h.paths
    obtain ⟨hleft, hright, -, hroot, -⟩ := v.withCodes_frame h.paths
    have hwriter : (v.withCodes h.paths).wpb = 0 ∧ (v.withCodes h.paths).wfree = 8 := by
      rw [hcodes, hv, hframe]
      exact ⟨rfl, rfl⟩
    constructor
    case sent => exact State.sent_nil hfine hP rfl rfl hwriter.1 hwriter.2
    case tree =>
      show (v.withCodes h.paths).holds (v.withCodes h.paths).rootH h = true
      rw [hroot, Units.holds_congr hleft hright, hh]
    case codes =>
      intro b hb
      obtain ⟨hcode, hlen⟩ := Units.withCodes_code hn hd v (hl b hb)
      show wordBits ((v.withCodes h.paths).codeLen b).toNat ((v.withCodes h.paths).codeOf b).toNat = _
      rw [hcode, hlen, wordBits_bitsValue]
    case source => exact ⟨rfl, rfl, rfl⟩
    case kept => exact ⟨rfl, rfl⟩

/-- What the writing steps send is the encoding; if they fault, the sink does not hold it. -/
theorem holds_sendAll {s q : State} {h : Shape} (hq : s.ReadyToSend h q) (hd : h.depth ≤ Config.maxCode) :
    Op.Holds (q.Sent 1 []) (sendAll s.srcBytes.length)
      (fun _ t => t.outBytes = packPadded (h.encoding s.srcBytes) ∧ t.res0 = s.slen ∧ t.res1 = s.res1 ∧
        t.ipos = s.slen)
      fun _ => 8 * s.params.outSize < (h.encoding s.srcBytes).length := by
  obtain ⟨-, htree, hcodes, ⟨hsrc, hslen, hipos⟩, hparams, hres1⟩ := hq
  have hlen := s.length_srcBytes
  have hlt := s.slen.isLt
  have hpaths : s.srcBytes.map q.u.codeBits = s.srcBytes.map h.pathOf := List.map_congr_left hcodes
  have htotal : h.encoding s.srcBytes =
      h.bits ++ groupsBits (countBytes s.srcBytes.length) ++ (s.srcBytes.map q.u.codeBits).flatten := by
    rw [hpaths, Shape.encoding]
  have hunread : ({ q with ipos := 0 } : State).unread = s.srcBytes := by
    show ((List.range q.slen.toNat).drop 0).map (fun k => (Memory.get q.src k).getD (Config.srcPowerOn k)) = _
    rw [hslen, hsrc]
    rfl
  rw [htotal, ← hparams]
  unfold sendAll
  have hstart : q.ipos.toNat = s.srcBytes.length := by rw [hipos, hlen]
  refine (sends_emitTree htree hd [] ?_).bind fun _ => (sends_emitGroups (fuel := 7) (by omega) _ ?_).bind fun _ =>
    (holds_srcSeek_start hstart).bind fun _ =>
    (holds_encodeBytes s.srcBytes (q := { q with ipos := 0 }) hunread (Nat.zero_le _) (Nat.le_refl _)).bind fun _ =>
    (sends_flush (q := { q with ipos := q.slen }) (Nat.le_refl _)).bind fun _ => ?_
  · simp only [List.length_append, List.nil_append]
    omega
  · simp only [List.length_append, List.nil_append]
    omega
  rintro t ⟨hout, hframe⟩
  refine ⟨hout, ?_, ?_, ?_⟩
  · show BitVec.ofNat 64 s.srcBytes.length = s.slen
    rw [hlen, BitVec.ofNat_toNat, BitVec.setWidth_eq]
  · rw [← hres1]
    show t.res1 = q.res1
    rw [hframe]
  · rw [← hslen]
    show t.ipos = q.slen
    rw [hframe]

/-! ## HENC.ENCODE -/

/-- HENC.ENCODE's pseudocode either writes the encoding, or the sink does not hold it. -/
theorem huffmanEncode_outcome {s : State} {h : Shape} (hio : s.ioFine) (hP : s.params.outSize < 2 ^ 64)
    (htree : h.isTreeOf s.srcBytes) (hn : h.leaves.Nodup) (hl : ∀ b ∈ s.srcBytes, b ∈ h.leaves) :
    (∃ t, huffmanEncode s = .ok () t ∧ t.outBytes = packPadded (h.encoding s.srcBytes) ∧ t.res0 = s.slen ∧
      t.res1 = s.res1 ∧ t.ipos = s.slen) ∨
    ∃ e t, huffmanEncode s = .error e t ∧ 8 * s.params.outSize < (h.encoding s.srcBytes).length := by
  obtain ⟨q, hq, hready⟩ := huffmanEncode_eq hio hP htree hn hl
  have hsend := holds_sendAll hready (Shape.depth_le_of_nodup hn).1 q hready.sent
  rw [hq]
  cases hr : sendAll s.srcBytes.length q with
  | ok a t =>
    rw [hr] at hsend
    exact .inl ⟨t, rfl, hsend⟩
  | error e t =>
    rw [hr] at hsend
    exact .inr ⟨e, t, rfl, hsend⟩

theorem exec_hencEncode (s : State) : exec .hencEncode s = runCommand 0x40 none huffmanEncode s := rfl

/-- HENC.ENCODE where the sink holds the encoding. -/
theorem exec_hencEncode_fits {s : State} {h : Shape} (hs : s.healthy) (hio : s.ioFine) (hP : s.params.outSize < 2 ^ 64)
    (htree : h.isTreeOf s.srcBytes) (hn : h.leaves.Nodup) (hl : ∀ b ∈ s.srcBytes, b ∈ h.leaves)
    (hfit : (packPadded (h.encoding s.srcBytes)).length ≤ s.params.outSize) :
    ∃ t, exec .hencEncode s = .next t ∧ t.status.fault = false ∧ t.outBytes = packPadded (h.encoding s.srcBytes) ∧
      t.res0 = s.slen ∧ t.res1 = s.res1 ∧ t.ipos = s.slen := by
  rcases huffmanEncode_outcome (s := s.begin 0x40) hio hP htree hn hl with ⟨t, ht, hdone⟩ | ⟨-, -, -, hover⟩
  · have hstatus := (bodyOf_control_ok (i := .hencEncode) ht).2
    refine ⟨_, exec_completes .hencEncode hs rfl (by simp) rfl ht, ?_, hdone⟩
    show t.status.fault = false
    rw [hstatus]
    exact hs
  · rw [length_packPadded] at hfit
    have hover' : 8 * s.params.outSize < (h.encoding s.srcBytes).length := hover
    omega

/-- A string shorter than 2^64 with the same bytes: itself if it is one, else its distinct bytes. -/
theorem exists_short (bs : List Byte) :
    ∃ as : List Byte, as.length < 2 ^ 64 ∧ (∀ b, b ∈ as ↔ b ∈ bs) ∧ (bs.length < 2 ^ 64 → as = bs) := by
  by_cases h : bs.length < 2 ^ 64
  · exact ⟨bs, h, fun _ => Iff.rfl, fun _ => rfl⟩
  · have hle := length_le_of_nodup bs.nodup_dedup
    exact ⟨bs.dedup, by omega, fun b => List.mem_dedup, fun h' => absurd h' h⟩

/-- Settles O40: the tree is the one BuildTree makes of the counts, and each byte's code is its path. -/
theorem huffmanEncodeWritesTreeCountCodes : Obligations.HuffmanEncodeWritesTreeCountCodes := by
  intro bs
  obtain ⟨as, has, hmem, heq⟩ := exists_short bs
  obtain ⟨h, htree, hn, hleaves⟩ := exists_isTreeOf has
  have hnil : as = [] ↔ bs = [] := by
    rw [List.eq_nil_iff_forall_not_mem, List.eq_nil_iff_forall_not_mem]
    exact forall_congr' fun b => by rw [hmem]
  have hin : ∀ b ∈ bs, b ∈ h.leaves := fun b hb => (hleaves b).mpr (.inl ((hmem b).mpr hb))
  refine ⟨h, bs.map h.pathOf, hn, fun b => by rw [hleaves, hmem, hnil], Shape.forall₂_pathOf hin,
    fun s hs hio hP hsrc hfit => ?_⟩
  subst hsrc
  obtain rfl := heq (by rw [s.length_srcBytes]; exact s.slen.isLt)
  exact exec_hencEncode_fits hs hio hP htree hn hin hfit

/-! ## The round trip (42_huffman.md R245) -/

/-- The groups of a 64-bit count have no data from index 8 on. -/
theorem countBytes_high {n : Nat} (hn : n < 2 ^ 64) {g : Nat} {d : Byte} (hg : 8 ≤ g) (hd : (countBytes n)[g]? = some d) :
    d = 0 := by
  have hpow : 2 ^ 64 ≤ 256 ^ g := le_of_eq_of_le (by norm_num) (Nat.pow_le_pow_right (by decide : 0 < 256) hg)
  rw [countBytes, List.getElem?_map, Option.map_eq_some_iff] at hd
  obtain ⟨g', hg', rfl⟩ := hd
  obtain ⟨-, rfl⟩ := List.getElem?_eq_some_iff.mp hg'
  rw [List.getElem_range, Nat.div_eq_of_lt (by omega)]
  rfl

/-- The groups of a count are read as that count. -/
theorem groupsValue_countBytes (n : Nat) : groupsValue (countBytes n) = n := by
  induction n using Nat.strong_induction_on with
  | h n ih =>
    by_cases hn : n < 256
    · rw [countBytes_small hn, groupsValue, groupsValue, BitVec.toNat_ofNat]
      omega
    · rw [countBytes_large (by omega), groupsValue, ih _ (by omega), BitVec.toNat_ofNat]
      omega

/-- Settles O46: a run that ended well has written the encoding, which HDEC.DECODE takes apart. -/
theorem huffmanRoundTrip : Obligations.HuffmanRoundTrip := by
  intro s t r hs hio hP hexec ht hr hior hsrc hfit hPr
  have hlen := s.length_srcBytes
  have hlt := s.slen.isLt
  obtain ⟨h, htree, hn, hleaves⟩ := exists_isTreeOf (bs := s.srcBytes) (by omega)
  have hin : ∀ b ∈ s.srcBytes, b ∈ h.leaves := fun b hb => (hleaves b).mpr (.inl hb)
  have hout : t.outBytes = packPadded (h.encoding s.srcBytes) := by
    rw [exec_hencEncode] at hexec
    rcases runCommand_cases hs hexec with ⟨e, -, rfl⟩ | ⟨-, ⟨q, hb, rfl⟩ | ⟨e, q, -, rfl⟩⟩
    · cases ht
    · rcases huffmanEncode_outcome (s := s.begin 0x40) hio hP htree hn hin with
        ⟨q', hq', hdone, -⟩ | ⟨e, q', hq', -⟩
      · obtain rfl : q' = q := by
          rw [hq'] at hb
          cases hb
          rfl
        exact hdone
      · rw [hq'] at hb
        cases hb
    · rw [State.faultEntry_fault] at ht
      cases ht
  obtain ⟨pad, hpad⟩ := bytesBits_packPadded (h.encoding s.srcBytes)
  rw [← hout, ← hsrc] at hpad
  obtain ⟨q, hq, hfault, hbytes, hres0, -⟩ := huffmanDecodeWritesTheCodedBytes r h (countBytes s.srcBytes.length)
    s.srcBytes (s.srcBytes.map h.pathOf) pad hr hior (Shape.depth_le_of_nodup hn).2 (countBytes_ne_nil _)
    (fun g d => countBytes_high (by omega)) (groupsValue_countBytes _) (Shape.forall₂_pathOf hin) hpad (by omega) hPr
  exact ⟨q, hq, hfault, hbytes, BitVec.eq_of_toNat_eq (hres0.trans hlen)⟩

/-! ## An empty source (42_huffman.md R234, 44_lzss_coder.md R340) -/

/-- The state in which LENC.ENCODE begins. -/
def State.lencStart (s : State) : State :=
  { s.streamInit with u := { s.streamInit.u.winClear with lcur := 0, llook := 0, lskip := 0, leof := false } }

/-- With no source byte the fill meets end-of-data at once. -/
theorem fillLoop_empty {s : State} {room : Nat} (hio : s.ioFine) (hi : s.slen.toNat ≤ s.ipos.toNat) (n : Nat) :
    fillLoop (room + 1) n s = .ok n { s.draw 1 with u := { s.u with leof := true } } := by
  rw [fillLoop, Op.bind_ok (srcRead_none hio hi)]
  rfl

theorem encodeLoop_empty {s : State} {fuel : Nat} (hl : s.u.llook = 0) (n : Nat) : encodeLoop (fuel + 1) n s = .ok n s := by
  rw [encodeLoop, Op.units_bind, hl, if_neg (Nat.lt_irrefl 0)]
  rfl

/-- The end of LENC.ENCODE's pseudocode (44_lzss_coder.md R340). -/
def sendSentinel (n : Nat) : Op Unit := do
  let u ← units
  emitSentinel u.lcur.toNat
  writeBits 0 0 true
  setRes0 n

/-- LENC.ENCODE's pseudocode from the encode loop on. -/
def lencLoop (n0 : Nat) : Op Unit := do
  let bound ← (fun s => .ok (s.slen.toNat - s.ipos.toNat + s.u.llook + 1) s : Op Nat)
  let n ← encodeLoop bound n0
  sendSentinel n

theorem lencLoop_empty {s : State} (hl : s.u.llook = 0) (n : Nat) : lencLoop n s = sendSentinel n s :=
  (Op.bind_ok (x := fun s => .ok (s.slen.toNat - s.ipos.toNat + s.u.llook + 1) s) rfl).trans
    (Op.bind_ok (encodeLoop_empty hl n))

theorem lzssEncode_eq (s : State) : lzssEncode s = (fillLoop s.params.maxLen 0 >>= lencLoop) s.lencStart := rfl

theorem lzssEncode_empty {s : State} (hio : s.ioFine) (hs : s.slen = 0) :
    lzssEncode s = sendSentinel 0 { s.lencStart.draw 1 with u := { s.lencStart.u with leof := true } } := by
  obtain ⟨room, hroom⟩ := Nat.exists_eq_add_one_of_ne_zero (show s.params.maxLen ≠ 0 by
    rw [Config.Params.maxLen, Config.Params.minLen, Config.M]
    omega)
  have hnone : s.slen.toNat ≤ 0 := by rw [hs]; exact Nat.le_refl 0
  have hfill := fillLoop_empty (s := s.lencStart) (room := room) hio hnone 0
  rw [lzssEncode_eq, hroom, Op.bind_ok hfill, lencLoop_empty rfl]

/-- The end token at the cursor 0, padded, is two zero bytes. -/
theorem holds_sendSentinel {q : State} (hq : q.u.lcur = 0) : Op.Holds (q.Sent 1 []) (sendSentinel 0)
    (fun _ t => t.outBytes = [0x00, 0x00] ∧ t.res0 = 0) fun _ => 8 * q.params.outSize < 13 := by
  refine .withUnits fun u => ?_
  rintro s ⟨hs, rfl⟩
  have hcur : s.u.lcur.toNat = 0 := by rw [hs.frame, hq]; rfl
  have hsentinel : Op.Sends q 13 (emitSentinel 0) (List.replicate 13 false) :=
    (sends_writeBits 0 1).bind (sends_writeBits 0 Config.M)
  rw [hcur]
  refine ((hsentinel [] (by decide)).bind fun _ => (sends_flush (by decide)).bind fun _ => ?_) s hs
  rintro t ⟨hout, -⟩
  exact ⟨hout.trans (by decide), rfl⟩

/-- Settles O57: the tree of no bytes is the leaf 0, and LENC.ENCODE sends the end token alone. -/
theorem emptySourceEncodes : Obligations.EmptySourceEncodes := by
  intro s hs hio hslen hfit hP
  have hsrc : s.srcBytes = [] := by rw [State.srcBytes, hslen]; rfl
  constructor
  · obtain ⟨t, ht, hfault, hout, hres0, -⟩ := exec_hencEncode_fits (h := .leaf 0) hs hio hP
      (by rw [hsrc]; exact isTreeOf_nil) (List.nodup_singleton _) (by rw [hsrc]; exact fun b hb => absurd hb List.not_mem_nil)
      (by rw [hsrc]; exact le_of_eq_of_le (by decide) hfit)
    rw [hsrc] at hout
    exact ⟨t, ht, hout.trans (by decide), hres0.trans hslen, hfault⟩
  · have hsent : State.Sent _ 1 [] { (s.begin 0x90).lencStart.draw 1 with
        u := { (s.begin 0x90).lencStart.u with leof := true } } :=
      State.sent_nil (State.ioFine_draw (s := (s.begin 0x90).lencStart) hio 1) hP rfl rfl rfl rfl
    have hsend := holds_sendSentinel rfl _ hsent
    have hrun := lzssEncode_empty (s := s.begin 0x90) hio hslen
    cases hr : sendSentinel 0 { (s.begin 0x90).lencStart.draw 1 with
        u := { (s.begin 0x90).lencStart.u with leof := true } } with
    | ok a t =>
      rw [hr] at hsend hrun
      have hstatus := (bodyOf_control_ok (i := .lencEncode) hrun).2
      refine ⟨_, exec_completes .lencEncode hs rfl (by simp) rfl hrun, hsend.1, hsend.2, ?_⟩
      show t.status.fault = false
      rw [hstatus]
      exact hs
    | error e t =>
      rw [hr] at hsend
      have hover : 8 * s.params.outSize < 13 := hsend
      omega

end Sys2Proof.Machine
end

section
/-! SUPPORT. The window commands: one write with its mirror, and one read. -/

namespace Sys2Proof.Machine

theorem lowPos_setWidth (p : Pos) : lowPos (p.setWidth 64) = p := by
  unfold lowPos
  ext i
  simp

theorem isPosition_setWidth (p : Pos) : isPosition (p.setWidth 64) = true := by
  have hp := p.isLt
  refine decide_eq_true ?_
  rw [BitVec.toNat_setWidth, Config.W]
  omega

/-- Settles O49: WinPut writes the slot and its mirror, WinRd answers the byte of a written slot and raises UNINIT_READ
on any other. -/
theorem windowCommandsReadWhatWasWritten : Obligations.WindowCommandsReadWhatWasWritten := by
  refine ⟨fun s k b hs _ hm => ?_, fun s k hs hk => ?_⟩
  · have hcheck : checkOf s (.winWrite (k.setWidth 64) (b.setWidth 64)) = none :=
      checkFault_none.mpr ⟨Bool.and_eq_true_iff.mpr ⟨isPosition_setWidth k, isByte_setWidth b⟩,
        by rw [lowPos_setWidth, hm]; rfl⟩
    have hput := winPut_ok (s := s.begin 0x61) (k := k) b hm
    rw [← lowPos_setWidth k, ← lowByte_setWidth b] at hput
    refine ⟨_, exec_completes _ hs rfl (by simp) hcheck hput, fun j => ?_, rfl⟩
    rw [lowPos_setWidth, lowByte_setWidth]
    exact Units.get_winWr s.params k b s.u j
  · have hcheck : checkOf s (.winRead k) = none := checkFault_none.mpr ⟨decide_eq_true hk, rfl⟩
    constructor
    · intro v hv
      rw [exec_completes (.winRead k) hs rfl (by simp) hcheck (Op.bind_ok (winRd_ok (s := s.begin 0x62) hv))]
      have hres : BitVec.ofNat 64 v.toNat = v.setWidth 64 := BitVec.ofNat_toNat 64 v
      rw [← hres]
      rfl
    · intro hw
      obtain ⟨t, ht, hstatus⟩ := exec_raises (v := 0x62) (.winRead k) hs rfl (by simp) hcheck
        (Op.bind_error (winRd_unwritten (s := s.begin 0x62) hw))
      exact ⟨t, ht, hstatus.trans (by decide)⟩

end Sys2Proof.Machine
end

section
/-! SUPPORT. Remove keeps the order: a spliced member leaves its child's sequence, and the predecessor takes the place of
a member with two children as in Replace. -/

namespace Sys2Proof.Machine

/-! ## Relinking, entry by entry -/

section
variable (c : Byte) (new : Link) (old y : Pos) (u : Units)

theorem Units.leftOfD_relink : (u.relink c new old).leftOfD y =
    if u.parentOf old = some y ∧ u.leftOfD y = some old then new else u.leftOfD y := by
  simp only [Units.relink, Units.leftOfD_setParentOf, Units.relinkDown]
  cases u.parentOf old with
  | none => simp
  | some a => by_cases ha : u.leftOfD a = some old <;> by_cases hy : y = a <;> simp_all [eq_comm (a := a)]

theorem Units.rightOfD_relink : (u.relink c new old).rightOfD y =
    if u.parentOf old = some y ∧ u.leftOfD y ≠ some old then new else u.rightOfD y := by
  simp only [Units.relink, Units.rightOfD_setParentOf, Units.relinkDown]
  cases u.parentOf old with
  | none => simp
  | some a => by_cases ha : u.leftOfD a = some old <;> by_cases hy : y = a <;> simp_all [eq_comm (a := a)]

theorem Units.rootOf_relink (e : Byte) : (u.relink c new old).rootOf e =
    if u.parentOf old = none ∧ e = c then new else u.rootOf e := by
  cases hp : u.parentOf old with
  | none => simp [Units.rootOf_relink_root hp]
  | some a => simp [Units.rootOf_relink_child hp]

end

/-! ## The sequence of a tree around a node -/

/-- Without the one copy of q in it a list loses just that. -/
theorem filter_ne_of_nodup {xs ys : List Pos} {q : Pos} (h : (xs ++ q :: ys).Nodup) :
    (xs ++ q :: ys).filter (fun y => y != q) = xs ++ ys := by
  obtain ⟨-, hq, hdis⟩ := List.nodup_append.mp h
  have hxs : ∀ y ∈ xs, y ≠ q := fun y hy => hdis y hy q List.mem_cons_self
  have hys : ∀ y ∈ ys, y ≠ q := fun y hy e => (List.nodup_cons.mp hq).1 (e ▸ hy)
  rw [List.filter_append, List.filter_cons_of_neg (by simp), List.filter_eq_self.mpr fun y hy => bne_iff_ne.mpr (hxs y hy),
    List.filter_eq_self.mpr fun y hy => bne_iff_ne.mpr (hys y hy)]

theorem filter_ne_of_not_mem {xs : List Pos} {q : Pos} (h : q ∉ xs) : xs.filter (fun y => y != q) = xs :=
  List.filter_eq_self.mpr fun _ hy => bne_iff_ne.mpr fun e => h (e ▸ hy)

section
variable {u v : Units} {tree tree' : Byte → DTree} {c : Byte} {q : Pos} {l r : DTree}

/-- An exchange at q leaves the trees without q. -/
theorem Units.Forest.exchangeIn_of_ne (hf : u.Forest tree) (hq : q ∈ (tree c).inorder) {e : Byte} (he : e ≠ c)
    (t' : DTree) : exchangeIn tree q t' e = tree e :=
  DTree.exchange_of_not_mem _ fun h => he (hf.apart e c q h hq)

/-- What comes before and after the subtree at q, which an exchange keeps. -/
theorem Units.NodeAt.inorder_split (hat : u.NodeAt tree c q l r) (hf : u.Forest tree) (hq : q ∈ (tree c).inorder) :
    ∃ before after, (tree c).inorder = before ++ (l.inorder ++ q :: r.inorder) ++ after ∧
      ∀ t' : DTree, (exchangeIn tree q t' c).inorder = before ++ t'.inorder ++ after := by
  obtain ⟨l', r', before, after, hin, hex, hch⟩ := DTree.split_at hq (hf.nodup c)
  obtain ⟨hl, hr⟩ := hch u _ _ (hf.spelled c)
  obtain rfl := Units.spells_unique u hl hat.left
  obtain rfl := Units.spells_unique u hr hat.right
  exact ⟨before, after, hin, hex⟩

/-- The forest holds the sequences of the one before, with q left out (43_lzss_dictionary.md R294). -/
def RemovedInOrder (tree tree' : Byte → DTree) (q : Pos) : Prop :=
  ∀ e, (tree' e).inorder = (tree e).inorder.filter fun y => y != q

/-- An exchange of q's subtree for one with the sequences of its two children, one after the other, leaves q out. -/
theorem Units.NodeAt.removedInOrder (hat : u.NodeAt tree c q l r) (hf : u.Forest tree) (hq : q ∈ (tree c).inorder)
    {t' : DTree} (ht : t'.inorder = l.inorder ++ r.inorder) : RemovedInOrder tree (exchangeIn tree q t') q := by
  intro e
  by_cases he : e = c
  · subst he
    obtain ⟨before, after, hin, hex⟩ := hat.inorder_split hf hq
    have hcut : (tree e).inorder = (before ++ l.inorder) ++ q :: (r.inorder ++ after) := by rw [hin]; simp
    rw [hex, ht, hcut, filter_ne_of_nodup (hcut ▸ hf.nodup e)]
    simp
  · rw [hf.exchangeIn_of_ne hq he, filter_ne_of_not_mem fun h => he (hf.apart e c q h hq)]

/-- A node with at most one child leaves its place to it, and the sequence but for the node stays
(43_lzss_dictionary.md R291, R294). -/
theorem Units.Forest.unlink_single_inorder (hf : u.Forest tree) (hq : q ∈ (tree c).inorder) {ch : Link}
    (hch : (u.leftOfD q = ch ∧ u.rightOfD q = none) ∨ (u.leftOfD q = none ∧ u.rightOfD q = ch)) :
    ∃ tree', (u.relink c ch q).Forest tree' ∧ RemovedInOrder tree tree' q := by
  obtain ⟨l, r, hat⟩ := hf.nodeAt hq
  have hl := hat.left
  have hr := hat.right
  obtain ⟨t', hsp, hin⟩ : ∃ t', u.spells (some q) ch t' = true ∧ t'.inorder = l.inorder ++ r.inorder := by
    rcases hch with ⟨hc, h0⟩ | ⟨h0, hc⟩
    · rw [h0] at hr
      obtain rfl := (u.spells_nil_iff _ _).mp hr
      exact ⟨l, hc ▸ hl, by simp [DTree.inorder]⟩
    · rw [h0] at hl
      obtain rfl := (u.spells_nil_iff _ _).mp hl
      exact ⟨r, hc ▸ hr, by simp [DTree.inorder]⟩
  have hn : t'.inorder.Nodup := hin ▸ hat.nodup.sublist (by simp)
  refine ⟨_, hf.relink hq .refl hsp hn fun y hy => ?_, hat.removedInOrder hf hq hin⟩
  rw [hin, List.mem_append] at hy
  exact (hat.mem_tree_of_child hy).2

/-! ## Two children -/

/-- u and v have the same roots and, but for q, the same links. -/
structure Units.SameLinksBut (u v : Units) (q : Pos) : Prop where
  roots : ∀ e, v.rootOf e = u.rootOf e
  links : ∀ y, y ≠ q → v.parentOf y = u.parentOf y ∧ v.leftOfD y = u.leftOfD y ∧ v.rightOfD y = u.rightOfD y

/-- A forest without q depends on the other links. -/
theorem Units.SameLinksBut.forest (h : u.SameLinksBut v q) (hf : u.Forest tree) (hq : ¬ inForest tree q) :
    v.Forest tree :=
  hf.congr h.roots fun y hy => h.links y fun e => hq (e ▸ hy)

theorem RemovedInOrder.mem (h : RemovedInOrder tree tree' q) {e : Byte} {y : Pos} :
    y ∈ (tree' e).inorder ↔ y ∈ (tree e).inorder ∧ y ≠ q := by
  rw [h e, List.mem_filter, bne_iff_ne]

theorem RemovedInOrder.not_inForest (h : RemovedInOrder tree tree' q) : ¬ inForest tree' q := fun ⟨_, hq⟩ =>
  (h.mem.mp hq).2 rfl

/-- The parent of a node stands outside its subtree. -/
theorem Units.NodeAt.parent_ne (hat : u.NodeAt tree c q l r) (hf : u.Forest tree) (hq : q ∈ (tree c).inorder) {y : Pos}
    (hy : y ∈ l.inorder ++ q :: r.inorder) : u.parentOf q ≠ some y := fun h =>
  hat.apart y hy (hf.child_of_parent hq h).1

theorem Units.Forest.parent_ne_self (hf : u.Forest tree) (hq : q ∈ (tree c).inorder) : u.parentOf q ≠ some q := by
  obtain ⟨l, r, hat⟩ := hf.nodeAt hq
  exact hat.parent_ne hf hq (by simp)

/-- The tables after the predecessor x of q was lifted out of its own place, if that is not q's left child. -/
def Units.lifted (c : Byte) (li x : Pos) (u : Units) : Units := if x = li then u else u.lift c li x

@[simp] theorem Units.window_lifted (c : Byte) (li x : Pos) (u : Units) : (u.lifted c li x).window = u.window := by
  unfold Units.lifted
  split
  · rfl
  · exact Units.window_relink ..

/-- The lift leaves q's own parent entry. -/
theorem Units.NodeAt.parentOf_lifted (hat : u.NodeAt tree c q l r) (hf : u.Forest tree) (hq : q ∈ (tree c).inorder)
    {x li : Pos} (hl : u.leftOfD q = some li) (hxl : x ∈ l.inorder) : (u.lifted c li x).parentOf q = u.parentOf q := by
  have hli : q ≠ li := fun e => hf.parent_ne_self hq (by rw [← hf.parent_of_child ⟨c, hq⟩ (.inl hl), ← e])
  have hlx : u.leftOfD x ≠ some q := fun h => hat.parent_ne hf hq (y := x) (by simp [hxl])
    (hf.parent_of_child ⟨c, (hat.mem_tree_of_child (.inl hxl)).1⟩ (.inl h))
  unfold Units.lifted
  split
  · rfl
  · simp [Units.lift, hli, hlx]

/-- The tables after the predecessor x took q's place over q's right child ri (43_lzss_dictionary.md R291). -/
def Units.promoted (c : Byte) (li ri q x : Pos) (u : Units) : Units :=
  (((u.lifted c li x).setRightD x (some ri)).setParent ri (some x)).relink c (some x) q

/-- Removing a node with two children is splicing out its predecessor and then putting it in the node's place, as
Replace does (43_lzss_dictionary.md R291, R301). -/
theorem Units.Forest.promoted_links (hf : u.Forest tree) (hq : q ∈ (tree c).inorder) (hat : u.NodeAt tree c q l r)
    {x li ri : Pos} (hl : u.leftOfD q = some li) (hr : u.rightOfD q = some ri) (hxl : x ∈ l.inorder) :
    ((u.relink c (u.leftOfD x) x).replaced c q x).SameLinksBut (u.promoted c li ri q x) q := by
  have hqin : inForest tree q := ⟨c, hq⟩
  have hxt := (hat.mem_tree_of_child (.inl hxl)).1
  obtain ⟨-, -, hdis⟩ := List.nodup_append.mp hat.nodup
  have hqx : q ≠ x := fun e => hdis x hxl q List.mem_cons_self e.symm
  have hri : ri ∈ r.inorder := Units.spells_root_mem (hr ▸ hat.right)
  have hrix : ri ≠ x := fun e => hdis x hxl ri (List.mem_cons_of_mem _ hri) e.symm
  have hpl := hf.parent_of_child hqin (.inl hl)
  have hpr := hf.parent_of_child hqin (.inr hr)
  have hlr : li ≠ ri := fun e => hf.children_ne hqin hl (e ▸ hr)
  have hxx := hf.parent_ne_self hxt
  have hqq := hf.parent_ne_self hq
  have hqx' := hat.parent_ne hf hq (y := x) (by simp [hxl])
  have hlx : ∀ z, u.leftOfD x = some z → u.parentOf z = some x := fun z hz => hf.parent_of_child ⟨c, hxt⟩ (.inl hz)
  obtain ⟨a, ha⟩ : ∃ a, u.parentOf x = some a := by
    rcases Units.spells_hangs hat.left hxl with h | ⟨a, ha, h⟩
    · exact ⟨q, hf.parent_of_child hqin (.inl h)⟩
    · exact ⟨a, (Units.spells_child hat.left ha h).2⟩
  have hac := (hf.child_of_parent hxt ha).2
  -- every entry on either side is a choice among a few positions, which these facts tell apart
  unfold Units.promoted Units.lifted
  constructor
  · intro e
    split <;> simp [Units.replaced, Units.lift, Units.rootOf_relink] <;> grind
  · intro y hy
    split <;> refine ⟨?_, ?_, ?_⟩ <;>
      simp [Units.replaced, Units.lift, Units.leftOfD_relink, Units.rightOfD_relink] <;> grind

/-- x in q's place, in a sequence. -/
def Pos.inPlaceOf (q x y : Pos) : Pos := if y = q then x else y

theorem map_inPlaceOf {xs ys : List Pos} {q : Pos} (h : (xs ++ q :: ys).Nodup) (x : Pos) :
    (xs ++ q :: ys).map (Pos.inPlaceOf q x) = xs ++ x :: ys := by
  obtain ⟨-, hq, hdis⟩ := List.nodup_append.mp h
  have hkeep : ∀ zs : List Pos, (∀ y ∈ zs, y ≠ q) → zs.map (Pos.inPlaceOf q x) = zs := fun zs hz =>
    (List.map_congr_left fun y hy => if_neg (hz y hy)).trans (List.map_id zs)
  rw [List.map_append, List.map_cons, hkeep xs fun y hy => hdis y hy q List.mem_cons_self,
    hkeep ys fun y hy e => (List.nodup_cons.mp hq).1 (e ▸ hy), Pos.inPlaceOf, if_pos rfl]

/-- A node in q's place over q's subtrees takes q's place in the sequence (43_lzss_dictionary.md R305). -/
theorem Units.NodeAt.inorder_inPlaceOf (hat : u.NodeAt tree c q l r) (hf : u.Forest tree) (hq : q ∈ (tree c).inorder)
    (x : Pos) : (exchangeIn tree q (.node l x r) c).inorder = (tree c).inorder.map (Pos.inPlaceOf q x) := by
  obtain ⟨before, after, hin, hex⟩ := hat.inorder_split hf hq
  have hcut : (tree c).inorder = (before ++ l.inorder) ++ q :: (r.inorder ++ after) := by rw [hin]; simp
  rw [hex, hcut, map_inPlaceOf (hcut ▸ hf.nodup c)]
  simp [DTree.inorder]

/-- With x, the node just before q, spliced out and put in q's place the sequence is the one without q. -/
theorem map_filter_pred {xs ys : List Pos} {x q : Pos} (h : (xs ++ x :: q :: ys).Nodup) :
    ((xs ++ x :: q :: ys).filter fun y => y != x).map (Pos.inPlaceOf q x) =
      (xs ++ x :: q :: ys).filter fun y => y != q := by
  have hcut : xs ++ x :: q :: ys = (xs ++ [x]) ++ q :: ys := by simp
  have hx : (xs ++ q :: ys).Nodup := h.sublist (by simp)
  rw [filter_ne_of_nodup h, map_inPlaceOf hx, hcut, filter_ne_of_nodup (hcut ▸ h)]
  simp

/-- The predecessor in the place of a node with two children: the sequence but for the node stays
(43_lzss_dictionary.md R291, R294). -/
theorem Units.Forest.promote_inorder (hf : u.Forest tree) (hq : q ∈ (tree c).inorder) (hat : u.NodeAt tree c q l r)
    {x li ri : Pos} (hl : u.leftOfD q = some li) (hr : u.rightOfD q = some ri) (hlast : l.inorder.getLast? = some x)
    (hx : u.rightOfD x = none) :
    ∃ tree', (u.promoted c li ri q x).Forest tree' ∧ RemovedInOrder tree tree' q := by
  obtain ⟨xs, hxs⟩ := List.getLast?_eq_some_iff.mp hlast
  have hxl : x ∈ l.inorder := mem_of_getLast? hlast
  have hxt := (hat.mem_tree_of_child (.inl hxl)).1
  have hqx : q ≠ x := fun e => (List.nodup_append.mp hat.nodup).2.2 x hxl q List.mem_cons_self e.symm
  obtain ⟨tree1, hf1, hrem⟩ := hf.unlink_single_inorder hxt (.inl ⟨rfl, hx⟩)
  have hq1 : q ∈ (tree1 c).inorder := hrem.mem.mpr ⟨hq, hqx⟩
  obtain ⟨lt, rt, hat1⟩ := hf1.nodeAt hq1
  have horder : RemovedInOrder tree (exchangeIn tree1 q (.node lt x rt)) q := by
    intro e
    by_cases he : e = c
    · subst he
      obtain ⟨before, after, hin, -⟩ := hat.inorder_split hf hq
      have hcut : (tree e).inorder = (before ++ xs) ++ x :: q :: (r.inorder ++ after) := by rw [hin, hxs]; simp
      rw [hat1.inorder_inPlaceOf hf1 hq1, hrem e, hcut, map_filter_pred (hcut ▸ hf.nodup e)]
    · rw [hf1.exchangeIn_of_ne hq1 he, hrem e, filter_ne_of_not_mem fun h => he (hf.apart e c x h hxt),
        filter_ne_of_not_mem fun h => he (hf.apart e c q h hq)]
  exact ⟨_, (hf.promoted_links hq hat hl hr hxl).forest (hf1.replaced hq1 hrem.not_inForest hat1) horder.not_inForest,
    horder⟩

end

end Sys2Proof.Machine
end

section
/-! SUPPORT. DICT.REMOVE: the pseudocode's end with the sequences, and the statement. -/

namespace Sys2Proof.Machine

/-- v differs from u in the dictionary tables only. -/
def Units.SameButDictionary (u v : Units) : Prop :=
  v = { u with roots := v.roots, parent := v.parent, leftD := v.leftD, rightD := v.rightD, member := v.member }

/-- Pseudocode that writes the dictionary group alone, on the unit state. -/
theorem Op.Writes.sameButDictionary {α : Type} {x : Op α} (hw : Op.Writes [.dictionary] x) {s : State} {a : α} {v : Units}
    (h : x s = .ok a { s with u := v }) : s.u.SameButDictionary v := by
  have hg : ∀ g, g ∉ [Group.dictionary] → s.agree { s with u := v } g := fun g hg => by
    have := hw s g hg
    rwa [h] at this
  obtain ⟨h1, h2⟩ := hg .writer (by decide)
  obtain ⟨h3, h4⟩ := hg .reader (by decide)
  obtain ⟨h5, h6⟩ := hg .cursor (by decide)
  have h7 := hg .weights (by decide)
  obtain ⟨h8, h9, h10, h11, h12, h13⟩ := hg .tree (by decide)
  obtain ⟨h14, h15, h16⟩ := hg .codes (by decide)
  have h17 := hg .window (by decide)
  obtain ⟨h18, h19, h20, h21⟩ := hg .encoder (by decide)
  obtain ⟨h22, h23, h24, h25⟩ := hg .parser (by decide)
  unfold Units.SameButDictionary
  cases v
  simp_all [State.agree]

section
variable {s : State} {tree : Byte → DTree} {c : Byte} {p : Pos}

/-- The removal of a member from its tree leaves the sequences without it (43_lzss_dictionary.md R291, R294). -/
theorem unlinkMember_inorder (hd : s.u.Dict tree) (hp : p ∈ (tree c).inorder) :
    ∃ v tree', unlinkMember p s = .ok () { s with u := v } ∧ v.Forest tree' ∧ RemovedInOrder tree tree' p := by
  have hf := hd.forest
  have hsingle : ∀ {ch : Link}, (s.u.leftOfD p = ch ∧ s.u.rightOfD p = none) ∨
      (s.u.leftOfD p = none ∧ s.u.rightOfD p = ch) → ∃ v tree',
      linkNode (s.u.parentOf p) ch p s = .ok () { s with u := v } ∧ v.Forest tree' ∧ RemovedInOrder tree tree' p :=
    fun h =>
      let ⟨tree', hf', hrem⟩ := hf.unlink_single_inorder hp h
      ⟨_, tree', linkNode_ok (hd.bytes c p hp), hf', hrem⟩
  unfold unlinkMember
  simp only [Op.units_bind]
  cases hl : s.u.leftOfD p with
  | none => exact hsingle (.inr ⟨hl, rfl⟩)
  | some l =>
    cases hr : s.u.rightOfD p with
    | none => exact hsingle (.inl ⟨hl, hr⟩)
    | some r =>
      obtain ⟨lt, rt, hat⟩ := hf.nodeAt hp
      obtain ⟨hn, hnr, -⟩ := List.nodup_append.mp hat.nodup
      obtain ⟨x, hwalk, hx, hlast⟩ := rightmost_ok Config.W (hl ▸ hat.left) (DTree.length_inorder_le hn)
      have hxl : x ∈ lt.inorder := mem_of_getLast? hlast
      have hxt := (hat.mem_tree_of_child (.inl hxl)).1
      have hpr : p ≠ r := fun e => (List.nodup_cons.mp hnr).1 (e ▸ Units.spells_root_mem (hr ▸ hat.right))
      obtain ⟨tree', hf', hrem⟩ := hf.promote_inorder hp hat hl hr hlast hx
      have hlift : liftPredecessor l x s = .ok () { s with u := s.u.lifted c l x } := by
        by_cases hxe : x = l
        · unfold liftPredecessor
          rw [Op.units_bind, if_pos hxe, Units.lifted, if_pos hxe]
          rfl
        · rw [liftPredecessor_ok hxe (hd.bytes c x hxt), Units.lifted, if_neg hxe]
      dsimp only
      rw [Op.bind_ok hwalk, Op.bind_ok hlift]
      exact ⟨_, tree', promote_ok (hat.parentOf_lifted hf hp hl hxl) hpr
        ((congrArg (Memory.get · p.toNat) (Units.window_lifted ..)).trans (hd.bytes c p hp)), hf', hrem⟩

/-- Remove leaves every tree's sequence without the position (43_lzss_dictionary.md R294). -/
theorem removeNode_inorder {v : Units} (hd : s.u.Dict tree) (h : removeNode p s = .ok () { s with u := v }) :
    ∃ tree', v.Forest tree' ∧ RemovedInOrder tree tree' p := by
  unfold removeNode at h
  rw [Op.units_bind] at h
  split at h
  · next hm =>
    obtain ⟨c, hp⟩ := (hd.members p).mp hm
    obtain ⟨w, tree', hrun, hf, hrem⟩ := unlinkMember_inorder hd hp
    rw [Op.bind_ok hrun] at h
    cases h
    exact ⟨tree', hf.congr (fun _ => rfl) fun y hy => by
      have hne : y ≠ p := fun e => hrem.not_inForest (e ▸ hy)
      simp [hne], hrem⟩
  · next hm =>
    obtain rfl : s.u = v := congrArg State.u (EStateM.Result.ok.inj h).2
    exact ⟨tree, hd.forest, fun e => (filter_ne_of_not_mem fun hp => hm ((hd.members p).mpr ⟨e, hp⟩)).symm⟩

theorem removeNode_nonmember (hm : s.u.isMember p = false) : removeNode p s = .ok () s := by
  unfold removeNode
  rw [Op.units_bind, if_neg (by rw [hm]; decide)]
  rfl

/-- The pseudocode of DICT.REMOVE is Remove of the position in its operand. -/
theorem bodyOf_dictRemove (p : Pos) : bodyOf (.dictRemove (p.setWidth 64)) = removeNode p :=
  congrArg removeNode (lowPos_setWidth p)

/-- DICT.REMOVE completes with the dictionary that Remove leaves (43_lzss_dictionary.md R291). -/
theorem exec_dictRemove (hs : s.healthy) (hd : s.u.dictOk) (p : Pos) :
    ∃ v, removeNode p (s.begin 0x71) = .ok () { s.begin 0x71 with u := v } ∧ s.u.Without v p ∧
      exec (.dictRemove (p.setWidth 64)) s = .next ({ s.begin 0x71 with u := v } : State).completed := by
  obtain ⟨v, hrun, hv⟩ := removeNode_ok (s := s.begin 0x71) p hd
  have hcheck : checkOf s (.dictRemove (p.setWidth 64)) = none := checkFault_none.mpr ⟨isPosition_setWidth p, rfl⟩
  exact ⟨v, hrun, hv, exec_completes _ hs rfl (by simp) hcheck ((congrFun (bodyOf_dictRemove p) _).trans hrun)⟩

end

/-- Settles O50: the links say the old sequences without the position, and the invariant that it has none. -/
theorem removeDeletesOneNode : Obligations.RemoveDeletesOneNode := by
  intro s p hs hok
  obtain ⟨v, hrun, hv, hexec⟩ := exec_dictRemove hs hok p
  obtain ⟨tree, hd⟩ := Units.dictOk_iff.mp hok
  obtain ⟨tree', hf, hrem⟩ := removeNode_inorder (s := s.begin 0x71) hd hrun
  obtain ⟨_, hdv⟩ := Units.dictOk_iff.mp hv.dictOk
  have hm : v.isMember p = false := by rw [hv.member, if_pos rfl]
  obtain ⟨hpar, hleft, hright⟩ := hdv.bare p hm
  refine ⟨_, hexec, hm, hpar, hleft, hright, fun q hq => ?_, fun c d hspell => ?_, hv.dictOk, fun hp => ?_, ?_⟩
  · exact (hv.member q).trans (if_neg hq)
  · obtain rfl := Units.spells_unique s.u hspell (hd.forest.spelled c)
    exact ⟨tree' c, hf.spelled c, hrem c⟩
  · have := (removeNode_nonmember (s := s.begin 0x71) hp).symm.trans hrun
    exact (congrArg State.u (EStateM.Result.ok.inj this).2).symm
  · have hframe : s.u.SameButDictionary v := (writes_removeNode p).sameButDictionary (s := s.begin 0x71) hrun
    exact congrArg (fun w => ({ s with cmd := 0x71, status := s.status.complete, u := w } : State)) hframe

end Sys2Proof.Machine
end

section
/-! SUPPORT. MatchAdd, exactly: the length each comparison answers, the answer over the visited nodes, and the trees with
the new position. -/

namespace Sys2Proof.Machine

/-! ## Pseudocode from one state -/

section
variable {α β : Type} {I : State → Prop} {Q : α → State → Prop} {J : State → Prop} {s : State}

/-- A proposition of the precondition as a hypothesis. -/
theorem Op.Holds.assume {P : Prop} {x : Op α} (h : P → Op.Holds I x Q J) : Op.Holds (fun s => I s ∧ P) x Q J :=
  fun s hs => h hs.2 s hs.1

theorem Op.Holds.unitsAt {f : Units → Op α} (h : Op.Holds (· = s) (f s.u) Q J) : Op.Holds (· = s) (units >>= f) Q J := by
  rintro t rfl
  exact h t rfl

/-- A window read answers the byte written, or the slot is not written. -/
theorem holds_winRd (k : Nat) (s : State) {J : Prop} (hJ : s.u.written k = false → J) :
    Op.Holds (· = s) (winRd k) (fun b t => t = s ∧ Memory.get s.u.window k = some b) fun _ => J := by
  rintro t rfl
  rcases winRd_cases k t with ⟨b, hb, h⟩ | ⟨hn, h⟩
  · rw [h]
    exact ⟨rfl, hb⟩
  · rw [h]
    exact hJ (by rw [Units.written, hn]; rfl)

end

/-! ## How far two suffixes agree (43_lzss_dictionary.md R283) -/

/-- The suffixes at p and q agree in n bytes, and within len differ at the next one. -/
structure Units.FirstDifference (u : Units) (len : Nat) (p q : Pos) (n : Nat) : Prop where
  le : n ≤ len
  same : ∀ j < n, Memory.get u.window (p.toNat + j) = Memory.get u.window (q.toNat + j)
  differ : n < len → ∃ a b, Memory.get u.window (p.toNat + n) = some a ∧ Memory.get u.window (q.toNat + n) = some b ∧ a ≠ b

section
variable {u : Units} {len : Nat} {p q : Pos}

theorem Units.agreeing_le (u : Units) (len : Nat) (p q : Pos) : u.agreeing len p q ≤ len :=
  (List.takeWhile_prefix _).length_le.trans_eq List.length_range

theorem Units.agreeing_same {j : Nat} (hj : j < u.agreeing len p q) :
    Memory.get u.window (p.toNat + j) = Memory.get u.window (q.toNat + j) := by
  have hpre := List.prefix_iff_eq_take.mp (List.takeWhile_prefix (l := List.range len)
    fun j => Memory.get u.window (p.toNat + j) == Memory.get u.window (q.toNat + j))
  have hmem : j ∈ List.range (min (u.agreeing len p q) len) := List.mem_range.mpr (by have := u.agreeing_le len p q; omega)
  rw [← List.take_range] at hmem
  unfold Units.agreeing at hmem
  rw [← hpre] at hmem
  have := List.mem_takeWhile_imp hmem
  exact eq_of_beq this

theorem Units.FirstDifference.agreeing_eq {n : Nat} (h : u.FirstDifference len p q n) : u.agreeing len p q = n := by
  obtain ⟨m, rfl⟩ := Nat.exists_eq_add_of_le h.le
  unfold Units.agreeing
  rw [List.range_add, List.takeWhile_append_of_pos fun j hj => beq_iff_eq.mpr (h.same j (List.mem_range.mp hj))]
  cases m with
  | zero => simp
  | succ m =>
    obtain ⟨a, b, ha, hb, hne⟩ := h.differ (by omega)
    rw [List.range_succ_eq_map, List.map_cons, List.takeWhile_cons_of_neg (by simp [ha, hb, hne])]
    simp

/-- Two suffixes with the same first byte agree in it. -/
theorem Units.agreeing_pos {c : Byte} (hp : Memory.get u.window p.toNat = some c)
    (hq : Memory.get u.window q.toNat = some c) (hlen : 1 ≤ len) : 1 ≤ u.agreeing len p q := by
  obtain ⟨n, rfl⟩ := Nat.exists_eq_add_of_le' hlen
  unfold Units.agreeing
  rw [List.range_succ_eq_map, List.takeWhile_cons_of_pos (by simp [hp, hq])]
  exact Nat.succ_le_succ (Nat.zero_le _)

/-- The walk's turn by the two bytes at the first difference (92_eei_decisions.md D18). -/
theorem Units.goesLeft_eq {a b : Byte} (ha : Memory.get u.window (p.toNat + u.agreeing len p q) = some a)
    (hb : Memory.get u.window (q.toNat + u.agreeing len p q) = some b) :
    u.goesLeft len p q = decide (a.toNat < b.toNat) := by
  unfold Units.goesLeft
  rw [ha, hb]

end

/-- Common answers how many leading bytes agree, where it meets no unwritten slot (43_lzss_dictionary.md R283). -/
theorem holds_common (p q : Pos) (len : Nat) (s : State) {J : Prop}
    (hp : ∀ j < len, s.u.written (p.toNat + j) = false → J) (hq : ∀ j < len, s.u.written (q.toNat + j) = false → J) :
    Op.Holds (· = s) (common p q len) (fun k t => t = s ∧ s.u.FirstDifference len p q k) fun _ => J := by
  have key : ∀ more k, k + more = len →
      (∀ j < k, Memory.get s.u.window (p.toNat + j) = Memory.get s.u.window (q.toNat + j)) →
      Op.Holds (· = s) (commonFrom p q more k) (fun k t => t = s ∧ s.u.FirstDifference len p q k) fun _ => J := by
    intro more
    induction more with
    | zero => exact fun k hk hsame => .pure fun t ht => ⟨ht, by omega, hsame, by omega⟩
    | succ more ih =>
      intro k hk hsame
      refine (holds_winRd _ s (hp k (by omega))).bind fun a => .assume fun ha =>
        (holds_winRd _ s (hq k (by omega))).bind fun b => .assume fun hb => .ite (fun hab => ?_) fun hab => ?_
      · refine ih (k + 1) (by omega) fun j hj => ?_
        rcases Nat.lt_succ_iff_lt_or_eq.mp hj with h | rfl
        · exact hsame j h
        · rw [ha, hb, hab]
      · exact .pure fun t ht => ⟨ht, by omega, hsame, fun _ => ⟨a, b, ha, hb, hab⟩⟩
  exact key len 0 (Nat.zero_add len) (by omega)

/-! ## The answer over the visited nodes (43_lzss_dictionary.md R303, 92_eei_decisions.md D19) -/

/-- The best match after some nodes were visited. -/
def Units.bestOf (u : Units) (len : Nat) (p : Pos) (qs : List Pos) (best : Link × Nat) : Link × Nat :=
  qs.foldl (fun m q => betterMatch q (u.agreeing len p q) m) best

/-- The best match is the one before, or the first node of those that agree longest. -/
theorem Units.bestOf_cases (u : Units) (len : Nat) (p : Pos) (qs : List Pos) (best : Link × Nat) :
    (u.bestOf len p qs best = best ∧ ∀ q ∈ qs, u.agreeing len p q ≤ best.2) ∨
    ∃ q before after, qs = before ++ q :: after ∧ u.bestOf len p qs best = (some q, u.agreeing len p q) ∧
      best.2 < u.agreeing len p q ∧ (∀ r ∈ before, u.agreeing len p r < u.agreeing len p q) ∧
      ∀ r ∈ after, u.agreeing len p r ≤ u.agreeing len p q := by
  induction qs generalizing best with
  | nil => exact .inl ⟨rfl, by simp⟩
  | cons x qs ih =>
    have hstep : u.bestOf len p (x :: qs) best = u.bestOf len p qs (betterMatch x (u.agreeing len p x) best) := rfl
    rw [hstep]
    by_cases hx : best.2 < u.agreeing len p x
    · rw [betterMatch, if_pos hx]
      rcases ih (some x, u.agreeing len p x) with ⟨h, hle⟩ | ⟨q, before, after, rfl, h, hlt, hb, ha⟩
      · exact .inr ⟨x, [], qs, rfl, h, hx, by simp, hle⟩
      · exact .inr ⟨q, x :: before, after, rfl, h, hx.trans hlt, List.forall_mem_cons.mpr ⟨hlt, hb⟩, ha⟩
    · rw [betterMatch, if_neg hx]
      rcases ih best with ⟨h, hle⟩ | ⟨q, before, after, rfl, h, hlt, hb, ha⟩
      · exact .inl ⟨h, List.forall_mem_cons.mpr ⟨by omega, hle⟩⟩
      · exact .inr ⟨q, x :: before, after, rfl, h, hlt, List.forall_mem_cons.mpr ⟨by omega, hb⟩, ha⟩

section
variable {u : Units} {len : Nat} {p q : Pos} {l r : DTree}

/-! One lemma per way the walk goes on from a node. -/

theorem DTree.visited_full (h : u.agreeing len p q = len) : (DTree.node l q r).visited u len p = [q] := by
  simp [DTree.visited, h]

theorem DTree.visited_left (h : u.agreeing len p q ≠ len) (hg : u.goesLeft len p q = true) :
    (DTree.node l q r).visited u len p = q :: l.visited u len p := by simp [DTree.visited, h, hg]

theorem DTree.visited_right (h : u.agreeing len p q ≠ len) (hg : u.goesLeft len p q = false) :
    (DTree.node l q r).visited u len p = q :: r.visited u len p := by simp [DTree.visited, h, hg]

theorem DTree.added_full (h : u.agreeing len p q = len) : (DTree.node l q r).added u len p = .node l p r := by
  simp [DTree.added, h]

theorem DTree.added_left (h : u.agreeing len p q ≠ len) (hg : u.goesLeft len p q = true) :
    (DTree.node l q r).added u len p = .node (l.added u len p) q r := by simp [DTree.added, h, hg]

theorem DTree.added_right (h : u.agreeing len p q ≠ len) (hg : u.goesLeft len p q = false) :
    (DTree.node l q r).added u len p = .node l q (r.added u len p) := by simp [DTree.added, h, hg]

theorem DTree.mem_of_mem_visited {t : DTree} (hq : q ∈ t.visited u len p) : q ∈ t.inorder := by
  induction t with
  | nil => cases hq
  | node l x r ihl ihr =>
    simp only [DTree.inorder, List.mem_append, List.mem_cons]
    unfold DTree.visited at hq
    rcases List.mem_cons.mp hq with rfl | hq
    · exact .inr (.inl rfl)
    · split at hq
      · cases hq
      · split at hq
        · exact .inl (ihl hq)
        · exact .inr (.inr (ihr hq))

/-- The walk visits one node at most that agrees in all len bytes. -/
theorem DTree.visited_full_unique {t : DTree} {x y : Pos} (hx : x ∈ t.visited u len p) (hy : y ∈ t.visited u len p)
    (hxl : u.agreeing len p x = len) (hyl : u.agreeing len p y = len) : x = y := by
  induction t with
  | nil => cases hx
  | node l q r ihl ihr =>
    by_cases hq : u.agreeing len p q = len
    · rw [DTree.visited_full hq, List.mem_singleton] at hx hy
      exact hx.trans hy.symm
    · have hne : ∀ z, u.agreeing len p z = len → z ≠ q := fun z hz e => hq (e ▸ hz)
      cases hg : u.goesLeft len p q with
      | true =>
        rw [DTree.visited_left hq hg] at hx hy
        exact ihl ((List.mem_cons.mp hx).resolve_left (hne x hxl)) ((List.mem_cons.mp hy).resolve_left (hne y hyl))
      | false =>
        rw [DTree.visited_right hq hg] at hx hy
        exact ihr ((List.mem_cons.mp hx).resolve_left (hne x hxl)) ((List.mem_cons.mp hy).resolve_left (hne y hyl))

end

/-! ## The trees with the new position (43_lzss_dictionary.md R301, R302) -/

/-- v is u's dictionary with p added by a walk of the subtree t: a visited node that agrees in all len bytes is no member
any more, and the trees are the old ones with t exchanged for t with p added. -/
structure Units.Placed (u v : Units) (tree : Byte → DTree) (len : Nat) (p : Pos) (t : DTree) : Prop where
  dict : u.With v p
  member : ∀ y, v.isMember y =
    if y = p then true else if y ∈ t.visited u len p ∧ u.agreeing len p y = len then false else u.isMember y
  trees : ∃ z ∈ t.inorder, ∃ new, t.added u len p = t.exchange z new ∧
    ∀ e, v.spells none (v.rootOf e) (exchangeIn tree z new e) = true

section
variable {u v : Units} {tree : Byte → DTree} {c : Byte} {len : Nat} {p q : Pos} {l r : DTree}

/-- An exchange at the root of a subtree. -/
theorem DTree.exchange_root (l r new : DTree) (q : Pos) : (DTree.node l q r).exchange q new = new := by
  rw [DTree.exchange, if_pos rfl]

/-- p in the place of a node that agrees in all len bytes (43_lzss_dictionary.md R301). -/
theorem Units.Dict.placed_full (hd : u.Dict tree) (hq : q ∈ (tree c).inorder) (hp : ¬ inForest tree p)
    (hb : Memory.get u.window p.toNat = some c) (hat : u.NodeAt tree c q l r) (h : u.agreeing len p q = len) :
    u.Placed (u.replaced c q p) tree len p (.node l q r) := by
  obtain ⟨-, hpq, -⟩ := hat.ne_of_not_inForest hp
  refine ⟨hd.replaced hq hp hb, fun y => ?_, q, by simp [DTree.inorder], .node l p r, ?_,
    (hd.forest.replaced hq hp hat).spelled⟩
  · simp only [Units.isMember_replaced, DTree.visited_full h, List.mem_singleton]
    by_cases hyq : y = q
    · subst hyq
      simp [hpq.symm, h]
    · simp [hyq]
  · rw [DTree.added_full h, DTree.exchange_root]

/-- p as a new leaf below a node that differs within len bytes (43_lzss_dictionary.md R302). -/
theorem Units.Dict.placed_leaf (hd : u.Dict tree) (hp : ¬ inForest tree p)
    (hat : u.NodeAt tree c q l r) (hwith : u.With v p) (hv : u.LeafAt v p q) {l' r' : DTree}
    (hl : v.spells (some q) (v.leftOfD q) l' = true) (hr : v.spells (some q) (v.rightOfD q) r' = true)
    (hne : u.agreeing len p q ≠ len) (hvis : (DTree.node l q r).visited u len p = [q])
    (hadd : (DTree.node l q r).added u len p = .node l' q r') : u.Placed v tree len p (.node l q r) := by
  obtain ⟨-, hpq, -⟩ := hat.ne_of_not_inForest hp
  refine ⟨hwith, fun y => ?_, q, by simp [DTree.inorder], .node l' q r', hadd.trans (DTree.exchange_root ..).symm,
    fun e => ?_⟩
  · have hno : ¬ (y = q ∧ u.agreeing len p y = len) := fun ⟨hy, h⟩ => hne (hy ▸ h)
    simp only [hv.member, hvis, List.mem_singleton, if_neg hno]
  · rw [hv.roots, ← Link.redirect_self q (u.rootOf e)]
    refine Units.spells_exchange (hd.forest.spelled e) ?_ fun y hy => ?_
    · exact (Units.spells_node_iff _ _ _ _).mpr ⟨l', r', rfl, by rw [hv.parent, if_neg hpq.symm], hl, hr⟩
    · have hyo : outerNode tree q y := ⟨e, hy⟩
      have hyp : y ≠ p := fun h => hp (h ▸ hyo.inForest)
      rw [Link.redirect_self, Link.redirect_self, hv.parent, if_neg hyp]
      exact ⟨rfl, hv.links y fun h => hat.apart q (by simp) (h ▸ hyo)⟩

theorem Units.eq_nil_of_spells {par link : Link} {t : DTree} (h : u.spells par link t = true) (h0 : link = none) :
    t = .nil := (u.spells_nil_iff par t).mp (h0 ▸ h)

/-- p as the left child of a node without one (43_lzss_dictionary.md R302). -/
theorem Units.Dict.placed_insertLeft (hd : u.Dict tree) (hq : q ∈ (tree c).inorder) (hp : ¬ inForest tree p)
    (hb : Memory.get u.window p.toNat = some c) (hat : u.NodeAt tree c q l r) (hne : u.agreeing len p q ≠ len)
    (hg : u.goesLeft len p q = true) (hq0 : u.leftOfD q = none) :
    u.Placed (u.insertLeft p q) tree len p (.node l q r) := by
  obtain ⟨-, hpq, hpr⟩ := hat.ne_of_not_inForest hp
  obtain ⟨-, h1, h2⟩ := hd.bare p (hd.not_member hp)
  have hv := u.leafAt_insertLeft p q
  obtain rfl := Units.eq_nil_of_spells hat.left hq0
  refine hd.placed_leaf hp hat (hd.insertLeft hq hp hb hq0) hv ?_
    (hv.spells hat.right hpr (List.nodup_cons.mp hat.nodup).1) hne (DTree.visited_left hne hg) (DTree.added_left hne hg)
  rw [Units.leftOfD_insertLeft, if_pos rfl]
  exact hv.spells_leaf hpq h1 h2

/-- p as the right child of a node without one (43_lzss_dictionary.md R302). -/
theorem Units.Dict.placed_insertRight (hd : u.Dict tree) (hq : q ∈ (tree c).inorder) (hp : ¬ inForest tree p)
    (hb : Memory.get u.window p.toNat = some c) (hat : u.NodeAt tree c q l r) (hne : u.agreeing len p q ≠ len)
    (hg : u.goesLeft len p q = false) (hq0 : u.rightOfD q = none) :
    u.Placed (u.insertRight p q) tree len p (.node l q r) := by
  obtain ⟨hpl, hpq, -⟩ := hat.ne_of_not_inForest hp
  obtain ⟨-, h1, h2⟩ := hd.bare p (hd.not_member hp)
  have hv := u.leafAt_insertRight p q
  obtain rfl := Units.eq_nil_of_spells hat.right hq0
  have hql : q ∉ l.inorder := fun h => (List.nodup_append.mp hat.nodup).2.2 q h q List.mem_cons_self rfl
  refine hd.placed_leaf hp hat (hd.insertRight hq hp hb hq0) hv (hv.spells hat.left hpl hql) ?_ hne
    (DTree.visited_right hne hg) (DTree.added_right hne hg)
  rw [Units.rightOfD_insertRight, if_pos rfl]
  exact hv.spells_leaf hpq h1 h2

/-- A visit of a node that differs within len bytes ends no membership. -/
theorem Units.mem_visited_cons {t : DTree} (hne : u.agreeing len p q ≠ len) (y : Pos) :
    (y ∈ q :: t.visited u len p ∧ u.agreeing len p y = len) ↔ y ∈ t.visited u len p ∧ u.agreeing len p y = len := by
  rw [List.mem_cons, or_and_right, or_iff_right]
  rintro ⟨rfl, h⟩
  exact hne h

/-- A walk of a node's left subtree is a walk of the node's. -/
theorem Units.Placed.left (h : u.Placed v tree len p l) (hn : (DTree.node l q r).inorder.Nodup)
    (hne : u.agreeing len p q ≠ len) (hg : u.goesLeft len p q = true) : u.Placed v tree len p (.node l q r) := by
  obtain ⟨hdict, hmem, z, hz, new, hadd, htrees⟩ := h
  obtain ⟨-, -, hdis⟩ := List.nodup_append.mp hn
  have hzq : q ≠ z := fun e => hdis z hz q List.mem_cons_self e.symm
  have hzr : z ∉ r.inorder := fun h => hdis z hz z (List.mem_cons_of_mem _ h) rfl
  refine ⟨hdict, fun y => ?_, z, by simp [DTree.inorder, hz], new, ?_, htrees⟩
  · simp only [hmem, DTree.visited_left hne hg, Units.mem_visited_cons hne]
  · rw [DTree.added_left hne hg, DTree.exchange, if_neg hzq, hadd, DTree.exchange_of_not_mem new hzr]

/-- A walk of a node's right subtree is a walk of the node's. -/
theorem Units.Placed.right (h : u.Placed v tree len p r) (hn : (DTree.node l q r).inorder.Nodup)
    (hne : u.agreeing len p q ≠ len) (hg : u.goesLeft len p q = false) : u.Placed v tree len p (.node l q r) := by
  obtain ⟨hdict, hmem, z, hz, new, hadd, htrees⟩ := h
  obtain ⟨-, hn', hdis⟩ := List.nodup_append.mp hn
  have hzq : q ≠ z := fun e => (List.nodup_cons.mp hn').1 (e ▸ hz)
  have hzl : z ∉ l.inorder := fun h => hdis z h z (List.mem_cons_of_mem _ hz) rfl
  refine ⟨hdict, fun y => ?_, z, by simp [DTree.inorder, hz], new, ?_, htrees⟩
  · simp only [hmem, DTree.visited_right hne hg, Units.mem_visited_cons hne]
  · rw [DTree.added_right hne hg, DTree.exchange, if_neg hzq, hadd, DTree.exchange_of_not_mem new hzl]

end

/-! ## The walk (43_lzss_dictionary.md R300) -/

/-- Every slot that a compare of p with a member over len bytes can read is written. -/
def Units.comparable (u : Units) (len : Nat) (p : Pos) : Prop :=
  (∀ j < len, u.written (p.toNat + j) = true) ∧
    ∀ q, u.isMember q = true → ∀ j < len, u.written (q.toNat + j) = true

theorem Units.not_comparable_of_position {u : Units} {len : Nat} {p : Pos} {j : Nat} (hj : j < len)
    (h : u.written (p.toNat + j) = false) : ¬ u.comparable len p := fun hc => by
  rw [hc.1 j hj] at h
  cases h

theorem Units.not_comparable_of_member {u : Units} {len : Nat} {p q : Pos} {j : Nat} (hq : u.isMember q = true)
    (hj : j < len) (h : u.written (q.toNat + j) = false) : ¬ u.comparable len p := fun hc => by
  rw [hc.2 q hq j hj] at h
  cases h

/-- The walk from a node ends with the best match over the nodes it visits and p placed, or a compare reaches an unwritten
slot. -/
def Walked (s : State) (tree : Byte → DTree) (len : Nat) (p : Pos) (t : DTree) (best m : Link × Nat) (q : State) : Prop :=
  m = s.u.bestOf len p (t.visited s.u len p) best ∧ ∃ v, q = { s with u := v } ∧ s.u.Placed v tree len p t

section
variable {s : State} {tree : Byte → DTree} {c : Byte} {p : Pos}

theorem holds_matchWalk (hd : s.u.Dict tree) (hp : ¬ inForest tree p) (hb : Memory.get s.u.window p.toNat = some c)
    (len fuel : Nat) {q : Pos} {par : Link} {t : DTree} (best : Link × Nat) (ht : s.u.spells par (some q) t = true)
    (hn : t.inorder.Nodup) (hin : ∀ y ∈ t.inorder, y ∈ (tree c).inorder) (hf : t.inorder.length ≤ fuel) :
    Op.Holds (· = s) (matchWalk p len fuel q best) (Walked s tree len p t best) fun _ => ¬ s.u.comparable len p := by
  induction fuel generalizing q par t best with
  | zero =>
    have := List.length_pos_of_mem (Units.spells_root_mem ht)
    omega
  | succ fuel ih =>
    have hq : q ∈ (tree c).inorder := hin q (Units.spells_root_mem ht)
    have hqm := (hd.members q).mpr ⟨c, hq⟩
    obtain ⟨l, r, rfl, -, hl, hr⟩ := (Units.spells_node_iff _ _ _ _).mp ht
    obtain ⟨l', r', hat⟩ := hd.forest.nodeAt hq
    obtain rfl := Units.spells_unique s.u hat.left hl
    obtain rfl := Units.spells_unique s.u hat.right hr
    obtain ⟨hnl, hnr, -⟩ := List.nodup_append.mp hn
    obtain ⟨-, hnr⟩ := List.nodup_cons.mp hnr
    simp only [DTree.inorder, List.mem_append, List.mem_cons, List.length_append, List.length_cons] at hin hf
    refine (holds_common p q len s (fun j => Units.not_comparable_of_position)
      fun j => Units.not_comparable_of_member hqm).bind fun k => .assume fun hk => ?_
    obtain rfl := hk.agreeing_eq
    refine .ite (fun hfull => ?_) fun hne => ?_
    · rintro t rfl
      rw [Op.bind_ok (replaceNode_ok hd hq hp)]
      exact ⟨by rw [DTree.visited_full hfull]; rfl, _, rfl, hd.placed_full hq hp hb hat hfull⟩
    · have hlt := lt_of_le_of_ne hk.le hne
      refine (holds_winRd _ s (Units.not_comparable_of_position hlt)).bind fun a => .assume fun ha =>
        (holds_winRd _ s (Units.not_comparable_of_member hqm hlt)).bind fun b => .assume fun hb' => .unitsAt ?_
      have hg := Units.goesLeft_eq ha hb'
      refine .ite (fun hab => ?_) fun hab => ?_
      · rw [decide_eq_true hab] at hg
        cases hql : s.u.leftOfD q with
        | none =>
          rintro t rfl
          have hplaced := hd.placed_insertLeft hq hp hb hat hne hg hql
          obtain rfl := Units.eq_nil_of_spells hat.left hql
          exact ⟨by rw [DTree.visited_left hne hg]; rfl, _, rfl, hplaced⟩
        | some x =>
          refine (ih _ (hql ▸ hl) hnl (fun y hy => hin y (.inl hy)) (by omega)).imp (fun _ h => h) ?_ fun _ h => h
          rintro m t ⟨hm, v, ht, hv⟩
          exact ⟨by rw [DTree.visited_left hne hg]; exact hm, v, ht, hv.left hn hne hg⟩
      · rw [decide_eq_false hab] at hg
        cases hqr : s.u.rightOfD q with
        | none =>
          rintro t rfl
          have hplaced := hd.placed_insertRight hq hp hb hat hne hg hqr
          obtain rfl := Units.eq_nil_of_spells hat.right hqr
          exact ⟨by rw [DTree.visited_right hne hg]; rfl, _, rfl, hplaced⟩
        | some x =>
          refine (ih _ (hqr ▸ hr) hnr (fun y hy => hin y (.inr (.inr hy))) (by omega)).imp (fun _ h => h) ?_ fun _ h => h
          rintro m t ⟨hm, v, ht, hv⟩
          exact ⟨by rw [DTree.visited_right hne hg]; exact hm, v, ht, hv.right hn hne hg⟩

end

/-! ## MatchAdd (43_lzss_dictionary.md R300) -/

/-- v is u's dictionary after MatchAdd of p, whose first byte is c: a visited node that agrees in all len bytes is no member
any more, and p is added to the tree of c. -/
structure Units.Matched (u v : Units) (tree : Byte → DTree) (len : Nat) (p : Pos) (c : Byte) : Prop where
  dict : u.With v p
  member : ∀ y, v.isMember y =
    if y = p then true else if y ∈ (tree c).visited u len p ∧ u.agreeing len p y = len then false else u.isMember y
  added : v.spells none (v.rootOf c) ((tree c).added u len p) = true
  others : ∀ e, e ≠ c → v.spells none (v.rootOf e) (tree e) = true

section
variable {u v : Units} {tree : Byte → DTree} {c : Byte} {p : Pos} {len : Nat}

theorem Units.Placed.matched (h : u.Placed v tree len p (tree c)) (hf : u.Forest tree) : u.Matched v tree len p c := by
  obtain ⟨hdict, hmem, z, hz, new, hadd, htrees⟩ := h
  refine ⟨hdict, hmem, hadd ▸ htrees c, fun e he => ?_⟩
  have := htrees e
  rwa [hf.exchangeIn_of_ne hz he] at this

/-- p as the root of an empty tree. -/
theorem Units.Dict.matched_setRoot (hd : u.Dict tree) (hp : ¬ inForest tree p)
    (hb : Memory.get u.window p.toNat = some c) (hr : u.rootOf c = none) :
    u.Matched ((u.setRoot c (some p)).setMember p true) tree len p c := by
  obtain ⟨h1, h2, h3⟩ := hd.bare p (hd.not_member hp)
  have hnil : tree c = .nil := Units.eq_nil_of_spells (hd.forest.spelled c) hr
  refine ⟨hd.setRoot hp hb hr, fun y => ?_, ?_, fun e he => ?_⟩
  · rw [hnil]
    simp [DTree.visited]
  · rw [hnil, Units.rootOf_setMember, Units.rootOf_setRoot, if_pos rfl]
    exact (Units.spells_node_iff _ _ _ _).mpr ⟨.nil, .nil, rfl, h1, h2 ▸ rfl, h3 ▸ rfl⟩
  · rw [Units.rootOf_setMember, Units.rootOf_setRoot, if_neg he]
    exact (Units.spells_congr (u := u) (v := (u.setRoot c (some p)).setMember p true) _ _ _
      fun y _ => ⟨rfl, rfl, rfl⟩).trans (hd.forest.spelled e)

end

/-- MatchAdd's end: the best match over the nodes visited in the tree of p's first byte, and p in that tree. -/
def MatchedBy (s : State) (tree : Byte → DTree) (len : Nat) (p : Pos) (m : Link × Nat) (q : State) : Prop :=
  ∃ c v, Memory.get s.u.window p.toNat = some c ∧ m = s.u.bestOf len p ((tree c).visited s.u len p) (none, 0) ∧
    q = { s with u := v } ∧ s.u.Matched v tree len p c

/-- MatchAdd of a non-member ends so, or a compare reaches an unwritten slot (43_lzss_dictionary.md R300, R306). -/
theorem holds_matchAdd {s : State} {tree : Byte → DTree} {p : Pos} {len : Nat} (hd : s.u.Dict tree)
    (hp : s.u.isMember p = false) (hlen : 1 ≤ len) :
    Op.Holds (· = s) (matchAdd p len) (MatchedBy s tree len p) fun _ => ¬ s.u.comparable len p := by
  have hpf := hd.not_inForest hp
  refine (holds_winRd _ s (Units.not_comparable_of_position (j := 0) hlen)).bind fun c => .assume fun hb => .unitsAt ?_
  have hroot := hd.forest.spelled c
  cases hr : s.u.rootOf c with
  | none =>
    rintro t rfl
    have hnil : tree c = .nil := Units.eq_nil_of_spells hroot hr
    exact ⟨c, _, hb, by rw [hnil]; rfl, rfl, hd.matched_setRoot hpf hb hr⟩
  | some q =>
    rw [hr] at hroot
    refine (holds_matchWalk hd hpf hb len Config.W _ hroot (hd.forest.nodup c) (fun _ => id)
      (DTree.length_inorder_le (hd.forest.nodup c))).imp (fun _ h => h) ?_ fun _ h => h
    rintro m t ⟨hm, v, ht, hv⟩
    exact ⟨c, v, hb, hm, ht, hv.matched hd.forest⟩

/-- With every slot written that a compare can read MatchAdd ends well. -/
theorem matchAdd_ok {s : State} {tree : Byte → DTree} {p : Pos} {len : Nat} (hd : s.u.Dict tree)
    (hp : s.u.isMember p = false) (hlen : 1 ≤ len) (hc : s.u.comparable len p) :
    ∃ m q, matchAdd p len s = .ok m q ∧ MatchedBy s tree len p m q := by
  have h := holds_matchAdd hd hp hlen s rfl
  cases hrun : matchAdd p len s with
  | ok m q =>
    rw [hrun] at h
    exact ⟨m, q, rfl, h⟩
  | error e q =>
    rw [hrun] at h
    exact (h hc).elim

end Sys2Proof.Machine
end

section
/-! SUPPORT. MF.MATCH_ADD: the statements. -/

namespace Sys2Proof.Machine

/-- The pseudocode of MF.MATCH_ADD behind MatchAdd. -/
theorem bodyOf_mfMatchAdd {p : Pos} {len : Word} {s q : State} {m : Link × Nat}
    (h : matchAdd p len.toNat s = .ok m q) :
    bodyOf (.mfMatchAdd (p.setWidth 64) len) s = .ok () (q.withResults (matchResult m.1) m.2) := by
  show (matchAdd (lowPos (p.setWidth 64)) len.toNat >>= fun m => setRes (matchResult m.1) m.2) s = _
  rw [lowPos_setWidth, Op.bind_ok h]
  rfl

theorem checkOf_mfMatchAdd {s : State} {p : Pos} {len : Word} : checkOf s (.mfMatchAdd (p.setWidth 64) len) = none ↔
    (1 ≤ len.toNat ∧ len.toNat ≤ s.params.maxLen) ∧ s.u.isMember p = false := by
  show checkFault _ _ = none ↔ _
  simp [checkFault_none, isPosition_setWidth, lowPos_setWidth, isMatchLength]

/-! ## The answer (43_lzss_dictionary.md R303) -/

section
variable {u v : Units} {tree : Byte → DTree} {c : Byte} {p : Pos} {len : Nat}

/-- In a tree with nodes the answer is the first of the visited ones that agree longest, in at least the first byte. -/
theorem Units.Dict.answer (hd : u.Dict tree) (hb : Memory.get u.window p.toNat = some c) (hlen : 1 ≤ len)
    (hr : u.rootOf c ≠ none) :
    ∃ q before after, (tree c).visited u len p = before ++ q :: after ∧
      u.bestOf len p ((tree c).visited u len p) (none, 0) = (some q, u.agreeing len p q) ∧ 1 ≤ u.agreeing len p q ∧
      (∀ r ∈ before, u.agreeing len p r < u.agreeing len p q) ∧ ∀ r ∈ after, u.agreeing len p r ≤ u.agreeing len p q := by
  have hpos : ∀ q ∈ (tree c).visited u len p, 1 ≤ u.agreeing len p q := fun q hq =>
    Units.agreeing_pos hb (hd.bytes c q (DTree.mem_of_mem_visited hq)) hlen
  rcases u.bestOf_cases len p ((tree c).visited u len p) (none, 0) with ⟨-, hle⟩ | ⟨q, before, after, h1, h2, h3, h4, h5⟩
  · -- the root is visited and agrees in a byte
    obtain ⟨x, hx⟩ := Option.ne_none_iff_exists'.mp hr
    obtain ⟨l, r, htree, -⟩ := (Units.spells_node_iff _ _ _ _).mp (hx ▸ hd.forest.spelled c)
    have hroot : x ∈ (tree c).visited u len p := by simp [htree, DTree.visited]
    have := hpos x hroot
    have := hle x hroot
    omega
  · exact ⟨q, before, after, h1, h2, h3, h4, h5⟩

/-- Of the other positions only the answer can lose its membership, and it does when it agrees in all len bytes. -/
theorem Units.Matched.member_answer (h : u.Matched v tree len p c) {q : Pos} (hq : q ∈ (tree c).visited u len p)
    (hlongest : ∀ r ∈ (tree c).visited u len p, u.agreeing len p r ≤ u.agreeing len p q) (hqp : q ≠ p)
    (hqm : u.isMember q = true) :
    (∀ r, r ≠ p → r ≠ q → v.isMember r = u.isMember r) ∧ (v.isMember q = true ↔ u.agreeing len p q < len) := by
  have hle := u.agreeing_le len p q
  refine ⟨fun r hrp hrq => ?_, ?_⟩
  · rw [h.member, if_neg hrp, if_neg]
    rintro ⟨hr, hrl⟩
    exact hrq (DTree.visited_full_unique hr hq hrl (by have := hlongest r hr; omega))
  · rw [h.member, if_neg hqp]
    by_cases hfull : u.agreeing len p q = len
    · simp [hq, hfull]
    · simp [hfull, hqm, lt_of_le_of_ne hle hfull]

end

/-- RES0 of a match names its position. -/
theorem ofNat_matchResult_some (q : Pos) : BitVec.ofNat 64 (matchResult (some q)) = q.setWidth 64 :=
  BitVec.ofNat_toNat 64 q

theorem toNat_ofNat_of_lt_W {n : Nat} (h : n < Config.W) : (BitVec.ofNat 64 n).toNat = n := by
  rw [BitVec.toNat_ofNat]
  simp only [Config.W] at h
  omega

/-- A member is not a position that is none. -/
theorem Units.ne_of_isMember {u : Units} {p q : Pos} (hq : u.isMember q = true) (hp : u.isMember p = false) : q ≠ p := by
  rintro rfl
  rw [hq] at hp
  cases hp

/-- MF.MATCH_ADD of a non-member, with every slot written that a compare can read (43_lzss_dictionary.md R300). -/
theorem exec_mfMatchAdd {s : State} {tree : Byte → DTree} {p : Pos} {len : Nat} {c : Byte} (hs : s.healthy)
    (hd : s.u.Dict tree) (hp : s.u.isMember p = false) (hlen : 1 ≤ len ∧ len ≤ s.params.maxLen) (hwf : s.params.wf)
    (hb : Memory.get s.u.window p.toNat = some c) (hc : s.u.comparable len p) :
    ∃ m v, m = s.u.bestOf len p ((tree c).visited s.u len p) (none, 0) ∧ s.u.Matched v tree len p c ∧
      s.u.SameButDictionary v ∧ exec (.mfMatchAdd (p.setWidth 64) (BitVec.ofNat 64 len)) s =
        .next (({ s.begin 0x80 with u := v } : State).withResults (matchResult m.1) m.2).completed := by
  have hlen64 := toNat_ofNat_of_lt_W (hlen.2.trans_lt (maxLen_lt hwf))
  obtain ⟨m, _, hrun, e, v, he, hm, rfl, hv⟩ := matchAdd_ok (s := s.begin 0x80) hd hp hlen.1 hc
  obtain rfl : e = c := Option.some.inj (he.symm.trans hb)
  exact ⟨m, v, hm, hv, (writes_matchAdd p len).sameButDictionary (s := s.begin 0x80) hrun,
    exec_completes _ hs rfl (by simp) (checkOf_mfMatchAdd.mpr ⟨by rwa [hlen64], hp⟩)
      (bodyOf_mfMatchAdd (s := s.begin 0x80) (by rwa [hlen64]))⟩

/-- Settles O51: the answer is the best match over the visited nodes, all of the tree of p's first byte, and the walk adds
p to that tree. -/
theorem matchAddFindsAMember : Obligations.MatchAddFindsAMember := by
  intro s p len c hs hok hp hlen hmax hwf hb hwp hwm
  obtain ⟨tree, hd⟩ := Units.dictOk_iff.mp hok
  obtain ⟨m, v, hm, hv, hframe, hexec⟩ := exec_mfMatchAdd hs hd hp ⟨hlen, hmax⟩ hwf hb ⟨hwp, hwm⟩
  have hanswer := fun hr => hm ▸ hd.answer hb hlen hr
  have hres1 : ∀ q : Pos, (BitVec.ofNat 64 (s.u.agreeing len p q)).toNat = s.u.agreeing len p q := fun q =>
    toNat_ofNat_of_lt_W ((s.u.agreeing_le len p q).trans_lt (hmax.trans_lt (maxLen_lt hwf)))
  refine ⟨_, hexec, (hv.member p).trans (if_pos rfl), hv.dict.dictOk, fun hr => ?_, fun hr => ?_, fun d hspell => ?_,
    fun x d hx hspell => ?_, ?_⟩
  · have hnil : tree c = .nil := Units.eq_nil_of_spells (hd.forest.spelled c) hr
    obtain rfl : m = (none, 0) := by rw [hm, hnil]; rfl
    refine ⟨rfl, rfl, fun q hq => (hv.member q).trans ?_⟩
    rw [if_neg hq, hnil]
    simp [DTree.visited]
  · obtain ⟨q, before, after, hvis, rfl, hpos, hbefore, hafter⟩ := hanswer hr
    have hq : q ∈ (tree c).visited s.u len p := by simp [hvis]
    have hqm := (hd.members q).mpr ⟨c, DTree.mem_of_mem_visited hq⟩
    have hqp := Units.ne_of_isMember hqm hp
    have hlongest : ∀ r ∈ (tree c).visited s.u len p, s.u.agreeing len p r ≤ s.u.agreeing len p q := by
      rw [hvis, List.forall_mem_append, List.forall_mem_cons]
      exact ⟨fun r hr => (hbefore r hr).le, le_rfl, hafter⟩
    obtain ⟨hothers, hreplaced⟩ := hv.member_answer hq hlongest hqp hqm
    exact ⟨q, _, ofNat_matchResult_some q, hres1 q, hpos, s.u.agreeing_le len p q, hqp, hqm,
      fun j => Units.agreeing_same, hothers, hreplaced⟩
  · obtain rfl := Units.spells_unique s.u hspell (hd.forest.spelled c)
    refine ⟨hv.added, fun hr => ?_⟩
    obtain ⟨q, before, after, hvis, rfl, -, hbefore, hafter⟩ := hanswer hr
    exact ⟨q, before, after, hvis, ofNat_matchResult_some q, hres1 q, hbefore, hafter⟩
  · obtain rfl := Units.spells_unique s.u hspell (hd.forest.spelled x)
    exact hv.others x hx
  · exact congrArg (fun w => ({ s with
      cmd := 0x80, status := s.status.complete, res0 := BitVec.ofNat 64 (matchResult m.1), res1 := BitVec.ofNat 64 m.2
      u := w } : State)) hframe

/-! ## A removed position (43_lzss_dictionary.md R304) -/

/-- A MF.MATCH_ADD that ends without a fault ran MatchAdd to its end. -/
theorem exec_mfMatchAdd_unfaulted {s t : State} {p : Pos} {len : Word} (hs : s.healthy)
    (h : exec (.mfMatchAdd (p.setWidth 64) len) s = .next t) (ht : t.status.fault = false) :
    1 ≤ len.toNat ∧ s.u.isMember p = false ∧ ∃ m q, matchAdd p len.toNat (s.begin 0x80) = .ok m q ∧
      t.res0 = BitVec.ofNat 64 (matchResult m.1) := by
  rw [exec_command (v := 0x80) rfl (by simp)] at h
  rcases runCommand_cases hs h with ⟨c, -, rfl⟩ | ⟨hc, ⟨q, hbody, rfl⟩ | ⟨c, q, -, rfl⟩⟩
  · cases ht
  · obtain ⟨⟨hlen, -⟩, hp⟩ := checkOf_mfMatchAdd.mp hc
    obtain ⟨m, q', hrun, hset⟩ := Op.of_bind_ok hbody
    rw [lowPos_setWidth] at hrun
    cases hset
    exact ⟨hlen, hp, m, q', hrun, rfl⟩
  · exact absurd ((q.faultEntry_fault .execution c).symm.trans ht) (by decide)

/-- Settles O52: a match is a visited node, so a member when MatchAdd began, and the removed position is none. -/
theorem removedPositionNeverMatchesItself : Obligations.RemovedPositionNeverMatchesItself := by
  intro s t r p len hs hok hremove hmatch hr
  obtain ⟨v, -, hv, hexec⟩ := exec_dictRemove hs hok p
  have ht := Host.Outcome.next.inj (hexec.symm.trans hremove)
  have hdt : t.u.dictOk := ht ▸ hv.dictOk
  obtain ⟨tree, hd⟩ := Units.dictOk_iff.mp hdt
  obtain ⟨hlen, hp, m, q, hrun, hres⟩ := exec_mfMatchAdd_unfaulted (s := t) (ht ▸ hs) hmatch hr
  have hmatched := holds_matchAdd (s := t.begin 0x80) hd hp hlen _ rfl
  rw [hrun] at hmatched
  obtain ⟨c, w, -, hm, -⟩ := hmatched
  rw [hres]
  have hp64 : (p.setWidth 64).toNat < 2 ^ 64 - 1 := by
    have := p.isLt
    rw [BitVec.toNat_setWidth]
    omega
  refine ⟨hp, ?_⟩
  rcases t.u.bestOf_cases len.toNat p ((tree c).visited t.u len.toNat p) (none, 0) with
    ⟨h, -⟩ | ⟨x, before, after, hvis, h, -⟩
  · obtain rfl : m = (none, 0) := hm.trans h
    exact ⟨fun e => absurd (congrArg BitVec.toNat e) hp64.ne', .inl rfl⟩
  · obtain rfl : m = (some x, t.u.agreeing len.toNat p x) := hm.trans h
    have hx : x ∈ (tree c).visited t.u len.toNat p := by simp [hvis]
    have hxm := (hd.members x).mpr ⟨c, DTree.mem_of_mem_visited hx⟩
    have hxp := Units.ne_of_isMember hxm hp
    rw [ofNat_matchResult_some]
    refine ⟨fun e => hxp ?_, .inr ⟨x, hxm, hxp, rfl⟩⟩
    rw [← lowPos_setWidth x, e, lowPos_setWidth]

end Sys2Proof.Machine
end

section
/-! SUPPORT. LZSS tokens carried out one at a time: the window read back from the cursor, the bytes a reference copies, and
the faults of a token (44_lzss_coder.md R351, R353, R354). -/

namespace Sys2Proof.Machine

/-! ## The window, read back from the cursor -/

/-- A slot less than W behind the write position is not the one written. -/
theorem Pos.sub_back_ne {d : Nat} (h1 : 1 ≤ d) (h2 : d < Config.W) (p : Pos) : p - BitVec.ofNat 12 d ≠ p := by
  intro h
  have hd : (BitVec.ofNat 12 d).toNat = d := by
    rw [BitVec.toNat_ofNat]
    exact Nat.mod_eq_of_lt h2
  bv_omega

theorem Pos.succ_sub_back (p : Pos) (d : Nat) : p + 1 - BitVec.ofNat 12 (d + 1) = p - BitVec.ofNat 12 d := by
  rw [BitVec.ofNat_add]
  show p + 1 - (BitVec.ofNat 12 d + 1) = _
  bv_omega

/-- After a write at k the slot one behind the next write position holds the byte, and the slots further back hold what
they held (20_memory.md R82). -/
theorem Units.get_winWr_back (P : Config.Params) (k : Pos) (b : Byte) (u : Units) {d : Nat} (hd : d < Config.W) :
    Memory.get (u.winWr P k b).window (k + 1 - BitVec.ofNat 12 (d + 1)).toNat =
      if d = 0 then some b else Memory.get u.window (k - BitVec.ofNat 12 d).toNat := by
  have hk := (k - BitVec.ofNat 12 d).isLt
  rw [Pos.succ_sub_back, Units.get_winWr]
  by_cases h0 : d = 0
  · subst h0
    simp
  · have hne : (k - BitVec.ofNat 12 d).toNat ≠ k.toNat := fun h =>
      Pos.sub_back_ne (by omega) hd k (BitVec.eq_of_toNat_eq h)
    rw [if_neg h0, if_neg]
    rintro (h | ⟨h, -⟩)
    · exact hne h
    · rw [Config.W] at h
      omega

/-! ## Decoded bytes -/

/-- Decoded bytes are bytes written to the sink, and a change of the window and the cursor. -/
theorem State.decodedAll_eq (s : State) (bs : List Byte) :
    s.decodedAll bs = { s.putBytes bs with u := (s.decodedAll bs).u } := by
  induction bs generalizing s with
  | nil => rfl
  | cons b bs ih =>
    have h := ih (s.decoded b)
    have hu : (s.decoded b).putBytes bs = { (s.putByte b).putBytes bs with u := (s.decoded b).u } :=
      State.putBytes_setU (s.putByte b) _ bs
    rw [hu] at h
    exact h

theorem State.decodedAll_append (s : State) (as bs : List Byte) :
    s.decodedAll (as ++ bs) = (s.decodedAll as).decodedAll bs := List.foldl_append

theorem State.decodedAll_concat (s : State) (bs : List Byte) (b : Byte) :
    s.decodedAll (bs ++ [b]) = (s.decodedAll bs).decoded b := s.decodedAll_append bs [b]

@[simp] theorem State.decodedAll_params (s : State) (bs : List Byte) : (s.decodedAll bs).params = s.params := by
  rw [s.decodedAll_eq]
  exact s.putBytes_params bs

@[simp] theorem State.decodedAll_isMember (s : State) (bs : List Byte) (p : Pos) :
    (s.decodedAll bs).u.isMember p = s.u.isMember p := by
  induction bs generalizing s with
  | nil => rfl
  | cons b bs ih => exact ih (s.decoded b)

theorem State.decodedAll_dcur (s : State) (bs : List Byte) :
    (s.decodedAll bs).u.dcur = s.u.dcur + BitVec.ofNat 12 bs.length := by
  induction bs generalizing s with
  | nil => simp [State.decodedAll]
  | cons b bs ih =>
    refine (ih (s.decoded b)).trans ?_
    rw [State.decoded_dcur, cursor_next, List.length_cons]

theorem State.decodedAll_ioFine {s : State} (h : s.ioFine) (bs : List Byte) : (s.decodedAll bs).ioFine := by
  induction bs generalizing s with
  | nil => exact h
  | cons b bs ih => exact ih (State.decoded_ioFine h b)

theorem State.decodedAll_room {s : State} {bs : List Byte} {n : Nat} (h : s.room (bs.length + n)) :
    (s.decodedAll bs).room n := by
  induction bs generalizing s with
  | nil =>
    rw [List.length_nil, Nat.zero_add] at h
    exact h
  | cons b bs ih =>
    refine ih (s := s.decoded b) (State.decoded_room ?_ b)
    rwa [List.length_cons, Nat.add_right_comm] at h

/-- The window d slots behind the cursor: the d-th byte from the end of the bytes decoded, or, further back, what was
there before them. -/
theorem State.decodedAll_window_back (s : State) (bs : List Byte) {d : Nat} (h1 : 1 ≤ d) (h2 : d ≤ Config.W) :
    Memory.get (s.decodedAll bs).u.window ((s.decodedAll bs).u.dcur - BitVec.ofNat 12 d).toNat =
      if d ≤ bs.length then bs[bs.length - d]?
      else Memory.get s.u.window (s.u.dcur - BitVec.ofNat 12 (d - bs.length)).toNat := by
  induction bs using List.reverseRecOn generalizing d with
  | nil =>
    rw [List.length_nil, if_neg (by omega)]
    rfl
  | append_singleton bs b ih =>
    obtain ⟨d, rfl⟩ := Nat.exists_eq_add_of_le' h1
    have hback := Units.get_winWr_back (s.decodedAll bs).params (s.decodedAll bs).u.dcur b (s.decodedAll bs).u
      (show d < Config.W by omega)
    rw [s.decodedAll_concat, List.length_append, List.length_singleton, Nat.add_sub_add_right, Nat.add_sub_add_right]
    refine hback.trans ?_
    by_cases h0 : d = 0
    · subst h0
      simp
    · rw [if_neg h0, ih (by omega) (by omega)]
      by_cases hle : d ≤ bs.length
      · rw [if_pos hle, if_pos (by omega), List.getElem?_append_left (by omega)]
      · rw [if_neg hle, if_neg (by omega)]

/-! ## The copy of a reference (44_lzss_coder.md R353) -/

/-- The k-th byte of a reference to p is read as far behind the cursor as p was. -/
theorem copy_position (c p : Pos) (k : Nat) :
    p + BitVec.ofNat 12 k = c + BitVec.ofNat 12 k - BitVec.ofNat 12 (c - p).toNat := by
  rw [BitVec.ofNat_toNat, BitVec.setWidth_eq]
  bv_omega

theorem one_le_distance {c p : Pos} (h : p ≠ c) : 1 ≤ (c - p).toNat := by
  rcases Nat.eq_zero_or_pos (c - p).toNat with h0 | h0
  · exact absurd (by bv_omega) h
  · exact h0

/-- What the copy reads after the bytes bs: the next byte of the window as it was, or one of bs (44_lzss_coder.md R353). -/
theorem State.copy_read {s : State} {p : Pos} (hp : p ≠ s.u.dcur) (bs : List Byte) :
    Memory.get (s.decodedAll bs).u.window (p + BitVec.ofNat 12 bs.length).toNat =
      if bs.length < (s.u.dcur - p).toNat then Memory.get s.u.window (p + BitVec.ofNat 12 bs.length).toNat
      else bs[bs.length - (s.u.dcur - p).toNat]? := by
  have hlt := (s.u.dcur - p).isLt
  have hread := s.decodedAll_window_back bs (one_le_distance hp) (Nat.le_of_lt hlt)
  rw [s.decodedAll_dcur, ← copy_position] at hread
  rw [hread]
  by_cases h : bs.length < (s.u.dcur - p).toNat
  · have hpos : s.u.dcur - BitVec.ofNat 12 ((s.u.dcur - p).toNat - bs.length) = p + BitVec.ofNat 12 bs.length := by
      rw [copy_position s.u.dcur p bs.length]
      have hsplit : BitVec.ofNat 12 (s.u.dcur - p).toNat =
          BitVec.ofNat 12 ((s.u.dcur - p).toNat - bs.length) + BitVec.ofNat 12 bs.length := by
        rw [← BitVec.ofNat_add, Nat.sub_add_cancel (Nat.le_of_lt h)]
      rw [hsplit]
      bv_omega
    rw [if_neg (by omega), if_pos h, hpos]
  · rw [if_pos (by omega), if_neg h]

/-- The bytes copied so far with one more, read at its place. -/
theorem State.copies_concat {s : State} {p : Pos} (hp : p ≠ s.u.dcur) {bs : List Byte} {b : Byte} (h : s.copies p bs)
    (hb : Memory.get (s.decodedAll bs).u.window (p + BitVec.ofNat 12 bs.length).toNat = some b) :
    s.copies p (bs ++ [b]) := by
  rw [State.copy_read hp] at hb
  have hd := one_le_distance hp
  intro k hk
  rw [List.length_append, List.length_singleton] at hk
  rcases Nat.lt_succ_iff_lt_or_eq.mp hk with hlt | rfl
  · rw [List.getElem?_append_left hlt, h k hlt]
    split
    · rfl
    · rw [List.getElem?_append_left (by omega)]
  · rw [List.getElem?_concat_length, ← hb]
    split
    · rfl
    · rw [List.getElem?_append_left (by omega)]

/-- The first k bytes of a reference can be copied: room, no member's slot, and, before the copy reaches its own bytes,
every slot read written. -/
structure State.CanCopy (s : State) (p : Pos) (k : Nat) : Prop where
  apart : p ≠ s.u.dcur
  fine : s.ioFine
  room : s.room k
  free : ∀ j < k, s.u.isMember (s.u.dcur + BitVec.ofNat 12 j) = false
  written : ∀ j < k, j < (s.u.dcur - p).toNat → s.u.written (p + BitVec.ofNat 12 j).toNat = true

/-- A byte that the copy reads at its place is there. -/
theorem State.copy_byte {s : State} {p : Pos} {bs : List Byte} (hp : p ≠ s.u.dcur)
    (hw : bs.length < (s.u.dcur - p).toNat → s.u.written (p + BitVec.ofNat 12 bs.length).toNat = true) :
    ∃ b, Memory.get (s.decodedAll bs).u.window (p + BitVec.ofNat 12 bs.length).toNat = some b := by
  have hd := one_le_distance hp
  rw [State.copy_read hp]
  split
  · next h => exact Option.isSome_iff_exists.mp (hw h)
  · exact ⟨_, List.getElem?_eq_getElem (by omega)⟩

/-- A copy goes through its first k bytes, as long as it can, and then goes on (44_lzss_coder.md R353). -/
theorem copyLoop_prefix {s : State} {p : Pos} {k : Nat} (h : s.CanCopy p k) (more : Nat) :
    ∃ bs, bs.length = k ∧ s.copies p bs ∧
      copyLoop (k + more) p s = copyLoop more (p + BitVec.ofNat 12 k) (s.decodedAll bs) := by
  obtain ⟨hp, hio, hroom, hfree, hwritten⟩ := h
  induction k generalizing more with
  | zero => exact ⟨[], rfl, fun k hk => absurd hk (Nat.not_lt_zero k), by simp [State.decodedAll]⟩
  | succ k ih =>
    obtain ⟨bs, rfl, hcopies, hrun⟩ := ih (1 + more) (room_mono (Nat.le_succ k) hroom) (fun j hj => hfree j (by omega))
      fun j hj => hwritten j (by omega)
    obtain ⟨b, hb⟩ := State.copy_byte hp (hwritten bs.length (Nat.lt_succ_self _))
    have hmember : (s.decodedAll bs).u.isMember (s.decodedAll bs).u.dcur = false := by
      rw [s.decodedAll_isMember, s.decodedAll_dcur]
      exact hfree bs.length (Nat.lt_succ_self _)
    refine ⟨bs ++ [b], by simp, State.copies_concat hp hcopies hb, ?_⟩
    rw [Nat.add_assoc, hrun, Nat.add_comm 1 more, copyLoop_step more _ hb (State.decodedAll_ioFine hio bs)
      (State.decodedAll_room hroom) hmember, s.decodedAll_concat, BitVec.ofNat_add, ← BitVec.add_assoc]
    rfl

/-- A copy whose byte k comes from a slot never written faults there (44_lzss_coder.md R354). -/
theorem copyLoop_reaches_unwritten {s : State} {p : Pos} {k : Nat} (h : s.CanCopy p k)
    (hk : k < (s.u.dcur - p).toNat) (hw : s.u.written (p + BitVec.ofNat 12 k).toNat = false) (more : Nat) :
    ∃ bs, bs.length = k ∧ s.copies p bs ∧
      copyLoop (k + (more + 1)) p s = .error (.raised .uninitRead) (s.decodedAll bs) := by
  obtain ⟨bs, rfl, hcopies, hrun⟩ := copyLoop_prefix h (more + 1)
  refine ⟨bs, rfl, hcopies, hrun.trans (copyLoop_unwritten more _ ?_)⟩
  rw [Units.written, State.copy_read h.apart, if_pos hk]
  exact hw

/-- A copy whose byte k goes to a member's slot faults there, with that byte in the sink (44_lzss_coder.md R354). -/
theorem copyLoop_reaches_member {s : State} {p : Pos} {k : Nat} (h : s.CanCopy p k) (hroom : s.room (k + 1))
    (hm : s.u.isMember (s.u.dcur + BitVec.ofNat 12 k) = true)
    (hw : k < (s.u.dcur - p).toNat → s.u.written (p + BitVec.ofNat 12 k).toNat = true) (more : Nat) :
    ∃ bs b, bs.length = k ∧ s.copies p (bs ++ [b]) ∧
      copyLoop (k + (more + 1)) p s = .error (.raised .stateError) ((s.decodedAll bs).putByte b) := by
  obtain ⟨bs, rfl, hcopies, hrun⟩ := copyLoop_prefix h (more + 1)
  obtain ⟨b, hb⟩ := State.copy_byte h.apart hw
  refine ⟨bs, b, rfl, State.copies_concat h.apart hcopies hb, hrun.trans ?_⟩
  have hmember : (s.decodedAll bs).u.isMember (s.decodedAll bs).u.dcur = true := by
    rwa [s.decodedAll_isMember, s.decodedAll_dcur]
  rw [copyLoop, Op.bind_ok (winRd_ok hb)]
  exact Op.bind_error (outputByte_member b (State.decodedAll_ioFine h.fine bs) (State.decodedAll_room hroom) hmember)

/-! ## Tokens carried out (44_lzss_coder.md R351) -/

/-- The bytes a token stands for in a state. -/
def State.tokenBytes (s : State) : LzToken → List Byte → Prop
  | .literal b, bs => bs = [b]
  | .reference p e, bs => bs.length = s.refLength e ∧ s.copies p bs
  | .endToken _, bs => bs = []

/-- A token's kind, RES0 of LDEC.DECODE_TOKEN (30_encoding.md R137). -/
def LzToken.kind : LzToken → Nat
  | .literal _ => 0
  | .reference _ _ => 1
  | .endToken _ => 2

/-- What a token that can be carried out leaves: its bytes decoded, and LDEND set by the end token. -/
def State.afterToken (s : State) (k : LzToken) (bs : List Byte) : State :=
  match k with
  | .endToken _ => { s with u := { s.u with ldend := true } }
  | _ => s.decodedAll bs

/-! One lemma per token: what is left of DecodeToken once the token is known. -/

theorem doToken_literal (b : Byte) (s : State) :
    doToken (.literal b) s = (outputByte b >>= fun _ => pure (0, 1)) s := rfl

theorem doToken_reference {s : State} {p : Pos} (hp : p ≠ s.u.dcur) (e : Nat) :
    doToken (.reference p e) s = (copyLoop (s.refLength e) p >>= fun _ => pure (1, s.refLength e)) s :=
  congrFun (if_neg hp) s

theorem doToken_end (s : State) :
    doToken (.endToken s.u.dcur) s = .ok (2, 0) { s with u := { s.u with ldend := true } } :=
  congrFun (if_pos rfl) s

/-- A token that can be carried out is. -/
theorem doToken_ok {s : State} {k : LzToken} (hio : s.ioFine) (h : s.tokenReady k) :
    ∃ bs, s.tokenBytes k bs ∧ doToken k s = .ok (k.kind, bs.length) (s.afterToken k bs) := by
  cases k with
  | literal b => exact ⟨[b], rfl, (doToken_literal b s).trans (Op.bind_ok (outputByte_ok b hio h.1 h.2))⟩
  | reference p e =>
    obtain ⟨hp, -, hroom, hfree, hwritten⟩ := h
    obtain ⟨bs, hlen, hcopies, hrun⟩ := copyLoop_prefix ⟨hp, hio, hroom, hfree, hwritten⟩ 0
    refine ⟨bs, ⟨hlen, hcopies⟩, (doToken_reference hp e).trans ((Op.bind_ok hrun).trans ?_)⟩
    rw [hlen]
    rfl
  | endToken p =>
    obtain rfl : p = s.u.dcur := h
    exact ⟨[], rfl, doToken_end s⟩

theorem bodyOf_instr (k : LzToken) : bodyOf k.instr = doTokenOnly k := by cases k <;> rfl

theorem exec_instr (k : LzToken) (s : State) : exec k.instr s = runToken (doTokenOnly k) s := by cases k <;> rfl

/-- A token carried out as an instruction (log 12). -/
theorem exec_token_ok {s t : State} {k : LzToken} {r : Nat × Nat} (hs : s.healthy) (h : doToken k s = .ok r t) :
    exec k.instr s = .next t := by
  rw [exec_instr]
  exact runToken_ok hs (Op.bind_ok h)

/-- Settles O59: a ready token decodes its bytes, and the end token sets LDEND. -/
theorem lzssTokensCarriedOut : Obligations.LzssTokensCarriedOut := by
  intro s hs hio _
  refine ⟨fun b h => ?_, fun p e h => ?_, fun p h => ?_⟩
  · obtain ⟨_, rfl, hrun⟩ := doToken_ok hio h
    exact exec_token_ok hs hrun
  · obtain ⟨bs, ⟨hlen, hcopies⟩, hrun⟩ := doToken_ok hio h
    exact ⟨bs, hlen, hcopies, exec_token_ok hs hrun⟩
  · obtain ⟨_, -, hrun⟩ := doToken_ok hio h
    exact exec_token_ok hs hrun

/-- A token leaves STATUS alone. -/
theorem State.afterToken_status (s : State) (k : LzToken) (bs : List Byte) : (s.afterToken k bs).status = s.status := by
  have hall : (s.decodedAll bs).status = s.status := by
    rw [s.decodedAll_eq]
    exact s.putBytes_status bs
  cases k with
  | endToken p => rfl
  | literal b => exact hall
  | reference p e => exact hall

/-- Settles O58: the token fetched is the one the stream decoder reads, and it is ready behind its bits. -/
theorem decodeTokenCarriesOutTheNextToken : Obligations.DecodeTokenCarriesOutTheNextToken := by
  intro s k rest hs hio hr hend hdec hready
  have hfetch := fetchToken_ok (s := s.begin 0xA1) hio hr hdec
  obtain ⟨bs, hbs, hrun⟩ := doToken_ok (State.consume_ioFine (s := s.begin 0xA1) hio _) hready
  have hbody : bodyOf .ldecDecodeToken (s.begin 0xA1) =
      .ok () ((((s.begin 0xA1).consume (s.inBits.length - rest.length)).afterToken k bs).withResults k.kind bs.length) :=
    Op.bind_ok ((Op.bind_ok hfetch).trans hrun)
  have hcheck : checkOf s .ldecDecodeToken = none := checkFault_none.mpr ⟨rfl, by rw [hend]; rfl⟩
  have hexec := exec_token_ok (s := (s.begin 0xA1).consume (s.inBits.length - rest.length)) hs hrun
  refine ⟨_, hexec, ?_, (exec_completes .ldecDecodeToken hs rfl (by simp) hcheck hbody).trans ?_⟩
  · rw [State.afterToken_status]
    exact hs
  · cases k with
    | literal b =>
      obtain rfl : bs = [b] := hbs
      rfl
    | reference p e =>
      have hlen : bs.length = s.refLength e := hbs.1
      rw [hlen]
      rfl
    | endToken p =>
      obtain rfl : bs = [] := hbs
      rfl

/-! ## Tokens that fault (44_lzss_coder.md R354) -/

/-- A token that raises a fault enters it, and what it wrote to the sink stays (60_exceptions.md R371, R382). -/
theorem exec_token_raises {s q : State} {k : LzToken} {c : FaultCode} (hs : s.healthy)
    (h : doToken k s = .error (.raised c) q) :
    ∃ t, exec k.instr s = .next t ∧ t.status.fault = true ∧ t.status.fcode = c.code ∧
      t.status.fcmd = s.cmd.setWidth 8 ∧ q.agree t .sink := by
  have hbody : doTokenOnly k s = .error (.raised c) q := Op.bind_error h
  refine ⟨q.faultEntry .execution c, (exec_instr k s).trans (runToken_raised hs hbody), rfl, rfl, ?_,
    (State.faultEntry_agree .execution c q).1⟩
  rw [← bodyOf_instr] at hbody
  rw [State.faultEntry_fcmd, (bodyOf_control_error hbody).1]

/-- The sink after decoded bytes: OPOS behind them, and each at its place (20_memory.md R84). -/
theorem State.decodedAll_sink {s : State} {bs : List Byte} (h : s.room bs.length) :
    (s.decodedAll bs).opos.toNat = s.opos.toNat + bs.length ∧
      ∀ j < bs.length, bs[j]? = some ((s.decodedAll bs).outByte (s.opos.toNat + j)) := by
  rw [s.decodedAll_eq]
  refine ⟨State.putBytes_opos_toNat h, fun j hj => ?_⟩
  show bs[j]? = some ((s.putBytes bs).outByte (s.opos.toNat + j))
  rw [State.putBytes_outByte h, if_pos (Nat.le_add_right _ _), Nat.add_sub_cancel_left, List.getElem?_eq_getElem hj]
  rfl

/-- A byte that went to the sink before its slot was found to be a member's is where a decoded byte would be. -/
theorem State.decodedAll_putByte_agree (s : State) (bs : List Byte) (b : Byte) :
    (s.decodedAll (bs ++ [b])).agree ((s.decodedAll bs).putByte b) .sink := by
  rw [s.decodedAll_concat]
  exact ⟨rfl, rfl, rfl⟩

/-- Settles O60: each of the four ways a token faults, at the byte where it does. -/
theorem lzssTokensThatFault : Obligations.LzssTokensThatFault := by
  intro s hs hio hroom
  refine ⟨fun b hm => ?_, fun p e hp hlen hw => ?_, fun p e k hp hk hd hroomk hfree hwritten hw => ?_,
    fun p e k hp hk hroomk hfree hm hwritten => ?_⟩
  · obtain ⟨t, hexec, hfault, hcode, hcmd, hsink⟩ := exec_token_raises (k := .literal b) hs
      ((doToken_literal b s).trans (Op.bind_error (outputByte_member b hio hroom hm)))
    refine ⟨t, hexec, hfault, hcode, hcmd, ?_, ?_⟩
    · rw [hsink.1]
      exact word_succ_toNat hroom.2 hroom.1
    · rw [State.agree_outByte hsink, State.putByte_outByte, if_pos rfl]
  · obtain ⟨n, hn⟩ := Nat.exists_eq_add_of_le' hlen
    obtain ⟨t, hexec, hfault, hcode, -, hopos, holen, hout⟩ := exec_token_raises (k := .reference p e) hs
      ((doToken_reference hp e).trans (Op.bind_error (hn ▸ copyLoop_unwritten n p hw)))
    exact ⟨t, hexec, hfault, hcode, hout, hopos, holen⟩
  · obtain ⟨n, hn⟩ := Nat.exists_eq_add_of_lt hk
    obtain ⟨bs, rfl, hcopies, hrun⟩ := copyLoop_reaches_unwritten ⟨hp, hio, hroomk, hfree, fun j hj _ => hwritten j hj⟩ hd hw n
    obtain ⟨t, hexec, hfault, hcode, hcmd, hsink⟩ := exec_token_raises (k := .reference p e) hs
      ((doToken_reference hp e).trans (Op.bind_error (hn ▸ hrun)))
    obtain ⟨hopos, hbytes⟩ := State.decodedAll_sink hroomk
    refine ⟨t, hexec, hfault, hcode, hcmd, ?_, fun j hj => ?_⟩
    · rw [hsink.1, hopos]
    · have hcopy := hcopies j hj
      rw [if_pos (by omega)] at hcopy
      rw [State.agree_outByte hsink, ← hbytes j hj, hcopy]
  · obtain ⟨n, hn⟩ := Nat.exists_eq_add_of_lt hk
    obtain ⟨bs, b, rfl, hcopies, hrun⟩ := copyLoop_reaches_member
      ⟨hp, hio, room_mono (Nat.le_succ _) hroomk, hfree, fun j hj => hwritten j (Nat.le_of_lt hj)⟩ hroomk hm
      (hwritten _ (Nat.le_refl _)) n
    obtain ⟨t, hexec, hfault, hcode, hcmd, hsink⟩ := exec_token_raises (k := .reference p e) hs
      ((doToken_reference hp e).trans (Op.bind_error (hn ▸ hrun)))
    have hsink' := State.agree_trans (s.decodedAll_putByte_agree bs b) hsink
    have hlen : (bs ++ [b]).length = bs.length + 1 := by simp
    obtain ⟨hopos, hbytes⟩ := State.decodedAll_sink (bs := bs ++ [b]) (hlen ▸ hroomk)
    rw [hlen] at hopos hbytes
    refine ⟨t, bs ++ [b], hexec, hfault, hcode, hcmd, ?_, hlen, hcopies, fun j hj => ?_⟩
    · rw [hsink'.1, hopos]
      rfl
    · rw [State.agree_outByte hsink', ← hbytes j hj]

end Sys2Proof.Machine
end

section
/-! SUPPORT. LDEC.DECODE: the window recalls the end of the output, so a token decodes what it expands to
(44_lzss_coder.md R352, R353). -/

namespace Sys2Proof.Machine

/-! ## A window that recalls a text (44_lzss_coder.md R353) -/

/-- Behind the cursor the window holds the last bytes of a text, up to W of them. -/
def Units.Recalls (u : Units) (cursor : Pos) (text : List Byte) : Prop :=
  ∀ d, 1 ≤ d → d ≤ Config.W → d ≤ text.length →
    Memory.get u.window (cursor - BitVec.ofNat 12 d).toNat = text[text.length - d]?

theorem Units.recalls_nil (u : Units) (cursor : Pos) : u.Recalls cursor [] := fun d h1 _ h2 => by
  rw [List.length_nil] at h2
  omega

/-- A byte written at the cursor is recalled behind the others. -/
theorem Units.Recalls.winWr {u : Units} {cursor : Pos} {text : List Byte} (h : u.Recalls cursor text)
    (P : Config.Params) (b : Byte) : (u.winWr P cursor b).Recalls (cursor + 1) (text ++ [b]) := by
  intro d h1 hW hlen
  obtain ⟨d, rfl⟩ := Nat.exists_eq_add_of_le' h1
  rw [List.length_append, List.length_singleton] at hlen ⊢
  rw [Units.get_winWr_back P cursor b u (by omega), Nat.add_sub_add_right]
  by_cases h0 : d = 0
  · subst h0
    simp
  · rw [if_neg h0, h d (by omega) (by omega) (by omega), List.getElem?_append_left (by omega)]

/-! ## Expansion (44_lzss_coder.md R351, R353) -/

/-- Bytes each of which stands d places before it in the text are copied from d back. -/
theorem lzCopy_eq {d : Nat} {out bs : List Byte} (h1 : 1 ≤ d) (hd : d ≤ out.length)
    (h : ∀ k < bs.length, bs[k]? = (out ++ bs)[out.length + k - d]?) : lzCopy d bs.length out = some (out ++ bs) := by
  induction bs generalizing out with
  | nil => simp [lzCopy]
  | cons b bs ih =>
    have hb := h 0 (Nat.zero_lt_succ _)
    rw [Nat.add_zero, List.getElem?_append_left (by omega)] at hb
    rw [List.length_cons, lzCopy, ← hb]
    have hassoc : out ++ b :: bs = (out ++ [b]) ++ bs := by simp
    refine (ih (by rw [List.length_append]; omega) fun k hk => ?_).trans (by rw [hassoc])
    have hk' := h (k + 1) (Nat.succ_lt_succ hk)
    rw [List.getElem?_cons_succ, hassoc] at hk'
    rw [hk', List.length_append, List.length_singleton, Nat.add_assoc, Nat.add_comm 1 k]

theorem length_lzCopy {d n : Nat} {out out' : List Byte} (h : lzCopy d n out = some out') :
    out'.length = out.length + n := by
  induction n generalizing out with
  | zero =>
    cases h
    rfl
  | succ n ih =>
    unfold lzCopy at h
    split at h
    · rw [ih h, List.length_append, List.length_singleton, Nat.add_right_comm, Nat.add_assoc]
    · cases h

theorem lzExpand_literal (P : Config.Params) (b : Byte) (ts : List LzToken) (out : List Byte) :
    lzExpand P (.literal b :: ts) out = lzExpand P ts (out ++ [b]) := rfl

/-- A reference that can be expanded, with the bytes copied (44_lzss_coder.md R353). -/
theorem lzExpand_reference {P : Config.Params} {p : Pos} {e : Nat} {ts : List LzToken} {out text : List Byte} :
    lzExpand P (.reference p e :: ts) out = some text ↔
      (1 ≤ lzDistance out.length p ∧ lzDistance out.length p ≤ out.length ∧ e < 2 ^ P.lzN) ∧
      ∃ out', lzCopy (lzDistance out.length p) (e + P.minLen) out = some out' ∧ lzExpand P ts out' = some text := by
  rw [lzExpand]
  by_cases h : 1 ≤ lzDistance out.length p ∧ lzDistance out.length p ≤ out.length ∧ e < 2 ^ P.lzN
  · rw [if_pos h]
    cases hc : lzCopy (lzDistance out.length p) (e + P.minLen) out with
    | none => simp
    | some out' => simp [h]
  · rw [if_neg h]
    simp [h]

theorem lzExpand_length_le {P : Config.Params} {ts : List LzToken} {out text : List Byte}
    (h : lzExpand P ts out = some text) : out.length ≤ text.length := by
  induction ts generalizing out with
  | nil =>
    cases h
    exact Nat.le_refl _
  | cons t ts ih =>
    cases t with
    | literal b =>
      have := ih (lzExpand_literal .. ▸ h)
      rw [List.length_append] at this
      omega
    | reference p e =>
      obtain ⟨-, out', hcopy, hrest⟩ := lzExpand_reference.mp h
      have := ih hrest
      have := length_lzCopy hcopy
      omega
    | endToken p => cases h

/-! ## The decoder in the middle of a stream -/

/-- The decoder after it has written a text: the text is the output, the window recalls it behind the cursor, and there is
no dictionary. -/
structure State.HasDecoded (s : State) (text : List Byte) : Prop where
  fine : s.ioFine
  atEnd : s.opos = s.olen
  outBytes : s.outBytes = text
  cursor : s.u.dcur = BitVec.ofNat 12 text.length
  recalls : s.u.Recalls s.u.dcur text
  free : ∀ p, s.u.isMember p = false

section
variable {s : State} {text : List Byte}

theorem State.HasDecoded.olen (h : s.HasDecoded text) : s.olen.toNat = text.length := by
  rw [← h.outBytes, State.outBytes, List.length_map, List.length_range]

/-- There is room for what is left of a text that fits the sink. -/
theorem State.HasDecoded.room (h : s.HasDecoded text) {n : Nat} (hP : s.params.outSize < 2 ^ 64)
    (hn : text.length + n ≤ s.params.outSize) : s.room n := ⟨hP, by rw [h.atEnd, h.olen]; exact hn⟩

theorem State.HasDecoded.decoded (h : s.HasDecoded text) (b : Byte) (hr : s.room 1) :
    (s.decoded b).HasDecoded (text ++ [b]) := by
  obtain ⟨hout, hend, -⟩ := State.putByte_appends b h.atEnd hr
  refine ⟨State.decoded_ioFine h.fine b, hend, ?_, ?_, h.recalls.winWr s.params b, h.free⟩
  · rw [← h.outBytes]
    exact hout
  · rw [State.decoded_dcur, h.cursor, List.length_append, BitVec.ofNat_add]
    rfl

theorem State.HasDecoded.decodedAll (h : s.HasDecoded text) {bs : List Byte} (hr : s.room bs.length) :
    (s.decodedAll bs).HasDecoded (text ++ bs) := by
  induction bs generalizing s text with
  | nil =>
    rw [List.append_nil]
    exact h
  | cons b bs ih =>
    have hstep := h.decoded b (room_mono (Nat.le_add_left 1 _) hr)
    have hrest := ih hstep (State.decoded_room hr b)
    rwa [List.append_assoc] at hrest

/-- Reading bits decodes nothing. -/
theorem State.HasDecoded.consume (h : s.HasDecoded text) (k : Nat) : (s.consume k).HasDecoded text :=
  ⟨State.consume_ioFine h.fine k, h.atEnd, h.outBytes, h.cursor, h.recalls, h.free⟩

/-- The end token decodes nothing. -/
theorem State.HasDecoded.ended (h : s.HasDecoded text) : (s.afterToken (.endToken s.u.dcur) []).HasDecoded text :=
  ⟨h.fine, h.atEnd, h.outBytes, h.cursor, h.recalls, h.free⟩

/-- How far back a position lies, seen from the decoder's cursor. -/
theorem State.HasDecoded.distance (h : s.HasDecoded text) (p : Pos) : (s.u.dcur - p).toNat = lzDistance text.length p := by
  rw [h.cursor]
  rfl

/-- The slots a reference reads hold the text from its distance back on (44_lzss_coder.md R353). -/
theorem State.HasDecoded.get_window (h : s.HasDecoded text) {p : Pos} {k : Nat} (hk : k < lzDistance text.length p)
    (hd : lzDistance text.length p ≤ text.length) :
    Memory.get s.u.window (p + BitVec.ofNat 12 k).toNat = text[text.length + k - lzDistance text.length p]? := by
  have hlt : lzDistance text.length p < Config.W := (BitVec.ofNat 12 text.length - p).isLt
  have hsplit : BitVec.ofNat 12 (s.u.dcur - p).toNat =
      BitVec.ofNat 12 (lzDistance text.length p - k) + BitVec.ofNat 12 k := by
    rw [h.distance, ← BitVec.ofNat_add, Nat.sub_add_cancel (Nat.le_of_lt hk)]
  have hpos : p + BitVec.ofNat 12 k = s.u.dcur - BitVec.ofNat 12 (lzDistance text.length p - k) := by
    rw [copy_position s.u.dcur p k, hsplit]
    bv_omega
  rw [hpos, h.recalls _ (by omega) (by omega) (by omega),
    show text.length - (lzDistance text.length p - k) = text.length + k - lzDistance text.length p by omega]

/-- What the copy of a reference reads is what its expansion copies (44_lzss_coder.md R353). -/
theorem State.HasDecoded.lzCopy_of_copies (h : s.HasDecoded text) {p : Pos} {bs : List Byte}
    (h1 : 1 ≤ lzDistance text.length p) (hd : lzDistance text.length p ≤ text.length) (hbs : s.copies p bs) :
    lzCopy (lzDistance text.length p) bs.length text = some (text ++ bs) := by
  refine lzCopy_eq h1 hd fun k hk => ?_
  rw [hbs k hk, h.distance]
  split
  · next hlt => rw [h.get_window hlt hd, List.getElem?_append_left (by omega)]
  · next hge =>
    rw [List.getElem?_append_right (by omega), show text.length + k - lzDistance text.length p - text.length =
      k - lzDistance text.length p by omega]

/-- One token of an expansion is ready, and the bytes it decodes are those it expands to. -/
theorem State.HasDecoded.token (h : s.HasDecoded text) {k : LzToken} {ts : List LzToken} {whole : List Byte}
    (hexp : lzExpand s.params (k :: ts) text = some whole) (hP : s.params.outSize < 2 ^ 64)
    (hfit : whole.length ≤ s.params.outSize) :
    s.tokenReady k ∧ k.kind ≠ 2 ∧ ∀ bs, s.tokenBytes k bs → s.afterToken k bs = s.decodedAll bs ∧
      text.length + bs.length ≤ whole.length ∧ lzExpand s.params ts (text ++ bs) = some whole := by
  cases k with
  | literal b =>
    rw [lzExpand_literal] at hexp
    have hle := lzExpand_length_le hexp
    rw [List.length_append, List.length_singleton] at hle
    refine ⟨⟨h.room hP (by omega), h.free _⟩, by simp [LzToken.kind], ?_⟩
    rintro _ rfl
    exact ⟨rfl, hle, hexp⟩
  | reference p e =>
    obtain ⟨⟨h1, hd, he⟩, out', hcopy, hrest⟩ := lzExpand_reference.mp hexp
    have hle := lzExpand_length_le hrest
    have hlen := length_lzCopy hcopy
    refine ⟨⟨?_, he, h.room hP (by rw [State.refLength]; omega), fun _ _ => h.free _, fun k _ hk => ?_⟩,
      by simp [LzToken.kind], ?_⟩
    · rintro rfl
      rw [← h.distance, BitVec.sub_self] at h1
      exact absurd h1 (by decide)
    · rw [h.distance] at hk
      rw [Units.written, h.get_window hk hd, List.getElem?_eq_getElem (by omega)]
      rfl
    · rintro bs ⟨hbs, hcopies⟩
      rw [← State.refLength, ← hbs, h.lzCopy_of_copies h1 hd hcopies] at hcopy
      obtain rfl := Option.some.inj hcopy
      rw [List.length_append] at hle
      exact ⟨rfl, hle, hrest⟩
  | endToken p => cases hexp

/-! ## The stream (44_lzss_coder.md R352) -/

/-- The stream decoder reads back a token of an expansion, whatever follows it (30_encoding.md R136, R137). -/
theorem decodeToken_tokenBits {P : Config.Params} {k : LzToken} {ts : List LzToken} {text whole : List Byte}
    (hexp : lzExpand P (k :: ts) text = some whole) (rest : List Bool) :
    decodeToken (.lz P.lzN (BitVec.ofNat 12 text.length)) (tokenBits P k.instr ++ rest) = .ok (k.instr, rest) := by
  have hadmits : wellFormed P k.instr = true ∧ (Ctx.lz P.lzN (BitVec.ofNat 12 text.length)).admits P k.instr = true := by
    cases k with
    | literal b => exact ⟨rfl, beq_self_eq_true _⟩
    | reference p e =>
      obtain ⟨⟨h1, -, he⟩, -⟩ := lzExpand_reference.mp hexp
      refine ⟨decide_eq_true he, Bool.and_eq_true_iff.mpr ⟨beq_self_eq_true _, bne_iff_ne.mpr ?_⟩⟩
      rintro rfl
      rw [lzDistance, BitVec.sub_self] at h1
      exact absurd h1 (by decide)
    | endToken p => cases hexp
  obtain ⟨bits, henc, hdec⟩ := encodedTokensDecode P _ _ rest hadmits.1 hadmits.2
  rw [tokenBits, henc]
  exact hdec

/-- The stream decoder reads back the end token at the cursor. -/
theorem decodeToken_tokenBits_end (P : Config.Params) (p : Pos) (rest : List Bool) :
    decodeToken (.lz P.lzN p) (tokenBits P (.lzEnd p) ++ rest) = .ok (.lzEnd p, rest) := by
  obtain ⟨bits, henc, hdec⟩ := encodedTokensDecode P (.lz P.lzN p) (.lzEnd p) rest rfl (by simp [Ctx.admits])
  rw [tokenBits, henc]
  exact hdec

theorem tokensBits_cons (P : Config.Params) (k : LzToken) (ts : List LzToken) :
    tokensBits P (k :: ts) = tokenBits P k.instr ++ tokensBits P ts := List.flatMap_cons

theorem length_le_tokensBits (P : Config.Params) (ts : List LzToken) : ts.length ≤ (tokensBits P ts).length := by
  induction ts with
  | nil => exact Nat.le_refl 0
  | cons k ts ih =>
    have hpos : 1 ≤ (tokenBits P k.instr).length := by cases k <;> exact Nat.succ_pos _
    rw [tokensBits_cons, List.length_append, List.length_cons]
    omega

/-- One token read and carried out, with the stream behind it. -/
theorem decodeLzToken_ok {k : LzToken} {pre rest : List Bool} (hio : s.ioFine) (hr : s.u.readerOk)
    (hb : s.inBits = pre ++ rest) (hdec : decodeToken (.lz s.params.lzN s.u.dcur) (pre ++ rest) = .ok (k.instr, rest))
    (hready : (s.consume pre.length).tokenReady k) :
    ∃ bs, (s.consume pre.length).tokenBytes k bs ∧
      decodeLzToken s = .ok (k.kind, bs.length) ((s.consume pre.length).afterToken k bs) := by
  have hfetch := fetchToken_ok hio hr (hb ▸ hdec)
  rw [hb, List.length_append, Nat.add_sub_cancel] at hfetch
  obtain ⟨bs, hbs, hrun⟩ := doToken_ok (State.consume_ioFine hio _) hready
  exact ⟨bs, hbs, (Op.bind_ok hfetch).trans hrun⟩

end

/-- Decoded bytes leave the reader and the source alone. -/
theorem State.decodedAll_reader (s : State) (bs : List Byte) :
    (s.decodedAll bs).inBits = s.inBits ∧ (s.decodedAll bs).u.readerOk = s.u.readerOk ∧ (s.decodedAll bs).res1 = s.res1 := by
  induction bs generalizing s with
  | nil => exact ⟨rfl, rfl, rfl⟩
  | cons b bs ih => exact ih (s.decoded b)

/-- The loop of LDEC.DECODE on tokens and their end token (44_lzss_coder.md R352). -/
theorem decodeTokens_ok (ts : List LzToken) {fuel : Nat} {s : State} {text whole : List Byte} {rest : List Bool}
    (h : s.HasDecoded text) (hr : s.u.readerOk) (hP : s.params.outSize < 2 ^ 64)
    (hexp : lzExpand s.params ts text = some whole) (hfit : whole.length ≤ s.params.outSize) (hf : ts.length < fuel)
    (hb : s.inBits = tokensBits s.params (ts ++ [.endToken (BitVec.ofNat 12 whole.length)]) ++ rest) :
    ∃ t, decodeTokens fuel text.length s = .ok whole.length t ∧ t.HasDecoded whole ∧ t.u.ldend = true ∧
      t.res1 = s.res1 := by
  obtain ⟨fuel, rfl⟩ := Nat.exists_eq_add_one_of_ne_zero (show fuel ≠ 0 by omega)
  induction ts generalizing s text fuel with
  | nil =>
    obtain rfl := Option.some.inj hexp
    rw [List.nil_append, tokensBits_cons, tokensBits, List.flatMap_nil, List.append_nil, ← h.cursor] at hb
    obtain ⟨_, rfl, hrun⟩ := decodeLzToken_ok (k := .endToken s.u.dcur) h.fine hr hb (decodeToken_tokenBits_end _ _ _) rfl
    exact ⟨_, (Op.bind_ok hrun).trans (congrFun (if_pos rfl) _), (h.consume _).ended, rfl, rfl⟩
  | cons k ts ih =>
    rw [List.cons_append, tokensBits_cons, List.append_assoc] at hb
    have hdec := decodeToken_tokenBits hexp (tokensBits s.params (ts ++ [.endToken (BitVec.ofNat 12 whole.length)]) ++ rest)
    obtain ⟨-, -, hr', hin⟩ := State.consume_prefix h.fine hr hb
    have h' := h.consume (tokenBits s.params k.instr).length
    obtain ⟨hready, hkind, htoken⟩ := h'.token (s := s.consume _) hexp hP hfit
    rw [← h.cursor] at hdec
    obtain ⟨bs, hbs, hrun⟩ := decodeLzToken_ok h.fine hr hb hdec hready
    obtain ⟨hafter, hle, hexp'⟩ := htoken bs hbs
    rw [hafter] at hrun
    obtain ⟨hin', hreader, hres⟩ := (s.consume (tokenBits s.params k.instr).length).decodedAll_reader bs
    have hparams : ((s.consume (tokenBits s.params k.instr).length).decodedAll bs).params = s.params :=
      State.decodedAll_params _ bs
    rw [List.length_cons] at hf
    obtain ⟨n, rfl⟩ := Nat.exists_eq_add_one_of_ne_zero (show fuel ≠ 0 by omega)
    obtain ⟨t, ht, hdone, hend, hres'⟩ := ih (fuel := n) (text := text ++ bs)
      (h'.decodedAll (h'.room (s := s.consume _) hP (hle.trans hfit))) (hreader ▸ hr') (by rwa [hparams])
      (by rw [hparams]; exact hexp') (by rwa [hparams]) (by rw [hin', hin, hparams]) (by omega)
    refine ⟨t, ?_, hdone, hend, hres'.trans hres⟩
    rw [List.length_append] at ht
    exact (Op.bind_ok hrun).trans ((congrFun (if_neg hkind) _).trans ht)

/-- Settles O55: LDEC.DECODE starts with an empty window and nothing decoded, and reads its tokens to the end token. -/
theorem lzssDecodeExpandsTheTokens : Obligations.LzssDecodeExpandsTheTokens := by
  intro s ts bs rest hs hio hwf hexp hbits hfit
  have hP := hwf.2.2.2
  have hstart : ({ (s.begin 0xA0).streamInit with u := (s.begin 0xA0).streamInit.u.ldecInit } : State).HasDecoded [] :=
    ⟨hio, rfl, rfl, rfl, Units.recalls_nil _ _, fun p => Units.isMember_dictClear p _⟩
  have hlen := length_le_tokensBits s.params (ts ++ [.endToken (BitVec.ofNat 12 bs.length)])
  have hin : ({ (s.begin 0xA0).streamInit with u := (s.begin 0xA0).streamInit.u.ldecInit } : State).inBits =
      bytesBits s.srcBytes := (s.begin 0xA0).streamInit_inBits
  have htotal := congrArg List.length hbits
  rw [length_bytesBits, s.length_srcBytes, List.length_append] at htotal
  rw [List.length_append, List.length_singleton] at hlen
  obtain ⟨t, ht, hdone, hend, hres⟩ := decodeTokens_ok ts (fuel := 0 + 8 * (s.slen.toNat - 0) + 1) hstart (Nat.zero_le 7) hP
    hexp hfit (by omega) (hin.trans hbits)
  have hbody : bodyOf .ldecDecode (s.begin 0xA0) = .ok () (t.withResult bs.length) := Op.bind_ok ht
  have hstatus : (t.withResult bs.length).status = s.status.begin := (bodyOf_control_ok hbody).2
  refine ⟨_, exec_completes .ldecDecode hs rfl (by simp) rfl hbody, ?_, hdone.outBytes, ?_, hres, hdone.olen,
    hdone.cursor, hend⟩
  · show (t.withResult bs.length).status.fault = false
    rw [hstatus]
    exact hs
  · exact (BitVec.toNat_ofNat ..).trans (Nat.mod_eq_of_lt (by omega))

end Sys2Proof.Machine
end

section
/-! SUPPORT. The LZSS token emitters (44_lzss_coder.md R330 to R332). -/

namespace Sys2Proof.Machine

theorem pos_setWidth_toNat (p : Pos) : (p.setWidth 64).toNat = p.toNat := by
  have hp := p.isLt
  rw [BitVec.toNat_setWidth]
  omega

/-- The length of a reference whose field is in range is a legal operand (30_encoding.md R138). -/
theorem refLength_operand {P : Config.Params} (hP : P.wf) {e : Nat} (he : e < 2 ^ P.lzN) :
    (BitVec.ofNat 64 (e + P.minLen)).toNat = e + P.minLen ∧ isRefLength P (BitVec.ofNat 64 (e + P.minLen)) = true := by
  have hmax : e + P.minLen ≤ P.maxLen := by
    rw [Config.Params.maxLen]
    omega
  have hlen := toNat_ofNat_of_lt_W (hmax.trans_lt (maxLen_lt hP))
  refine ⟨hlen, ?_⟩
  rw [isRefLength, hlen, decide_eq_true hmax, decide_eq_true (Nat.le_add_left _ _)]
  rfl

/-- Settles O53: each emitter behind its check is the shared operation that writes its token. -/
theorem lzssEmittersWriteTheirToken : Obligations.LzssEmittersWriteTheirToken := by
  intro s hs hio hw
  refine ⟨fun b hr => ?_, fun p e hP he hr => ?_, fun p hr => ?_⟩
  · have hrun := emitLiteral_ok b (s := s.begin 0x91) hio hw hr
    refine exec_completes (v := 0x91) (.lencEmitLiteral (b.setWidth 64)) hs rfl (by simp)
      (checkFault_none.mpr ⟨isByte_setWidth b, rfl⟩) ?_
    show emitLiteral (lowByte (b.setWidth 64)) (s.begin 0x91) = _
    rw [lowByte_setWidth]
    exact hrun
  · obtain ⟨hlen, hlegal⟩ := refLength_operand hP he
    have hrun := emitReference_ok p e (s := s.begin 0x92) hio hw hr
    have hcheck : checkOf s (.lencEmitReference (p.setWidth 64) (BitVec.ofNat 64 (e + s.params.minLen))) = none :=
      checkFault_none.mpr ⟨Bool.and_eq_true_iff.mpr ⟨isPosition_setWidth p, hlegal⟩, rfl⟩
    refine exec_completes (v := 0x92) _ hs rfl (by simp) hcheck ?_
    show emitReference (p.setWidth 64).toNat (BitVec.ofNat 64 (e + s.params.minLen)).toNat (s.begin 0x92) = _
    rw [pos_setWidth_toNat, hlen]
    exact hrun
  · have hrun := emitSentinel_ok p (s := s.begin 0x93) hio hw hr
    rw [← pos_setWidth_toNat p] at hrun
    exact exec_completes _ hs rfl (by simp) (checkFault_none.mpr ⟨isPosition_setWidth p, rfl⟩) hrun

end Sys2Proof.Machine
end

section
/-! SUPPORT. What the window, the dictionary and the match finder do depends on the window, the dictionary, the encoder's
registers and the length-field width alone (44_lzss_coder.md R340). -/

namespace Sys2Proof.Machine

/-! ## Pieces of pseudocode that see the dictionary alone -/

/-- These units with the window, the dictionary and the encoder's registers of others. -/
def Units.withLz (u v : Units) : Units :=
  { u with
    window := v.window, roots := v.roots, parent := v.parent, leftD := v.leftD, rightD := v.rightD, member := v.member
    lcur := v.lcur, llook := v.llook, lskip := v.lskip, leof := v.leof }

def State.withLz (s : State) (v : Units) : State := { s with u := s.u.withLz v }

section
variable {α β : Type}

/-- An end with the window, the dictionary and the encoder's registers put into another state. -/
def State.graft (s : State) : EStateM.Result Stop State α → EStateM.Result Stop State α
  | .ok a d => .ok a (s.withLz d.u)
  | .error e d => .error e (s.withLz d.u)

/-- The piece neither reads nor changes anything but the window, the dictionary, the encoder's registers and, unchanged,
the length-field width: in any state it does what it does in c, once it finds c's there. -/
def Op.Local (x : Op α) : Prop :=
  ∀ s c : State, s.params.lzN = c.params.lzN → x (s.withLz c.u) = s.graft (x c)

theorem Op.Local.pure (a : α) : Op.Local (Pure.pure a : Op α) := fun _ _ _ => rfl

theorem Op.Local.stuck (f : Fault) : Op.Local (Machine.stuck f : Op α) := fun _ _ _ => rfl

theorem Op.Local.bind {x : Op α} {f : α → Op β} (hx : x.Local) (hf : ∀ a, (f a).Local) : (x >>= f).Local := by
  intro s c hP
  rw [Op.bind_eq, Op.bind_eq, hx s c hP]
  cases hc : x c with
  | ok a d =>
    have hd : x c = c.graft (x c) := hx c c rfl
    rw [hc] at hd
    injection hd with _ hd
    exact hf a s d (by rw [hd]; exact hP)
  | error e d => rfl

theorem Op.Local.ite {p : Prop} [Decidable p] {x y : Op α} (hx : x.Local) (hy : y.Local) : Op.Local (if p then x else y) := by
  split
  · exact hx
  · exact hy

/-- Reading the units, for what the dictionary part of them says. -/
theorem Op.Local.withUnits {f : Units → Op α} (h : ∀ u v, f (Units.withLz u v) = f v) (hf : ∀ u, (f u).Local) :
    (units >>= f).Local := fun s c hP => (congrFun (h s.u c.u) _).trans (hf c.u s c hP)

theorem Op.Local.setUnits {g : Units → Units} (h : ∀ u v, g (Units.withLz u v) = Units.withLz u (g v)) :
    (setUnits g).Local := fun s c _ =>
  congrArg (fun u => EStateM.Result.ok () ({ s with u := u } : State)) (h s.u c.u)

end

/-! ## The window -/

theorem local_winRd (k : Nat) : (winRd k).Local := by
  intro s c _
  have hwindow : (s.withLz c.u).u.window = c.u.window := rfl
  unfold winRd
  rw [hwindow]
  cases Memory.get c.u.window k <;> rfl

theorem maxLen_congr {P Q : Config.Params} (h : P.lzN = Q.lzN) : P.maxLen = Q.maxLen := by
  rw [Config.Params.maxLen, Config.Params.maxLen, Config.Params.minLen, Config.Params.minLen, h]

theorem local_winWr (k : Pos) (b : Byte) : (winWr k b).Local := by
  intro s c hP
  have hwr : (s.u.withLz c.u).winWr s.params k b = s.u.withLz (c.u.winWr c.params k b) := by
    unfold Units.winWr
    rw [maxLen_congr hP]
    rfl
  exact congrArg (fun u => EStateM.Result.ok () ({ s with u := u } : State)) hwr

/-! ## Remove (43_lzss_dictionary.md R291, R292) -/

theorem local_linkDown (par new : Link) (old : Pos) : (linkDown par new old).Local := by
  cases par with
  | none => exact (local_winRd _).bind fun c => .setUnits fun _ _ => rfl
  | some q =>
    exact .setUnits (g := fun u => if u.leftOfD q = some old then u.setLeftD q new else u.setRightD q new) fun u v =>
      (apply_ite u.withLz (v.leftOfD q = some old) (v.setLeftD q new) (v.setRightD q new)).symm

theorem local_linkNode (par new : Link) (old : Pos) : (linkNode par new old).Local :=
  (local_linkDown par new old).bind fun _ => by
    cases new with
    | none => exact .pure _
    | some n => exact .setUnits fun _ _ => rfl

theorem local_rightmost (fuel : Nat) (x : Pos) : (rightmost fuel x).Local := by
  induction fuel generalizing x with
  | zero => exact .stuck _
  | succ fuel ih =>
    refine .withUnits (fun _ _ => rfl) fun u => ?_
    cases u.rightOfD x with
    | none => exact .pure _
    | some y => exact ih y

theorem local_liftPredecessor (l x : Pos) : (liftPredecessor l x).Local :=
  .withUnits (fun _ _ => rfl) fun _ => .ite (.pure _) ((local_linkNode _ _ _).bind fun _ => .setUnits fun _ _ => rfl)

theorem local_unlinkMember (p : Pos) : (unlinkMember p).Local := by
  refine .withUnits (fun _ _ => rfl) fun u => ?_
  cases u.leftOfD p with
  | none => exact local_linkNode _ _ _
  | some l =>
    cases u.rightOfD p with
    | none => exact local_linkNode _ _ _
    | some r =>
      exact (local_rightmost _ _).bind fun x => (local_liftPredecessor l x).bind fun _ =>
        Op.Local.bind (.setUnits fun _ _ => rfl) fun _ => local_linkNode _ _ _

theorem local_removeNode (p : Pos) : (removeNode p).Local :=
  .withUnits (fun _ _ => rfl) fun _ => .ite ((local_unlinkMember p).bind fun _ => .setUnits fun _ _ => rfl) (.pure _)

/-! ## MatchAdd (43_lzss_dictionary.md R300, R301, R302) -/

theorem local_commonFrom (p q : Pos) (more k : Nat) : (commonFrom p q more k).Local := by
  induction more generalizing k with
  | zero => exact .pure _
  | succ more ih => exact (local_winRd _).bind fun a => (local_winRd _).bind fun b => .ite (ih _) (.pure _)

theorem Units.adopt_withLz (child : Link) (p : Pos) (u v : Units) :
    (u.withLz v).adopt child p = u.withLz (v.adopt child p) := by
  cases child <;> rfl

theorem local_replaceNode (q p : Pos) : (replaceNode q p).Local :=
  Op.Local.bind (.setUnits fun _ _ => rfl) fun _ => .withUnits (fun _ _ => rfl) fun _ =>
    (local_linkNode _ _ _).bind fun _ =>
    Op.Local.bind (.setUnits fun u v => Units.adopt_withLz (v.leftOfD q) p u v) fun _ =>
    Op.Local.bind (.setUnits fun u v => Units.adopt_withLz (v.rightOfD q) p u v) fun _ => .setUnits fun _ _ => rfl

theorem local_matchWalk (p : Pos) (len fuel : Nat) (q : Pos) (best : Link × Nat) : (matchWalk p len fuel q best).Local := by
  induction fuel generalizing q best with
  | zero => exact .stuck _
  | succ fuel ih =>
    refine (local_commonFrom p q len 0).bind fun k => .ite ((local_replaceNode q p).bind fun _ => .pure _) ?_
    refine (local_winRd _).bind fun a => (local_winRd _).bind fun b => .withUnits (fun _ _ => rfl) fun u => .ite ?_ ?_
    · cases u.leftOfD q with
      | none => exact Op.Local.bind (.setUnits fun _ _ => rfl) fun _ => .pure _
      | some l => exact ih _ _
    · cases u.rightOfD q with
      | none => exact Op.Local.bind (.setUnits fun _ _ => rfl) fun _ => .pure _
      | some r => exact ih _ _

theorem local_matchAdd (p : Pos) (len : Nat) : (matchAdd p len).Local := by
  refine (local_winRd _).bind fun c => .withUnits (fun _ _ => rfl) fun u => ?_
  cases u.rootOf c with
  | none => exact Op.Local.bind (.setUnits fun _ _ => rfl) fun _ => .pure _
  | some q => exact local_matchWalk p len _ q _

end Sys2Proof.Machine
end

section
/-! SUPPORT. Runs of the encoder's pieces that are the same in every state with the same dictionary part and the same
unread source bytes: what they answer, leave and send (44_lzss_coder.md R340). -/

namespace Sys2Proof.Machine

/-! ## Lengths and tokens depend on the length-field width alone (00_scope.md R11) -/

theorem minLen_congr {P Q : Config.Params} (h : P.lzN = Q.lzN) : P.minLen = Q.minLen := by
  rw [Config.Params.minLen, Config.Params.minLen, h]

theorem tokenBits_congr {P Q : Config.Params} (h : P.lzN = Q.lzN) (k : LzToken) :
    tokenBits P k.instr = tokenBits Q k.instr := by
  cases k with
  | literal b => rfl
  | reference p e => exact congrArg (fun n => false :: (wordBits Config.M p.toNat ++ wordBits n e)) h
  | endToken p => rfl

theorem tokensBits_congr {P Q : Config.Params} (h : P.lzN = Q.lzN) (ts : List LzToken) :
    tokensBits P ts = tokensBits Q ts := List.flatMap_congr fun k _ => tokenBits_congr h k

theorem lzExpand_congr {P Q : Config.Params} (h : P.lzN = Q.lzN) (ts : List LzToken) (out : List Byte) :
    lzExpand P ts out = lzExpand Q ts out := by
  induction ts generalizing out with
  | nil => rfl
  | cons k ts ih =>
    cases k with
    | literal b => exact ih _
    | reference p e =>
      rw [lzExpand, lzExpand, h, minLen_congr h]
      simp only [ih]
    | endToken p => rfl

/-! ## Runs -/

section
variable {α β : Type} {P : Config.Params}

/-- With the dictionary part of u and the unread bytes bs the piece answers a, leaves the dictionary part of v and the
unread bytes bs', and sends these bits, whatever else the state holds; if it faults, L bits do not fit the sink, where L
bounds the length of the output with them. -/
def Op.Scans (P : Config.Params) (u : Units) (bs : List Byte) (x : Op α) (a : α) (v : Units) (bs' : List Byte)
    (bits : List Bool) : Prop :=
  ∀ (f : State) (L : Nat) (B : List Bool), f.params.lzN = P.lzN → f.unread = bs → f.ipos.toNat ≤ f.slen.toNat →
    (B ++ bits).length ≤ L →
    Op.Holds ((f.withLz u).Sent 1 B) x (fun a' t => a' = a ∧ ∃ p : Word, p.toNat ≤ f.slen.toNat ∧
      ({ f with ipos := p } : State).unread = bs' ∧ (({ f with ipos := p } : State).withLz v).Sent 1 (B ++ bits) t)
      fun _ => 8 * f.params.outSize < L

variable {u v w : Units} {bs bs' bs'' : List Byte} {bits bits' : List Bool} {a : α} {b : β} {x : Op α}

theorem Op.Scans.pure (a : α) : Op.Scans P u bs (Pure.pure a) a u bs [] := by
  intro f L B _ hbs hle _
  refine .pure fun s hs => ⟨rfl, f.ipos, hle, hbs, ?_⟩
  rwa [List.append_nil]

theorem Op.Scans.bind {g : α → Op β} (hx : Op.Scans P u bs x a v bs' bits) (hg : Op.Scans P v bs' (g a) b w bs'' bits') :
    Op.Scans P u bs (x >>= g) b w bs'' (bits ++ bits') := by
  intro f L B hP hbs hle hL
  rw [← List.append_assoc] at hL ⊢
  refine (hx f L B hP hbs hle (by rw [List.length_append] at hL; omega)).bind fun a' => ?_
  rintro s ⟨rfl, p, hp, hbs', hs⟩
  exact hg { f with ipos := p } L _ hP hbs' hp hL s hs

/-- A piece behind one that sends nothing. -/
theorem Op.Scans.after {g : α → Op β} (hx : Op.Scans P u bs x a v bs' []) (hg : Op.Scans P v bs' (g a) b w bs'' bits) :
    Op.Scans P u bs (x >>= g) b w bs'' bits := hx.bind hg

/-- A piece before one that sends nothing. -/
theorem Op.Scans.before {g : α → Op β} (hx : Op.Scans P u bs x a v bs' bits) (hg : Op.Scans P v bs' (g a) b w bs'' []) :
    Op.Scans P u bs (x >>= g) b w bs'' bits := by
  have h := hx.bind hg
  rwa [List.append_nil] at h

theorem Op.Scans.withUnits {g : Units → Op α} (h : ∀ u v, g (Units.withLz u v) = g v)
    (hg : Op.Scans P u bs (g u) a v bs' bits) : Op.Scans P u bs (units >>= g) a v bs' bits := by
  intro f L B hP hbs hle hL s hs
  have hu : g s.u = g u := by
    have hlz : s.u = s.u.withLz u := by
      rw [hs.frame]
      rfl
    rw [hlz, h]
  rw [Op.units_bind, hu]
  exact hg f L B hP hbs hle hL s hs

theorem Op.Scans.withParams {g : Config.Params → Op α}
    (hg : ∀ Q : Config.Params, Q.lzN = P.lzN → Op.Scans P u bs (g Q) a v bs' bits) :
    Op.Scans P u bs (params >>= g) a v bs' bits := by
  intro f L B hP hbs hle hL s hs
  have hparams : s.params = f.params := by
    rw [hs.frame]
    rfl
  rw [Op.params_bind, hparams]
  exact hg f.params hP f L B hP hbs hle hL s hs

/-- A state with nothing in it but the parameters and the units. -/
def State.bare (P : Config.Params) (u : Units) : State := { State.reset with params := P, u := u }

/-- A piece that sees the dictionary part alone does what it does in a bare state. -/
theorem Op.Local.scans (hx : x.Local) (hrun : x (State.bare P u) = .ok a (State.bare P v)) :
    Op.Scans P u bs x a v bs [] := by
  intro f L B hP hbs hle _ s hs
  have hparams : s.params = f.params := by
    rw [hs.frame]
    rfl
  have hlz : s.withLz u = s := by
    rw [hs.frame]
    rfl
  have hs' : x s = .ok a (s.withLz v) := by
    have h := hx s (State.bare P u) (by rw [hparams]; exact hP)
    rw [hrun] at h
    exact (congrArg x hlz).symm.trans h
  rw [hs', List.append_nil]
  obtain ⟨hsize, hwriter, hbits⟩ := hs.written
  exact ⟨rfl, f.ipos, hle, hbs, ⟨hsize, hwriter, hbits⟩, hs.fine, hs.atEnd,
    congrArg (fun t => State.withLz t v) hs.frame⟩

theorem Op.Scans.setUnits {g : Units → Units} (h : ∀ u v, g (Units.withLz u v) = Units.withLz u (g v)) :
    Op.Scans P u bs (setUnits g) () (g u) bs [] := (Op.Local.setUnits h).scans rfl

/-- A piece that sends bits and does nothing else. -/
theorem Op.Scans.of_sends {x : Op Unit} (h : ∀ (q : State) (L : Nat), q.params.lzN = P.lzN → Op.Sends q L x bits) :
    Op.Scans P u bs x () u bs bits := by
  intro f L B hP hbs hle hL
  refine (h (f.withLz u) L hP B hL).imp (fun _ hs => hs) (fun _ t ht => ⟨rfl, f.ipos, hle, hbs, ht⟩) fun _ ht => ht

/-- A read of the next source byte. -/
theorem scans_srcRead_cons (c : Byte) : Op.Scans P u (c :: bs) srcRead (some c) u bs [] := by
  intro f L B hP hbs hle _ s hs
  have hlen := f.length_unread
  rw [hbs, List.length_cons] at hlen
  have hi : f.ipos.toNat < f.slen.toNat := by omega
  have hcons := State.unread_cons hi
  rw [hbs] at hcons
  obtain ⟨rfl, rfl⟩ := List.cons.inj hcons
  obtain ⟨hipos, hslen, hsrc⟩ : s.ipos = f.ipos ∧ s.slen = f.slen ∧ s.src = f.src := by
    rw [hs.frame]
    exact ⟨rfl, rfl, rfl⟩
  have hread := srcRead_some hs.fine (by rw [hipos, hslen]; exact hi)
  have hbyte : s.srcByte f.ipos.toNat = f.srcByte f.ipos.toNat := by rw [State.srcByte, State.srcByte, hsrc]
  have hmoved := hs.moved (f.ipos + 1) 1
  rw [hipos, hbyte] at hread
  rw [hread, List.append_nil]
  exact ⟨rfl, f.ipos + 1, by rw [word_succ_toNat hi f.slen.isLt]; exact hi, rfl, hmoved⟩

/-- A read at the end of the source. -/
theorem scans_srcRead_nil : Op.Scans P u [] srcRead none u [] [] := by
  intro f L B hP hbs hle _ s hs
  have hlen := f.length_unread
  rw [hbs, List.length_nil] at hlen
  obtain ⟨hipos, hslen⟩ : s.ipos = f.ipos ∧ s.slen = f.slen := by
    rw [hs.frame]
    exact ⟨rfl, rfl⟩
  have hread := srcRead_none hs.fine (by rw [hipos, hslen]; omega)
  rw [hread, List.append_nil]
  exact ⟨rfl, f.ipos, hle, hbs, hipos ▸ hs.moved s.ipos 1⟩

end

/-! ## Tokens sent (44_lzss_coder.md R330 to R332) -/

section
variable {P : Config.Params} {u : Units} {bs : List Byte}

theorem scans_emitLiteral (b : Byte) : Op.Scans P u bs (emitLiteral b) () u bs (tokenBits P (.lzLiteral b)) :=
  .of_sends fun _ _ _ => (sends_writeBits 1 1).bind (sends_writeBits b.toNat 8)

theorem scans_emitReference (p : Pos) (e : Nat) :
    Op.Scans P u bs (emitReference p.toNat (e + P.minLen)) () u bs (tokenBits P (.lzReference p e)) := by
  refine .withParams fun Q hQ => .of_sends fun q L _ => ?_
  rw [minLen_congr hQ, Nat.add_sub_cancel, hQ]
  exact (sends_writeBits 0 1).bind ((sends_writeBits p.toNat Config.M).bind (sends_writeBits e P.lzN))

theorem sends_emitSentinel {q : State} {L : Nat} (p : Pos) :
    Op.Sends q L (emitSentinel p.toNat) (tokenBits P (.lzEnd p)) :=
  (sends_writeBits 0 1).bind (sends_writeBits p.toNat Config.M)

end

end Sys2Proof.Machine
end

section
/-! SUPPORT. LENC.ENCODE in the middle of its source: the window recalls the bytes read, the members are positions before
the cursor, so what a match says is so in the text (44_lzss_coder.md R340). -/

namespace Sys2Proof.Machine

/-! ## The bytes read, in the window -/

/-- The window and its mirror hold the last bytes of a text, and each member is the position of an index before m whose
byte is still there. -/
structure Units.TextIn (u : Units) (P : Config.Params) (text : List Byte) (m : Nat) : Prop where
  dictOk : u.dictOk
  recalls : u.Recalls (BitVec.ofNat 12 text.length) text
  mirror : ∀ k < P.maxLen, Memory.get u.window (Config.W + k) = Memory.get u.window k
  members : ∀ q, u.isMember q = true → ∃ j < m, text.length ≤ j + Config.W ∧ q = BitVec.ofNat 12 j

theorem ofNat_pos_ne {i j : Nat} (hlt : j < i) (hW : i < j + Config.W) : BitVec.ofNat 12 i ≠ BitVec.ofNat 12 j := by
  intro h
  have h' := congrArg BitVec.toNat h
  simp only [BitVec.toNat_ofNat, Config.W] at h' hW
  omega

section
variable {P : Config.Params} {u v : Units} {text : List Byte} {m : Nat}

/-- The same window with other members. -/
theorem Units.TextIn.of_window (h : u.TextIn P text m) {m' : Nat} (hwindow : v.window = u.window) (hd : v.dictOk)
    (hmem : ∀ q, v.isMember q = true → ∃ j < m', text.length ≤ j + Config.W ∧ q = BitVec.ofNat 12 j) :
    v.TextIn P text m' := by
  refine ⟨hd, ?_, ?_, hmem⟩
  · unfold Units.Recalls
    rw [hwindow]
    exact h.recalls
  · rw [hwindow]
    exact h.mirror

theorem Units.TextIn.congr (h : u.TextIn P text m) (hv : u.SameDictionary v) : v.TextIn P text m := by
  obtain ⟨hwindow, hmember⟩ : v.window = u.window ∧ v.member = u.member := ⟨hv.1, hv.2.2.2.2.2⟩
  refine h.of_window hwindow (h.dictOk.congr hv) fun q hq => h.members q ?_
  rwa [Units.isMember, hmember] at hq

/-- The slots from a position on hold the text from its index on, over the mirror too (20_memory.md R82). -/
theorem Units.TextIn.get_window (h : u.TextIn P text m) (hP : P.wf) {a j : Nat} (ha : text.length ≤ a + Config.W)
    (hj : a + j < text.length) (hmax : j < P.maxLen) :
    Memory.get u.window ((BitVec.ofNat 12 a).toNat + j) = text[a + j]? := by
  have hW := maxLen_lt hP
  have hrecall := h.recalls (text.length - (a + j)) (by omega) (by omega) (by omega)
  have hpos : BitVec.ofNat 12 text.length - BitVec.ofNat 12 (text.length - (a + j)) = BitVec.ofNat 12 (a + j) := by
    rw [BitVec.sub_eq_iff_eq_add, ← BitVec.ofNat_add, Nat.add_sub_cancel' (Nat.le_of_lt hj)]
  rw [hpos, Nat.sub_sub_self (Nat.le_of_lt hj)] at hrecall
  rw [← hrecall, BitVec.toNat_ofNat, BitVec.toNat_ofNat]
  simp only [Config.W] at hW
  by_cases hwrap : a % 2 ^ 12 + j < 2 ^ 12
  · rw [Nat.add_mod, Nat.mod_eq_of_lt (show j < 2 ^ 12 by omega), Nat.mod_eq_of_lt hwrap]
  · have hmod : (a + j) % 2 ^ 12 = a % 2 ^ 12 + j - 2 ^ 12 := by omega
    rw [hmod, ← h.mirror (a % 2 ^ 12 + j - 2 ^ 12) (by omega)]
    exact congrArg _ (by simp only [Config.W]; omega)

theorem Units.TextIn.written (h : u.TextIn P text m) (hP : P.wf) {a j : Nat} (ha : text.length ≤ a + Config.W)
    (hj : a + j < text.length) (hmax : j < P.maxLen) : u.written ((BitVec.ofNat 12 a).toNat + j) = true := by
  rw [Units.written, h.get_window hP ha hj hmax, List.getElem?_eq_getElem hj]
  rfl

/-- A removal takes a member away. -/
theorem Units.TextIn.without (h : u.TextIn P text m) {p : Pos} (hv : u.Without v p) : v.TextIn P text m := by
  refine h.of_window hv.window hv.dictOk fun q hq => h.members q ?_
  rw [hv.member] at hq
  split at hq
  · cases hq
  · exact hq

/-- The next byte of the text goes to a slot that is no member. -/
theorem Units.TextIn.winWr (h : u.TextIn P text m) (hP : P.wf) (hfree : u.isMember (BitVec.ofNat 12 text.length) = false)
    (b : Byte) : (u.winWr P (BitVec.ofNat 12 text.length) b).TextIn P (text ++ [b]) m := by
  have hlen : (text ++ [b]).length = text.length + 1 := by rw [List.length_append, List.length_singleton]
  refine ⟨h.dictOk.winWr P b hfree, ?_, Units.winWr_mirror hP _ b h.mirror, fun q hq => ?_⟩
  · rw [hlen, BitVec.ofNat_add]
    exact h.recalls.winWr P b
  · obtain ⟨j, hj, hW, rfl⟩ := h.members q hq
    refine ⟨j, hj, ?_, rfl⟩
    rw [hlen]
    refine Nat.lt_of_le_of_ne hW fun hfull => ?_
    have hq' : u.isMember (BitVec.ofNat 12 j) = true := hq
    rw [hfull, BitVec.ofNat_add, show BitVec.ofNat 12 Config.W = 0#12 from rfl, BitVec.add_zero, hq'] at hfree
    cases hfree

end

/-! ## The encoder at an index of its text -/

/-- LENC.ENCODE with its cursor at index i of the bytes read; the lookahead is the rest of them. -/
structure Units.Scanning (u : Units) (P : Config.Params) (text : List Byte) (i m : Nat) : Prop where
  textIn : u.TextIn P text m
  cursor : u.lcur = BitVec.ofNat 12 i
  look : i + u.llook = text.length
  look_le : u.llook ≤ P.maxLen
  skip_le : u.lskip ≤ u.llook

/-- A match of the suffix at index i: nothing, or an earlier index within reach from which the text repeats. -/
def MatchIn (text : List Byte) (i look : Nat) (m : Link × Nat) : Prop :=
  m.2 = 0 ∨ ∃ j, j < i ∧ i < j + Config.W ∧ m.1 = some (BitVec.ofNat 12 j) ∧ m.2 ≤ look ∧
    ∀ k < m.2, text[i + k]? = text[j + k]?

section
variable {P : Config.Params} {u v : Units} {text : List Byte} {i m : Nat}

theorem Units.Scanning.in_reach (h : u.Scanning P text i m) (hP : P.wf) : text.length < i + Config.W := by
  have hW := maxLen_lt hP
  have hlook := h.look
  have hle := h.look_le
  omega

/-- The cursor is no member while the members lie before it. -/
theorem Units.Scanning.cursor_free (h : u.Scanning P text i i) (hl : 0 < u.llook) :
    u.isMember (BitVec.ofNat 12 i) = false := by
  refine Bool.eq_false_iff.mpr fun hm => ?_
  obtain ⟨j, hj, hW, heq⟩ := h.textIn.members _ hm
  have hlook := h.look
  exact ofNat_pos_ne hj (by omega) heq

/-- Every slot a compare at the cursor reads is written. -/
theorem Units.Scanning.comparable (h : u.Scanning P text i i) (hP : P.wf) :
    u.comparable u.llook (BitVec.ofNat 12 i) := by
  have hreach := h.in_reach hP
  have hlook := h.look
  have hle := h.look_le
  refine ⟨fun k hk => h.textIn.written hP (by omega) (by omega) (by omega), fun q hq k hk => ?_⟩
  obtain ⟨j, hj, hW, rfl⟩ := h.textIn.members q hq
  exact h.textIn.written hP hW (by omega) (by omega)

/-- A member agrees with the cursor where the text repeats. -/
theorem Units.Scanning.matchIn_member (h : u.Scanning P text i i) (hP : P.wf) {q : Pos} (hq : u.isMember q = true) :
    MatchIn text i u.llook (some q, u.agreeing u.llook (BitVec.ofNat 12 i) q) := by
  have hreach := h.in_reach hP
  have hlook := h.look
  have hle := h.look_le
  obtain ⟨j, hj, hW, rfl⟩ := h.textIn.members q hq
  have hag := u.agreeing_le u.llook (BitVec.ofNat 12 i) (BitVec.ofNat 12 j)
  rcases Nat.eq_zero_or_pos (u.agreeing u.llook (BitVec.ofNat 12 i) (BitVec.ofNat 12 j)) with h0 | h0
  · exact .inl h0
  · refine .inr ⟨j, hj, by omega, rfl, hag, fun k (hk : k < u.agreeing _ _ _) => ?_⟩
    have hsame := Units.agreeing_same hk
    rwa [h.textIn.get_window hP (by omega) (by omega) (by omega),
      h.textIn.get_window hP hW (by omega) (by omega)] at hsame

theorem State.bare_units (P : Config.Params) (u : Units) : (State.bare P u).u = u := rfl

/-- MatchAdd at the cursor answers a match of the text and puts the cursor into the dictionary. -/
theorem Units.Scanning.matchAdd_answers (h : u.Scanning P text i i) (hP : P.wf) (hl : 0 < u.llook) :
    ∃ m v, matchAdd u.lcur u.llook (State.bare P u) = .ok m (State.bare P v) ∧ MatchIn text i u.llook m ∧
      v.Scanning P text i (i + 1) ∧ v.llook = u.llook ∧ v.lskip = u.lskip ∧ v.leof = u.leof := by
  obtain ⟨tree, hd⟩ := Units.dictOk_iff.mp h.textIn.dictOk
  have hfree := h.cursor_free hl
  have hcomp := h.comparable hP
  have hlook := h.look
  rw [← h.cursor] at hfree hcomp
  obtain ⟨m, _, hrun, c, v, hc, hm, rfl, hv⟩ := matchAdd_ok (s := State.bare P u) hd hfree hl hcomp
  have hkept := writes_matchAdd u.lcur u.llook (State.bare P u) .encoder (by decide)
  rw [hrun] at hkept
  obtain ⟨hcur, hllook, hlskip, hleof⟩ : v.lcur = u.lcur ∧ v.llook = u.llook ∧ v.lskip = u.lskip ∧ v.leof = u.leof := hkept
  refine ⟨m, v, hrun, ?_,
    ⟨h.textIn.of_window hv.dict.window hv.dict.dictOk fun q hq => ?_, hcur.trans h.cursor, hllook ▸ hlook, hllook ▸ h.look_le, ?_⟩,
    hllook, hlskip, hleof⟩
  · rw [hm]
    rcases u.bestOf_cases u.llook u.lcur ((tree c).visited u u.llook u.lcur) (none, 0) with
      ⟨hnone, -⟩ | ⟨q, before, after, hvisited, hbest, -⟩
    · exact .inl (congrArg Prod.snd hnone)
    · have hq : u.isMember q = true :=
        (hd.members q).mpr ⟨c, DTree.mem_of_mem_visited (hvisited ▸ List.mem_append_right _ List.mem_cons_self)⟩
      rw [State.bare_units, hbest, h.cursor]
      exact h.matchIn_member hP hq
  · rcases hv.dict.member q hq with rfl | hq
    · exact ⟨i, Nat.lt_succ_self i, Nat.le_of_lt (h.in_reach hP), h.cursor⟩
    · obtain ⟨j, hj, hW, hpos⟩ := h.textIn.members q hq
      exact ⟨j, Nat.lt_succ_of_lt hj, hW, hpos⟩
  · rw [hllook, hlskip]
    exact h.skip_le

end

end Sys2Proof.Machine
end

section
/-! SUPPORT. LENC.ENCODE's loops: each step sends at most one token, and the tokens expand to the source
(44_lzss_coder.md R340). -/

namespace Sys2Proof.Machine

section
variable {P : Config.Params} {u : Units} {text rest : List Byte} {i : Nat}

theorem tokensBits_singleton (P : Config.Params) (k : LzToken) : tokensBits P [k] = tokenBits P k.instr := by
  rw [tokensBits_cons, tokensBits, List.flatMap_nil, List.append_nil]

/-! ## The use of a match -/

/-- Inside a match the loop sends nothing. -/
theorem scans_useMatch_skip (hskip : 0 < u.lskip) (m : Link × Nat) :
    Op.Scans P u rest (useMatch m) () { u with lskip := u.lskip - 1 } rest [] := by
  refine .withParams fun Q _ => .withUnits (fun _ _ => rfl) ?_
  rw [if_pos hskip]
  exact .setUnits fun _ _ => rfl

/-- A match below MIN sends the byte at the cursor. -/
theorem scans_useMatch_literal (hskip : u.lskip = 0) {m : Link × Nat} (hshort : m.2 < P.minLen) {b : Byte}
    (hb : Memory.get u.window u.lcur.toNat = some b) :
    Op.Scans P u rest (useMatch m) () u rest (tokensBits P [.literal b]) := by
  refine .withParams fun Q hQ => .withUnits (fun _ _ => rfl) ?_
  rw [hskip, if_neg (Nat.lt_irrefl 0), minLen_congr hQ, if_pos hshort, tokensBits_singleton]
  exact ((local_winRd _).scans (winRd_ok (s := State.bare P u) hb)).after (scans_emitLiteral b)

/-- A match of MIN or more bytes sends a reference to it. -/
theorem scans_useMatch_reference (hskip : u.lskip = 0) {p : Pos} {n : Nat} (hlong : P.minLen ≤ n) :
    Op.Scans P u rest (useMatch (some p, n)) () { u with lskip := n - 1 } rest
      (tokensBits P [.reference p (n - P.minLen)]) := by
  have hemit := scans_emitReference (P := P) (u := u) (bs := rest) p (n - P.minLen)
  rw [Nat.sub_add_cancel hlong] at hemit
  refine .withParams fun Q hQ => .withUnits (fun _ _ => rfl) ?_
  rw [hskip, if_neg (Nat.lt_irrefl 0), minLen_congr hQ, if_neg (Nat.not_lt.mpr hlong), tokensBits_singleton]
  exact hemit.before (.setUnits fun _ _ => rfl)

/-- These tokens take an expansion from the first a bytes of the text to its first b bytes. -/
def Advances (P : Config.Params) (text : List Byte) (a b : Nat) (tok : List LzToken) : Prop :=
  ∀ ts whole, lzExpand P ts (text.take b) = some whole → lzExpand P (tok ++ ts) (text.take a) = some whole

theorem advances_literal {b : Byte} (hb : text[i]? = some b) : Advances P text i (i + 1) [.literal b] := by
  intro ts whole hexp
  rw [List.take_add_one, hb] at hexp
  exact hexp

/-- A reference copies what the text repeats (44_lzss_coder.md R353). -/
theorem advances_reference {j n : Nat} (hj : j < i) (hW : i < j + Config.W) (hmin : P.minLen ≤ n) (hmax : n ≤ P.maxLen)
    (hn : i + n ≤ text.length) (hsame : ∀ k < n, text[i + k]? = text[j + k]?) :
    Advances P text i (i + n) [.reference (BitVec.ofNat 12 j) (n - P.minLen)] := by
  intro ts whole hexp
  have hlen : (text.take i).length = i := by rw [List.length_take]; omega
  have hdist : lzDistance i (BitVec.ofNat 12 j) = i - j := by
    rw [lzDistance]
    simp only [Config.W] at hW
    bv_omega
  have hbs : ((text.drop i).take n).length = n := by rw [List.length_take, List.length_drop]; omega
  have hsplit : text.take i ++ (text.drop i).take n = text.take (i + n) := (List.take_add ..).symm
  have hcopy := lzCopy_eq (d := i - j) (out := text.take i) (bs := (text.drop i).take n) (by omega) (by omega) fun k hk => by
    rw [hbs] at hk
    rw [hsplit, hlen, List.getElem?_take_of_lt hk, List.getElem?_drop, List.getElem?_take_of_lt (by omega), hsame k hk,
      show i + k - (i - j) = j + k by omega]
  rw [hbs, hsplit] at hcopy
  rw [List.singleton_append, lzExpand_reference, hlen, hdist, Nat.sub_add_cancel hmin]
  rw [Config.Params.maxLen] at hmax
  have hpow := Nat.one_le_two_pow (n := P.lzN)
  exact ⟨⟨by omega, by omega, by omega⟩, _, hcopy, hexp⟩

theorem minLen_pos (P : Config.Params) : 0 < P.minLen := by
  rw [Config.Params.minLen, Config.M]
  omega

/-- The loop skips a byte, sends a literal, or sends a reference. -/
theorem Units.Scanning.useMatch_advances {m : Link × Nat} (h : u.Scanning P text i (i + 1)) (hP : P.wf) (hl : 0 < u.llook)
    (hm : MatchIn text i u.llook m) :
    ∃ tok skip, skip < u.llook ∧ Advances P text (i + u.lskip) (i + 1 + skip) tok ∧
      Op.Scans P u rest (useMatch m) () { u with lskip := skip } rest (tokensBits P tok) := by
  have hlook := h.look
  have hskip := h.skip_le
  by_cases hpos : 0 < u.lskip
  · refine ⟨[], u.lskip - 1, by omega, fun ts whole hexp => ?_, scans_useMatch_skip hpos m⟩
    rwa [show i + 1 + (u.lskip - 1) = i + u.lskip by omega] at hexp
  have hzero : u.lskip = 0 := by omega
  rw [hzero, Nat.add_zero]
  by_cases hshort : m.2 < P.minLen
  · have hb : text[i]? = some text[i] := List.getElem?_eq_getElem (by omega)
    have hget := h.textIn.get_window hP (a := i) (j := 0) (Nat.le_of_lt (h.in_reach hP)) (by omega)
      (Nat.lt_of_lt_of_le hl h.look_le)
    rw [Nat.add_zero, Nat.add_zero, hb, ← h.cursor] at hget
    have hkeep : ({ u with lskip := 0 } : Units) = u := by rw [← hzero]
    exact ⟨[.literal text[i]], 0, hl, advances_literal hb, by
      rw [hkeep]
      exact scans_useMatch_literal hzero hshort hget⟩
  have hlong := Nat.not_lt.mp hshort
  have hmin := minLen_pos P
  have hmax := h.look_le
  obtain ⟨mp, n⟩ := m
  rcases hm with h0 | ⟨j, hj, hW, rfl, hn, hsame⟩
  · omega
  · refine ⟨[.reference (BitVec.ofNat 12 j) (n - P.minLen)], n - 1, by omega, ?_, scans_useMatch_reference hzero hlong⟩
    rw [Nat.add_assoc, show 1 + (n - 1) = n by omega]
    exact advances_reference hj hW hlong (by omega) (by omega) hsame

/-! ## The slide of the window -/

theorem scans_winWr (k : Pos) (b : Byte) : Op.Scans P u rest (winWr k b) () (u.winWr P k b) rest [] :=
  (local_winWr k b).scans rfl

/-- With no source byte left the lookahead gets shorter. -/
theorem Units.Scanning.slide_nil (h : u.Scanning P text i (i + 1)) (hskip : u.lskip < u.llook) :
    ∃ v, v.Scanning P text (i + 1) (i + 1) ∧ v.llook = u.llook - 1 ∧ v.lskip = u.lskip ∧
      ∀ n, Op.Scans P u [] (slideWindow n) n v [] [] := by
  have hlook := h.look
  have hle := h.look_le
  have hnext : Op.Scans P u [] nextInput none { u with leof := true } [] [] := by
    refine .withUnits (fun _ _ => rfl) ?_
    cases hleof : u.leof with
    | true =>
      have hkeep : ({ u with leof := true } : Units) = u := by rw [← hleof]
      rw [if_pos rfl, hkeep]
      exact .pure _
    | false =>
      rw [if_neg (by decide)]
      exact scans_srcRead_nil.after (Op.Scans.after (.setUnits fun _ _ => rfl) (.pure _))
  refine ⟨{ u with llook := u.llook - 1, lcur := u.lcur + 1, leof := true },
    ⟨h.textIn.congr ⟨rfl, rfl, rfl, rfl, rfl, rfl⟩, ?_, ?_, ?_, ?_⟩, rfl, rfl, fun n => .withUnits (fun _ _ => rfl) ?_⟩
  · rw [h.cursor, BitVec.ofNat_add]
    rfl
  · show i + 1 + (u.llook - 1) = text.length
    omega
  · exact (Nat.sub_le ..).trans hle
  · exact Nat.le_sub_one_of_lt hskip
  · exact hnext.after (Op.Scans.after (.setUnits fun _ _ => rfl) (.pure _))

/-- The next source byte takes the slot behind the lookahead. -/
theorem Units.Scanning.slide_cons (h : u.Scanning P text i (i + 1)) (hP : P.wf) (hleof : u.leof = false) (b : Byte) :
    ∃ v, v.Scanning P (text ++ [b]) (i + 1) (i + 1) ∧ v.llook = u.llook ∧ v.lskip = u.lskip ∧ v.leof = false ∧
      ∀ n, Op.Scans P u (b :: rest) (slideWindow n) (n + 1) v rest [] := by
  have hlook := h.look
  have hnext : Op.Scans P u (b :: rest) nextInput (some b) u rest [] := by
    refine .withUnits (fun _ _ => rfl) ?_
    rw [hleof, if_neg (by decide)]
    exact (scans_srcRead_cons b).after (.pure _)
  have hslot : u.lcur + BitVec.ofNat 12 u.llook = BitVec.ofNat 12 text.length := by
    rw [h.cursor, ← BitVec.ofNat_add, hlook]
  obtain ⟨v, hrun, hv⟩ := removeNode_ok (s := State.bare P u) (BitVec.ofNat 12 text.length) h.textIn.dictOk
  have hkept := writes_removeNode (BitVec.ofNat 12 text.length) (State.bare P u) .encoder (by decide)
  rw [hrun] at hkept
  obtain ⟨hcur, hllook, hlskip, hleof'⟩ : v.lcur = u.lcur ∧ v.llook = u.llook ∧ v.lskip = u.lskip ∧ v.leof = u.leof := hkept
  have htext := (h.textIn.without hv).winWr hP (by rw [hv.member, if_pos rfl]) b
  refine ⟨{ v.winWr P (BitVec.ofNat 12 text.length) b with lcur := v.lcur + 1 },
    ⟨htext.congr ⟨rfl, rfl, rfl, rfl, rfl, rfl⟩, ?_, ?_, ?_, ?_⟩, hllook, hlskip, hleof'.trans hleof,
    fun n => .withUnits (fun _ _ => rfl) ?_⟩
  · rw [hcur, h.cursor, BitVec.ofNat_add]
    rfl
  · show i + 1 + v.llook = _
    rw [hllook, List.length_append, List.length_singleton]
    omega
  · exact hllook ▸ h.look_le
  · show v.lskip ≤ v.llook
    rw [hllook, hlskip]
    exact h.skip_le
  · rw [hslot]
    exact hnext.after (((local_removeNode _).scans hrun).after ((scans_winWr _ b).after
      (Op.Scans.after (.setUnits fun _ _ => rfl) (.pure _))))

/-! ## The encode loop -/

/-- One turn of the loop, with the turns after it. -/
theorem scans_encodeLoop {u1 u2 u3 v : Units} {rest' : List Byte} {tok ts : List LzToken} {m : Link × Nat}
    {fuel n n' r : Nat} (hl : 0 < u.llook) (hmatch : matchAdd u.lcur u.llook (State.bare P u) = .ok m (State.bare P u1))
    (huse : Op.Scans P u1 rest (useMatch m) () u2 rest (tokensBits P tok))
    (hslide : Op.Scans P u2 rest (slideWindow n) n' u3 rest' [])
    (hloop : Op.Scans P u3 rest' (encodeLoop fuel n') r v [] (tokensBits P ts)) :
    Op.Scans P u rest (encodeLoop (fuel + 1) n) r v [] (tokensBits P (tok ++ ts)) := by
  refine .withUnits (fun _ _ => rfl) ?_
  rw [if_pos hl, tokensBits, List.flatMap_append]
  exact ((local_matchAdd _ _).scans hmatch).after (huse.bind (hslide.after hloop))

theorem Units.Scanning.withSkip (h : u.Scanning P text i m) {skip : Nat} (hskip : skip ≤ u.llook) :
    ({ u with lskip := skip } : Units).Scanning P text i m :=
  ⟨h.textIn.congr ⟨rfl, rfl, rfl, rfl, rfl, rfl⟩, h.cursor, h.look, h.look_le, hskip⟩

/-- The loop sends tokens that stand for the rest of the text and the unread bytes. -/
theorem Units.Scanning.encodeLoop_expands (fuel : Nat) (hP : P.wf) (h : u.Scanning P text i i)
    (hleof : u.leof = true → rest = []) (hpos : 0 < u.llook ∨ rest = []) (hf : u.llook + rest.length < fuel) :
    ∃ ts v, lzExpand P ts (text.take (i + u.lskip)) = some (text ++ rest) ∧
      v.lcur = BitVec.ofNat 12 (text ++ rest).length ∧
      ∀ n, Op.Scans P u rest (encodeLoop fuel n) (n + rest.length) v [] (tokensBits P ts) := by
  induction fuel generalizing u text rest i with
  | zero => omega
  | succ fuel ih =>
    have hlook := h.look
    by_cases hl : 0 < u.llook
    · obtain ⟨m, u1, hmatch, hm, h1, hllook, hlskip, hleof1⟩ := h.matchAdd_answers hP hl
      obtain ⟨tok, skip, hskip, hadv, huse⟩ := h1.useMatch_advances (rest := rest) hP (by omega) (by rwa [hllook])
      have h2 := h1.withSkip (Nat.le_of_lt hskip)
      rw [hlskip] at hadv
      cases rest with
      | nil =>
        obtain ⟨u3, h3, hllook3, hlskip3, hslide⟩ := h2.slide_nil hskip
        have hllook3' : u3.llook = u1.llook - 1 := hllook3
        obtain ⟨ts, v, hexp, hcur, hloop⟩ := ih h3 (fun _ => rfl) (.inr rfl) (by rw [List.length_nil] at hf ⊢; omega)
        rw [hlskip3] at hexp
        exact ⟨tok ++ ts, v, hadv _ _ hexp, hcur, fun n => scans_encodeLoop hl hmatch huse (hslide n) (hloop n)⟩
      | cons b rest =>
        have hmore : u.leof = false := Bool.eq_false_iff.mpr fun he => List.cons_ne_nil b rest (hleof he)
        obtain ⟨u3, h3, hllook3, hlskip3, hleof3, hslide⟩ := h2.slide_cons (rest := rest) hP (hleof1.trans hmore) b
        have hllook3' : u3.llook = u1.llook := hllook3
        obtain ⟨ts, v, hexp, hcur, hloop⟩ := ih (rest := rest) h3 (fun he => by rw [hleof3] at he; cases he) (.inl (by omega))
          (by rw [List.length_cons] at hf; omega)
        rw [hlskip3, List.take_append_of_le_length (show i + 1 + skip ≤ text.length by omega)] at hexp
        rw [List.append_assoc] at hexp hcur
        refine ⟨tok ++ ts, v, hadv _ _ hexp, hcur, fun n => ?_⟩
        rw [List.length_cons, Nat.add_comm rest.length 1, ← Nat.add_assoc]
        exact scans_encodeLoop hl hmatch huse (hslide n) (hloop (n + 1))
    · obtain rfl := hpos.resolve_left hl
      have hskip := h.skip_le
      refine ⟨[], u, ?_, ?_, fun n => .withUnits (fun _ _ => rfl) ?_⟩
      · rw [List.append_nil, List.take_of_length_le (by omega)]
        rfl
      · rw [List.append_nil, h.cursor]
        exact congrArg _ (by omega)
      · rw [if_neg hl]
        exact .pure _

/-! ## The fill -/

/-- The fill reads the first bytes of the source, or meets its end. -/
theorem Units.Scanning.fillLoop_reads (room : Nat) (hP : P.wf) (h : u.Scanning P text 0 0) (hroom : u.llook + room ≤ P.maxLen)
    (hleof : u.leof = false) (bs : List Byte) :
    ∃ v, v.Scanning P (text ++ bs.take room) 0 0 ∧ v.lskip = u.lskip ∧ (v.leof = true → bs.drop room = []) ∧
      ∀ n, Op.Scans P u bs (fillLoop room n) (n + (bs.take room).length) v (bs.drop room) [] := by
  induction room generalizing u text bs with
  | zero =>
    refine ⟨u, ?_, rfl, fun he => ?_, fun n => .pure n⟩
    · rw [List.take_zero, List.append_nil]
      exact h
    · rw [hleof] at he
      cases he
  | succ room ih =>
    have hlook := h.look
    cases bs with
    | nil =>
      refine ⟨{ u with leof := true }, ?_, rfl, fun _ => rfl, fun n =>
        scans_srcRead_nil.after (Op.Scans.after (.setUnits fun _ _ => rfl) (.pure n))⟩
      rw [List.take_nil, List.append_nil]
      exact ⟨h.textIn.congr ⟨rfl, rfl, rfl, rfl, rfl, rfl⟩, h.cursor, h.look, h.look_le, h.skip_le⟩
    | cons b bs =>
      have hfree : u.isMember (BitVec.ofNat 12 text.length) = false := Bool.eq_false_iff.mpr fun hm => by
        obtain ⟨j, hj, -⟩ := h.textIn.members _ hm
        exact absurd hj (Nat.not_lt_zero j)
      have hslot : u.llook = text.length := by omega
      have htext := h.textIn.winWr hP hfree b
      rw [← hslot] at htext
      have hnext : ({ u.winWr P (BitVec.ofNat 12 u.llook) b with llook := u.llook + 1 } : Units).Scanning P
          (text ++ [b]) 0 0 := by
        refine ⟨htext.congr ⟨rfl, rfl, rfl, rfl, rfl, rfl⟩, h.cursor, ?_, ?_, ?_⟩
        · show 0 + (u.llook + 1) = _
          rw [List.length_append, List.length_singleton]
          omega
        · show u.llook + 1 ≤ _
          omega
        · exact Nat.le_succ_of_le h.skip_le
      obtain ⟨v, hv, hskip, hend, hfill⟩ := ih hnext (by show u.llook + 1 + room ≤ _; omega) hleof bs
      rw [List.append_assoc] at hv
      refine ⟨v, hv, hskip, hend, fun n => (scans_srcRead_cons b).after (.withUnits (fun _ _ => rfl) ?_)⟩
      rw [List.take_succ_cons, List.length_cons,
        show n + ((bs.take room).length + 1) = n + 1 + (bs.take room).length by omega]
      exact (scans_winWr _ b).after (Op.Scans.after (.setUnits fun _ _ => rfl) (hfill (n + 1)))

end

end Sys2Proof.Machine
end

section
/-! SUPPORT. LENC.ENCODE: its output is tokens for the source and the end token, and LDEC.DECODE gives the source back
(44_lzss_coder.md R340 to R342, R355). -/

namespace Sys2Proof.Machine

/-! ## The loops over a whole source -/

/-- LENC.ENCODE's pseudocode between the fill and the end token. -/
def encodeAll (n0 : Nat) : Op Nat := do
  let bound ← (fun s => .ok (s.slen.toNat - s.ipos.toNat + s.u.llook + 1) s : Op Nat)
  encodeLoop bound n0

theorem lzssEncode_split (s : State) :
    lzssEncode s = ((fillLoop s.params.maxLen 0 >>= encodeAll) >>= sendSentinel) s.lencStart := by
  have hloop : lencLoop = fun n => encodeAll n >>= sendSentinel := funext fun n => (bind_assoc ..).symm
  rw [lzssEncode_eq, hloop, bind_assoc]

section
variable {P : Config.Params} {u v : Units} {bs : List Byte} {bits : List Bool}

/-- The bound of the encode loop counts the unread bytes and the lookahead. -/
theorem scans_encodeAll {n r : Nat} (h : Op.Scans P u bs (encodeLoop (bs.length + u.llook + 1) n) r v [] bits) :
    Op.Scans P u bs (encodeAll n) r v [] bits := by
  intro f L B hP hbs hle hL s hs
  have hbound : s.slen.toNat - s.ipos.toNat + s.u.llook = bs.length + u.llook := by
    rw [← hbs, f.length_unread, hs.frame]
    rfl
  have hrun := h f L B hP hbs hle hL s hs
  rwa [← hbound] at hrun

/-- At power-on the encoder is at the start of its source. -/
theorem scanning_powerOn (P : Config.Params) : Units.powerOn.Scanning P [] 0 0 := by
  refine ⟨⟨powerOn_ok.1, Units.recalls_nil _ _, fun _ _ => rfl, fun q hq => ?_⟩, rfl, rfl, Nat.zero_le _, Nat.le_refl _⟩
  have hfree : Units.powerOn.isMember q = false := Units.isMember_dictClear q Units.powerOn
  rw [hfree] at hq
  cases hq

/-- Every source has tokens that stand for it and that the loops send (44_lzss_coder.md R340, R341). -/
theorem exists_scans_source (hP : P.wf) (bs : List Byte) : ∃ ts v, lzExpand P ts [] = some bs ∧
    v.lcur = BitVec.ofNat 12 bs.length ∧
    Op.Scans P Units.powerOn bs (fillLoop P.maxLen 0 >>= encodeAll) bs.length v [] (tokensBits P ts) := by
  obtain ⟨u, hu, hskip, hleof, hfill⟩ := (scanning_powerOn P).fillLoop_reads P.maxLen hP (Nat.zero_add _).le rfl bs
  rw [List.nil_append] at hu
  have hsplit := List.take_append_drop P.maxLen bs
  have hlook := hu.look
  have hpos : 0 < u.llook ∨ bs.drop P.maxLen = [] := by
    have hmin := minLen_pos P
    have hmax : P.minLen ≤ P.maxLen := by rw [Config.Params.maxLen]; exact Nat.le_add_right _ _
    rw [List.length_take] at hlook
    rw [List.drop_eq_nil_iff]
    omega
  obtain ⟨ts, v, hexp, hcur, hloop⟩ :=
    hu.encodeLoop_expands (rest := bs.drop P.maxLen) ((bs.drop P.maxLen).length + u.llook + 1) hP hleof hpos (by omega)
  have hskip0 : u.lskip = 0 := hskip
  rw [hskip0, Nat.add_zero, List.take_zero, hsplit] at hexp
  rw [hsplit] at hcur
  refine ⟨ts, v, hexp, hcur, (hfill 0).after (scans_encodeAll ?_)⟩
  have hlen := congrArg List.length hsplit
  rw [List.length_append] at hlen
  rw [Nat.zero_add, ← hlen]
  exact hloop _

end

/-! ## The end token -/

/-- The end token at the cursor and the padding (44_lzss_coder.md R341, R342). -/
theorem sendSentinel_holds {q : State} {p : Pos} {B : List Bool} {L : Nat} (hq : q.u.lcur = p) (P : Config.Params) (n : Nat)
    (hL : (B ++ tokenBits P (.lzEnd p)).length ≤ L) :
    Op.Holds (q.Sent 1 B) (sendSentinel n)
      (fun _ t => t.outBytes = packPadded (B ++ tokenBits P (.lzEnd p)) ∧
        t.res0 = BitVec.ofNat 64 n ∧ t.res1 = q.res1 ∧ t.ipos = q.ipos ∧ t.u.lcur = p)
      fun _ => 8 * q.params.outSize < L := by
  refine .withUnits fun u => ?_
  rintro s ⟨hs, rfl⟩
  have hcur : s.u.lcur = p := by
    rw [hs.frame]
    exact hq
  rw [hcur]
  refine ((sends_emitSentinel (P := P) p B hL).bind fun _ => (sends_flush hL).bind fun _ => ?_) s hs
  rintro t ⟨hout, hframe⟩
  obtain ⟨hres1, hipos, hlcur⟩ : t.res1 = q.res1 ∧ t.ipos = q.ipos ∧ t.u.lcur = q.u.lcur := by
    rw [hframe]
    exact ⟨rfl, rfl, rfl⟩
  exact ⟨hout, rfl, hres1, hipos, hlcur.trans hq⟩

/-! ## LENC.ENCODE -/

/-- The bits of LENC.ENCODE's output for these tokens and n source bytes (44_lzss_coder.md R341). -/
def lzssBits (P : Config.Params) (ts : List LzToken) (n : Nat) : List Bool :=
  tokensBits P (ts ++ [.endToken (BitVec.ofNat 12 n)])

theorem lzssBits_eq (P : Config.Params) (ts : List LzToken) (n : Nat) :
    lzssBits P ts n = tokensBits P ts ++ tokenBits P (.lzEnd (BitVec.ofNat 12 n)) := by
  rw [lzssBits, tokensBits, List.flatMap_append]
  exact congrArg _ (tokensBits_singleton P _)

/-- A completed LENC.ENCODE of s has written these bits. -/
structure State.LzssEncoded (s : State) (bits : List Bool) (t : State) : Prop where
  outBytes : t.outBytes = packPadded bits
  res0 : t.res0 = s.slen
  res1 : t.res1 = s.res1
  ipos : t.ipos = s.slen
  lcur : t.u.lcur = BitVec.ofNat 12 s.srcBytes.length

/-- LENC.ENCODE's pseudocode either writes the tokens, or the sink does not hold them. -/
theorem lzssEncode_outcome {P : Config.Params} (hP : P.wf) (bs : List Byte) :
    ∃ ts, lzExpand P ts [] = some bs ∧ ∀ s : State, s.ioFine → s.params.outSize < 2 ^ 64 → s.params.lzN = P.lzN →
      s.srcBytes = bs →
      (∃ t, lzssEncode s = .ok () t ∧ s.LzssEncoded (lzssBits s.params ts bs.length) t) ∨
      ∃ e t, lzssEncode s = .error e t ∧ 8 * s.params.outSize < (lzssBits s.params ts bs.length).length := by
  obtain ⟨ts, v, hexp, hcur, hscan⟩ := exists_scans_source hP bs
  refine ⟨ts, hexp, fun s hio hsize hn hsrc => ?_⟩
  have hunread : s.streamInit.unread = bs := hsrc
  have hsent : (s.streamInit.withLz Units.powerOn).Sent 1 [] s.lencStart :=
    State.sent_nil (q := s.lencStart) hio hsize rfl rfl rfl rfl
  have hbits : lzssBits s.params ts bs.length = [] ++ tokensBits P ts ++ tokenBits P (.lzEnd (BitVec.ofNat 12 bs.length)) := by
    rw [lzssBits_eq, tokensBits_congr hn, List.nil_append]
    rfl
  have hrun : Op.Holds (· = s.lencStart) ((fillLoop P.maxLen 0 >>= encodeAll) >>= sendSentinel)
      (fun _ => s.LzssEncoded (lzssBits s.params ts bs.length))
      fun _ => 8 * s.params.outSize < (lzssBits s.params ts bs.length).length := by
    refine Op.Holds.bind (Op.Holds.imp (hscan s.streamInit _ [] hn hunread (Nat.zero_le _) ?_) (fun t ht => ht ▸ hsent)
      (fun _ _ h => h) fun _ h => h) fun n => ?_
    · rw [hbits, List.length_append (bs := tokenBits P _)]
      exact Nat.le_add_right _ _
    rintro t ⟨rfl, p, hp, hnone, ht⟩
    have hp' : p.toNat ≤ s.slen.toNat := hp
    have hleft : s.slen.toNat - p.toNat = 0 := by
      have hlen := ({ s.streamInit with ipos := p } : State).length_unread
      rw [hnone] at hlen
      exact hlen.symm
    obtain rfl : p = s.slen := BitVec.eq_of_toNat_eq (by omega)
    have hend := sendSentinel_holds (q := ({ s.streamInit with ipos := s.slen } : State).withLz v) hcur P bs.length
      (Nat.le_of_eq (congrArg List.length hbits.symm))
    refine hend.imp (fun _ h => h) (fun _ q hq => ?_) (fun _ h => h) t ht
    obtain ⟨hout, hres0, hres1, hipos, hlcur⟩ := hq
    refine ⟨by rw [hout, hbits], ?_, hres1, hipos, by rw [hlcur, hsrc]⟩
    rw [hres0, ← hsrc, s.length_srcBytes, BitVec.ofNat_toNat, BitVec.setWidth_eq]
  have hend := hrun s.lencStart rfl
  rw [lzssEncode_split, maxLen_congr hn]
  cases hr : ((fillLoop P.maxLen 0 >>= encodeAll) >>= sendSentinel) s.lencStart with
  | ok a t =>
    rw [hr] at hend
    exact .inl ⟨t, rfl, hend⟩
  | error e t =>
    rw [hr] at hend
    exact .inr ⟨e, t, rfl, hend⟩

theorem exec_lencEncode (s : State) : exec .lencEncode s = runCommand 0x90 none lzssEncode s := rfl

/-- Parameters with this length-field width. -/
def paramsOfWidth (n : Nat) : Config.Params := { lzN := n, srcSize := 1, outSize := 1 }

theorem paramsOfWidth_wf {n : Nat} (h : 1 ≤ n ∧ n ≤ 11) : (paramsOfWidth n).wf := 
  have hsize : 1 ≤ 1 ∧ 1 < 2 ^ 64 := by decide
  ⟨h, hsize, hsize⟩

/-- Settles O54: the tokens the encoder sends in a state with nothing but the source are those it sends in any. -/
theorem lzssEncodeWritesTokensForTheSource : Obligations.LzssEncodeWritesTokensForTheSource := by
  intro bs n
  by_cases hn : 1 ≤ n ∧ n ≤ 11
  · obtain ⟨ts, hexp, hencode⟩ := lzssEncode_outcome (paramsOfWidth_wf hn) bs
    refine ⟨ts, fun s hs hio hwf hwidth hsrc => ⟨?_, fun hfit => ?_⟩⟩
    · rw [lzExpand_congr (Q := paramsOfWidth n) hwidth]
      exact hexp
    rcases hencode (s.begin 0x90) hio hwf.2.2.2 hwidth hsrc with ⟨t, ht, hdone⟩ | ⟨-, -, -, hover⟩
    · have hstatus := (bodyOf_control_ok (i := .lencEncode) ht).2
      refine ⟨_, exec_completes .lencEncode hs rfl (by simp) rfl ht, ?_, hdone.outBytes, hdone.res0, hdone.res1,
        hdone.ipos, hsrc ▸ hdone.lcur⟩
      show t.status.fault = false
      rw [hstatus]
      exact hs
    · rw [length_packPadded] at hfit
      have hover' : 8 * s.params.outSize < (lzssBits s.params ts bs.length).length := hover
      rw [lzssBits] at hover'
      omega
  · exact ⟨[], fun s _ _ hwf hwidth _ => absurd (hwidth ▸ hwf.1) hn⟩

/-- Settles O56: a run that ended well has written tokens for the source, which LDEC.DECODE expands. -/
theorem lzssRoundTrip : Obligations.LzssRoundTrip := by
  intro s t r hs hio hwf hexec ht hr hior hwfr hwidth hsrc hfit
  have hlen := s.length_srcBytes
  obtain ⟨ts, hexp, hencode⟩ := lzssEncode_outcome hwf s.srcBytes
  have hout : t.outBytes = packPadded (lzssBits s.params ts s.srcBytes.length) := by
    rw [exec_lencEncode] at hexec
    rcases runCommand_cases hs hexec with ⟨e, -, rfl⟩ | ⟨-, ⟨q, hb, rfl⟩ | ⟨e, q, -, rfl⟩⟩
    · cases ht
    · rcases hencode (s.begin 0x90) hio hwf.2.2.2 rfl rfl with ⟨q', hq', hdone⟩ | ⟨e, q', hq', -⟩
      · obtain rfl : q' = q := by
          rw [hq'] at hb
          cases hb
          rfl
        exact hdone.outBytes
      · rw [hq'] at hb
        cases hb
    · rw [State.faultEntry_fault] at ht
      cases ht
  obtain ⟨pad, hpad⟩ := bytesBits_packPadded (lzssBits s.params ts s.srcBytes.length)
  rw [← hout, ← hsrc, lzssBits, ← tokensBits_congr hwidth] at hpad
  obtain ⟨q, hq, hfault, hbytes, hres0, -⟩ := lzssDecodeExpandsTheTokens r ts s.srcBytes pad hr hior hwfr
    ((lzExpand_congr hwidth ts []).trans hexp) hpad (by omega)
  exact ⟨q, hq, hfault, hbytes, BitVec.eq_of_toNat_eq (hres0.trans hlen)⟩

end Sys2Proof.Machine
end

section
/-! SUPPORT. The host's moves that store a value, and preconditions that fail. -/

namespace Sys2Proof.Machine

/-! ## The host's moves (60_exceptions.md R400) -/

theorem step_idle {s : State} (h : s.moves = []) : step s = .next s := by
  unfold step
  rw [h]

/-- A source length that SRC can hold is stored as it is (10_state.md R65). -/
theorem State.writeSlen_fits {v : Word} {s : State} (h : v.toNat ≤ s.params.srcSize) :
    s.writeSlen v = { s with slen := v } := by
  rw [State.writeSlen, Nat.min_eq_left h, BitVec.ofNat_toNat, BitVec.setWidth_eq]

/-- A greater one is stored as SRC_SIZE (10_state.md R65). -/
theorem State.writeSlen_above {v : Word} {s : State} (h : s.params.srcSize < v.toNat) :
    s.writeSlen v = { s with slen := BitVec.ofNat 64 s.params.srcSize } := by
  rw [State.writeSlen, Nat.min_eq_right h.le]

theorem step_writeSlen (s : State) (v : Word) (rest : List HostMove) :
    step { s with moves := .writeReg 7 v :: rest } = .next (({ s with moves := rest } : State).writeSlen v) := rfl

theorem step_writeSrc {s : State} {k : Nat} (hk : k < s.params.srcSize) (b : Byte) (rest : List HostMove) :
    step { s with moves := .writeSrc k b :: rest } =
      .next { s with moves := rest, src := Memory.write s.src k b } := if_pos hk

/-- SRC after one byte of it is written (20_memory.md R80). -/
theorem State.srcByte_write {s t : State} {k : Nat} {b : Byte} (h : t.src = Memory.write s.src k b) (a : Nat) :
    t.srcByte a = if a = k then b else s.srcByte a := by
  rw [State.srcByte, h, Memory.get_write]
  split <;> rfl

/-- Settles O7: each move is one update of the state, a source length by whether SRC can hold it. -/
theorem hostMovesStoreTheirValue : Obligations.HostMovesStoreTheirValue := by
  refine ⟨fun s => step_idle, fun s v rest => ⟨rfl, rfl, rfl, fun hfits => ?_, fun habove => ?_⟩, fun s k b rest hk =>
    ⟨Memory.write s.src k b, step_writeSrc hk b rest, fun t a ht => State.srcByte_write ht a⟩⟩
  · rw [step_writeSlen, State.writeSlen_fits (s := { s with moves := rest }) hfits]
  · rw [step_writeSlen, State.writeSlen_above (s := { s with moves := rest }) habove]

/-! ## Preconditions (60_exceptions.md R380, R381) -/

/-- Settles O14: with the operands in range the check before execution comes to the precondition; BLK.RESET, which has
no check, has none. -/
theorem failedPreconditionsFault : Obligations.FailedPreconditionsFault := by
  intro s i v hs hi hoperands hpre
  have hreset : i ≠ .blkReset := by
    rintro rfl
    cases hpre
  rw [exec_command hi hreset, checkOf_eq, hoperands, hpre, checkFault_state, runCommand_check hs]

end Sys2Proof.Machine
end

section
/-! SUPPORT. Accesses that move nothing: a piece of pseudocode whose first access has a false draw, or finds the sink full
(20_memory.md R81 to R86). -/

namespace Sys2Proof.Machine

/-! ## IO_ERROR with nothing moved -/

section
variable {α β : Type} {s : State}

/-- The piece ends with IO_ERROR and has changed the unit state and the draws only. -/
def Op.Denied (x : Op α) (s : State) : Prop := ∃ u io, x s = .error (.raised .ioError) { s with u := u, io := io }

theorem Op.Denied.bind {x : Op α} (h : x.Denied s) (f : α → Op β) : (x >>= f).Denied s := by
  obtain ⟨u, io, hx⟩ := h
  exact ⟨u, io, Op.bind_error hx⟩

/-- A first piece that changes no more than the unit state leaves the denied access to the rest. -/
theorem Op.Denied.of_ok {x : Op α} {f : α → Op β} {a : α} {u : Units} (hx : x s = .ok a { s with u := u })
    (h : (f a).Denied { s with u := u }) : (x >>= f).Denied s := by
  obtain ⟨u', io, hf⟩ := h
  exact ⟨u', io, (Op.bind_ok hx).trans hf⟩

theorem Op.Denied.withUnits {f : Units → Op β} (h : (f s.u).Denied s) : (units >>= f).Denied s := h

theorem Op.Denied.withParams {f : Config.Params → Op β} (h : (f s.params).Denied s) : (params >>= f).Denied s := h

theorem Op.Denied.setUnits {g : Units → Units} {f : Unit → Op β} (h : (f ()).Denied { s with u := g s.u }) :
    (Machine.setUnits g >>= f).Denied s := .of_ok (Op.setUnits_run g s) h

/-- A line that only reads the state, as the bounds of the loops do. -/
theorem Op.Denied.reading {g : State → α} {f : α → Op β} (h : (f (g s)).Denied s) :
    (((fun s => .ok (g s) s) : Op α) >>= f).Denied s := .of_ok (u := s.u) rfl h

theorem Op.Denied.ite_pos {p : Prop} [Decidable p] {x y : Op α} (hp : p) (h : x.Denied s) :
    (if p then x else y).Denied s := by rwa [if_pos hp]

end

/-! ## The accesses -/

theorem sinkWrite_denied_of_full {s : State} (hio : s.ioFine) (h : s.params.outSize ≤ s.opos.toNat) (b : Byte) :
    (sinkWrite b).Denied s := ⟨s.u, s.io.drop 1, sinkWrite_full hio h b⟩

section
variable {s : State} {rest : List Bool} (hio : s.io = false :: rest)
include hio

theorem ioCheck_denied : ioCheck.Denied s := ⟨s.u, rest, ioCheck_false hio⟩

theorem srcRead_denied : srcRead.Denied s := (ioCheck_denied hio).bind _

theorem sinkWrite_denied (b : Byte) : (sinkWrite b).Denied s := (ioCheck_denied hio).bind _

/-! ## Reading, with no bit parked (41_bit_stream.md R190) -/

theorem pullByte_denied (hr : s.u.rcnt = 0) : pullByte.Denied s :=
  .withUnits (.ite_pos (by rw [hr]; rfl) ((srcRead_denied hio).bind _))

theorem readLoop_denied (hr : s.u.rcnt = 0) {c fuel : Nat} (hf : 1 ≤ fuel) (hc : 1 ≤ c) (v : Nat) :
    (readLoop c fuel v 0).Denied s := by
  obtain ⟨n, rfl⟩ := Nat.exists_eq_add_of_le' hf
  exact .ite_pos hc ((pullByte_denied hio hr).bind _)

theorem readBits_denied (hr : s.u.rcnt = 0) {c : Nat} (hc : 1 ≤ c) (r : Bool) : (readBits c r).Denied s := by
  have hread : (readBits c false).Denied s := readLoop_denied hio hr hc hc 0
  cases r with
  | false => exact hread
  | true =>
    have hrefresh : refresh s = .ok () s := refresh_empty (by rw [hr]; rfl)
    rw [readBits_refresh]
    exact .of_ok (u := s.u) hrefresh hread

theorem need_denied (hr : s.u.rcnt = 0) {c : Nat} (hc : 1 ≤ c) : (need c).Denied s :=
  (readBits_denied hio hr hc false).bind _

/-! ## The stream parsers and decoders -/

theorem parseNodes_denied (hr : s.u.rcnt = 0) (n : Nat) : (parseNodes (n + 1)).Denied s := by
  have htoken : parseNodeToken.Denied s := (need_denied hio hr (Nat.le_refl 1)).bind _
  exact htoken.bind _

theorem parseTree_denied (hr : s.u.rcnt = 0) : parseTree.Denied s := by
  refine .setUnits (.reading (parseNodes_denied (rest := rest) ?_ ?_ _))
  · exact hio
  · exact hr

theorem parseGroups_denied (hr : s.u.rcnt = 0) (n : Nat) : (parseGroups (n + 1)).Denied s := by
  have htoken : parseCountToken.Denied s := (need_denied hio hr (by decide)).bind _
  exact htoken.bind _

theorem parseCount_denied (hr : s.u.rcnt = 0) : parseCount.Denied s := by
  refine .setUnits (.reading ((parseGroups_denied (rest := rest) ?_ ?_ _).bind _))
  · exact hio
  · exact hr

theorem decodeLzToken_denied (hr : s.u.rcnt = 0) : decodeLzToken.Denied s := by
  have hfetch : fetchToken.Denied s := (need_denied hio hr (Nat.le_refl 1)).bind _
  exact hfetch.bind _

theorem decodeTokens_denied (hr : s.u.rcnt = 0) (fuel n : Nat) : (decodeTokens (fuel + 1) n).Denied s :=
  (decodeLzToken_denied hio hr).bind _

theorem countLoop_denied (fuel n : Nat) : (countLoop (fuel + 1) n).Denied s := (srcRead_denied hio).bind _

theorem fillLoop_denied {room : Nat} (h : 1 ≤ room) (n : Nat) : (fillLoop room n).Denied s := by
  obtain ⟨k, rfl⟩ := Nat.exists_eq_add_of_le' h
  exact (srcRead_denied hio).bind _

end

/-! ## The writer, while its bytes are denied (41_bit_stream.md R180) -/

/-- Bits that fill the partial byte need an access to the sink in the first round. -/
theorem writeLoop_denied {s : State} {fuel v c : Nat} (hw : s.u.writerOk) (hf : 1 ≤ fuel) (hc : s.u.wfree.toNat ≤ c)
    (hsink : ∀ u b, (sinkWrite b).Denied { s with u := u }) : (writeLoop fuel v c).Denied s := by
  obtain ⟨n, rfl⟩ := Nat.exists_eq_add_of_le' hf
  have hfull : (s.u.bufferBits v s.u.wfree.toNat).wfree = 0 := by simp [Units.bufferBits]
  have hemit : emitFullByte.Denied { s with u := s.u.bufferBits v s.u.wfree.toNat } :=
    .withUnits (.ite_pos hfull ((hsink _ _).bind _))
  unfold writeLoop
  rw [if_neg (by have := hw.1; omega)]
  refine .withUnits (.setUnits ?_)
  rw [Nat.min_eq_right hc]
  exact hemit.bind _

/-- Bits that do not fill it are buffered without an access. -/
theorem writeLoop_buffers {s : State} {fuel : Nat} (v : Nat) {c : Nat} (hw : s.u.writerOk) (hf : c < fuel)
    (hc : c < s.u.wfree.toNat) :
    ∃ u, writeLoop fuel v c s = .ok () { s with u := u } ∧ u.wfree.toNat = s.u.wfree.toNat - c := by
  obtain ⟨n, rfl⟩ := Nat.exists_eq_add_of_le' (Nat.one_le_of_lt hf)
  by_cases h0 : c = 0
  · subst h0
    exact ⟨s.u, rfl, rfl⟩
  obtain ⟨h1, h8, hlt⟩ := hw
  obtain ⟨hfree, -⟩ := Units.bufferBits_writer v hc.le h8 hlt
  refine ⟨s.u.bufferBits v c, ?_, hfree⟩
  have hpartial : (s.u.bufferBits v c).wfree ≠ 0 := fun h => by
    rw [h] at hfree
    exact absurd hfree (by simp; omega)
  have hemit : emitFullByte { s with u := s.u.bufferBits v c } = .ok () { s with u := s.u.bufferBits v c } := by
    unfold emitFullByte
    rw [Op.units_bind, if_neg hpartial]
    rfl
  unfold writeLoop
  rw [if_neg h0, Op.units_bind, Nat.min_eq_left hc.le, Op.setUnits_bind, Op.bind_ok hemit, Nat.sub_self]
  obtain ⟨m, rfl⟩ := Nat.exists_eq_add_of_le' (show 1 ≤ n by omega)
  rfl

theorem flushPartial_denied {s : State} (h : s.u.wfree.toNat < 8) (hsink : ∀ b, (sinkWrite b).Denied s) :
    flushPartial.Denied s := .withUnits (.ite_pos h ((hsink _).bind _))

/-- WriteBits is denied at its first byte: one that the bits fill, or else the partial one that it flushes. -/
theorem writeBits_denied {s : State} (v : Nat) {c : Nat} (f : Bool) (hw : s.u.writerOk)
    (hsink : ∀ u b, (sinkWrite b).Denied { s with u := u })
    (h : 1 ≤ s.u.bytesFor c ∨ (f = true ∧ s.u.bytesFor c = 0 ∧ 1 ≤ 8 - s.u.wfree.toNat + c)) :
    (writeBits v c f).Denied s := by
  have h8 := hw.2.1
  rcases h with hbyte | ⟨rfl, hnone, hpartial⟩
  · rw [Units.bytesFor] at hbyte
    exact (writeLoop_denied hw (Nat.succ_pos c) (by omega) hsink).bind _
  · rw [Units.bytesFor] at hnone
    obtain ⟨u, hloop, hfree⟩ := writeLoop_buffers (v % 2 ^ c) hw (Nat.lt_succ_self c) (by omega)
    exact .of_ok hloop (flushPartial_denied (show u.wfree.toNat < 8 by omega) (hsink u))

/-! ## The sink filled to its end (41_bit_stream.md R181; 20_memory.md R84) -/

theorem State.putBytes_setU_agree (s : State) (u : Units) (bs : List Byte) :
    (s.putBytes bs).agree (({ s with u := u } : State).putBytes bs) .sink := by
  rw [State.putBytes_setU s u bs]
  exact ⟨rfl, rfl, rfl⟩

/-- Bytes put out behind emitted bits continue the packing of all the bits. -/
theorem State.putBytes_emit (s : State) (a b : List Bool) (n : Nat) :
    (s.putBytes (packBytes (s.u.bytesFor a.length + n) (s.u.pendingBits ++ (a ++ b)))).agree
      ((s.emit a).putBytes (packBytes n ((s.emit a).u.pendingBits ++ b))) .sink := by
  have hpending : (s.emit a).u.pendingBits = (s.u.pendingBits ++ a).drop (8 * ((s.u.pendingBits ++ a).length / 8)) :=
    Units.pendingBits_setPending (drop_eight_lt _) _
  have hn : s.u.bytesFor a.length = (s.u.pendingBits ++ a).length / 8 := by
    rw [Units.bytesFor, List.length_append, Units.length_pendingBits]
  have hle : 8 * ((s.u.pendingBits ++ a).length / 8) ≤ (s.u.pendingBits ++ a).length := Nat.mul_div_le _ _
  rw [hpending, hn, ← List.append_assoc, packBytes_add, packBytes_append _ _ _ hle, List.drop_append_of_le_length hle,
    State.putBytes_append]
  exact State.putBytes_setU_agree _ _ _

/-- Bits that the sink has no room for: the bytes that fit are stored. -/
theorem writeLoop_overflows {fuel v c : Nat} {s : State} (hf : c < fuel) (hio : s.ioFine) (hw : s.u.writerOk)
    (hsize : s.params.outSize < 2 ^ 64) (hpos : s.opos.toNat ≤ s.params.outSize)
    (hover : s.params.outSize < s.opos.toNat + s.u.bytesFor c) :
    ∃ q, writeLoop fuel v c s = .error (.raised .ioError) q ∧
      (s.putBytes (packBytes (s.params.outSize - s.opos.toNat) (s.u.pendingBits ++ wordBits c v))).agree q .sink := by
  induction fuel generalizing v c s with
  | zero => exact absurd hf (Nat.not_lt_zero c)
  | succ fuel ih =>
    have hwf := hw
    obtain ⟨h1, h8, -⟩ := hwf
    have hc : s.u.wfree.toNat ≤ c := by rw [Units.bytesFor] at hover; omega
    have hone : s.u.bytesFor s.u.wfree.toNat = 1 := by rw [Units.bytesFor]; omega
    by_cases hfull : s.params.outSize ≤ s.opos.toNat
    · obtain ⟨u, io, hdenied⟩ := writeLoop_denied (v := v) hw (Nat.succ_pos fuel) hc fun u b =>
        sinkWrite_denied_of_full (s := { s with u := u }) hio hfull b
      refine ⟨_, hdenied, ?_⟩
      rw [Nat.sub_eq_zero_of_le hfull]
      exact ⟨rfl, rfl, rfl⟩
    · have hlen : (wordBits s.u.wfree.toNat v).length = s.u.wfree.toNat := length_wordBits _ _
      have hroom : s.room (s.u.bytesFor (wordBits s.u.wfree.toNat v).length) := ⟨hsize, by rw [hlen, hone]; omega⟩
      have hopos := State.emit_opos hroom
      rw [hlen, hone] at hopos
      have hbytes := s.bytesFor_add (wordBits s.u.wfree.toNat v) (c - s.u.wfree.toNat)
      rw [hlen, hone, Nat.add_sub_cancel' hc] at hbytes
      have hsplit : wordBits c v = wordBits s.u.wfree.toNat v ++
          wordBits (c - s.u.wfree.toNat) (v >>> s.u.wfree.toNat) := by
        rw [Nat.shiftRight_eq_div_pow, ← wordBits_add, Nat.add_sub_cancel' hc]
      obtain ⟨q, hq, hsink⟩ := ih (v := v >>> s.u.wfree.toNat) (c := c - s.u.wfree.toNat)
        (s := s.emit (wordBits s.u.wfree.toNat v)) (by omega) (State.emit_ioFine hio _) (s.emit_writerOk _)
        (by rwa [State.emit_params]) (by rw [State.emit_params]; omega) (by rw [State.emit_params]; omega)
      refine ⟨q, ?_, State.agree_trans ?_ hsink⟩
      · unfold writeLoop
        rw [if_neg (by omega), Op.units_bind, Nat.min_eq_right hc, Op.setUnits_bind,
          Op.bind_ok (chunk_ok v hio hw (Nat.le_refl _) (by rwa [hlen] at hroom))]
        exact hq
      · rw [State.emit_params, hopos, hsplit,
          show s.params.outSize - s.opos.toNat = s.u.bytesFor (wordBits s.u.wfree.toNat v).length +
            (s.params.outSize - (s.opos.toNat + 1)) by rw [hlen, hone]; omega]
        exact s.putBytes_emit _ _ _

end Sys2Proof.Machine
end

section
/-! SUPPORT. Fault entry: what an instruction that faults has recorded and kept, and how one ends whose first access is
denied (60_exceptions.md R371, R372, R374, R382). -/

namespace Sys2Proof.Machine

/-! ## What fault entry records and keeps -/

/-- The end of pseudocode that raised a fault: STATUS names it with the opcode of CMD, and what the lines before it did
outside the units stays (60_exceptions.md R371, R382). -/
theorem State.faultEntry_records (c : FaultCode) (q : State) :
    (q.faultEntry .execution c).status = ⟨false, true, c.code, q.cmd.setWidth 8⟩ ∧
      (q.faultEntry .execution c).cmd = q.cmd ∧ q.agree (q.faultEntry .execution c) .host ∧
      q.agree (q.faultEntry .execution c) .outside ∧ q.agree (q.faultEntry .execution c) .sourcePos ∧
      q.agree (q.faultEntry .execution c) .sink := by
  obtain ⟨hsink, hsource, hhost, houtside⟩ := q.faultEntry_agree .execution c
  exact ⟨rfl, rfl, hhost, houtside, hsource, hsink⟩

/-- The state in which an instruction's pseudocode starts: a command has written CMD and cleared DONE, a token nothing
(40_block_control.md R160, log 12). -/
def State.started (s : State) (i : Instr) : State :=
  match commandWord s.params i with
  | some v => s.begin v
  | none => s

theorem State.started_command {s : State} {i : Instr} {v : Word} (h : commandWord s.params i = some v) :
    s.started i = s.begin v := by
  unfold State.started
  rw [h]

theorem State.started_token {s : State} {i : Instr} (h : commandWord s.params i = none) : s.started i = s := by
  unfold State.started
  rw [h]

theorem State.started_cmd (s : State) (i : Instr) : (s.started i).cmd = (commandWord s.params i).getD s.cmd := by
  cases h : commandWord s.params i with
  | some v => rw [State.started_command h]; rfl
  | none => rw [State.started_token h]; rfl

theorem State.started_agree (s : State) (i : Instr) {g : Group} (hg : g ≠ .control) : s.agree (s.started i) g := by
  cases h : commandWord s.params i with
  | some v =>
    rw [State.started_command h]
    cases g with
    | control => exact absurd rfl hg
    | _ => simp [State.agree]
  | none =>
    rw [State.started_token h]
    exact s.agree_refl g

/-- How an instruction of a block without a pending fault ends in one: a command's check faults, or the pseudocode
raises the fault. -/
theorem exec_fault_cases {s t : State} {i : Instr} (hs : s.healthy) (h : exec i s = .next t)
    (ht : t.status.fault = true) :
    (∃ v c, commandWord s.params i = some v ∧ t = s.checkFaulted v c) ∨
    ∃ c q, bodyOf i (s.started i) = .error (.raised c) q ∧ t = q.faultEntry .execution c := by
  have hfaultless {q : State} (hq : q.status.fault = false) : q.status.fault ≠ true := by rw [hq]; decide
  cases hi : commandWord s.params i with
  | none =>
    rw [exec_token hi, runToken_runs hs] at h
    rw [State.started_token hi]
    cases hb : bodyOf i s with
    | ok a q =>
      rw [hb] at h
      cases h
      exact absurd ht (hfaultless ((congrArg Status.fault (bodyOf_control_ok hb).2).trans hs))
    | error e q =>
      rw [hb] at h
      cases e with
      | stuck f => cases h
      | raised c =>
        cases h
        exact .inr ⟨c, q, rfl, rfl⟩
  | some v =>
    by_cases hr : i = .blkReset
    · subst hr
      cases h
      cases ht
    rw [exec_command hi hr] at h
    rw [State.started_command hi]
    rcases runCommand_cases hs h with ⟨c, -, rfl⟩ | ⟨-, ⟨q, hb, rfl⟩ | ⟨c, q, hb, rfl⟩⟩
    · exact .inl ⟨v, c, rfl, rfl⟩
    · exact absurd ht (hfaultless ((congrArg Status.fault (bodyOf_control_ok hb).2).trans hs))
    · exact .inr ⟨c, q, hb, rfl⟩

/-- No instruction's rule writes ARG0 to ARG2, SLEN, SRC or the parameters (10_state.md R62, R65). -/
theorem host_outside_not_mem_writeGroups (i : Instr) : Group.host ∉ writeGroups i ∧ Group.outside ∉ writeGroups i := by
  cases i <;> simp [writeGroups]

/-- Pseudocode that raised a fault has kept the groups its rule does not write. -/
theorem raised_frame {s q : State} {i : Instr} {c : FaultCode} {g : Group}
    (hb : bodyOf i (s.started i) = .error (.raised c) q) (hg : g ∉ writeGroups i) (hc : g ≠ .control) : s.agree q g := by
  have hframe := writes_bodyOf i (s.started i) g fun hm => hg (List.mem_of_mem_erase hm)
  rw [hb] at hframe
  exact State.agree_trans (s.started_agree i hc) hframe

theorem exec_fault_records {s t : State} {i : Instr} (hs : s.healthy) (h : exec i s = .next t)
    (ht : t.status.fault = true) :
    t.status.done = false ∧ (∃ c : FaultCode, t.status.fcode = c.code) ∧ t.status.fcmd = t.cmd.setWidth 8 ∧
    t.cmd = (commandWord s.params i).getD s.cmd ∧ s.agree t .host ∧ s.agree t .outside ∧
    (Group.sourcePos ∉ writeGroups i → s.agree t .sourcePos) ∧ (Group.sink ∉ writeGroups i → s.agree t .sink) := by
  rcases exec_fault_cases hs h ht with ⟨v, c, hi, rfl⟩ | ⟨c, q, hb, rfl⟩
  · exact ⟨rfl, ⟨c, rfl⟩, rfl, by rw [hi]; rfl, s.agree_refl .host, s.agree_refl .outside,
      fun _ => s.agree_refl .sourcePos, fun _ => s.agree_refl .sink⟩
  · obtain ⟨-, hcmd, hhost, houtside, hsource, hsink⟩ := q.faultEntry_records c
    obtain ⟨hnohost, hnooutside⟩ := host_outside_not_mem_writeGroups i
    have hkept {g : Group} (hg : g ∉ writeGroups i) (hc : g ≠ .control) (h : q.agree (q.faultEntry .execution c) g) :
        s.agree (q.faultEntry .execution c) g := State.agree_trans (raised_frame hb hg hc) h
    refine ⟨rfl, ⟨c, rfl⟩, rfl, ?_, hkept hnohost (by decide) hhost, hkept hnooutside (by decide) houtside,
      fun hg => hkept hg (by decide) hsource, fun hg => hkept hg (by decide) hsink⟩
    rw [hcmd, (bodyOf_control_error hb).1, s.started_cmd]

/-! ## Instructions whose pseudocode raises a known fault -/

section
variable {s q : State} {v : Word} (i : Instr)

/-- A command that raises a fault reads it in STATUS, and keeps the source position and the sink as its lines left them. -/
theorem exec_raises_keeps {c : FaultCode} (hs : s.healthy) (hi : commandWord s.params i = some v) (hr : i ≠ .blkReset)
    (hc : checkOf s i = none) (hb : bodyOf i (s.begin v) = .error (.raised c) q) :
    ∃ t, exec i s = .next t ∧ t.readReg 6 = Status.word ⟨false, true, c.code, v.setWidth 8⟩ ∧
      q.agree t .sourcePos ∧ q.agree t .sink := by
  obtain ⟨hstatus, -, -, -, hsource, hsink⟩ := q.faultEntry_records c
  refine ⟨q.faultEntry .execution c, ?_, ?_, hsource, hsink⟩
  · rw [exec_command hi hr, hc]
    exact runCommand_raised hs hb
  · have hcmd : q.cmd = v := (bodyOf_control_error hb).1
    rw [← hcmd, ← hstatus]
    rfl

/-- A command denied its first access moves nothing. -/
theorem exec_denied (hs : s.healthy) (hi : commandWord s.params i = some v) (hr : i ≠ .blkReset)
    (hc : checkOf s i = none) (hb : (bodyOf i).Denied (s.begin v)) :
    ∃ t, exec i s = .next t ∧ t.readReg 6 = Status.word ⟨false, true, FaultCode.ioError.code, v.setWidth 8⟩ ∧
      s.agree t .sourcePos ∧ s.agree t .sink := by
  obtain ⟨u, io, hq⟩ := hb
  obtain ⟨t, ht, hstatus, hsource, hsink⟩ := exec_raises_keeps i hs hi hr hc hq
  exact ⟨t, ht, hstatus, hsource, hsink⟩

/-- A command denied its first access behind the STREAM_INIT actions leaves the streams at their start. -/
theorem exec_restarted_denied {f : Unit → Op Unit} (hs : s.healthy) (hi : commandWord s.params i = some v)
    (hr : i ≠ .blkReset) (hc : checkOf s i = none) (hbody : bodyOf i = streamInit >>= f)
    (hf : (f ()).Denied (s.begin v).streamInit) :
    ∃ t, exec i s = .next t ∧ t.readReg 6 = Status.word ⟨false, true, FaultCode.ioError.code, v.setWidth 8⟩ ∧
      t.ipos = 0 ∧ t.opos = 0 ∧ t.olen = 0 ∧ t.out = s.out := by
  obtain ⟨u, io, hq⟩ := hf
  obtain ⟨t, ht, hstatus, hsource, hopos, holen, hout⟩ :=
    exec_raises_keeps i hs hi hr hc ((congrFun hbody _).trans hq)
  exact ⟨t, ht, hstatus, hsource, hopos, holen, hout⟩

/-- A token denied its first access leaves the sink alone. -/
theorem exec_token_denied (hs : s.healthy) (hi : commandWord s.params i = none) (hb : (bodyOf i).Denied s) :
    ∃ t, exec i s = .next t ∧ t.status.fcode = 2 ∧ s.agree t .sink := by
  obtain ⟨u, io, hq⟩ := hb
  rw [exec_token hi]
  exact ⟨_, runToken_raised hs hq, rfl, rfl, rfl, rfl⟩

end

/-- A literal's first access is to the sink (44_lzss_coder.md R351). -/
theorem bodyOf_lzLiteral_denied {s : State} {b : Byte} (h : (sinkWrite b).Denied s) :
    (bodyOf (.lzLiteral b)).Denied s := by
  have houtput : (outputByte b).Denied s := h.bind _
  exact Op.Denied.bind (x := doToken (.literal b)) (houtput.bind _) _

/-- A code's first access is to the sink (42_huffman.md R242). -/
theorem bodyOf_hufCode_denied {s : State} {h : Shape} {path : List Bool} {b : Byte}
    (hh : s.u.holds s.u.rootH h = true) (hf : h.follow path = some b) (hsink : ∀ b, (sinkWrite b).Denied s) :
    (bodyOf (.hufCode path)).Denied s := by
  show (doCode path).Denied s
  unfold doCode
  refine .withUnits ?_
  rw [if_neg (Units.holds_ne_nilH hh)]
  exact .of_ok (u := s.u) (walkBits_ok _ h path b hh hf) (hsink _)

/-! ## False draws and full sinks (20_memory.md R84, R86) -/

section
variable {s : State} {rest : List Bool} (hs : s.healthy) (hio : s.io = false :: rest)
include hs hio

/-- The commands that restart the streams meet a false draw at their first access to the source. -/
theorem restarting_commands_denied :
    ∀ x ∈ [(Instr.hencEncode, (0x4022 : Word)), (.hdecDecode, 0x5022), (.lencEncode, 0x9022), (.ldecDecode, 0xA022)],
      ∃ t, exec x.1 s = .next t ∧ t.readReg 6 = x.2 ∧ t.ipos = 0 ∧ t.opos = 0 ∧ t.olen = 0 ∧ t.out = s.out := by
  intro x hx
  simp only [List.mem_cons, List.not_mem_nil, or_false] at hx
  rcases hx with rfl | rfl | rfl | rfl
  · refine exec_restarted_denied (v := 0x40) .hencEncode hs rfl (by simp) rfl rfl
      (.setUnits (.reading (.bind (countLoop_denied (rest := rest) ?_ _ _) _)))
    exact hio
  · exact exec_restarted_denied (v := 0x50) .hdecDecode hs rfl (by simp) rfl rfl
      ((parseTree_denied (s := (s.begin 0x50).streamInit) hio rfl).bind _)
  · have hroom : 1 ≤ s.params.maxLen := (minLen_pos s.params).trans_le (Nat.le_add_right _ _)
    refine exec_restarted_denied (v := 0x90) .lencEncode hs rfl (by simp) rfl rfl
      (.setUnits (.withParams (.bind (fillLoop_denied (rest := rest) ?_ hroom _) _)))
    exact hio
  · refine exec_restarted_denied (v := 0xA0) .ldecDecode hs rfl (by simp) rfl rfl
      (.setUnits (.reading (.bind (decodeTokens_denied (rest := rest) ?_ rfl _ _) _)))
    exact hio

/-- The commands that go on in the stream meet it at the byte they pull. -/
theorem continuing_commands_denied (hr : s.u.rcnt = 0) (hend : s.u.ldend = false) :
    ∀ x ∈ [(Instr.hdecParseTree, (0x5122 : Word)), (.hdecParseCount, 0x5222), (.ldecDecodeToken, 0xA122)],
      ∃ t, exec x.1 s = .next t ∧ t.readReg 6 = x.2 ∧ s.agree t .sourcePos ∧ s.agree t .sink := by
  intro x hx
  simp only [List.mem_cons, List.not_mem_nil, or_false] at hx
  rcases hx with rfl | rfl | rfl
  · exact exec_denied (v := 0x51) .hdecParseTree hs rfl (by simp) rfl
      ((parseTree_denied (s := s.begin 0x51) hio hr).bind _)
  · exact exec_denied (v := 0x52) .hdecParseCount hs rfl (by simp) rfl
      ((parseCount_denied (s := s.begin 0x52) hio hr).bind _)
  · have hcheck : checkOf s .ldecDecodeToken = none := checkFault_none.mpr ⟨rfl, by rw [hend]; rfl⟩
    exact exec_denied (v := 0xA1) .ldecDecodeToken hs rfl (by simp) hcheck
      ((decodeLzToken_denied (s := s.begin 0xA1) hio hr).bind _)

theorem bsrReadBits_denied {c r : Word} (h1 : 1 ≤ c.toNat) (hc : c.toNat ≤ 32) (hr : r.toNat ≤ 1) (h0 : s.u.rcnt = 0) :
    ∃ t, exec (.bsrReadBits c r) s = .next t ∧ t.readReg 6 = 0x2022 ∧ s.agree t .sourcePos := by
  obtain ⟨t, ht, hstatus, hsource, -⟩ := exec_denied (v := 0x20) (.bsrReadBits c r) hs rfl (by simp)
    (checkFault_count_flag hc hr) ((readBits_denied (s := s.begin 0x20) hio h0 h1 _).bind _)
  exact ⟨t, ht, hstatus, hsource⟩

theorem bswWriteBits_denied (v : Word) {c f : Word} (hw : s.u.writerOk) (hc : c.toNat ≤ 32) (hf : f.toNat ≤ 1)
    (h : 1 ≤ s.u.bytesFor c.toNat ∨ (f = 1 ∧ s.u.bytesFor c.toNat = 0 ∧ 1 ≤ 8 - s.u.wfree.toNat + c.toNat)) :
    ∃ t, exec (.bswWriteBits v c f) s = .next t ∧ t.readReg 6 = 0x1022 ∧ s.agree t .sink := by
  obtain ⟨t, ht, hstatus, -, hsink⟩ := exec_denied (v := 0x10) (.bswWriteBits v c f) hs rfl (by simp)
    (checkFault_count_flag hc hf) (writeBits_denied (s := s.begin 0x10) v.toNat (f == 1) hw
      (fun u b => sinkWrite_denied (s := { s.begin 0x10 with u := u }) hio b) (h.imp_right (And.imp_left beq_iff_eq.mpr)))
  exact ⟨t, ht, hstatus, hsink⟩

end

theorem State.begin_putBytes (v : Word) (s : State) (bs : List Byte) :
    (s.begin v).putBytes bs = (s.putBytes bs).begin v := by
  induction bs generalizing s with
  | nil => rfl
  | cons b bs ih => exact ih (s.putByte b)

/-- WRITE_BITS past the end of the sink fills it to its end (20_memory.md R84). -/
theorem bswWriteBits_overflows {s : State} (v : Word) {c f : Word} (hs : s.healthy) (hio : s.ioFine)
    (hsize : s.params.outSize < 2 ^ 64) (hpos : s.opos.toNat ≤ s.params.outSize) (hw : s.u.writerOk)
    (hc : c.toNat ≤ 32) (hf : f.toNat ≤ 1) (hover : s.params.outSize < s.opos.toNat + s.u.bytesFor c.toNat) :
    ∃ t, exec (.bswWriteBits v c f) s = .next t ∧ t.readReg 6 = 0x1022 ∧ t.opos.toNat = s.params.outSize ∧
      t.out = (s.putBytes (packBytes (s.params.outSize - s.opos.toNat)
        (s.u.pendingBits ++ wordBits c.toNat v.toNat))).out := by
  obtain ⟨q, hq, hfilled⟩ := writeLoop_overflows (v := v.toNat % 2 ^ c.toNat) (s := s.begin 0x10)
    (Nat.lt_succ_self c.toNat) hio hw hsize hpos hover
  rw [wordBits_mod _ _ _ (Nat.le_refl _), State.begin_putBytes] at hfilled
  obtain ⟨t, ht, hstatus, -, hsink⟩ := exec_raises_keeps (v := 0x10) (.bswWriteBits v c f) hs rfl (by simp)
    (checkFault_count_flag hc hf) (Op.bind_error hq)
  obtain ⟨hopos, -, hout⟩ := State.agree_trans hfilled hsink
  have hfit : s.opos.toNat + (packBytes (s.params.outSize - s.opos.toNat)
      (s.u.pendingBits ++ wordBits c.toNat v.toNat)).length = s.params.outSize := by
    rw [length_packBytes, Nat.add_sub_cancel' hpos]
  refine ⟨t, ht, hstatus, ?_, hout⟩
  rw [hopos]
  exact (State.putBytes_opos_toNat ⟨hsize, hfit.le⟩).trans hfit

/-- Settles O15: fault entry records the raised fault on the state the lines before it left; the commands and tokens
named are denied their first access, or run WriteBits until the sink is full. -/
theorem faultEntryRecordsTheCause : Obligations.FaultEntryRecordsTheCause := by
  refine ⟨rfl, fun s v body c hs => ⟨?check, fun q hb => ?command, fun q hb => ?token⟩,
    fun s t i => exec_fault_records, fun s rest hs hio => ⟨restarting_commands_denied hs hio,
      continuing_commands_denied hs hio, fun c r => bsrReadBits_denied hs hio,
      fun v c f => bswWriteBits_denied hs hio v, fun b => ?literal⟩,
    fun s hs hio hsize hpos => ⟨fun v c f => bswWriteBits_overflows v hs hio hsize hpos, fun hfull => ?full⟩⟩
  case check => exact ⟨_, runCommand_check hs, rfl, rfl⟩
  case command => exact ⟨_, runCommand_raised hs hb, q.faultEntry_records c⟩
  case token => exact ⟨_, runToken_raised hs hb, q.faultEntry_records c⟩
  case literal => exact exec_token_denied _ hs rfl (bodyOf_lzLiteral_denied (sinkWrite_denied hio b))
  case full =>
    have hsink := sinkWrite_denied_of_full hio hfull.ge
    exact ⟨fun b => exec_token_denied _ hs rfl (bodyOf_lzLiteral_denied (hsink b)),
      fun h path b hh hf => exec_token_denied _ hs rfl (bodyOf_hufCode_denied hh hf hsink)⟩

end Sys2Proof.Machine
end

section
/-! SUPPORT. Writes to CMD while a fault is pending (70_reset_and_hazards.md R427). -/

namespace Sys2Proof.Machine

/-- A word of R123 raises no second fault. -/
theorem illegalCommand_ignored {s : State} (h : s.status.fault = true) (v : Word) :
    illegalCommand v s = .next { s with cmd := v } := if_pos h

/-- Every command but BLK.RESET is ignored. -/
theorem exec_ignored {s : State} {i : Instr} {v : Word} (h : s.status.fault = true)
    (hi : commandWord s.params i = some v) (hr : i ≠ .blkReset) : exec i s = .next { s with cmd := v } := by
  rw [exec_command hi hr, runCommand_ignored h]

/-- A word other than 0x01 decodes to no BLK.RESET. -/
theorem ne_blkReset_of_commandWord {P : Config.Params} {i : Instr} {v : Word} (hi : commandWord P i = some v)
    (hv : v ≠ 1) : i ≠ .blkReset := by
  rintro rfl
  cases hi
  exact hv rfl

/-- Any word but BLK.RESET's only updates CMD, whether it decodes or not. -/
theorem onCmdWrite_ignored {s : State} {v : Word} (h : s.status.fault = true) (hv : v ≠ 1) :
    onCmdWrite v s = .next { s with cmd := v } := by
  cases hd : decodeCommand ⟨v, s.arg0, s.arg1, s.arg2⟩ with
  | ok i =>
    have hi := commandWord_of_decode s.params hd
    rw [onCmdWrite_decoded hd]
    exact exec_ignored h hi (ne_blkReset_of_commandWord hi hv)
  | error e =>
    unfold onCmdWrite
    rw [hd]
    exact illegalCommand_ignored h v

/-- Settles O12: the move is carried out on the state without it, where the same fault is pending. -/
theorem faultedBlockIgnoresCommands : Obligations.FaultedBlockIgnoresCommands := by
  intro s v rest hf hv hm
  rw [step_writeCmd hm]
  exact onCmdWrite_ignored (s := { s with moves := rest }) hf hv

end Sys2Proof.Machine
end
